-- ==== Sys2Proof/Word.lean ====
section
/-! DEFINITION. Word types of the machine (R1: words are little-endian; a byte is 8 bits, an instruction word 32 bits, a
scalar register 64 bits). -/

namespace Sys2Proof

/-- A byte. -/
abbrev Byte := BitVec 8

/-- An instruction word, or one lane of a vector register. -/
abbrev Word := BitVec 32

/-- A 64-bit word: a scalar register, a program counter, a control register. -/
abbrev Quad := BitVec 64

/-- The 16 lanes of a group as a mask; bit l is lane l. -/
abbrev Mask := BitVec 16

end Sys2Proof
end

