-- ==== Sys2Proof/Syntax.lean ====
section
/-! DEFINITION. Syntax: one constructor per row of the table of operations and events (spec/opcode_table.json).
The first 212 are instruction words, with the fields of their encoding (chapter 17; `fin` is the S bit of R274, `la`,
`lb` and `lu` the last-use bits of R276).  The other 121 are events (spec/95): their arguments hold what the outside of
the machine supplies (a register value, the contents of a flit, a sensor sample) and which unit the event is about. -/

namespace Sys2Proof

/-- An access that misses (R163): its virtual address, and its kind: 0 a read, 1 a write, 2 a fetch. -/
structure Miss where
  /-- Virtual address. -/
  va : Quad
  /-- Kind of the access. -/
  acc : Nat
  deriving DecidableEq, Repr

/-- A TIME flit as it arrives (R16, R19): its 272 bytes, and the measured delay of the link. -/
structure TimedFlit where
  /-- The flit. -/
  bytes : List Byte
  /-- The measured link delay, in ticks. -/
  delay : Nat
  deriving DecidableEq, Repr

/-- The instructions and events of the TZS-2400 (R274 to R294 and the event rows). -/
inductive Instr where
  /-- ADD (R315): Per-lane 32-bit wrapping add. -/
  | add (fin la lb : Bool) (d a b : BitVec 7)
  /-- SUB (R315): Per-lane 32-bit wrapping subtract. -/
  | sub (fin la lb : Bool) (d a b : BitVec 7)
  /-- AND (R315): Per-lane bitwise AND. -/
  | and (fin la lb : Bool) (d a b : BitVec 7)
  /-- OR (R315): Per-lane bitwise OR. -/
  | or (fin la lb : Bool) (d a b : BitVec 7)
  /-- XOR (R315): Per-lane bitwise XOR. -/
  | xor (fin la lb : Bool) (d a b : BitVec 7)
  /-- SHL (R315): Per-lane left shift by bits [4:0] of b. -/
  | shl (fin la lb : Bool) (d a b : BitVec 7)
  /-- SHR (R315): Per-lane logical right shift. -/
  | shr (fin la lb : Bool) (d a b : BitVec 7)
  /-- SRA (R315): Per-lane arithmetic right shift. -/
  | sra (fin la lb : Bool) (d a b : BitVec 7)
  /-- MUL (R315): Per-lane low 32 bits of the product. -/
  | mul (fin la lb : Bool) (d a b : BitVec 7)
  /-- MULH_S (R315): Per-lane high half of the signed product. -/
  | mulhS (fin la lb : Bool) (d a b : BitVec 7)
  /-- MULH_N (R315): Per-lane high half of the unsigned product. -/
  | mulhN (fin la lb : Bool) (d a b : BitVec 7)
  /-- MIN_S (R315): Per-lane signed minimum. -/
  | minS (fin la lb : Bool) (d a b : BitVec 7)
  /-- MAX_S (R315): Per-lane signed maximum. -/
  | maxS (fin la lb : Bool) (d a b : BitVec 7)
  /-- MIN_N (R315): Per-lane unsigned minimum. -/
  | minN (fin la lb : Bool) (d a b : BitVec 7)
  /-- MAX_N (R315): Per-lane unsigned maximum. -/
  | maxN (fin la lb : Bool) (d a b : BitVec 7)
  /-- ABSD_S (R315): Per-lane absolute signed difference. -/
  | absdS (fin la lb : Bool) (d a b : BitVec 7)
  /-- ADDI (R316): Per-lane add of an immediate. -/
  | addi (fin la : Bool) (i : BitVec 8) (d a : BitVec 7)
  /-- ANDI (R316): Per-lane AND with an immediate. -/
  | andi (fin la : Bool) (i : BitVec 8) (d a : BitVec 7)
  /-- ORI (R316): Per-lane OR with an immediate. -/
  | ori (fin la : Bool) (i : BitVec 8) (d a : BitVec 7)
  /-- XORI (R316): Per-lane XOR with an immediate. -/
  | xori (fin la : Bool) (i : BitVec 8) (d a : BitVec 7)
  /-- SHLI (R316): Per-lane left shift by an immediate of 0 to 31. -/
  | shli (fin la : Bool) (d a : BitVec 7) (i : BitVec 5)
  /-- SHRI (R316): Per-lane logical right shift by an immediate. -/
  | shri (fin la : Bool) (d a : BitVec 7) (i : BitVec 5)
  /-- SRAI (R316): Per-lane arithmetic right shift by an immediate. -/
  | srai (fin la : Bool) (d a : BitVec 7) (i : BitVec 5)
  /-- MOVI (R316): Per-lane move of an immediate. -/
  | movi (fin : Bool) (i : BitVec 8) (d : BitVec 7)
  /-- FADD (R317): Per-lane FP32 add, rounded once. -/
  | fadd (fin la lb : Bool) (d a b : BitVec 7)
  /-- FSUB (R317): Per-lane FP32 subtract. -/
  | fsub (fin la lb : Bool) (d a b : BitVec 7)
  /-- FMUL (R317): Per-lane FP32 multiply. -/
  | fmul (fin la lb : Bool) (d a b : BitVec 7)
  /-- FFMA (R317): Per-lane FP32 fused multiply-add into vD, with one rounding. -/
  | ffma (fin la lb : Bool) (d a b : BitVec 7)
  /-- FMIN (R318): Per-lane FP32 minimum with −0 below +0 and NaN handling. -/
  | fmin (fin la lb : Bool) (d a b : BitVec 7)
  /-- FMAX (R318): Per-lane FP32 maximum. -/
  | fmax (fin la lb : Bool) (d a b : BitVec 7)
  /-- FSGN (R318): Per-lane copy of b's sign onto a's magnitude bits. -/
  | fsgn (fin la lb : Bool) (d a b : BitVec 7)
  /-- FRND (R318): Per-lane rounding to an integral FP32 value under a mode. -/
  | frnd (fin la : Bool) (d a : BitVec 7) (rm : BitVec 2)
  /-- HADD (R319): Packed 16-bit add per half. -/
  | hadd (fin la ty : Bool) (d a b : BitVec 7)
  /-- HSUB (R319): Packed 16-bit subtract. -/
  | hsub (fin la ty : Bool) (d a b : BitVec 7)
  /-- HMUL (R319): Packed 16-bit multiply. -/
  | hmul (fin la ty : Bool) (d a b : BitVec 7)
  /-- HFMA (R319): Packed 16-bit fused multiply-add. -/
  | hfma (fin la ty : Bool) (d a b : BitVec 7)
  /-- HMIN (R319): Packed 16-bit minimum. -/
  | hmin (fin la ty : Bool) (d a b : BitVec 7)
  /-- HMAX (R319): Packed 16-bit maximum. -/
  | hmax (fin la ty : Bool) (d a b : BitVec 7)
  /-- ICMP (R320): Per-lane signed or unsigned integer compare into a predicate. -/
  | icmp (fin : Bool) (p cond : BitVec 3) (x la lb : Bool) (a b : BitVec 7)
  /-- FCMP (R320): Per-lane FP32 compare, ordered or unordered, into a predicate. -/
  | fcmp (fin : Bool) (p cond : BitVec 3) (x la lb : Bool) (a b : BitVec 7)
  /-- PAND (R321): Per-lane predicate AND. -/
  | pand (fin : Bool) (d a b : BitVec 3)
  /-- POR (R321): Per-lane predicate OR. -/
  | por (fin : Bool) (d a b : BitVec 3)
  /-- PXOR (R321): Per-lane predicate XOR. -/
  | pxor (fin : Bool) (d a b : BitVec 3)
  /-- PNOT (R321): Per-lane predicate NOT. -/
  | pnot (fin : Bool) (d a : BitVec 3)
  /-- CVT (R322): Per-lane conversion between integer and floating types under the rounding mode in FUNC. -/
  | cvt (fin : Bool) (rm : BitVec 2) (la : Bool) (td ta : BitVec 4) (d a : BitVec 7)
  /-- CVTN (R323): Per-lane encoding of FP32 into a narrow format register's format. -/
  | cvtn (fin la : Bool) (fmt : BitVec 4) (rm : BitVec 2) (d a : BitVec 7)
  /-- CVTW (R324): Per-lane decoding of a narrow code to FP32. -/
  | cvtw (fin la : Bool) (fmt : BitVec 4) (d a : BitVec 7)
  /-- RCP (R325): Per-lane correctly rounded reciprocal, long-latency. -/
  | rcp (fin la : Bool) (d a : BitVec 7)
  /-- RSQ (R325): Per-lane reciprocal square root. -/
  | rsq (fin la : Bool) (d a : BitVec 7)
  /-- SQRT (R325): Per-lane correctly rounded square root. -/
  | sqrt (fin la : Bool) (d a : BitVec 7)
  /-- EXP2 (R325): Per-lane power of two. -/
  | exp2 (fin la : Bool) (d a : BitVec 7)
  /-- LOG2 (R325): Per-lane base-2 logarithm. -/
  | log2 (fin la : Bool) (d a : BitVec 7)
  /-- SIN (R325): Per-lane sine. -/
  | sin (fin la : Bool) (d a : BitVec 7)
  /-- COS (R325): Per-lane cosine. -/
  | cos (fin la : Bool) (d a : BitVec 7)
  /-- TANH (R325): Per-lane hyperbolic tangent. -/
  | tanh (fin la : Bool) (d a : BitVec 7)
  /-- DIV_S (R327): Per-lane signed division, never faulting. -/
  | divS (fin la lb : Bool) (d a b : BitVec 7)
  /-- DIV_N (R327): Per-lane unsigned division. -/
  | divN (fin la lb : Bool) (d a b : BitVec 7)
  /-- REM_S (R327): Per-lane signed remainder. -/
  | remS (fin la lb : Bool) (d a b : BitVec 7)
  /-- REM_N (R327): Per-lane unsigned remainder. -/
  | remN (fin la lb : Bool) (d a b : BitVec 7)
  /-- SHFL_IDX (R329): Shuffle from an indexed lane of the sub-group. -/
  | shflIdx (fin p : Bool) (g : BitVec 3) (d a : BitVec 7) (la : Bool)
  /-- SHFL_UP (R329): Shuffle from a lower lane. -/
  | shflUp (fin p : Bool) (g : BitVec 3) (d a : BitVec 7) (la : Bool)
  /-- SHFL_DN (R329): Shuffle from a higher lane. -/
  | shflDn (fin p : Bool) (g : BitVec 3) (d a : BitVec 7) (la : Bool)
  /-- SHFL_XOR (R329): Shuffle from the XOR-indexed lane. -/
  | shflXor (fin p : Bool) (g : BitVec 3) (d a : BitVec 7) (la : Bool)
  /-- BCAST (R329): Broadcast one source lane per sub-group. -/
  | bcast (fin p : Bool) (g : BitVec 3) (d a : BitVec 7) (la : Bool)
  /-- VMASK (R330): Gather a predicate into a scalar mask. -/
  | vmask (fin p : Bool) (g : BitVec 3) (d : BitVec 6) (a : BitVec 3)
  /-- VANY (R330): OR of a predicate across the sub-group. -/
  | vany (fin p : Bool) (g d a : BitVec 3)
  /-- VALL (R330): AND of a predicate across the sub-group. -/
  | vall (fin p : Bool) (g d a : BitVec 3)
  /-- SCAN_ADD (R331): Inclusive prefix sum in ascending lane order, long-latency. -/
  | scanAdd (fin p : Bool) (g : BitVec 3) (d a : BitVec 7) (la : Bool) (t : BitVec 3)
  /-- RED_ADD (R331): Sum over the sub-group in ascending lane order. -/
  | redAdd (fin p : Bool) (g : BitVec 3) (d a : BitVec 7) (la : Bool) (t : BitVec 3)
  /-- RED_MAX (R331): Maximum over the sub-group. -/
  | redMax (fin p : Bool) (g : BitVec 3) (d a : BitVec 7) (la : Bool) (t : BitVec 3)
  /-- PART (R332): Write the sub-group width of a group register. -/
  | part (fin : Bool) (g w : BitVec 3)
  /-- SEL (R305): Per-lane select of vA or vB by a predicate. -/
  | sel (fin : Bool) (d a b : BitVec 7) (p : BitVec 3) (la : Bool)
  /-- MOV_V (R305): Per-lane vector move. -/
  | movV (fin : Bool) (x y : BitVec 7) (la : Bool)
  /-- MOV_S (R306): Group-uniform scalar move. -/
  | movS (fin : Bool) (x y : BitVec 6)
  /-- MOV_Q (R308): Pop the oldest record of a queue register into a scalar, waiting while it is empty, as an acquire. -/
  | movQ (fin : Bool) (x : BitVec 6) (y : BitVec 3)
  /-- PMOV (R305): Per-lane predicate move. -/
  | pmov (fin : Bool) (x y : BitVec 3)
  /-- VTOS (R306): Read one lane of a vector register into a scalar. -/
  | vtos (fin : Bool) (x : BitVec 6) (y : BitVec 7) (la : Bool) (lane : BitVec 4)
  /-- STOV (R305): Copy the low half of a scalar into each lane. -/
  | stov (fin : Bool) (x : BitVec 7) (y : BitVec 6)
  /-- CLZ (R305): Per-lane count of leading zeros. -/
  | clz (fin : Bool) (x y : BitVec 7) (la : Bool)
  /-- POPC (R305): Per-lane population count. -/
  | popc (fin : Bool) (x y : BitVec 7) (la : Bool)
  /-- BREV (R305): Per-lane bit reversal. -/
  | brev (fin : Bool) (x y : BitVec 7) (la : Bool)
  /-- LID (R305): Write the lane number. -/
  | lid (fin : Bool) (x : BitVec 7)
  /-- SADD (R303): Scalar 64-bit add. -/
  | sadd (fin : Bool) (d a b : BitVec 6)
  /-- SSUB (R303): Scalar subtract. -/
  | ssub (fin : Bool) (d a b : BitVec 6)
  /-- SAND (R303): Scalar AND. -/
  | sand (fin : Bool) (d a b : BitVec 6)
  /-- SOR (R303): Scalar OR. -/
  | sor (fin : Bool) (d a b : BitVec 6)
  /-- SXOR (R303): Scalar XOR. -/
  | sxor (fin : Bool) (d a b : BitVec 6)
  /-- SSHL (R303): Scalar left shift. -/
  | sshl (fin : Bool) (d a b : BitVec 6)
  /-- SSHR (R303): Scalar logical right shift. -/
  | sshr (fin : Bool) (d a b : BitVec 6)
  /-- SMUL (R303): Scalar low 64-bit product. -/
  | smul (fin : Bool) (d a b : BitVec 6)
  /-- SADDI (R304): Scalar add of an immediate. -/
  | saddi (fin : Bool) (d a : BitVec 6) (i : BitVec 11)
  /-- SANDI (R304): Scalar AND with an immediate. -/
  | sandi (fin : Bool) (d a : BitVec 6) (i : BitVec 11)
  /-- SORI (R304): Scalar OR with an immediate. -/
  | sori (fin : Bool) (d a : BitVec 6) (i : BitVec 11)
  /-- SSHLI (R304): Scalar left shift by an immediate. -/
  | sshli (fin : Bool) (d a i : BitVec 6)
  /-- SSHRI (R304): Scalar logical right shift by an immediate. -/
  | sshri (fin : Bool) (d a i : BitVec 6)
  /-- SMOVI (R304): Scalar move of an immediate. -/
  | smovi (fin : Bool) (d : BitVec 6) (i : BitVec 11)
  /-- SXORI (R304): Scalar XOR with an immediate. -/
  | sxori (fin : Bool) (d a : BitVec 6) (i : BitVec 11)
  /-- BR (R298): Unconditional direct branch. -/
  | br (fin : Bool) (off : BitVec 20)
  /-- BRP (R298): Per-lane branch when the predicate is 1. -/
  | brp (fin : Bool) (p : BitVec 3) (off : BitVec 20)
  /-- BRNP (R298): Per-lane branch when the predicate is 0. -/
  | brnp (fin : Bool) (p : BitVec 3) (off : BitVec 20)
  /-- SBEQ (R298): Scalar branch if equal. -/
  | sbeq (fin : Bool) (a b : BitVec 6) (off : BitVec 11)
  /-- SBNE (R298): Scalar branch if not equal. -/
  | sbne (fin : Bool) (a b : BitVec 6) (off : BitVec 11)
  /-- SBLT (R298): Scalar signed branch if less. -/
  | sblt (fin : Bool) (a b : BitVec 6) (off : BitVec 11)
  /-- SBGE (R298): Scalar signed branch if greater or equal. -/
  | sbge (fin : Bool) (a b : BitVec 6) (off : BitVec 11)
  /-- JR (R300): Per-lane indirect jump. -/
  | jr (fin : Bool) (a : BitVec 7) (la : Bool)
  /-- CALL (R300): Direct call writing the link to v0. -/
  | call (fin : Bool) (off : BitVec 20)
  /-- CALLR (R300): Per-lane indirect call writing the link to v0. -/
  | callr (fin : Bool) (a : BitVec 7) (la : Bool)
  /-- RET (R300): Per-lane return to a target. -/
  | ret (fin : Bool) (a : BitVec 7) (la : Bool)
  /-- JOIN (R116): Lanes enter the joined state at the word, pending the join's completion. -/
  | join (fin : Bool)
  /-- EXIT (R302): Lanes exit, and the group's exit is performed once its commands complete. -/
  | exit (fin : Bool)
  /-- LD_B (R337): Per-lane zero-extended byte load. -/
  | ldB (fin : Bool) (data off : BitVec 7) (lu : Bool) (base : BitVec 5)
  /-- LD_BS (R337): Per-lane sign-extended byte load. -/
  | ldBs (fin : Bool) (data off : BitVec 7) (lu : Bool) (base : BitVec 5)
  /-- LD_H (R337): Per-lane zero-extended half load. -/
  | ldH (fin : Bool) (data off : BitVec 7) (lu : Bool) (base : BitVec 5)
  /-- LD_HS (R337): Per-lane sign-extended half load. -/
  | ldHs (fin : Bool) (data off : BitVec 7) (lu : Bool) (base : BitVec 5)
  /-- LD_W (R337): Per-lane word load, under bound and ordering. -/
  | ldW (fin : Bool) (data off : BitVec 7) (lu : Bool) (base : BitVec 5)
  /-- LD_D (R337): Per-lane 8-byte load into a register pair. -/
  | ldD (fin : Bool) (data off : BitVec 7) (lu : Bool) (base : BitVec 5)
  /-- LD_Q (R337): Per-lane 16-byte load into a register quad. -/
  | ldQ (fin : Bool) (data off : BitVec 7) (lu : Bool) (base : BitVec 5)
  /-- ST_B (R340): Per-lane byte store. -/
  | stB (fin : Bool) (data off : BitVec 7) (lu : Bool) (base : BitVec 5)
  /-- ST_H (R340): Per-lane half store. -/
  | stH (fin : Bool) (data off : BitVec 7) (lu : Bool) (base : BitVec 5)
  /-- ST_W (R340): Per-lane word store. -/
  | stW (fin : Bool) (data off : BitVec 7) (lu : Bool) (base : BitVec 5)
  /-- ST_D (R340): Per-lane 8-byte store. -/
  | stD (fin : Bool) (data off : BitVec 7) (lu : Bool) (base : BitVec 5)
  /-- ST_Q (R340): Per-lane 16-byte store. -/
  | stQ (fin : Bool) (data off : BitVec 7) (lu : Bool) (base : BitVec 5)
  /-- ATOM_ADD (R342): Atomic integer add, buffered when non-returning. -/
  | atomAdd (fin : Bool) (data off : BitVec 7) (lu : Bool) (base : BitVec 5) (ret uns : Bool)
  /-- ATOM_FADD (R342): Atomic FP32 add. -/
  | atomFadd (fin : Bool) (data off : BitVec 7) (lu : Bool) (base : BitVec 5) (ret : Bool)
  /-- ATOM_MIN (R342): Atomic minimum. -/
  | atomMin (fin : Bool) (data off : BitVec 7) (lu : Bool) (base : BitVec 5) (ret uns : Bool)
  /-- ATOM_MAX (R342): Atomic maximum. -/
  | atomMax (fin : Bool) (data off : BitVec 7) (lu : Bool) (base : BitVec 5) (ret uns : Bool)
  /-- ATOM_AND (R342): Atomic AND. -/
  | atomAnd (fin : Bool) (data off : BitVec 7) (lu : Bool) (base : BitVec 5) (ret uns : Bool)
  /-- ATOM_OR (R342): Atomic OR. -/
  | atomOr (fin : Bool) (data off : BitVec 7) (lu : Bool) (base : BitVec 5) (ret uns : Bool)
  /-- ATOM_XOR (R342): Atomic XOR. -/
  | atomXor (fin : Bool) (data off : BitVec 7) (lu : Bool) (base : BitVec 5) (ret uns : Bool)
  /-- ATOM_XCHG (R342): Atomic exchange, never buffered. -/
  | atomXchg (fin : Bool) (data off : BitVec 7) (lu : Bool) (base : BitVec 5) (ret uns : Bool)
  /-- ATOM_CAS (R342): Atomic compare-and-swap returning the old value. -/
  | atomCas (fin : Bool) (data off : BitVec 7) (lu : Bool) (base : BitVec 5) (uns : Bool)
  /-- FENCE (R343): Scoped fence, release and acquire, executed speculatively, with an optional status register. -/
  | fence (fin : Bool) (scope : BitVec 3) (d : BitVec 6)
  /-- WAITC (R344): Wait until at most n commands of a class remain, then acquire. -/
  | waitc (fin : Bool) (cls : BitVec 3) (n : BitVec 8)
  /-- BAR (R346): Arrive at a barrier and wait for the phase to complete, then acquire. -/
  | bar (fin : Bool) (id : BitVec 4)
  /-- ARRIVE (R346): Release and count arrival at a barrier without waiting. -/
  | arrive (fin : Bool) (id : BitVec 4)
  /-- TRIG (R98): Early trigger of the group, releasing its earlier writes at package scope. -/
  | trig (fin : Bool)
  /-- LDS (R349): Per-lane 4-byte scratchpad load through a buffer handle. -/
  | lds (fin : Bool) (data off : BitVec 7) (lu : Bool) (base : BitVec 5)
  /-- STS (R349): Per-lane 4-byte scratchpad store through a buffer handle. -/
  | sts (fin : Bool) (data off : BitVec 7) (lu : Bool) (base : BitVec 5)
  /-- SP_ALLOC (R350): Allocate a scratchpad buffer and return its handle. -/
  | spAlloc (fin : Bool) (x y : BitVec 6)
  /-- SP_FREE (R350): Free a held buffer after its commands complete. -/
  | spFree (fin : Bool) (x : BitVec 6)
  /-- BHELD (R350): Test whether the team holds a buffer, acquiring when it does. -/
  | bheld (fin : Bool) (x y : BitVec 6)
  /-- BHAND (R144): Hand a buffer to another rank of the cluster. -/
  | bhand (fin : Bool) (x : BitVec 6) (rank : BitVec 4)
  /-- SYW_INIT (R351): Initialise a sync word's TARGET, COUNT and GEN. -/
  | sywInit (fin : Bool) (h a : BitVec 6) (i : BitVec 11)
  /-- SYW_WAIT (R352): Wait on a sync word's GEN passing g, then acquire. -/
  | sywWait (fin : Bool) (d h a : BitVec 6)
  /-- LOCK (R353): Pin lines at their home slices, all or nothing. -/
  | lock (fin : Bool) (d a b : BitVec 6)
  /-- UNLOCK (R353): Release locked lines. -/
  | unlock (fin : Bool) (a b : BitVec 6)
  /-- SPCVT (R139): Convert cache ways to scratchpad ways. -/
  | spcvt (fin : Bool) (d : BitVec 6) (n : BitVec 4)
  /-- L1CVT (R139): Return scratchpad ways to the cache. -/
  | l1cvt (fin : Bool) (d : BitVec 6) (n : BitVec 4)
  /-- RBUMP (R251): Release and increment a round counter. -/
  | rbump (fin : Bool) (d a : BitVec 6)
  /-- RGET (R252): Read the core's round-table value of a counter. -/
  | rget (fin : Bool) (d a : BitVec 6)
  /-- RACQ (R252): Read a counter at its memory processor as an acquire. -/
  | racq (fin : Bool) (d a : BitVec 6)
  /-- SHAPE (R359): Request a matrix shape grant. -/
  | shape (fin : Bool) (d a : BitVec 6)
  /-- FMTSET (R360): Write a tensor format register. -/
  | fmtset (fin : Bool) (fmt : BitVec 4) (a : BitVec 6)
  /-- MMA (R362): Issue one unscaled matrix step on a tile. -/
  | mma (fin : Bool) (p : BitVec 6) (out : BitVec 8)
  /-- MMAS (R362): Issue one scaled matrix step. -/
  | mmas (fin : Bool) (p : BitVec 6) (out : BitVec 8)
  /-- ACCZ (R363): Zero an accumulator tile. -/
  | accz (fin : Bool) (p : BitVec 6) (out : BitVec 8)
  /-- ACCLD (R363): Load a tile from a buffer image. -/
  | accld (fin : Bool) (p : BitVec 6) (out : BitVec 8)
  /-- ACCST (R363): Store a tile to a buffer image. -/
  | accst (fin : Bool) (p : BitVec 6) (out : BitVec 8)
  /-- DRAIN (R364): Drain a tile to a tensor box, optionally zeroing it. -/
  | drain (fin : Bool) (p : BitVec 6) (z : Bool) (out : BitVec 8)
  /-- COPY_IN (R366): Copy a tensor box from global memory into a buffer. -/
  | copyIn (fin : Bool) (p : BitVec 6) (out : BitVec 8)
  /-- COPY_OUT (R366): Copy a buffer box out to global memory. -/
  | copyOut (fin : Bool) (p : BitVec 6) (out : BitVec 8)
  /-- COPY_PF (R366): Prefetch a box's grain blocks into L2. -/
  | copyPf (fin : Bool) (p : BitVec 6) (out : BitVec 8)
  /-- TSR_SET (R365): Load a tensor shape record into a slot. -/
  | tsrSet (fin : Bool) (slot : BitVec 4) (a : BitVec 6)
  /-- ATTN (R368): Issue one attention block of 32 queries over 64 keys. -/
  | attn (fin : Bool) (p : BitVec 6) (init : Bool) (out : BitVec 8)
  /-- ATTN_FIN (R369): Finalise attention rows and push statistics. -/
  | attnFin (fin : Bool) (p : BitVec 6) (out : BitVec 8)
  /-- HDL_MK (R370): Create a KV handle. -/
  | hdlMk (fin : Bool) (d p : BitVec 6)
  /-- HDL_EXT (R370): Extend a handle's length, popping pages. -/
  | hdlExt (fin : Bool) (d p : BitVec 6)
  /-- HDL_TRUNC (R370): Truncate a handle's length, dropping pages. -/
  | hdlTrunc (fin : Bool) (d p : BitVec 6)
  /-- HDL_REF (R370): Create a new handle sharing a list. -/
  | hdlRef (fin : Bool) (d p : BitVec 6)
  /-- HDL_REL (R370): Release a handle. -/
  | hdlRel (fin : Bool) (d p : BitVec 6)
  /-- PFX_FIND (R371): Look up a prefix key. -/
  | pfxFind (fin : Bool) (d p : BitVec 6)
  /-- PFX_INS (R371): Insert a prefix key with a handle. -/
  | pfxIns (fin : Bool) (d p : BitVec 6)
  /-- SWEEP_REG (R374): Register a region function from a descriptor. -/
  | sweepReg (fin : Bool) (d a : BitVec 6)
  /-- SWEEP_DEREG (R374): Deregister a region at the next pass boundary. -/
  | sweepDereg (fin : Bool) (d a : BitVec 6)
  /-- ROWREQ (R376): Issue a row request as a row-class command. -/
  | rowreq (fin : Bool) (p : BitVec 6) (urg : BitVec 2) (out : BitVec 8)
  /-- SWEEP_POS (R377): Read the STK_POS word of an address's pseudo-channel. -/
  | sweepPos (fin : Bool) (d a : BitVec 6)
  /-- SWEEP_WAIT (R378): Wait for a row's sweep restore in a given pass, then acquire. -/
  | sweepWait (fin : Bool) (a b : BitVec 6)
  /-- SIB_POST (R237): Post an answer hash to the home quorum unit. -/
  | sibPost (fin : Bool) (a : BitVec 6)
  /-- SIB_HOLD (R241): Open a hold interval deferring cancellation. -/
  | sibHold (fin : Bool)
  /-- SIB_FREE (R241): Close the hold interval. -/
  | sibFree (fin : Bool)
  /-- SIB_STAT (R380): Read the ballot state. -/
  | sibStat (fin : Bool) (d : BitVec 6)
  /-- SIB_CP (R240): Mark a cancellation point. -/
  | sibCp (fin : Bool)
  /-- COLL_AR (R383): Issue an all-reduce round. -/
  | collAr (fin : Bool) (p : BitVec 6) (out : BitVec 8)
  /-- COLL_AG (R383): Issue an all-gather round. -/
  | collAg (fin : Bool) (p : BitVec 6) (out : BitVec 8)
  /-- COLL_RS (R383): Issue a reduce-scatter round. -/
  | collRs (fin : Bool) (p : BitVec 6) (out : BitVec 8)
  /-- COLL_BC (R383): Issue a broadcast round. -/
  | collBc (fin : Bool) (p : BitVec 6) (out : BitVec 8)
  /-- COLL_ABORT (R387): Abort every open round of a ring slot. -/
  | collAbort (fin : Bool) (a : BitVec 6)
  /-- COLL_RING (R381): Set a ring slot from a membership table. -/
  | collRing (fin : Bool) (d p : BitVec 6)
  /-- QBIND (R310): Bind a queue register to a stream. -/
  | qbind (fin : Bool) (q : BitVec 3) (stream : BitVec 4)
  /-- QFREE (R310): Unbind a queue register and discard its records. -/
  | qfree (fin : Bool) (q : BitVec 3)
  /-- QTRY (R307): Test whether a queue register holds a record. -/
  | qtry (fin : Bool) (d : BitVec 6) (q : BitVec 3)
  /-- QPEEK (R307): Read the oldest record without removing it. -/
  | qpeek (fin : Bool) (d : BitVec 6) (q : BitVec 3)
  /-- TRAP (R390): Raise the software fault. -/
  | trap (fin : Bool) (i : BitVec 10)
  /-- SGET (R391): Read a special register. -/
  | sget (fin kind : Bool) (d : BitVec 7) (spr : BitVec 10)
  /-- SSET (R391): Write a special register. -/
  | sset (fin kind : Bool) (a : BitVec 7) (spr : BitVec 10) (la : Bool)
  /-- TSRD (R393): Read a fresh stamp time. -/
  | tsrd (fin : Bool) (x : BitVec 6)
  /-- RNG (R394): Counter-based random numbers per lane. -/
  | rng (fin : Bool) (x : BitVec 7)
  /-- LAUNCH (R396): Launch a grid from a record and return a status. -/
  | launch (fin : Bool) (x y : BitVec 6)
  /-- CINV (R397): Release and invalidate instruction-cache lines. -/
  | cinv (fin : Bool) (x y : BitVec 6)
  /-- ERET (R390): Return from a trap handler. -/
  | eret (fin : Bool)
  /-- BRK (R390): Stop the group at a breakpoint. -/
  | brk (fin : Bool)
  /-- HALT (R390): End the team, or stop the Ozyth core. -/
  | halt (fin : Bool)
  /-- YIELD (R390): Give the active slot to a waiting pending group. -/
  | yield (fin : Bool)
  /-- WFI (R400): Ozyth core waits for an enabled pending interrupt. -/
  | wfi
  /-- IRET (R400): Return from an Ozyth interrupt. -/
  | iret
  /-- NOP (R312): Occupy an issue slot. -/
  | nop (fin : Bool)
  /-- LAND (R114): Valid indirect target, merging waiting lanes when it opens a run. -/
  | land (fin : Bool)
  /-- TRAIL (R283): Name up to three results for the run end to wait for. -/
  | trail (fin : Bool) (c b a : BitVec 7)
  /-- HX (R279): Prefix hint extending the target's immediate. -/
  | hx (h : BitVec 22)
  /-- HM (R282): Prefix hint carrying ordering, bound and extra operands. -/
  | hm (h : BitVec 22)
  /-- HG (R282): Prefix hint carrying tile tokens. -/
  | hg (outv in1v in0v : Bool) (in1 in0 : BitVec 8)
  /-- HS (R284): Tool marker occupying an issue slot. -/
  | hs (fin : Bool) (h : BitVec 22)
  /-- REGISTER_WRITE (R2): A write to a package control register that has no row of its own updates its RW fields, clears W1C bits written as 1 and ignores writes to RO and reserved fields. -/
  | registerWrite (off : Nat) (v : Quad)
  /-- PACKAGE_RESET (R62): A package reset puts the package in the OFF state, loads reset values and moves it to INIT. -/
  | packageReset
  /-- MEMORY_INITIALISATION_DONE (R62): When memory initialisation completes, the package enters RUN, the heat-table regions stand registered and the Ozyth core starts its loaded image. -/
  | memoryInitialisationDone
  /-- MODE_WRITE (R24): A write to MODE is either discarded with REJECT set, or all its fields take their new values together, each taking effect at its own point. -/
  | modeWrite (v : Quad)
  /-- CLK_STABLE (R24): Within 20 µs of a MODE_CLK change the new clock becomes stable and CLK_BUSY clears. -/
  | clkStable
  /-- DUTY_WRITE (R25): A write to DUTY switches functions between hardware and host-assisted mode for events raised after the write. -/
  | dutyWrite (v : Quad)
  /-- DATA_FLIT (R21): A received DATA flit is checked for CRC and sequence number and then delivered in order and acknowledged, or discarded and answered with a RETRY flit. The flit comes as its header, its payload and its CRC (R19). -/
  | dataFlit (port : Nat) (head body tail : List Byte)
  /-- IDLE_FLIT (R20): A received IDLE flit updates the peer's ACK and the per-channel STOP levels. -/
  | idleFlit (port : Nat) (bytes : List Byte)
  /-- RETRY_FLIT (R21): A received RETRY flit makes the transmitter resend from RSEQ, in order, out of its replay buffer. -/
  | retryFlit (port : Nat) (bytes : List Byte)
  /-- TIME_FLIT (R16): A received TIME flit is compared with the local counter, allowing for link delay, and the counter slews toward the master. -/
  | timeFlit (port : Nat) (flit : TimedFlit)
  /-- TIME_FLIT_SEND (R16): Every 1 µs the domain time master sends a time flit on each Iseth link. -/
  | timeFlitSend
  /-- MASTER_TIMEOUT (R16): When no time flit has come from the current master for 10 µs, the next-lowest live package takes over as master. -/
  | masterTimeout
  /-- DOMAIN_JOIN (R17): A package joining a domain steps or holds its counter, sets SYNC and stays out of domain traffic until its offset is within 8 ticks. -/
  | domainJoin (t : Nat) (live : List Nat)
  /-- LANE_LOCK_LOSS (R22): A loss of lane lock starts a retraining of that port's link. -/
  | laneLockLoss (port : Nat)
  /-- RETRAIN_DONE (R22): A retraining that completes resumes transmission from the oldest unacknowledged flit. -/
  | retrainDone (port : Nat)
  /-- RETRAIN_TIMEOUT (R22): A retraining still running after 50 µs marks the link down and sets DOWN in that port's LINK_STAT word. -/
  | retrainTimeout (port : Nat)
  /-- SWEEP_STEP (R31): At each step interval a pseudo-channel restores one row index in all 32 banks, applying due region functions and pending requests. -/
  | sweepStep (stack pc : Nat)
  /-- PASS_BOUNDARY (R31): When the step for row index 0 of a new pass falls due, the pass number increases and period, HOT, LEFT and deregistrations are settled. -/
  | passBoundary (stack pc : Nat) (free : List Nat)
  /-- ROW_REQUEST_ACCEPT (R39): The base die accepts a row request into a free slot, pins its page, writes back the row's dirty lines and marks them comb-target. -/
  | rowRequestAccept (id : Nat)
  /-- HURRY_ACTIVATION (R39): Within 1 µs of accepting a .hurry request, the base die activates the row and applies its pending plain and .hurry requests. -/
  | hurryActivation (stack id : Nat)
  /-- BANK_ACCESS (R45): A bank performs an access, activating the row on demand with its pending requests applied, and stamps the access. -/
  | bankAccess (pa : Nat)
  /-- ROW_CLOSE (R405): A demand-opened row closes no later than 100 ns after its last access, once no access to it is queued. -/
  | rowClose (pa : Nat)
  /-- BANK_STORE_ACK (R40): A bank acknowledgement of a write-through store to a comb-target line lets the home apply the store to its copy. -/
  | bankStoreAck (asid : Nat) (va : Quad)
  /-- COMB_UPDATE (R46): A home slice receiving an application's words updates its copy and forwards them to the sharers, or drops them. -/
  | combUpdate (asid : Nat) (va : Quad)
  /-- ROW_REQUEST_COMPLETE (R42): At the completion stamp, the slot is freed, the page unpinned, the row counter decremented and a completion record pushed, as a release. -/
  | rowRequestComplete (stack id : Nat)
  /-- STK_NBR_WRITE (R43): A write to STK_NBR that sets TEST seeds every bank's xorshift state from SEED. -/
  | stkNbrWrite (stack : Nat) (v : Quad)
  /-- L2_MISS (R163): An L2 miss at a home slice goes to a translation agent and then fills the grain block from the stack, the memory-side cache or the owning package. -/
  | l2Miss (asid : Nat) (miss : Miss)
  /-- MIGRATION (R59): A page moves from frame F to frame G by marking, copying, holding requests, rewriting the entry and freeing F. -/
  | migration (src : Nat)
  /-- PWR_WARN_ASSERT (R62): Assertion of PWR_WARN in RUN begins brown-out entry, and during RESUME it is acted on when RESUME ends. -/
  | pwrWarnAssert
  /-- PWR_WARN_DEASSERT (R62): Deassertion of PWR_WARN starts the HOLD wait that, with AUTO, leads from BROWN to RESUME. -/
  | pwrWarnDeassert
  /-- HOLD_EXPIRY (R62): When PWR_WARN has stayed deasserted for HOLD ms in BROWN with AUTO set, resumption begins. -/
  | holdExpiry
  /-- PWR_CMD_ENTER (R62): A write of 1 to PWR_CMD in RUN begins a host-commanded brown-out entry. -/
  | pwrCmdEnter
  /-- PWR_CMD_RESUME (R62): A write of 2 to PWR_CMD in BROWN begins resumption. -/
  | pwrCmdResume
  /-- BROWN_OUT_ENTRY (R64): Entry runs the nine steps of Table 3.5 in order, from stopping issue to powering down outside the always-on island. -/
  | brownOutEntry
  /-- ENTRY_COMMAND_TERMINATE (R64): An engine command still running 600 µs into entry step 3 is terminated, with status brown-out. -/
  | entryCommandTerminate (id : Nat)
  /-- ENTRY_VETO_TIMEOUT (R66): With DUTY[8] = 1, 200 µs after the trigger with no answer, entry proceeds as if the answer were 0. -/
  | entryVetoTimeout
  /-- RESUMPTION (R68): Resumption powers the dies, resumes the counter and the sweeps, reopens the rings and restores every group. -/
  | resumption
  /-- RING_WP_WRITE (R73): A host write to RING_WP is accepted or halts the ring with ERR 1 or 2, recording BAD. -/
  | ringWpWrite (n : Nat) (v : Quad)
  /-- RING_RESET (R74): A write of 1 to RING_RESET abandons a waiting WAIT, lets other phases end, then zeroes the pointers and errors. -/
  | ringReset (n : Nat)
  /-- RING_CFG_WRITE (R75): A write to RING_CFG starts or stops the taking of entries through ENABLE, or is discarded under the rules of R74 and R75. -/
  | ringCfgWrite (n : Nat) (v : Quad)
  /-- EVQ_CFG_WRITE (R75): A write to EVQ_CFG enables or disables a queue, restarting SEQ on enable, or is discarded. -/
  | evqCfgWrite (n : Nat) (v : Quad)
  /-- EVQ_RP_WRITE (R82): A host write to EVQ_RP frees slots, letting held events post, or is discarded with BADRP set. -/
  | evqRpWrite (n : Nat) (v : Quad)
  /-- RING_NOP (R77): The device takes a NOP ring entry, whose ring phase ends at once. -/
  | ringNop (n : Nat)
  /-- RING_LAUNCH (R77): The device takes a LAUNCH ring entry and offers its launch record to the scheduler. -/
  | ringLaunch (n : Nat)
  /-- RING_WRITE (R77): The device takes a WRITE ring entry and performs an 8-byte store as a release at system scope. -/
  | ringWrite (n : Nat)
  /-- RING_WAIT (R77): The device takes a WAIT ring entry and waits for a word to reach a value, with acquire loads. -/
  | ringWait (n : Nat)
  /-- RING_WAIT_POLL (R77): A WAIT reloads its word when a store to its line becomes visible at the home and at least every 10 µs, and ends once the value is reached. -/
  | ringWaitPoll (n : Nat)
  /-- RING_COPY (R77): The device takes a COPY ring entry and copies bytes between host and device memory. -/
  | ringCopy (n : Nat)
  /-- RING_COPY_DONE (R77): A COPY's ring phase ends when every byte is written at its destination. -/
  | ringCopyDone (n : Nat)
  /-- CTX_SET (R79): CTX_SET installs or changes a context slot, refusing ASID or root changes of a live context. -/
  | ctxSet (n : Nat)
  /-- CTX_KILL (R80): CTX_KILL refuses launches, stops groups, cancels ballots, unlocks, writes back, deregisters and frees the slot. -/
  | ctxKill (n : Nat)
  /-- RING_REGION (R49): A REGION ring entry registers a region from a descriptor under a named ASID and writes the result word. -/
  | ringRegion (n : Nat)
  /-- PURGE (R166): PURGE merges, waits, writes back and invalidates a range's lines, TLB entries, reverse-map records and locks. -/
  | purge (n : Nat)
  /-- ANSWER (R83): An ANSWER entry answers a posted record by queue and SEQ, or is discarded and counted as stray. -/
  | answer (n : Nat)
  /-- ATTEST (R88): ATTEST writes a signed 1,696-byte report of one moment's identity, modes and measurements to host memory. -/
  | attest (n : Nat)
  /-- HELD_EVENT_POST (R82): A held event is posted, in order, once a queue takes its kind or its queue has room. -/
  | heldEventPost
  /-- FW_GO (R86): A write of FW_CTL.GO checks the staged image in order and starts its load. -/
  | fwGo
  /-- FW_LOAD_DONE (R86): When a firmware load ends, FW_STAT takes its result and, on success, FW_MEAS and possibly FW_MIN are updated. -/
  | fwLoadDone
  /-- FW_START (R86): A START acted on begins memory initialisation when the loads, save pool and heat tables are good, and otherwise sets FW_STAT to 7. -/
  | fwStart
  /-- GRID_ACCEPT (R90): The scheduler accepts a grid into a free grid-table slot after checking its record, into WAITING or READY. -/
  | gridAccept (n : Nat)
  /-- GRID_READY (R98): A WAITING grid becomes READY once every release of its predecessors' teams has been performed. -/
  | gridReady (grid : Nat)
  /-- GRID_DONE (R91): A TRIGGERED grid whose teams have exited and whose commands have completed becomes DONE, and DONE_VAL is written. -/
  | gridDone (grid : Nat)
  /-- TEAM_PLACE (R95): A placement engine places the next team, or a whole cluster, on a core where it fits, and starts it. -/
  | teamPlace (grid core : Nat)
  /-- RESERVE_TIMEOUT (R94): A grid whose next team has found no core for 1 ms becomes reserving. -/
  | reserveTimeout (grid : Nat)
  /-- PREEMPT_TIMEOUT (R105): A priority-3 team that has found no core for 50 µs chooses lower-priority victims for pre-emption. -/
  | preemptTimeout (grid die : Nat)
  /-- PRE_BOUND_EXPIRY (R106): When PRE_BOUND expires under wait-out, a full save of the remaining victims begins. -/
  | preBoundExpiry (team : Nat)
  /-- SAVE_CLOSE (R106): A team's save area closes once its state is written and its issued commands have completed, and the team becomes SAVED. -/
  | saveClose (team : Nat)
  /-- TEAM_REPLACE (R108): A SAVED team is placed again and restored from its save area. -/
  | teamReplace (team core : Nat)
  /-- GROUP_ACTIVATE (R103): A pending group that has become ready enters a free active slot, or a swap is owed. -/
  | groupActivate (gid : Nat)
  /-- GROUP_SWAP (R104): At the end of the victim's run, the victim moves to the pending set and the waiting group takes its slot. -/
  | groupSwap (gid victim : Nat)
  /-- JOIN_COMPLETE (R116): A join completes when every non-exited lane is joined at J, and all the joined lanes move to J + 4. -/
  | joinComplete (gid : Nat)
  /-- RESULT_COMMIT (R122): A long-latency result commits to its register, letting a stalled word or a waiting run end proceed. -/
  | resultCommit (gid idx : Nat)
  /-- BREAKPOINT_MATCH (R132): A run about to open at an enabled DBG_BP address for DBG_ASID stops the group. -/
  | breakpointMatch (gid : Nat)
  /-- DBG_STEP (R133): A write of 1 to DBG_CTL.STEP makes a stopped group execute one run and stop again. -/
  | dbgStep (core : Nat)
  /-- DBG_RESUME (R133): A write of 1 to DBG_CTL.RESUME lets the named stopped group run on. -/
  | dbgResume (core : Nat)
  /-- WRITE_UPDATE (R152): A core receiving a home's update words applies them to a held line, or drops them, and acknowledges. -/
  | writeUpdate (slice core : Nat)
  /-- STORE_ACK (R152): The home acknowledges a store to the issuing group once every sharer has acknowledged, performing it at package scope. -/
  | storeAck (n : Nat)
  /-- ATOMIC_MERGE (R155): A buffered atomic-buffer entry is merged at its home as one atomic and performed when acknowledged. -/
  | atomicMerge (core asid : Nat) (va : Quad)
  /-- TRANSLATION_REQUEST (R163): A translation agent hits its TLB, or has the memory processor walk, or posts a kind-1 record. -/
  | translationRequest (die asid : Nat) (va : Quad) (acc core : Nat)
  /-- ATTRIBUTE_RETURN (R165): Attributes returned to a page-attribute cache end the group's stall at the checked word. -/
  | attributeReturn (core asid : Nat) (va : Quad)
  /-- LIGHT_FAULT_SERVICE (R167): The service reads the leaf, sets D and returns parked lanes to waiting, or turns the parks into faults. -/
  | lightFaultService (asid : Nat) (va : Quad)
  /-- FENCE_COMPLETE (R183): A fence completes once its release is performed, earlier reads have returned and buffered atomics are merged, writing its status. -/
  | fenceComplete (gid : Nat)
  /-- FENCE_LINK_TIMEOUT (R189): A fence waiting on a failing link completes after 50 µs, or when the link is down, with status 2 or 1 and FENCE_ERR filled. -/
  | fenceLinkTimeout (gid peer port : Nat)
  /-- TASK_LEAVE (R221): A command whose input tokens are ready and whose engine can accept it leaves the task table and reads its registers. -/
  | taskLeave (id : Nat)
  /-- COPY_CHUNK_WRITE (R219): A copy engine writes one chunk of at most 512 bytes to its destination and counts it into any sync word. -/
  | copyChunkWrite (id : Nat)
  /-- ENGINE_COMMAND_COMPLETE (R222): An engine command completes, retires from its class counter in issue order and pushes its completion record. -/
  | engineCommandComplete (id : Nat)
  /-- MATRIX_STEP_RUN (R216): A matrix or attention command executes on its partition's accumulator tiles in task-table order. -/
  | matrixStepRun (id : Nat)
  /-- DEFERRED_PAGE_FREE (R231): A page whose count fell to 0 is pushed onto FREE once every command holding a handle that names it has completed. -/
  | deferredPageFree (slot page : Nat)
  /-- PFX_INSERT_DECIDE (R233): The slice decides an insertion, in stamp order, at its time plus 1,024, or posts a kind-7 record. -/
  | pfxInsertDecide (die : Nat)
  /-- POST_DECIDE (R238): The quorum unit decides a ballot post at its time plus 1,024, in stamp order, counting it and possibly reaching the quorum. -/
  | postDecide (grid : Nat)
  /-- SIBLING_CANCEL_STOP (R240): A group of a cancelling sibling stops at its next cancellation point and exits. -/
  | siblingCancelStop (gid : Nat)
  /-- HOLD_TIMEOUT (R241): 100,000 ticks after the decision, a hold no longer defers cancellation. -/
  | holdTimeout (grid : Nat)
  /-- SIBLING_RELEASE (R242): Once a cancelled sibling has exited and its commands have completed, its handles are released and its counters, CSTAMP and status written. -/
  | siblingRelease (grid k : Nat)
  /-- ROUND_INSTALL (R246): A fetched counter value is installed in a core's round table, replacing the least recently used entry. -/
  | roundInstall (core c : Nat)
  /-- ROUND_PUSH (R246): A pushed counter value updates a round table entry that holds the counter, or is dropped. -/
  | roundPush (core : Nat)
  /-- ROUND_INCREMENT (R251): Once its release is performed, an rbump increments the counter at its memory processor and pushes the new value. -/
  | roundIncrement (gid : Nat)
  /-- ARF_WRITE (R207): A write to an address-range format register is accepted, or discarded while VALID or on a bad range. -/
  | arfWrite (off : Nat) (v : Quad)
  /-- COLL_ROUND_OPEN (R382): A collective round opens at a member when its command leaves the task table and is paired by number. -/
  | collRoundOpen (id : Nat)
  /-- COLL_ROUND_COMPLETE (R384): A round's completion writes DST, pushes a stream-3 record and retires the command. -/
  | collRoundComplete (slot num : Nat) (agree : Bool) (given : List (List Byte))
  /-- COLL_TIMEOUT (R385): A member whose upstream neighbour is silent for TMO ends its rounds with STATUS 1, sends aborts and starts recovery. -/
  | collTimeout (slot die : Nat)
  /-- COLL_ABORT_FLIT (R385): A member receiving an abort flit ends its open rounds on the ring with the flit's STATUS and SILENT. -/
  | collAbortFlit (slot die status silent : Nat)
  /-- COLL_PROBE (R386): The prober sends a second probe to the silent member 5 µs after the first. -/
  | collProbe (slot die : Nat)
  /-- COLL_PROBE_TIMEOUT (R386): Probes unanswered within 5 µs make the prober send a re-form flit, and an answered probe keeps the ring. -/
  | collProbeTimeout (slot die : Nat) (answered : Bool)
  /-- COLL_REFORM_FLIT (R386): A re-form flit passing a member removes the silent entry, decrements N, increments GEN and ends its recovery. -/
  | collReformFlit (slot die gen silent : Nat)
  /-- COLL_RESUME_FLIT (R386): A resume flit passing a member ends its recovery with the ring kept. -/
  | collResumeFlit (slot die : Nat)
  /-- REFORM_RETURN_TIMEOUT (R419): A re-form flit not back within 2 × TMO disables the ring at that member, and its rounds complete with STATUS 4. -/
  | reformReturnTimeout (slot die : Nat)
  /-- THERM_SAMPLE (R422): Every 10 µs all die temperatures are sampled, and THERM_HI or THERM_LO is set on a threshold crossing. -/
  | thermSample (temps : List Nat)
  /-- OZ_TIMER (R400): When ts.now reaches oz.tcmp after a write of oz.tcmp, the TIMER source becomes pending. -/
  | ozTimer
  /-- OZ_DOOR_WRITE (R400): A host write to OZ_DOOR sets the DOOR interrupt source. -/
  | ozDoorWrite
  /-- INTERRUPT_ENTRY (R400): Before a run opens with an enabled pending source and in.irq 0, the Ozyth core takes the lowest such source and enters its vector. -/
  | interruptEntry
  /-- THERM_CFG_WRITE (R401): A write to THERM_CFG sets HI and LO, and is discarded when LO ≥ HI. -/
  | thermCfgWrite (v : Quad)
  /-- THROTTLE_WRITE (R401): A write to THROTTLE limits every partition to 8 − t issues in any 8 slots, within 1 µs. -/
  | throttleWrite (v : Quad)
  /-- QUEUE_POP_RETURN (R308): A pop waiting on an empty queue register, or on an earlier fence, completes when a record arrives. -/
  | queuePopReturn (gid : Nat)
  /-- WAITC_RETURN (R344): A waiting waitc returns once enough older commands of its class have retired. -/
  | waitcReturn (gid : Nat)
  /-- BARRIER_PHASE_COMPLETE (R346): When every non-exited participant has arrived, the phase advances and the waiting bars return. -/
  | barrierPhaseComplete (gid : Nat)
  /-- SYW_WAIT_RETURN (R147): A waiting syw.wait returns when GEN has passed its value. -/
  | sywWaitReturn (gid : Nat)
  /-- SWEEP_WAIT_RETURN (R48): A waiting sweep.wait returns once the row has had its restore in the pass. -/
  | sweepWaitReturn (gid : Nat)
  /-- LINK_TRAINING (R22): A port first trains with a link partner after package reset, and UP is set in its LINK_STAT word. -/
  | linkTraining (port : Nat)
  /-- RESERVED_ENCODING (R294): Issue of a word that is not an instruction (major 0x00 or 0x1E, a reserved FUNC, OP, SUB, OPC or KIND, or a restricted major on the Ozyth core) raises the illegal-instruction fault. -/
  | reservedEncoding (w : Word)
  /-- HANDLE_SLICE_OPERATION (R228): The prefix-index slice performs an arrived handle or prefix-find operation, one at a time in order of arrival, and answers the stalled group. -/
  | handleSliceOperation (gid : Nat)
  /-- COLL_WAIT_FLIT (R385): A member waiting within a round sends a step or wait flit to its downstream neighbour at least every 1 µs. -/
  | collWaitFlit (slot die : Nat)
  deriving DecidableEq, Repr

end Sys2Proof
end

