-- ==== Sys2Proof/WellFormed.lean ====
section
/-! DEFINITION. WellFormed: the limits on an instruction's fields that its word alone decides (R294, items 2 to 7, 10).  What
depends on the attached hints, the mode of the core, the register budget or the run is checked when the word issues. -/

namespace Sys2Proof

/-- R276: a last-use bit may be 1 only when its field names one of v0 to v119. -/
def lastUseOk (bit : Bool) (reg : BitVec 7) : Bool := !bit || reg.toNat < 120

/-- R275: a 64-bit load or store names an even register. -/
def pairOk (reg : BitVec 7) : Bool := reg.toNat % 2 == 0

/-- R275: a 128-bit load or store names a register that is a multiple of 4. -/
def quadOk (reg : BitVec 7) : Bool := reg.toNat % 4 == 0

/-- R294: COND 6 and 7 are reserved. -/
def condOk (cond : BitVec 3) : Bool := cond.toNat < 6

/-- R291: type codes 9 to 15 are reserved. -/
def typeOk (code : BitVec 4) : Bool := code.toNat < 9

/-- R294: CLASS 5 to 7 are reserved. -/
def classOk (cls : BitVec 3) : Bool := cls.toNat < 5

/-- R307: STREAM 6 to 15 are reserved. -/
def streamOk (stream : BitVec 4) : Bool := stream.toNat < 6

/-- R294: URG 3 is reserved. -/
def urgOk (urg : BitVec 2) : Bool := urg.toNat < 3

/-- R294: RANK 12 to 15 are reserved. -/
def rankOk (rank : BitVec 4) : Bool := rank.toNat < 12

/-- R126, R332: WIDTH 3 is reserved, and T of `part` holds a WIDTH. -/
def widthOk (w : BitVec 3) : Bool := w.toNat < 3

/-- R331: T 3 to 7 are reserved. -/
def laneTypeOk (t : BitVec 3) : Bool := t.toNat < 3

/-- R292: a parameter block of n registers from sP lies in s1 to s63. -/
def blockOk (p : BitVec 6) (n : Nat) : Bool := 1 ≤ p.toNat && p.toNat + n - 1 ≤ 63

/-- R283: a trailer slot names v0 to v119 or is empty (127), and one slot at least is not empty. -/
def trailOk (a b c : BitVec 7) : Bool :=
  let slotOk := fun (x : BitVec 7) => x.toNat < 120 || x.toNat == 127
  slotOk a && slotOk b && slotOk c && !(a.toNat == 127 && b.toNat == 127 && c.toNat == 127)

/-- Tables 17.14 and 22.7: the assigned per-lane special registers. -/
def sprLaneOk (spr : BitVec 10) : Bool := spr.toNat ≤ 5

/-- Tables 17.14 and 22.7: the assigned group-uniform special registers and those of the Ozyth core. -/
def sprScalarOk (spr : BitVec 10) : Bool :=
  (0x100 ≤ spr.toNat && spr.toNat ≤ 0x111) || (0x300 ≤ spr.toNat && spr.toNat ≤ 0x306)

/-- Tables 17.14 and 22.7: the special registers that may be written. -/
def sprWritable (spr : BitVec 10) : Bool :=
  spr.toNat == 0x002 || spr.toNat == 0x108 || spr.toNat == 0x10C || spr.toNat == 0x10D ||
  spr.toNat == 0x300 || spr.toNat == 0x301 || spr.toNat == 0x302 || spr.toNat == 0x303 ||
  spr.toNat == 0x305 || spr.toNat == 0x306

/-- R293, R391: KIND matches the range of an assigned special register, and a 7-bit field that names a scalar register has
bit 6 clear (R275). -/
def sgetOk (kind : Bool) (d : BitVec 7) (spr : BitVec 10) : Bool :=
  if kind then sprScalarOk spr && d.toNat < 64 else sprLaneOk spr

/-- R293, R294, R391: as `sgetOk`, for a register that may be written; LA may be 1 only for a vector source (R276). -/
def ssetOk (kind : Bool) (a : BitVec 7) (spr : BitVec 10) (la : Bool) : Bool :=
  sprWritable spr && (if kind then sprScalarOk spr && a.toNat < 64 && !la else sprLaneOk spr && lastUseOk la a)

/-- The field limits of every instruction word; an event has no encoding and no limit here. -/
def Instr.wf : Instr → Bool
  | .add _ la lb _ a b => lastUseOk la a && lastUseOk lb b
  | .sub _ la lb _ a b => lastUseOk la a && lastUseOk lb b
  | .and _ la lb _ a b => lastUseOk la a && lastUseOk lb b
  | .or _ la lb _ a b => lastUseOk la a && lastUseOk lb b
  | .xor _ la lb _ a b => lastUseOk la a && lastUseOk lb b
  | .shl _ la lb _ a b => lastUseOk la a && lastUseOk lb b
  | .shr _ la lb _ a b => lastUseOk la a && lastUseOk lb b
  | .sra _ la lb _ a b => lastUseOk la a && lastUseOk lb b
  | .mul _ la lb _ a b => lastUseOk la a && lastUseOk lb b
  | .mulhS _ la lb _ a b => lastUseOk la a && lastUseOk lb b
  | .mulhN _ la lb _ a b => lastUseOk la a && lastUseOk lb b
  | .minS _ la lb _ a b => lastUseOk la a && lastUseOk lb b
  | .maxS _ la lb _ a b => lastUseOk la a && lastUseOk lb b
  | .minN _ la lb _ a b => lastUseOk la a && lastUseOk lb b
  | .maxN _ la lb _ a b => lastUseOk la a && lastUseOk lb b
  | .absdS _ la lb _ a b => lastUseOk la a && lastUseOk lb b
  | .addi _ la _ _ a => lastUseOk la a
  | .andi _ la _ _ a => lastUseOk la a
  | .ori _ la _ _ a => lastUseOk la a
  | .xori _ la _ _ a => lastUseOk la a
  | .shli _ la _ a _ => lastUseOk la a
  | .shri _ la _ a _ => lastUseOk la a
  | .srai _ la _ a _ => lastUseOk la a
  | .fadd _ la lb _ a b => lastUseOk la a && lastUseOk lb b
  | .fsub _ la lb _ a b => lastUseOk la a && lastUseOk lb b
  | .fmul _ la lb _ a b => lastUseOk la a && lastUseOk lb b
  | .ffma _ la lb _ a b => lastUseOk la a && lastUseOk lb b
  | .fmin _ la lb _ a b => lastUseOk la a && lastUseOk lb b
  | .fmax _ la lb _ a b => lastUseOk la a && lastUseOk lb b
  | .fsgn _ la lb _ a b => lastUseOk la a && lastUseOk lb b
  | .frnd _ la _ a _ => lastUseOk la a
  | .hadd _ la _ _ a _ => lastUseOk la a
  | .hsub _ la _ _ a _ => lastUseOk la a
  | .hmul _ la _ _ a _ => lastUseOk la a
  | .hfma _ la _ _ a _ => lastUseOk la a
  | .hmin _ la _ _ a _ => lastUseOk la a
  | .hmax _ la _ _ a _ => lastUseOk la a
  | .icmp _ _ cond _ la lb a b => lastUseOk la a && lastUseOk lb b && condOk cond
  | .fcmp _ _ cond _ la lb a b => lastUseOk la a && lastUseOk lb b && condOk cond
  | .cvt _ _ la td ta _ a => lastUseOk la a && typeOk td && typeOk ta
  | .cvtn _ la _ _ _ a => lastUseOk la a
  | .cvtw _ la _ _ a => lastUseOk la a
  | .rcp _ la _ a => lastUseOk la a
  | .rsq _ la _ a => lastUseOk la a
  | .sqrt _ la _ a => lastUseOk la a
  | .exp2 _ la _ a => lastUseOk la a
  | .log2 _ la _ a => lastUseOk la a
  | .sin _ la _ a => lastUseOk la a
  | .cos _ la _ a => lastUseOk la a
  | .tanh _ la _ a => lastUseOk la a
  | .divS _ la lb _ a b => lastUseOk la a && lastUseOk lb b
  | .divN _ la lb _ a b => lastUseOk la a && lastUseOk lb b
  | .remS _ la lb _ a b => lastUseOk la a && lastUseOk lb b
  | .remN _ la lb _ a b => lastUseOk la a && lastUseOk lb b
  | .shflIdx _ _ _ _ a la => lastUseOk la a
  | .shflUp _ _ _ _ a la => lastUseOk la a
  | .shflDn _ _ _ _ a la => lastUseOk la a
  | .shflXor _ _ _ _ a la => lastUseOk la a
  | .bcast _ _ _ _ a la => lastUseOk la a
  | .scanAdd _ _ _ _ a la t => lastUseOk la a && laneTypeOk t
  | .redAdd _ _ _ _ a la t => lastUseOk la a && laneTypeOk t
  | .redMax _ _ _ _ a la t => lastUseOk la a && laneTypeOk t
  | .part _ _ w => widthOk w
  | .sel _ _ a _ _ la => lastUseOk la a
  | .movV _ _ y la => lastUseOk la y
  | .vtos _ _ y la _ => lastUseOk la y
  | .clz _ _ y la => lastUseOk la y
  | .popc _ _ y la => lastUseOk la y
  | .brev _ _ y la => lastUseOk la y
  | .jr _ a la => lastUseOk la a
  | .callr _ a la => lastUseOk la a
  | .ret _ a la => lastUseOk la a
  | .ldB _ _ off lu _ => lastUseOk lu off
  | .ldBs _ _ off lu _ => lastUseOk lu off
  | .ldH _ _ off lu _ => lastUseOk lu off
  | .ldHs _ _ off lu _ => lastUseOk lu off
  | .ldW _ _ off lu _ => lastUseOk lu off
  | .ldD _ data off lu _ => lastUseOk lu off && pairOk data
  | .ldQ _ data off lu _ => lastUseOk lu off && quadOk data
  | .stB _ data _ lu _ => lastUseOk lu data
  | .stH _ data _ lu _ => lastUseOk lu data
  | .stW _ data _ lu _ => lastUseOk lu data
  | .stD _ data _ lu _ => lastUseOk lu data && pairOk data
  | .stQ _ data _ lu _ => lastUseOk lu data && quadOk data
  | .atomAdd _ data _ lu _ _ _ => lastUseOk lu data
  | .atomFadd _ data _ lu _ _ => lastUseOk lu data
  | .atomMin _ data _ lu _ _ _ => lastUseOk lu data
  | .atomMax _ data _ lu _ _ _ => lastUseOk lu data
  | .atomAnd _ data _ lu _ _ _ => lastUseOk lu data
  | .atomOr _ data _ lu _ _ _ => lastUseOk lu data
  | .atomXor _ data _ lu _ _ _ => lastUseOk lu data
  | .atomXchg _ data _ lu _ _ _ => lastUseOk lu data
  | .atomCas _ data _ lu _ _ => lastUseOk lu data
  | .waitc _ cls _ => classOk cls
  | .lds _ _ off lu _ => lastUseOk lu off
  | .sts _ data _ lu _ => lastUseOk lu data
  | .bhand _ _ rank => rankOk rank
  | .mma _ p _ => blockOk p 2
  | .mmas _ p _ => blockOk p 3
  | .accz _ p _ => blockOk p 1
  | .accld _ p _ => blockOk p 2
  | .accst _ p _ => blockOk p 2
  | .drain _ p _ _ => blockOk p 2
  | .copyIn _ p _ => blockOk p 4
  | .copyOut _ p _ => blockOk p 4
  | .copyPf _ p _ => blockOk p 4
  | .attn _ p _ _ => blockOk p 4
  | .attnFin _ p _ => blockOk p 2
  | .hdlMk _ _ p => blockOk p 1
  | .hdlExt _ _ p => blockOk p 2
  | .hdlTrunc _ _ p => blockOk p 2
  | .hdlRef _ _ p => blockOk p 1
  | .hdlRel _ _ p => blockOk p 1
  | .pfxFind _ _ p => blockOk p 2
  | .pfxIns _ _ p => blockOk p 3
  | .rowreq _ p urg _ => urgOk urg && blockOk p 4
  | .collAr _ p _ => blockOk p 4
  | .collAg _ p _ => blockOk p 4
  | .collRs _ p _ => blockOk p 4
  | .collBc _ p _ => blockOk p 4
  | .collRing _ _ p => blockOk p 2
  | .qbind _ _ stream => streamOk stream
  | .sget _ kind d spr => sgetOk kind d spr
  | .sset _ kind a spr la => ssetOk kind a spr la
  | .trail _ c b a => trailOk a b c
  | .movi .. | .pand .. | .por .. | .pxor .. | .pnot .. | .vmask .. | .vany .. | .vall .. | .movS .. | .movQ ..
  | .pmov .. | .stov .. | .lid .. | .sadd .. | .ssub .. | .sand .. | .sor .. | .sxor .. | .sshl .. | .sshr ..
  | .smul .. | .saddi .. | .sandi .. | .sori .. | .sshli .. | .sshri .. | .smovi .. | .sxori .. | .br .. | .brp ..
  | .brnp .. | .sbeq .. | .sbne .. | .sblt .. | .sbge .. | .call .. | .join .. | .exit .. | .fence .. | .bar ..
  | .arrive .. | .trig .. | .spAlloc .. | .spFree .. | .bheld .. | .sywInit .. | .sywWait .. | .lock ..
  | .unlock .. | .spcvt .. | .l1cvt .. | .rbump .. | .rget .. | .racq .. | .shape .. | .fmtset .. | .tsrSet ..
  | .sweepReg .. | .sweepDereg .. | .sweepPos .. | .sweepWait .. | .sibPost .. | .sibHold .. | .sibFree ..
  | .sibStat .. | .sibCp .. | .collAbort .. | .qfree .. | .qtry .. | .qpeek .. | .trap .. | .tsrd .. | .rng ..
  | .launch .. | .cinv .. | .eret .. | .brk .. | .halt .. | .yield .. | .wfi .. | .iret .. | .nop .. | .land ..
  | .hx .. | .hm .. | .hg .. | .hs .. => true
  | .registerWrite .. | .packageReset .. | .memoryInitialisationDone .. | .modeWrite .. | .clkStable ..
  | .dutyWrite .. | .dataFlit .. | .idleFlit .. | .retryFlit .. | .timeFlit .. | .timeFlitSend ..
  | .masterTimeout .. | .domainJoin .. | .laneLockLoss .. | .retrainDone .. | .retrainTimeout .. | .sweepStep ..
  | .passBoundary .. | .rowRequestAccept .. | .hurryActivation .. | .bankAccess .. | .rowClose ..
  | .bankStoreAck .. | .combUpdate .. | .rowRequestComplete .. | .stkNbrWrite .. | .l2Miss .. | .migration ..
  | .pwrWarnAssert .. | .pwrWarnDeassert .. | .holdExpiry .. | .pwrCmdEnter .. | .pwrCmdResume ..
  | .brownOutEntry .. | .entryCommandTerminate .. | .entryVetoTimeout .. | .resumption .. | .ringWpWrite ..
  | .ringReset .. | .ringCfgWrite .. | .evqCfgWrite .. | .evqRpWrite .. | .ringNop .. | .ringLaunch ..
  | .ringWrite .. | .ringWait .. | .ringWaitPoll .. | .ringCopy .. | .ringCopyDone .. | .ctxSet .. | .ctxKill ..
  | .ringRegion .. | .purge .. | .answer .. | .attest .. | .heldEventPost .. | .fwGo .. | .fwLoadDone ..
  | .fwStart .. | .gridAccept .. | .gridReady .. | .gridDone .. | .teamPlace .. | .reserveTimeout ..
  | .preemptTimeout .. | .preBoundExpiry .. | .saveClose .. | .teamReplace .. | .groupActivate .. | .groupSwap ..
  | .joinComplete .. | .resultCommit .. | .breakpointMatch .. | .dbgStep .. | .dbgResume .. | .writeUpdate ..
  | .storeAck .. | .atomicMerge .. | .translationRequest .. | .attributeReturn .. | .lightFaultService ..
  | .fenceComplete .. | .fenceLinkTimeout .. | .taskLeave .. | .copyChunkWrite .. | .engineCommandComplete ..
  | .matrixStepRun .. | .deferredPageFree .. | .pfxInsertDecide .. | .postDecide .. | .siblingCancelStop ..
  | .holdTimeout .. | .siblingRelease .. | .roundInstall .. | .roundPush .. | .roundIncrement .. | .arfWrite ..
  | .collRoundOpen .. | .collRoundComplete .. | .collTimeout .. | .collAbortFlit .. | .collProbe ..
  | .collProbeTimeout .. | .collReformFlit .. | .collResumeFlit .. | .reformReturnTimeout .. | .thermSample ..
  | .ozTimer .. | .ozDoorWrite .. | .interruptEntry .. | .thermCfgWrite .. | .throttleWrite .. | .queuePopReturn ..
  | .waitcReturn .. | .barrierPhaseComplete .. | .sywWaitReturn .. | .sweepWaitReturn .. | .linkTraining ..
  | .reservedEncoding .. | .handleSliceOperation .. | .collWaitFlit .. => true

/-- An event of the table, which is no instruction word (spec/95). -/
def Instr.isEvent : Instr → Bool
  | .registerWrite .. | .packageReset .. | .memoryInitialisationDone .. | .modeWrite .. | .clkStable ..
  | .dutyWrite .. | .dataFlit .. | .idleFlit .. | .retryFlit .. | .timeFlit .. | .timeFlitSend ..
  | .masterTimeout .. | .domainJoin .. | .laneLockLoss .. | .retrainDone .. | .retrainTimeout .. | .sweepStep ..
  | .passBoundary .. | .rowRequestAccept .. | .hurryActivation .. | .bankAccess .. | .rowClose ..
  | .bankStoreAck .. | .combUpdate .. | .rowRequestComplete .. | .stkNbrWrite .. | .l2Miss .. | .migration ..
  | .pwrWarnAssert .. | .pwrWarnDeassert .. | .holdExpiry .. | .pwrCmdEnter .. | .pwrCmdResume ..
  | .brownOutEntry .. | .entryCommandTerminate .. | .entryVetoTimeout .. | .resumption .. | .ringWpWrite ..
  | .ringReset .. | .ringCfgWrite .. | .evqCfgWrite .. | .evqRpWrite .. | .ringNop .. | .ringLaunch ..
  | .ringWrite .. | .ringWait .. | .ringWaitPoll .. | .ringCopy .. | .ringCopyDone .. | .ctxSet .. | .ctxKill ..
  | .ringRegion .. | .purge .. | .answer .. | .attest .. | .heldEventPost .. | .fwGo .. | .fwLoadDone ..
  | .fwStart .. | .gridAccept .. | .gridReady .. | .gridDone .. | .teamPlace .. | .reserveTimeout ..
  | .preemptTimeout .. | .preBoundExpiry .. | .saveClose .. | .teamReplace .. | .groupActivate .. | .groupSwap ..
  | .joinComplete .. | .resultCommit .. | .breakpointMatch .. | .dbgStep .. | .dbgResume .. | .writeUpdate ..
  | .storeAck .. | .atomicMerge .. | .translationRequest .. | .attributeReturn .. | .lightFaultService ..
  | .fenceComplete .. | .fenceLinkTimeout .. | .taskLeave .. | .copyChunkWrite .. | .engineCommandComplete ..
  | .matrixStepRun .. | .deferredPageFree .. | .pfxInsertDecide .. | .postDecide .. | .siblingCancelStop ..
  | .holdTimeout .. | .siblingRelease .. | .roundInstall .. | .roundPush .. | .roundIncrement .. | .arfWrite ..
  | .collRoundOpen .. | .collRoundComplete .. | .collTimeout .. | .collAbortFlit .. | .collProbe ..
  | .collProbeTimeout .. | .collReformFlit .. | .collResumeFlit .. | .reformReturnTimeout .. | .thermSample ..
  | .ozTimer .. | .ozDoorWrite .. | .interruptEntry .. | .thermCfgWrite .. | .throttleWrite .. | .queuePopReturn ..
  | .waitcReturn .. | .barrierPhaseComplete .. | .sywWaitReturn .. | .sweepWaitReturn .. | .linkTraining ..
  | .reservedEncoding .. | .handleSliceOperation .. | .collWaitFlit .. => true
  | _ => false

end Sys2Proof
end

