-- ==== Sys2Proof/Decode.lean ====
section
/-! DEFINITION. Decode: from bytes to an instruction, total, and the encoder.  A row per instruction word gives the fixed
bits of its encoding and where each field lies (R274 to R293); a word that matches no row, or whose fields break a limit of
WellFormed, is not an instruction (R294). -/

namespace Sys2Proof

/-- Field of `len` bits from bit `lo`. -/
def fld (w : Word) (lo len : Nat) : BitVec len := w.extractLsb' lo len

/-- One bit. -/
def bit (w : Word) (lo : Nat) : Bool := w.getLsbD lo

/-- A row of the opcode map: the fixed bits of the word and its fields. -/
structure Row where
  /-- 1 in every bit that the encoding fixes. -/
  mask : Word
  /-- The value of the fixed bits. -/
  pattern : Word
  /-- The instruction of a word that matches. -/
  build : Word → Instr

/-- A word belongs to a row when its fixed bits agree. -/
def Row.fits (r : Row) (w : Word) : Bool := (w &&& r.mask) == r.pattern

/-- Words of majors 0x01 to 0x03. -/
def rowsVectorInteger : List Row :=
  [⟨0x7F800000, 0x04000000, fun w => .add (bit w 31) (bit w 22) (bit w 21) (fld w 14 7) (fld w 7 7) (fld w 0 7)⟩,
   ⟨0x7F800000, 0x04800000, fun w => .sub (bit w 31) (bit w 22) (bit w 21) (fld w 14 7) (fld w 7 7) (fld w 0 7)⟩,
   ⟨0x7F800000, 0x05000000, fun w => .and (bit w 31) (bit w 22) (bit w 21) (fld w 14 7) (fld w 7 7) (fld w 0 7)⟩,
   ⟨0x7F800000, 0x05800000, fun w => .or (bit w 31) (bit w 22) (bit w 21) (fld w 14 7) (fld w 7 7) (fld w 0 7)⟩,
   ⟨0x7F800000, 0x06000000, fun w => .xor (bit w 31) (bit w 22) (bit w 21) (fld w 14 7) (fld w 7 7) (fld w 0 7)⟩,
   ⟨0x7F800000, 0x06800000, fun w => .shl (bit w 31) (bit w 22) (bit w 21) (fld w 14 7) (fld w 7 7) (fld w 0 7)⟩,
   ⟨0x7F800000, 0x07000000, fun w => .shr (bit w 31) (bit w 22) (bit w 21) (fld w 14 7) (fld w 7 7) (fld w 0 7)⟩,
   ⟨0x7F800000, 0x07800000, fun w => .sra (bit w 31) (bit w 22) (bit w 21) (fld w 14 7) (fld w 7 7) (fld w 0 7)⟩,
   ⟨0x7F800000, 0x08000000, fun w => .mul (bit w 31) (bit w 22) (bit w 21) (fld w 14 7) (fld w 7 7) (fld w 0 7)⟩,
   ⟨0x7F800000, 0x08800000, fun w => .mulhS (bit w 31) (bit w 22) (bit w 21) (fld w 14 7) (fld w 7 7) (fld w 0 7)⟩,
   ⟨0x7F800000, 0x09000000, fun w => .mulhN (bit w 31) (bit w 22) (bit w 21) (fld w 14 7) (fld w 7 7) (fld w 0 7)⟩,
   ⟨0x7F800000, 0x09800000, fun w => .minS (bit w 31) (bit w 22) (bit w 21) (fld w 14 7) (fld w 7 7) (fld w 0 7)⟩,
   ⟨0x7F800000, 0x0A000000, fun w => .maxS (bit w 31) (bit w 22) (bit w 21) (fld w 14 7) (fld w 7 7) (fld w 0 7)⟩,
   ⟨0x7F800000, 0x0A800000, fun w => .minN (bit w 31) (bit w 22) (bit w 21) (fld w 14 7) (fld w 7 7) (fld w 0 7)⟩,
   ⟨0x7F800000, 0x0B000000, fun w => .maxN (bit w 31) (bit w 22) (bit w 21) (fld w 14 7) (fld w 7 7) (fld w 0 7)⟩,
   ⟨0x7F800000, 0x0B800000, fun w => .absdS (bit w 31) (bit w 22) (bit w 21) (fld w 14 7) (fld w 7 7) (fld w 0 7)⟩,
   ⟨0x7F800000, 0x0C000000, fun w => .addi (bit w 31) (bit w 22) (fld w 21 1 ++ fld w 0 7) (fld w 14 7) (fld w 7 7)⟩,
   ⟨0x7F800000, 0x0C800000, fun w => .andi (bit w 31) (bit w 22) (fld w 21 1 ++ fld w 0 7) (fld w 14 7) (fld w 7 7)⟩,
   ⟨0x7F800000, 0x0D000000, fun w => .ori (bit w 31) (bit w 22) (fld w 21 1 ++ fld w 0 7) (fld w 14 7) (fld w 7 7)⟩,
   ⟨0x7F800000, 0x0D800000, fun w => .xori (bit w 31) (bit w 22) (fld w 21 1 ++ fld w 0 7) (fld w 14 7) (fld w 7 7)⟩,
   ⟨0x7FA00060, 0x0E000000, fun w => .shli (bit w 31) (bit w 22) (fld w 14 7) (fld w 7 7) (fld w 0 5)⟩,
   ⟨0x7FA00060, 0x0E800000, fun w => .shri (bit w 31) (bit w 22) (fld w 14 7) (fld w 7 7) (fld w 0 5)⟩,
   ⟨0x7FA00060, 0x0F000000, fun w => .srai (bit w 31) (bit w 22) (fld w 14 7) (fld w 7 7) (fld w 0 5)⟩,
   ⟨0x7FC03F80, 0x0F800000, fun w => .movi (bit w 31) (fld w 21 1 ++ fld w 0 7) (fld w 14 7)⟩]

/-- Words of majors 0x04 to 0x05. -/
def rowsFp32AndPacked : List Row :=
  [⟨0x7F800000, 0x10000000, fun w => .fadd (bit w 31) (bit w 22) (bit w 21) (fld w 14 7) (fld w 7 7) (fld w 0 7)⟩,
   ⟨0x7F800000, 0x10800000, fun w => .fsub (bit w 31) (bit w 22) (bit w 21) (fld w 14 7) (fld w 7 7) (fld w 0 7)⟩,
   ⟨0x7F800000, 0x11000000, fun w => .fmul (bit w 31) (bit w 22) (bit w 21) (fld w 14 7) (fld w 7 7) (fld w 0 7)⟩,
   ⟨0x7F800000, 0x11800000, fun w => .ffma (bit w 31) (bit w 22) (bit w 21) (fld w 14 7) (fld w 7 7) (fld w 0 7)⟩,
   ⟨0x7F800000, 0x12000000, fun w => .fmin (bit w 31) (bit w 22) (bit w 21) (fld w 14 7) (fld w 7 7) (fld w 0 7)⟩,
   ⟨0x7F800000, 0x12800000, fun w => .fmax (bit w 31) (bit w 22) (bit w 21) (fld w 14 7) (fld w 7 7) (fld w 0 7)⟩,
   ⟨0x7F800000, 0x13000000, fun w => .fsgn (bit w 31) (bit w 22) (bit w 21) (fld w 14 7) (fld w 7 7) (fld w 0 7)⟩,
   ⟨0x7FA0007C, 0x13800000, fun w => .frnd (bit w 31) (bit w 22) (fld w 14 7) (fld w 7 7) (fld w 0 2)⟩,
   ⟨0x7F800000, 0x14000000, fun w => .hadd (bit w 31) (bit w 22) (bit w 21) (fld w 14 7) (fld w 7 7) (fld w 0 7)⟩,
   ⟨0x7F800000, 0x14800000, fun w => .hsub (bit w 31) (bit w 22) (bit w 21) (fld w 14 7) (fld w 7 7) (fld w 0 7)⟩,
   ⟨0x7F800000, 0x15000000, fun w => .hmul (bit w 31) (bit w 22) (bit w 21) (fld w 14 7) (fld w 7 7) (fld w 0 7)⟩,
   ⟨0x7F800000, 0x15800000, fun w => .hfma (bit w 31) (bit w 22) (bit w 21) (fld w 14 7) (fld w 7 7) (fld w 0 7)⟩,
   ⟨0x7F800000, 0x16000000, fun w => .hmin (bit w 31) (bit w 22) (bit w 21) (fld w 14 7) (fld w 7 7) (fld w 0 7)⟩,
   ⟨0x7F800000, 0x16800000, fun w => .hmax (bit w 31) (bit w 22) (bit w 21) (fld w 14 7) (fld w 7 7) (fld w 0 7)⟩]

/-- Words of majors 0x06 to 0x07. -/
def rowsComparesAndConversions : List Row :=
  [⟨0x7F800000, 0x18000000, fun w => .icmp (bit w 31) (fld w 20 3) (fld w 17 3) (bit w 16) (bit w 15) (bit w 14) (fld w 7 7) (fld w 0 7)⟩,
   ⟨0x7F800000, 0x18800000, fun w => .fcmp (bit w 31) (fld w 20 3) (fld w 17 3) (bit w 16) (bit w 15) (bit w 14) (fld w 7 7) (fld w 0 7)⟩,
   ⟨0x7F803FFF, 0x19000000, fun w => .pand (bit w 31) (fld w 20 3) (fld w 17 3) (fld w 14 3)⟩,
   ⟨0x7F803FFF, 0x19800000, fun w => .por (bit w 31) (fld w 20 3) (fld w 17 3) (fld w 14 3)⟩,
   ⟨0x7F803FFF, 0x1A000000, fun w => .pxor (bit w 31) (fld w 20 3) (fld w 17 3) (fld w 14 3)⟩,
   ⟨0x7F81FFFF, 0x1A800000, fun w => .pnot (bit w 31) (fld w 20 3) (fld w 17 3)⟩,
   ⟨0x7E000000, 0x1C000000, fun w => .cvt (bit w 31) (fld w 23 2) (bit w 22) (fld w 18 4) (fld w 14 4) (fld w 7 7) (fld w 0 7)⟩,
   ⟨0x7F80C000, 0x1E000000, fun w => .cvtn (bit w 31) (bit w 22) (fld w 18 4) (fld w 16 2) (fld w 7 7) (fld w 0 7)⟩,
   ⟨0x7F83C000, 0x1E800000, fun w => .cvtw (bit w 31) (bit w 22) (fld w 18 4) (fld w 7 7) (fld w 0 7)⟩]

/-- Words of majors 0x08 to 0x09. -/
def rowsSpecialAndDivider : List Row :=
  [⟨0x7FA0007F, 0x20000000, fun w => .rcp (bit w 31) (bit w 22) (fld w 14 7) (fld w 7 7)⟩,
   ⟨0x7FA0007F, 0x20800000, fun w => .rsq (bit w 31) (bit w 22) (fld w 14 7) (fld w 7 7)⟩,
   ⟨0x7FA0007F, 0x21000000, fun w => .sqrt (bit w 31) (bit w 22) (fld w 14 7) (fld w 7 7)⟩,
   ⟨0x7FA0007F, 0x21800000, fun w => .exp2 (bit w 31) (bit w 22) (fld w 14 7) (fld w 7 7)⟩,
   ⟨0x7FA0007F, 0x22000000, fun w => .log2 (bit w 31) (bit w 22) (fld w 14 7) (fld w 7 7)⟩,
   ⟨0x7FA0007F, 0x22800000, fun w => .sin (bit w 31) (bit w 22) (fld w 14 7) (fld w 7 7)⟩,
   ⟨0x7FA0007F, 0x23000000, fun w => .cos (bit w 31) (bit w 22) (fld w 14 7) (fld w 7 7)⟩,
   ⟨0x7FA0007F, 0x23800000, fun w => .tanh (bit w 31) (bit w 22) (fld w 14 7) (fld w 7 7)⟩,
   ⟨0x7F800000, 0x24000000, fun w => .divS (bit w 31) (bit w 22) (bit w 21) (fld w 14 7) (fld w 7 7) (fld w 0 7)⟩,
   ⟨0x7F800000, 0x24800000, fun w => .divN (bit w 31) (bit w 22) (bit w 21) (fld w 14 7) (fld w 7 7) (fld w 0 7)⟩,
   ⟨0x7F800000, 0x25000000, fun w => .remS (bit w 31) (bit w 22) (bit w 21) (fld w 14 7) (fld w 7 7) (fld w 0 7)⟩,
   ⟨0x7F800000, 0x25800000, fun w => .remN (bit w 31) (bit w 22) (bit w 21) (fld w 14 7) (fld w 7 7) (fld w 0 7)⟩]

/-- Words of major 0x0A. -/
def rowsCrossLane : List Row :=
  [⟨0x7FC00007, 0x28000000, fun w => .shflIdx (bit w 31) (bit w 21) (fld w 18 3) (fld w 11 7) (fld w 4 7) (bit w 3)⟩,
   ⟨0x7FC00007, 0x28400000, fun w => .shflUp (bit w 31) (bit w 21) (fld w 18 3) (fld w 11 7) (fld w 4 7) (bit w 3)⟩,
   ⟨0x7FC00007, 0x28800000, fun w => .shflDn (bit w 31) (bit w 21) (fld w 18 3) (fld w 11 7) (fld w 4 7) (bit w 3)⟩,
   ⟨0x7FC00007, 0x28C00000, fun w => .shflXor (bit w 31) (bit w 21) (fld w 18 3) (fld w 11 7) (fld w 4 7) (bit w 3)⟩,
   ⟨0x7FC00007, 0x29000000, fun w => .bcast (bit w 31) (bit w 21) (fld w 18 3) (fld w 11 7) (fld w 4 7) (bit w 3)⟩,
   ⟨0x7FC2078F, 0x29400000, fun w => .vmask (bit w 31) (bit w 21) (fld w 18 3) (fld w 11 6) (fld w 4 3)⟩,
   ⟨0x7FC3C78F, 0x29800000, fun w => .vany (bit w 31) (bit w 21) (fld w 18 3) (fld w 11 3) (fld w 4 3)⟩,
   ⟨0x7FC3C78F, 0x29C00000, fun w => .vall (bit w 31) (bit w 21) (fld w 18 3) (fld w 11 3) (fld w 4 3)⟩,
   ⟨0x7FC00000, 0x2A000000, fun w => .scanAdd (bit w 31) (bit w 21) (fld w 18 3) (fld w 11 7) (fld w 4 7) (bit w 3) (fld w 0 3)⟩,
   ⟨0x7FC00000, 0x2A400000, fun w => .redAdd (bit w 31) (bit w 21) (fld w 18 3) (fld w 11 7) (fld w 4 7) (bit w 3) (fld w 0 3)⟩,
   ⟨0x7FC00000, 0x2A800000, fun w => .redMax (bit w 31) (bit w 21) (fld w 18 3) (fld w 11 7) (fld w 4 7) (bit w 3) (fld w 0 3)⟩,
   ⟨0x7FE3FFF8, 0x2AC00000, fun w => .part (bit w 31) (fld w 18 3) (fld w 0 3)⟩]

/-- Words of major 0x0B. -/
def rowsMoves : List Row :=
  [⟨0x7E000000, 0x2E000000, fun w => .sel (bit w 31) (fld w 18 7) (fld w 11 7) (fld w 4 7) (fld w 1 3) (bit w 0)⟩,
   ⟨0x7FE0003F, 0x2C000000, fun w => .movV (bit w 31) (fld w 14 7) (fld w 7 7) (bit w 6)⟩,
   ⟨0x7FF0207F, 0x2C200000, fun w => .movS (bit w 31) (fld w 14 6) (fld w 7 6)⟩,
   ⟨0x7FF03C7F, 0x2C400000, fun w => .movQ (bit w 31) (fld w 14 6) (fld w 7 3)⟩,
   ⟨0x7FFE3C7F, 0x2C600000, fun w => .pmov (bit w 31) (fld w 14 3) (fld w 7 3)⟩,
   ⟨0x7FF00003, 0x2C800000, fun w => .vtos (bit w 31) (fld w 14 6) (fld w 7 7) (bit w 6) (fld w 2 4)⟩,
   ⟨0x7FE0207F, 0x2CA00000, fun w => .stov (bit w 31) (fld w 14 7) (fld w 7 6)⟩,
   ⟨0x7FE0003F, 0x2CC00000, fun w => .clz (bit w 31) (fld w 14 7) (fld w 7 7) (bit w 6)⟩,
   ⟨0x7FE0003F, 0x2CE00000, fun w => .popc (bit w 31) (fld w 14 7) (fld w 7 7) (bit w 6)⟩,
   ⟨0x7FE0003F, 0x2D000000, fun w => .brev (bit w 31) (fld w 14 7) (fld w 7 7) (bit w 6)⟩,
   ⟨0x7FE03FFF, 0x2D200000, fun w => .lid (bit w 31) (fld w 14 7)⟩]

/-- Words of majors 0x0C to 0x0D. -/
def rowsScalar : List Row :=
  [⟨0x7FF02040, 0x30000000, fun w => .sadd (bit w 31) (fld w 14 6) (fld w 7 6) (fld w 0 6)⟩,
   ⟨0x7FF02040, 0x30800000, fun w => .ssub (bit w 31) (fld w 14 6) (fld w 7 6) (fld w 0 6)⟩,
   ⟨0x7FF02040, 0x31000000, fun w => .sand (bit w 31) (fld w 14 6) (fld w 7 6) (fld w 0 6)⟩,
   ⟨0x7FF02040, 0x31800000, fun w => .sor (bit w 31) (fld w 14 6) (fld w 7 6) (fld w 0 6)⟩,
   ⟨0x7FF02040, 0x32000000, fun w => .sxor (bit w 31) (fld w 14 6) (fld w 7 6) (fld w 0 6)⟩,
   ⟨0x7FF02040, 0x32800000, fun w => .sshl (bit w 31) (fld w 14 6) (fld w 7 6) (fld w 0 6)⟩,
   ⟨0x7FF02040, 0x33000000, fun w => .sshr (bit w 31) (fld w 14 6) (fld w 7 6) (fld w 0 6)⟩,
   ⟨0x7FF02040, 0x33800000, fun w => .smul (bit w 31) (fld w 14 6) (fld w 7 6) (fld w 0 6)⟩,
   ⟨0x7F800000, 0x34000000, fun w => .saddi (bit w 31) (fld w 17 6) (fld w 11 6) (fld w 0 11)⟩,
   ⟨0x7F800000, 0x34800000, fun w => .sandi (bit w 31) (fld w 17 6) (fld w 11 6) (fld w 0 11)⟩,
   ⟨0x7F800000, 0x35000000, fun w => .sori (bit w 31) (fld w 17 6) (fld w 11 6) (fld w 0 11)⟩,
   ⟨0x7F8007C0, 0x35800000, fun w => .sshli (bit w 31) (fld w 17 6) (fld w 11 6) (fld w 0 6)⟩,
   ⟨0x7F8007C0, 0x36000000, fun w => .sshri (bit w 31) (fld w 17 6) (fld w 11 6) (fld w 0 6)⟩,
   ⟨0x7F81F800, 0x36800000, fun w => .smovi (bit w 31) (fld w 17 6) (fld w 0 11)⟩,
   ⟨0x7F800000, 0x37000000, fun w => .sxori (bit w 31) (fld w 17 6) (fld w 11 6) (fld w 0 11)⟩]

/-- Words of majors 0x0E to 0x0F. -/
def rowsBranches : List Row :=
  [⟨0x7FF00000, 0x38000000, fun w => .br (bit w 31) (fld w 0 20)⟩,
   ⟨0x7F800000, 0x38800000, fun w => .brp (bit w 31) (fld w 20 3) (fld w 0 20)⟩,
   ⟨0x7F800000, 0x39000000, fun w => .brnp (bit w 31) (fld w 20 3) (fld w 0 20)⟩,
   ⟨0x7F800000, 0x39800000, fun w => .sbeq (bit w 31) (fld w 17 6) (fld w 11 6) (fld w 0 11)⟩,
   ⟨0x7F800000, 0x3A000000, fun w => .sbne (bit w 31) (fld w 17 6) (fld w 11 6) (fld w 0 11)⟩,
   ⟨0x7F800000, 0x3A800000, fun w => .sblt (bit w 31) (fld w 17 6) (fld w 11 6) (fld w 0 11)⟩,
   ⟨0x7F800000, 0x3B000000, fun w => .sbge (bit w 31) (fld w 17 6) (fld w 11 6) (fld w 0 11)⟩,
   ⟨0x7F807FFF, 0x3C000000, fun w => .jr (bit w 31) (fld w 16 7) (bit w 15)⟩,
   ⟨0x7FF00000, 0x3C800000, fun w => .call (bit w 31) (fld w 0 20)⟩,
   ⟨0x7F807FFF, 0x3D000000, fun w => .callr (bit w 31) (fld w 16 7) (bit w 15)⟩,
   ⟨0x7F807FFF, 0x3D800000, fun w => .ret (bit w 31) (fld w 16 7) (bit w 15)⟩,
   ⟨0x7FFFFFFF, 0x3E000000, fun w => .join (bit w 31)⟩,
   ⟨0x7FFFFFFF, 0x3E800000, fun w => .exit (bit w 31)⟩]

/-- Words of majors 0x10 to 0x12. -/
def rowsMemory : List Row :=
  [⟨0x7F800007, 0x40000000, fun w => .ldB (bit w 31) (fld w 16 7) (fld w 9 7) (bit w 8) (fld w 3 5)⟩,
   ⟨0x7F800007, 0x40800000, fun w => .ldBs (bit w 31) (fld w 16 7) (fld w 9 7) (bit w 8) (fld w 3 5)⟩,
   ⟨0x7F800007, 0x41000000, fun w => .ldH (bit w 31) (fld w 16 7) (fld w 9 7) (bit w 8) (fld w 3 5)⟩,
   ⟨0x7F800007, 0x41800000, fun w => .ldHs (bit w 31) (fld w 16 7) (fld w 9 7) (bit w 8) (fld w 3 5)⟩,
   ⟨0x7F800007, 0x42000000, fun w => .ldW (bit w 31) (fld w 16 7) (fld w 9 7) (bit w 8) (fld w 3 5)⟩,
   ⟨0x7F800007, 0x42800000, fun w => .ldD (bit w 31) (fld w 16 7) (fld w 9 7) (bit w 8) (fld w 3 5)⟩,
   ⟨0x7F800007, 0x43000000, fun w => .ldQ (bit w 31) (fld w 16 7) (fld w 9 7) (bit w 8) (fld w 3 5)⟩,
   ⟨0x7F800007, 0x44000000, fun w => .stB (bit w 31) (fld w 16 7) (fld w 9 7) (bit w 8) (fld w 3 5)⟩,
   ⟨0x7F800007, 0x44800000, fun w => .stH (bit w 31) (fld w 16 7) (fld w 9 7) (bit w 8) (fld w 3 5)⟩,
   ⟨0x7F800007, 0x45000000, fun w => .stW (bit w 31) (fld w 16 7) (fld w 9 7) (bit w 8) (fld w 3 5)⟩,
   ⟨0x7F800007, 0x45800000, fun w => .stD (bit w 31) (fld w 16 7) (fld w 9 7) (bit w 8) (fld w 3 5)⟩,
   ⟨0x7F800007, 0x46000000, fun w => .stQ (bit w 31) (fld w 16 7) (fld w 9 7) (bit w 8) (fld w 3 5)⟩,
   ⟨0x7F800004, 0x48000000, fun w => .atomAdd (bit w 31) (fld w 16 7) (fld w 9 7) (bit w 8) (fld w 3 5) (bit w 1) (bit w 0)⟩,
   ⟨0x7F800005, 0x48800000, fun w => .atomFadd (bit w 31) (fld w 16 7) (fld w 9 7) (bit w 8) (fld w 3 5) (bit w 1)⟩,
   ⟨0x7F800004, 0x49000000, fun w => .atomMin (bit w 31) (fld w 16 7) (fld w 9 7) (bit w 8) (fld w 3 5) (bit w 1) (bit w 0)⟩,
   ⟨0x7F800004, 0x49800000, fun w => .atomMax (bit w 31) (fld w 16 7) (fld w 9 7) (bit w 8) (fld w 3 5) (bit w 1) (bit w 0)⟩,
   ⟨0x7F800004, 0x4A000000, fun w => .atomAnd (bit w 31) (fld w 16 7) (fld w 9 7) (bit w 8) (fld w 3 5) (bit w 1) (bit w 0)⟩,
   ⟨0x7F800004, 0x4A800000, fun w => .atomOr (bit w 31) (fld w 16 7) (fld w 9 7) (bit w 8) (fld w 3 5) (bit w 1) (bit w 0)⟩,
   ⟨0x7F800004, 0x4B000000, fun w => .atomXor (bit w 31) (fld w 16 7) (fld w 9 7) (bit w 8) (fld w 3 5) (bit w 1) (bit w 0)⟩,
   ⟨0x7F800004, 0x4B800000, fun w => .atomXchg (bit w 31) (fld w 16 7) (fld w 9 7) (bit w 8) (fld w 3 5) (bit w 1) (bit w 0)⟩,
   ⟨0x7F800006, 0x48000006, fun w => .atomCas (bit w 31) (fld w 16 7) (fld w 9 7) (bit w 8) (fld w 3 5) (bit w 0)⟩]

/-- Words of major 0x13. -/
def rowsOrdering : List Row :=
  [⟨0x7F803FFF, 0x4C000000, fun w => .fence (bit w 31) (fld w 20 3) (fld w 14 6)⟩,
   ⟨0x7F800FFF, 0x4C800000, fun w => .waitc (bit w 31) (fld w 20 3) (fld w 12 8)⟩,
   ⟨0x7F87FFFF, 0x4D000000, fun w => .bar (bit w 31) (fld w 19 4)⟩,
   ⟨0x7F87FFFF, 0x4D800000, fun w => .arrive (bit w 31) (fld w 19 4)⟩,
   ⟨0x7FFFFFFF, 0x4E000000, fun w => .trig (bit w 31)⟩]

/-- Words of majors 0x14 to 0x15. -/
def rowsScratchpad : List Row :=
  [⟨0x7F800007, 0x50000000, fun w => .lds (bit w 31) (fld w 16 7) (fld w 9 7) (bit w 8) (fld w 3 5)⟩,
   ⟨0x7F800007, 0x50800000, fun w => .sts (bit w 31) (fld w 16 7) (fld w 9 7) (bit w 8) (fld w 3 5)⟩,
   ⟨0x7FE001FF, 0x51000000, fun w => .spAlloc (bit w 31) (fld w 15 6) (fld w 9 6)⟩,
   ⟨0x7FE07FFF, 0x51200000, fun w => .spFree (bit w 31) (fld w 15 6)⟩,
   ⟨0x7FE001FF, 0x51400000, fun w => .bheld (bit w 31) (fld w 15 6) (fld w 9 6)⟩,
   ⟨0x7FE07E1F, 0x51600000, fun w => .bhand (bit w 31) (fld w 15 6) (fld w 5 4)⟩,
   ⟨0x7F800000, 0x51800000, fun w => .sywInit (bit w 31) (fld w 17 6) (fld w 11 6) (fld w 0 11)⟩,
   ⟨0x7F80001F, 0x52000000, fun w => .sywWait (bit w 31) (fld w 17 6) (fld w 11 6) (fld w 5 6)⟩,
   ⟨0x7FC0000F, 0x52800000, fun w => .lock (bit w 31) (fld w 16 6) (fld w 10 6) (fld w 4 6)⟩,
   ⟨0x7FFF000F, 0x52C00000, fun w => .unlock (bit w 31) (fld w 10 6) (fld w 4 6)⟩,
   ⟨0x7FC00FFF, 0x53000000, fun w => .spcvt (bit w 31) (fld w 16 6) (fld w 12 4)⟩,
   ⟨0x7FC00FFF, 0x53400000, fun w => .l1cvt (bit w 31) (fld w 16 6) (fld w 12 4)⟩,
   ⟨0x7F8007FF, 0x54000000, fun w => .rbump (bit w 31) (fld w 17 6) (fld w 11 6)⟩,
   ⟨0x7F8007FF, 0x54800000, fun w => .rget (bit w 31) (fld w 17 6) (fld w 11 6)⟩,
   ⟨0x7F8007FF, 0x55000000, fun w => .racq (bit w 31) (fld w 17 6) (fld w 11 6)⟩]

/-- Words of majors 0x16 to 0x17. -/
def rowsMatrix : List Row :=
  [⟨0x7F8007FF, 0x58000000, fun w => .shape (bit w 31) (fld w 17 6) (fld w 11 6)⟩,
   ⟨0x7F801FFF, 0x58800000, fun w => .fmtset (bit w 31) (fld w 19 4) (fld w 13 6)⟩,
   ⟨0x7F81FF00, 0x59000000, fun w => .mma (bit w 31) (fld w 17 6) (fld w 0 8)⟩,
   ⟨0x7F81FF00, 0x59800000, fun w => .mmas (bit w 31) (fld w 17 6) (fld w 0 8)⟩,
   ⟨0x7F81FF00, 0x5A000000, fun w => .accz (bit w 31) (fld w 17 6) (fld w 0 8)⟩,
   ⟨0x7F81FF00, 0x5A800000, fun w => .accld (bit w 31) (fld w 17 6) (fld w 0 8)⟩,
   ⟨0x7F81FF00, 0x5B000000, fun w => .accst (bit w 31) (fld w 17 6) (fld w 0 8)⟩,
   ⟨0x7F80FF00, 0x5B800000, fun w => .drain (bit w 31) (fld w 17 6) (bit w 16) (fld w 0 8)⟩,
   ⟨0x7F81FF00, 0x5C000000, fun w => .copyIn (bit w 31) (fld w 17 6) (fld w 0 8)⟩,
   ⟨0x7F81FF00, 0x5C800000, fun w => .copyOut (bit w 31) (fld w 17 6) (fld w 0 8)⟩,
   ⟨0x7F81FF00, 0x5D000000, fun w => .copyPf (bit w 31) (fld w 17 6) (fld w 0 8)⟩,
   ⟨0x7F801FFF, 0x5D800000, fun w => .tsrSet (bit w 31) (fld w 19 4) (fld w 13 6)⟩]

/-- Words of major 0x18. -/
def rowsAttention : List Row :=
  [⟨0x7F80FF00, 0x60000000, fun w => .attn (bit w 31) (fld w 17 6) (bit w 16) (fld w 0 8)⟩,
   ⟨0x7F81FF00, 0x60800000, fun w => .attnFin (bit w 31) (fld w 17 6) (fld w 0 8)⟩,
   ⟨0x7FF000FF, 0x61000000, fun w => .hdlMk (bit w 31) (fld w 14 6) (fld w 8 6)⟩,
   ⟨0x7FF000FF, 0x61100000, fun w => .hdlExt (bit w 31) (fld w 14 6) (fld w 8 6)⟩,
   ⟨0x7FF000FF, 0x61200000, fun w => .hdlTrunc (bit w 31) (fld w 14 6) (fld w 8 6)⟩,
   ⟨0x7FF000FF, 0x61300000, fun w => .hdlRef (bit w 31) (fld w 14 6) (fld w 8 6)⟩,
   ⟨0x7FF000FF, 0x61400000, fun w => .hdlRel (bit w 31) (fld w 14 6) (fld w 8 6)⟩,
   ⟨0x7FF000FF, 0x61800000, fun w => .pfxFind (bit w 31) (fld w 14 6) (fld w 8 6)⟩,
   ⟨0x7FF000FF, 0x61900000, fun w => .pfxIns (bit w 31) (fld w 14 6) (fld w 8 6)⟩]

/-- Words of major 0x19. -/
def rowsRows : List Row :=
  [⟨0x7F8007FF, 0x64000000, fun w => .sweepReg (bit w 31) (fld w 17 6) (fld w 11 6)⟩,
   ⟨0x7F8007FF, 0x64800000, fun w => .sweepDereg (bit w 31) (fld w 17 6) (fld w 11 6)⟩,
   ⟨0x7F807F00, 0x65000000, fun w => .rowreq (bit w 31) (fld w 17 6) (fld w 15 2) (fld w 0 8)⟩,
   ⟨0x7F8007FF, 0x65800000, fun w => .sweepPos (bit w 31) (fld w 17 6) (fld w 11 6)⟩,
   ⟨0x7F8007FF, 0x66000000, fun w => .sweepWait (bit w 31) (fld w 17 6) (fld w 11 6)⟩]

/-- Words of majors 0x1A to 0x1B. -/
def rowsSiblings : List Row :=
  [⟨0x7F81FFFF, 0x68000000, fun w => .sibPost (bit w 31) (fld w 17 6)⟩,
   ⟨0x7FFFFFFF, 0x68800000, fun w => .sibHold (bit w 31)⟩,
   ⟨0x7FFFFFFF, 0x69000000, fun w => .sibFree (bit w 31)⟩,
   ⟨0x7F81FFFF, 0x69800000, fun w => .sibStat (bit w 31) (fld w 17 6)⟩,
   ⟨0x7FFFFFFF, 0x6A000000, fun w => .sibCp (bit w 31)⟩,
   ⟨0x7F81FF00, 0x6C000000, fun w => .collAr (bit w 31) (fld w 17 6) (fld w 0 8)⟩,
   ⟨0x7F81FF00, 0x6C800000, fun w => .collAg (bit w 31) (fld w 17 6) (fld w 0 8)⟩,
   ⟨0x7F81FF00, 0x6D000000, fun w => .collRs (bit w 31) (fld w 17 6) (fld w 0 8)⟩,
   ⟨0x7F81FF00, 0x6D800000, fun w => .collBc (bit w 31) (fld w 17 6) (fld w 0 8)⟩,
   ⟨0x7F81FFFF, 0x6E000000, fun w => .collAbort (bit w 31) (fld w 17 6)⟩,
   ⟨0x7F8007FF, 0x6E800000, fun w => .collRing (bit w 31) (fld w 17 6) (fld w 11 6)⟩]

/-- Words of major 0x1C. -/
def rowsQueues : List Row :=
  [⟨0x7F80FFFF, 0x70000000, fun w => .qbind (bit w 31) (fld w 20 3) (fld w 16 4)⟩,
   ⟨0x7F8FFFFF, 0x70800000, fun w => .qfree (bit w 31) (fld w 20 3)⟩,
   ⟨0x7F803FFF, 0x71000000, fun w => .qtry (bit w 31) (fld w 17 6) (fld w 14 3)⟩,
   ⟨0x7F803FFF, 0x71800000, fun w => .qpeek (bit w 31) (fld w 17 6) (fld w 14 3)⟩]

/-- Words of major 0x1D. -/
def rowsSystem : List Row :=
  [⟨0x7F801FFF, 0x74000000, fun w => .trap (bit w 31) (fld w 13 10)⟩,
   ⟨0x7F80001F, 0x74800000, fun w => .sget (bit w 31) (bit w 22) (fld w 15 7) (fld w 5 10)⟩,
   ⟨0x7F80000F, 0x75000000, fun w => .sset (bit w 31) (bit w 22) (fld w 15 7) (fld w 5 10) (bit w 4)⟩,
   ⟨0x7FF03FFF, 0x75800000, fun w => .tsrd (bit w 31) (fld w 14 6)⟩,
   ⟨0x7FE03FFF, 0x75A00000, fun w => .rng (bit w 31) (fld w 14 7)⟩,
   ⟨0x7FF000FF, 0x75C00000, fun w => .launch (bit w 31) (fld w 14 6) (fld w 8 6)⟩,
   ⟨0x7FF000FF, 0x75E00000, fun w => .cinv (bit w 31) (fld w 14 6) (fld w 8 6)⟩,
   ⟨0x7FFFFFFF, 0x76000000, fun w => .eret (bit w 31)⟩,
   ⟨0x7FFFFFFF, 0x76100000, fun w => .brk (bit w 31)⟩,
   ⟨0x7FFFFFFF, 0x76200000, fun w => .halt (bit w 31)⟩,
   ⟨0x7FFFFFFF, 0x76300000, fun w => .yield (bit w 31)⟩,
   ⟨0xFFFFFFFF, 0xF6400000, fun _ => .wfi⟩,
   ⟨0xFFFFFFFF, 0xF6500000, fun _ => .iret⟩]

/-- Words of major 0x1F. -/
def rowsHints : List Row :=
  [⟨0x7FFFFFFF, 0x7C000000, fun w => .nop (bit w 31)⟩,
   ⟨0x7FFFFFFF, 0x7C400000, fun w => .land (bit w 31)⟩,
   ⟨0x7FE00000, 0x7C800000, fun w => .trail (bit w 31) (fld w 14 7) (fld w 7 7) (fld w 0 7)⟩,
   ⟨0xFFC00000, 0x7CC00000, fun w => .hx (fld w 0 22)⟩,
   ⟨0xFFC00000, 0x7D000000, fun w => .hm (fld w 0 22)⟩,
   ⟨0xFFF80000, 0x7D400000, fun w => .hg (bit w 18) (bit w 17) (bit w 16) (fld w 8 8) (fld w 0 8)⟩,
   ⟨0x7FC00000, 0x7D800000, fun w => .hs (bit w 31) (fld w 0 22)⟩]

/-- The rows of every instruction word (Tables 17.4, 17.7, 17.8, 17.10 and 17.11). -/
def allRows : List Row :=
  rowsVectorInteger ++ rowsFp32AndPacked ++ rowsComparesAndConversions ++ rowsSpecialAndDivider ++ rowsCrossLane ++ rowsMoves ++
  rowsScalar ++ rowsBranches ++ rowsMemory ++ rowsOrdering ++ rowsScratchpad ++ rowsMatrix ++
  rowsAttention ++ rowsRows ++ rowsSiblings ++ rowsQueues ++ rowsSystem ++ rowsHints

/-- The instruction that a word's fixed bits select, before the limits on its fields. -/
def layout (w : Word) : Option Instr := (allRows.find? (·.fits w)).map (·.build w)

/-- R294: the instruction of a word, or none when the word raises the illegal-instruction fault at decode. -/
def decodeWord (w : Word) : Option Instr := (layout w).filter Instr.wf

/-- R1: four bytes, the least significant first, as a word. -/
def wordOfBytes (b0 b1 b2 b3 : Byte) : Word := b3 ++ b2 ++ b1 ++ b0

/-- R1: the bytes of a word, the least significant first. -/
def bytesOfWord (w : Word) : List Byte :=
  [w.extractLsb' 0 8, w.extractLsb' 8 8, w.extractLsb' 16 8, w.extractLsb' 24 8]

/-- Decode the instruction at the head of a list of bytes and give the bytes after it; fewer than four bytes are refused. -/
def decodeBytes : List Byte → Option (Instr × List Byte)
  | b0 :: b1 :: b2 :: b3 :: rest => (decodeWord (wordOfBytes b0 b1 b2 b3)).map (·, rest)
  | [] => none
  | [_] => none
  | [_, _] => none
  | [_, _, _] => none

/-- The instruction that the decoder reads from bits numbered as the opcode table numbers them (every word has 32 bits, the
bits above `nbits` are 0), laid out in memory as R1 and R274 give. -/
def decodeTableWord (nbits w : Nat) : Option Instr :=
  (decodeBytes (bytesOfWord (BitVec.ofNat 32 (w % 2 ^ nbits)))).map (·.1)

/-- A field at its place in a word. -/
def put {n : Nat} (x : BitVec n) (lo : Nat) : Word := x.setWidth 32 <<< lo

/-- A flag at its place in a word. -/
def putBit (x : Bool) (lo : Nat) : Word := put (BitVec.ofBool x) lo

/-- The immediate of shape AI: bit 7 at [21], the rest at [6:0] (R277). -/
def putImm8 (i : BitVec 8) : Word := put (i.extractLsb' 7 1) 21 ||| put (i.extractLsb' 0 7) 0

/-- The word of an instruction, from the same tables; an event has no word. -/
def encode : Instr → Word
  | .add fin la lb d a b => 0x04000000#32 ||| putBit fin 31 ||| putBit la 22 ||| putBit lb 21 ||| put d 14 ||| put a 7 ||| put b 0
  | .sub fin la lb d a b => 0x04800000#32 ||| putBit fin 31 ||| putBit la 22 ||| putBit lb 21 ||| put d 14 ||| put a 7 ||| put b 0
  | .and fin la lb d a b => 0x05000000#32 ||| putBit fin 31 ||| putBit la 22 ||| putBit lb 21 ||| put d 14 ||| put a 7 ||| put b 0
  | .or fin la lb d a b => 0x05800000#32 ||| putBit fin 31 ||| putBit la 22 ||| putBit lb 21 ||| put d 14 ||| put a 7 ||| put b 0
  | .xor fin la lb d a b => 0x06000000#32 ||| putBit fin 31 ||| putBit la 22 ||| putBit lb 21 ||| put d 14 ||| put a 7 ||| put b 0
  | .shl fin la lb d a b => 0x06800000#32 ||| putBit fin 31 ||| putBit la 22 ||| putBit lb 21 ||| put d 14 ||| put a 7 ||| put b 0
  | .shr fin la lb d a b => 0x07000000#32 ||| putBit fin 31 ||| putBit la 22 ||| putBit lb 21 ||| put d 14 ||| put a 7 ||| put b 0
  | .sra fin la lb d a b => 0x07800000#32 ||| putBit fin 31 ||| putBit la 22 ||| putBit lb 21 ||| put d 14 ||| put a 7 ||| put b 0
  | .mul fin la lb d a b => 0x08000000#32 ||| putBit fin 31 ||| putBit la 22 ||| putBit lb 21 ||| put d 14 ||| put a 7 ||| put b 0
  | .mulhS fin la lb d a b => 0x08800000#32 ||| putBit fin 31 ||| putBit la 22 ||| putBit lb 21 ||| put d 14 ||| put a 7 ||| put b 0
  | .mulhN fin la lb d a b => 0x09000000#32 ||| putBit fin 31 ||| putBit la 22 ||| putBit lb 21 ||| put d 14 ||| put a 7 ||| put b 0
  | .minS fin la lb d a b => 0x09800000#32 ||| putBit fin 31 ||| putBit la 22 ||| putBit lb 21 ||| put d 14 ||| put a 7 ||| put b 0
  | .maxS fin la lb d a b => 0x0A000000#32 ||| putBit fin 31 ||| putBit la 22 ||| putBit lb 21 ||| put d 14 ||| put a 7 ||| put b 0
  | .minN fin la lb d a b => 0x0A800000#32 ||| putBit fin 31 ||| putBit la 22 ||| putBit lb 21 ||| put d 14 ||| put a 7 ||| put b 0
  | .maxN fin la lb d a b => 0x0B000000#32 ||| putBit fin 31 ||| putBit la 22 ||| putBit lb 21 ||| put d 14 ||| put a 7 ||| put b 0
  | .absdS fin la lb d a b => 0x0B800000#32 ||| putBit fin 31 ||| putBit la 22 ||| putBit lb 21 ||| put d 14 ||| put a 7 ||| put b 0
  | .addi fin la i d a => 0x0C000000#32 ||| putBit fin 31 ||| putBit la 22 ||| putImm8 i ||| put d 14 ||| put a 7
  | .andi fin la i d a => 0x0C800000#32 ||| putBit fin 31 ||| putBit la 22 ||| putImm8 i ||| put d 14 ||| put a 7
  | .ori fin la i d a => 0x0D000000#32 ||| putBit fin 31 ||| putBit la 22 ||| putImm8 i ||| put d 14 ||| put a 7
  | .xori fin la i d a => 0x0D800000#32 ||| putBit fin 31 ||| putBit la 22 ||| putImm8 i ||| put d 14 ||| put a 7
  | .shli fin la d a i => 0x0E000000#32 ||| putBit fin 31 ||| putBit la 22 ||| put d 14 ||| put a 7 ||| put i 0
  | .shri fin la d a i => 0x0E800000#32 ||| putBit fin 31 ||| putBit la 22 ||| put d 14 ||| put a 7 ||| put i 0
  | .srai fin la d a i => 0x0F000000#32 ||| putBit fin 31 ||| putBit la 22 ||| put d 14 ||| put a 7 ||| put i 0
  | .movi fin i d => 0x0F800000#32 ||| putBit fin 31 ||| putImm8 i ||| put d 14
  | .fadd fin la lb d a b => 0x10000000#32 ||| putBit fin 31 ||| putBit la 22 ||| putBit lb 21 ||| put d 14 ||| put a 7 ||| put b 0
  | .fsub fin la lb d a b => 0x10800000#32 ||| putBit fin 31 ||| putBit la 22 ||| putBit lb 21 ||| put d 14 ||| put a 7 ||| put b 0
  | .fmul fin la lb d a b => 0x11000000#32 ||| putBit fin 31 ||| putBit la 22 ||| putBit lb 21 ||| put d 14 ||| put a 7 ||| put b 0
  | .ffma fin la lb d a b => 0x11800000#32 ||| putBit fin 31 ||| putBit la 22 ||| putBit lb 21 ||| put d 14 ||| put a 7 ||| put b 0
  | .fmin fin la lb d a b => 0x12000000#32 ||| putBit fin 31 ||| putBit la 22 ||| putBit lb 21 ||| put d 14 ||| put a 7 ||| put b 0
  | .fmax fin la lb d a b => 0x12800000#32 ||| putBit fin 31 ||| putBit la 22 ||| putBit lb 21 ||| put d 14 ||| put a 7 ||| put b 0
  | .fsgn fin la lb d a b => 0x13000000#32 ||| putBit fin 31 ||| putBit la 22 ||| putBit lb 21 ||| put d 14 ||| put a 7 ||| put b 0
  | .frnd fin la d a rm => 0x13800000#32 ||| putBit fin 31 ||| putBit la 22 ||| put d 14 ||| put a 7 ||| put rm 0
  | .hadd fin la ty d a b => 0x14000000#32 ||| putBit fin 31 ||| putBit la 22 ||| putBit ty 21 ||| put d 14 ||| put a 7 ||| put b 0
  | .hsub fin la ty d a b => 0x14800000#32 ||| putBit fin 31 ||| putBit la 22 ||| putBit ty 21 ||| put d 14 ||| put a 7 ||| put b 0
  | .hmul fin la ty d a b => 0x15000000#32 ||| putBit fin 31 ||| putBit la 22 ||| putBit ty 21 ||| put d 14 ||| put a 7 ||| put b 0
  | .hfma fin la ty d a b => 0x15800000#32 ||| putBit fin 31 ||| putBit la 22 ||| putBit ty 21 ||| put d 14 ||| put a 7 ||| put b 0
  | .hmin fin la ty d a b => 0x16000000#32 ||| putBit fin 31 ||| putBit la 22 ||| putBit ty 21 ||| put d 14 ||| put a 7 ||| put b 0
  | .hmax fin la ty d a b => 0x16800000#32 ||| putBit fin 31 ||| putBit la 22 ||| putBit ty 21 ||| put d 14 ||| put a 7 ||| put b 0
  | .icmp fin p cond x la lb a b => 0x18000000#32 ||| putBit fin 31 ||| put p 20 ||| put cond 17 ||| putBit x 16 ||| putBit la 15 ||| putBit lb 14 ||| put a 7 ||| put b 0
  | .fcmp fin p cond x la lb a b => 0x18800000#32 ||| putBit fin 31 ||| put p 20 ||| put cond 17 ||| putBit x 16 ||| putBit la 15 ||| putBit lb 14 ||| put a 7 ||| put b 0
  | .pand fin d a b => 0x19000000#32 ||| putBit fin 31 ||| put d 20 ||| put a 17 ||| put b 14
  | .por fin d a b => 0x19800000#32 ||| putBit fin 31 ||| put d 20 ||| put a 17 ||| put b 14
  | .pxor fin d a b => 0x1A000000#32 ||| putBit fin 31 ||| put d 20 ||| put a 17 ||| put b 14
  | .pnot fin d a => 0x1A800000#32 ||| putBit fin 31 ||| put d 20 ||| put a 17
  | .cvt fin rm la td ta d a => 0x1C000000#32 ||| putBit fin 31 ||| put rm 23 ||| putBit la 22 ||| put td 18 ||| put ta 14 ||| put d 7 ||| put a 0
  | .cvtn fin la fmt rm d a => 0x1E000000#32 ||| putBit fin 31 ||| putBit la 22 ||| put fmt 18 ||| put rm 16 ||| put d 7 ||| put a 0
  | .cvtw fin la fmt d a => 0x1E800000#32 ||| putBit fin 31 ||| putBit la 22 ||| put fmt 18 ||| put d 7 ||| put a 0
  | .rcp fin la d a => 0x20000000#32 ||| putBit fin 31 ||| putBit la 22 ||| put d 14 ||| put a 7
  | .rsq fin la d a => 0x20800000#32 ||| putBit fin 31 ||| putBit la 22 ||| put d 14 ||| put a 7
  | .sqrt fin la d a => 0x21000000#32 ||| putBit fin 31 ||| putBit la 22 ||| put d 14 ||| put a 7
  | .exp2 fin la d a => 0x21800000#32 ||| putBit fin 31 ||| putBit la 22 ||| put d 14 ||| put a 7
  | .log2 fin la d a => 0x22000000#32 ||| putBit fin 31 ||| putBit la 22 ||| put d 14 ||| put a 7
  | .sin fin la d a => 0x22800000#32 ||| putBit fin 31 ||| putBit la 22 ||| put d 14 ||| put a 7
  | .cos fin la d a => 0x23000000#32 ||| putBit fin 31 ||| putBit la 22 ||| put d 14 ||| put a 7
  | .tanh fin la d a => 0x23800000#32 ||| putBit fin 31 ||| putBit la 22 ||| put d 14 ||| put a 7
  | .divS fin la lb d a b => 0x24000000#32 ||| putBit fin 31 ||| putBit la 22 ||| putBit lb 21 ||| put d 14 ||| put a 7 ||| put b 0
  | .divN fin la lb d a b => 0x24800000#32 ||| putBit fin 31 ||| putBit la 22 ||| putBit lb 21 ||| put d 14 ||| put a 7 ||| put b 0
  | .remS fin la lb d a b => 0x25000000#32 ||| putBit fin 31 ||| putBit la 22 ||| putBit lb 21 ||| put d 14 ||| put a 7 ||| put b 0
  | .remN fin la lb d a b => 0x25800000#32 ||| putBit fin 31 ||| putBit la 22 ||| putBit lb 21 ||| put d 14 ||| put a 7 ||| put b 0
  | .shflIdx fin p g d a la => 0x28000000#32 ||| putBit fin 31 ||| putBit p 21 ||| put g 18 ||| put d 11 ||| put a 4 ||| putBit la 3
  | .shflUp fin p g d a la => 0x28400000#32 ||| putBit fin 31 ||| putBit p 21 ||| put g 18 ||| put d 11 ||| put a 4 ||| putBit la 3
  | .shflDn fin p g d a la => 0x28800000#32 ||| putBit fin 31 ||| putBit p 21 ||| put g 18 ||| put d 11 ||| put a 4 ||| putBit la 3
  | .shflXor fin p g d a la => 0x28C00000#32 ||| putBit fin 31 ||| putBit p 21 ||| put g 18 ||| put d 11 ||| put a 4 ||| putBit la 3
  | .bcast fin p g d a la => 0x29000000#32 ||| putBit fin 31 ||| putBit p 21 ||| put g 18 ||| put d 11 ||| put a 4 ||| putBit la 3
  | .vmask fin p g d a => 0x29400000#32 ||| putBit fin 31 ||| putBit p 21 ||| put g 18 ||| put d 11 ||| put a 4
  | .vany fin p g d a => 0x29800000#32 ||| putBit fin 31 ||| putBit p 21 ||| put g 18 ||| put d 11 ||| put a 4
  | .vall fin p g d a => 0x29C00000#32 ||| putBit fin 31 ||| putBit p 21 ||| put g 18 ||| put d 11 ||| put a 4
  | .scanAdd fin p g d a la t => 0x2A000000#32 ||| putBit fin 31 ||| putBit p 21 ||| put g 18 ||| put d 11 ||| put a 4 ||| putBit la 3 ||| put t 0
  | .redAdd fin p g d a la t => 0x2A400000#32 ||| putBit fin 31 ||| putBit p 21 ||| put g 18 ||| put d 11 ||| put a 4 ||| putBit la 3 ||| put t 0
  | .redMax fin p g d a la t => 0x2A800000#32 ||| putBit fin 31 ||| putBit p 21 ||| put g 18 ||| put d 11 ||| put a 4 ||| putBit la 3 ||| put t 0
  | .part fin g w => 0x2AC00000#32 ||| putBit fin 31 ||| put g 18 ||| put w 0
  | .sel fin d a b p la => 0x2E000000#32 ||| putBit fin 31 ||| put d 18 ||| put a 11 ||| put b 4 ||| put p 1 ||| putBit la 0
  | .movV fin x y la => 0x2C000000#32 ||| putBit fin 31 ||| put x 14 ||| put y 7 ||| putBit la 6
  | .movS fin x y => 0x2C200000#32 ||| putBit fin 31 ||| put x 14 ||| put y 7
  | .movQ fin x y => 0x2C400000#32 ||| putBit fin 31 ||| put x 14 ||| put y 7
  | .pmov fin x y => 0x2C600000#32 ||| putBit fin 31 ||| put x 14 ||| put y 7
  | .vtos fin x y la lane => 0x2C800000#32 ||| putBit fin 31 ||| put x 14 ||| put y 7 ||| putBit la 6 ||| put lane 2
  | .stov fin x y => 0x2CA00000#32 ||| putBit fin 31 ||| put x 14 ||| put y 7
  | .clz fin x y la => 0x2CC00000#32 ||| putBit fin 31 ||| put x 14 ||| put y 7 ||| putBit la 6
  | .popc fin x y la => 0x2CE00000#32 ||| putBit fin 31 ||| put x 14 ||| put y 7 ||| putBit la 6
  | .brev fin x y la => 0x2D000000#32 ||| putBit fin 31 ||| put x 14 ||| put y 7 ||| putBit la 6
  | .lid fin x => 0x2D200000#32 ||| putBit fin 31 ||| put x 14
  | .sadd fin d a b => 0x30000000#32 ||| putBit fin 31 ||| put d 14 ||| put a 7 ||| put b 0
  | .ssub fin d a b => 0x30800000#32 ||| putBit fin 31 ||| put d 14 ||| put a 7 ||| put b 0
  | .sand fin d a b => 0x31000000#32 ||| putBit fin 31 ||| put d 14 ||| put a 7 ||| put b 0
  | .sor fin d a b => 0x31800000#32 ||| putBit fin 31 ||| put d 14 ||| put a 7 ||| put b 0
  | .sxor fin d a b => 0x32000000#32 ||| putBit fin 31 ||| put d 14 ||| put a 7 ||| put b 0
  | .sshl fin d a b => 0x32800000#32 ||| putBit fin 31 ||| put d 14 ||| put a 7 ||| put b 0
  | .sshr fin d a b => 0x33000000#32 ||| putBit fin 31 ||| put d 14 ||| put a 7 ||| put b 0
  | .smul fin d a b => 0x33800000#32 ||| putBit fin 31 ||| put d 14 ||| put a 7 ||| put b 0
  | .saddi fin d a i => 0x34000000#32 ||| putBit fin 31 ||| put d 17 ||| put a 11 ||| put i 0
  | .sandi fin d a i => 0x34800000#32 ||| putBit fin 31 ||| put d 17 ||| put a 11 ||| put i 0
  | .sori fin d a i => 0x35000000#32 ||| putBit fin 31 ||| put d 17 ||| put a 11 ||| put i 0
  | .sshli fin d a i => 0x35800000#32 ||| putBit fin 31 ||| put d 17 ||| put a 11 ||| put i 0
  | .sshri fin d a i => 0x36000000#32 ||| putBit fin 31 ||| put d 17 ||| put a 11 ||| put i 0
  | .smovi fin d i => 0x36800000#32 ||| putBit fin 31 ||| put d 17 ||| put i 0
  | .sxori fin d a i => 0x37000000#32 ||| putBit fin 31 ||| put d 17 ||| put a 11 ||| put i 0
  | .br fin off => 0x38000000#32 ||| putBit fin 31 ||| put off 0
  | .brp fin p off => 0x38800000#32 ||| putBit fin 31 ||| put p 20 ||| put off 0
  | .brnp fin p off => 0x39000000#32 ||| putBit fin 31 ||| put p 20 ||| put off 0
  | .sbeq fin a b off => 0x39800000#32 ||| putBit fin 31 ||| put a 17 ||| put b 11 ||| put off 0
  | .sbne fin a b off => 0x3A000000#32 ||| putBit fin 31 ||| put a 17 ||| put b 11 ||| put off 0
  | .sblt fin a b off => 0x3A800000#32 ||| putBit fin 31 ||| put a 17 ||| put b 11 ||| put off 0
  | .sbge fin a b off => 0x3B000000#32 ||| putBit fin 31 ||| put a 17 ||| put b 11 ||| put off 0
  | .jr fin a la => 0x3C000000#32 ||| putBit fin 31 ||| put a 16 ||| putBit la 15
  | .call fin off => 0x3C800000#32 ||| putBit fin 31 ||| put off 0
  | .callr fin a la => 0x3D000000#32 ||| putBit fin 31 ||| put a 16 ||| putBit la 15
  | .ret fin a la => 0x3D800000#32 ||| putBit fin 31 ||| put a 16 ||| putBit la 15
  | .join fin => 0x3E000000#32 ||| putBit fin 31
  | .exit fin => 0x3E800000#32 ||| putBit fin 31
  | .ldB fin data off lu base => 0x40000000#32 ||| putBit fin 31 ||| put data 16 ||| put off 9 ||| putBit lu 8 ||| put base 3
  | .ldBs fin data off lu base => 0x40800000#32 ||| putBit fin 31 ||| put data 16 ||| put off 9 ||| putBit lu 8 ||| put base 3
  | .ldH fin data off lu base => 0x41000000#32 ||| putBit fin 31 ||| put data 16 ||| put off 9 ||| putBit lu 8 ||| put base 3
  | .ldHs fin data off lu base => 0x41800000#32 ||| putBit fin 31 ||| put data 16 ||| put off 9 ||| putBit lu 8 ||| put base 3
  | .ldW fin data off lu base => 0x42000000#32 ||| putBit fin 31 ||| put data 16 ||| put off 9 ||| putBit lu 8 ||| put base 3
  | .ldD fin data off lu base => 0x42800000#32 ||| putBit fin 31 ||| put data 16 ||| put off 9 ||| putBit lu 8 ||| put base 3
  | .ldQ fin data off lu base => 0x43000000#32 ||| putBit fin 31 ||| put data 16 ||| put off 9 ||| putBit lu 8 ||| put base 3
  | .stB fin data off lu base => 0x44000000#32 ||| putBit fin 31 ||| put data 16 ||| put off 9 ||| putBit lu 8 ||| put base 3
  | .stH fin data off lu base => 0x44800000#32 ||| putBit fin 31 ||| put data 16 ||| put off 9 ||| putBit lu 8 ||| put base 3
  | .stW fin data off lu base => 0x45000000#32 ||| putBit fin 31 ||| put data 16 ||| put off 9 ||| putBit lu 8 ||| put base 3
  | .stD fin data off lu base => 0x45800000#32 ||| putBit fin 31 ||| put data 16 ||| put off 9 ||| putBit lu 8 ||| put base 3
  | .stQ fin data off lu base => 0x46000000#32 ||| putBit fin 31 ||| put data 16 ||| put off 9 ||| putBit lu 8 ||| put base 3
  | .atomAdd fin data off lu base ret uns => 0x48000000#32 ||| putBit fin 31 ||| put data 16 ||| put off 9 ||| putBit lu 8 ||| put base 3 ||| putBit ret 1 ||| putBit uns 0
  | .atomFadd fin data off lu base ret => 0x48800000#32 ||| putBit fin 31 ||| put data 16 ||| put off 9 ||| putBit lu 8 ||| put base 3 ||| putBit ret 1
  | .atomMin fin data off lu base ret uns => 0x49000000#32 ||| putBit fin 31 ||| put data 16 ||| put off 9 ||| putBit lu 8 ||| put base 3 ||| putBit ret 1 ||| putBit uns 0
  | .atomMax fin data off lu base ret uns => 0x49800000#32 ||| putBit fin 31 ||| put data 16 ||| put off 9 ||| putBit lu 8 ||| put base 3 ||| putBit ret 1 ||| putBit uns 0
  | .atomAnd fin data off lu base ret uns => 0x4A000000#32 ||| putBit fin 31 ||| put data 16 ||| put off 9 ||| putBit lu 8 ||| put base 3 ||| putBit ret 1 ||| putBit uns 0
  | .atomOr fin data off lu base ret uns => 0x4A800000#32 ||| putBit fin 31 ||| put data 16 ||| put off 9 ||| putBit lu 8 ||| put base 3 ||| putBit ret 1 ||| putBit uns 0
  | .atomXor fin data off lu base ret uns => 0x4B000000#32 ||| putBit fin 31 ||| put data 16 ||| put off 9 ||| putBit lu 8 ||| put base 3 ||| putBit ret 1 ||| putBit uns 0
  | .atomXchg fin data off lu base ret uns => 0x4B800000#32 ||| putBit fin 31 ||| put data 16 ||| put off 9 ||| putBit lu 8 ||| put base 3 ||| putBit ret 1 ||| putBit uns 0
  | .atomCas fin data off lu base uns => 0x48000006#32 ||| putBit fin 31 ||| put data 16 ||| put off 9 ||| putBit lu 8 ||| put base 3 ||| putBit uns 0
  | .fence fin scope d => 0x4C000000#32 ||| putBit fin 31 ||| put scope 20 ||| put d 14
  | .waitc fin cls n => 0x4C800000#32 ||| putBit fin 31 ||| put cls 20 ||| put n 12
  | .bar fin id => 0x4D000000#32 ||| putBit fin 31 ||| put id 19
  | .arrive fin id => 0x4D800000#32 ||| putBit fin 31 ||| put id 19
  | .trig fin => 0x4E000000#32 ||| putBit fin 31
  | .lds fin data off lu base => 0x50000000#32 ||| putBit fin 31 ||| put data 16 ||| put off 9 ||| putBit lu 8 ||| put base 3
  | .sts fin data off lu base => 0x50800000#32 ||| putBit fin 31 ||| put data 16 ||| put off 9 ||| putBit lu 8 ||| put base 3
  | .spAlloc fin x y => 0x51000000#32 ||| putBit fin 31 ||| put x 15 ||| put y 9
  | .spFree fin x => 0x51200000#32 ||| putBit fin 31 ||| put x 15
  | .bheld fin x y => 0x51400000#32 ||| putBit fin 31 ||| put x 15 ||| put y 9
  | .bhand fin x rank => 0x51600000#32 ||| putBit fin 31 ||| put x 15 ||| put rank 5
  | .sywInit fin h a i => 0x51800000#32 ||| putBit fin 31 ||| put h 17 ||| put a 11 ||| put i 0
  | .sywWait fin d h a => 0x52000000#32 ||| putBit fin 31 ||| put d 17 ||| put h 11 ||| put a 5
  | .lock fin d a b => 0x52800000#32 ||| putBit fin 31 ||| put d 16 ||| put a 10 ||| put b 4
  | .unlock fin a b => 0x52C00000#32 ||| putBit fin 31 ||| put a 10 ||| put b 4
  | .spcvt fin d n => 0x53000000#32 ||| putBit fin 31 ||| put d 16 ||| put n 12
  | .l1cvt fin d n => 0x53400000#32 ||| putBit fin 31 ||| put d 16 ||| put n 12
  | .rbump fin d a => 0x54000000#32 ||| putBit fin 31 ||| put d 17 ||| put a 11
  | .rget fin d a => 0x54800000#32 ||| putBit fin 31 ||| put d 17 ||| put a 11
  | .racq fin d a => 0x55000000#32 ||| putBit fin 31 ||| put d 17 ||| put a 11
  | .shape fin d a => 0x58000000#32 ||| putBit fin 31 ||| put d 17 ||| put a 11
  | .fmtset fin fmt a => 0x58800000#32 ||| putBit fin 31 ||| put fmt 19 ||| put a 13
  | .mma fin p out => 0x59000000#32 ||| putBit fin 31 ||| put p 17 ||| put out 0
  | .mmas fin p out => 0x59800000#32 ||| putBit fin 31 ||| put p 17 ||| put out 0
  | .accz fin p out => 0x5A000000#32 ||| putBit fin 31 ||| put p 17 ||| put out 0
  | .accld fin p out => 0x5A800000#32 ||| putBit fin 31 ||| put p 17 ||| put out 0
  | .accst fin p out => 0x5B000000#32 ||| putBit fin 31 ||| put p 17 ||| put out 0
  | .drain fin p z out => 0x5B800000#32 ||| putBit fin 31 ||| put p 17 ||| putBit z 16 ||| put out 0
  | .copyIn fin p out => 0x5C000000#32 ||| putBit fin 31 ||| put p 17 ||| put out 0
  | .copyOut fin p out => 0x5C800000#32 ||| putBit fin 31 ||| put p 17 ||| put out 0
  | .copyPf fin p out => 0x5D000000#32 ||| putBit fin 31 ||| put p 17 ||| put out 0
  | .tsrSet fin slot a => 0x5D800000#32 ||| putBit fin 31 ||| put slot 19 ||| put a 13
  | .attn fin p init out => 0x60000000#32 ||| putBit fin 31 ||| put p 17 ||| putBit init 16 ||| put out 0
  | .attnFin fin p out => 0x60800000#32 ||| putBit fin 31 ||| put p 17 ||| put out 0
  | .hdlMk fin d p => 0x61000000#32 ||| putBit fin 31 ||| put d 14 ||| put p 8
  | .hdlExt fin d p => 0x61100000#32 ||| putBit fin 31 ||| put d 14 ||| put p 8
  | .hdlTrunc fin d p => 0x61200000#32 ||| putBit fin 31 ||| put d 14 ||| put p 8
  | .hdlRef fin d p => 0x61300000#32 ||| putBit fin 31 ||| put d 14 ||| put p 8
  | .hdlRel fin d p => 0x61400000#32 ||| putBit fin 31 ||| put d 14 ||| put p 8
  | .pfxFind fin d p => 0x61800000#32 ||| putBit fin 31 ||| put d 14 ||| put p 8
  | .pfxIns fin d p => 0x61900000#32 ||| putBit fin 31 ||| put d 14 ||| put p 8
  | .sweepReg fin d a => 0x64000000#32 ||| putBit fin 31 ||| put d 17 ||| put a 11
  | .sweepDereg fin d a => 0x64800000#32 ||| putBit fin 31 ||| put d 17 ||| put a 11
  | .rowreq fin p urg out => 0x65000000#32 ||| putBit fin 31 ||| put p 17 ||| put urg 15 ||| put out 0
  | .sweepPos fin d a => 0x65800000#32 ||| putBit fin 31 ||| put d 17 ||| put a 11
  | .sweepWait fin a b => 0x66000000#32 ||| putBit fin 31 ||| put a 17 ||| put b 11
  | .sibPost fin a => 0x68000000#32 ||| putBit fin 31 ||| put a 17
  | .sibHold fin => 0x68800000#32 ||| putBit fin 31
  | .sibFree fin => 0x69000000#32 ||| putBit fin 31
  | .sibStat fin d => 0x69800000#32 ||| putBit fin 31 ||| put d 17
  | .sibCp fin => 0x6A000000#32 ||| putBit fin 31
  | .collAr fin p out => 0x6C000000#32 ||| putBit fin 31 ||| put p 17 ||| put out 0
  | .collAg fin p out => 0x6C800000#32 ||| putBit fin 31 ||| put p 17 ||| put out 0
  | .collRs fin p out => 0x6D000000#32 ||| putBit fin 31 ||| put p 17 ||| put out 0
  | .collBc fin p out => 0x6D800000#32 ||| putBit fin 31 ||| put p 17 ||| put out 0
  | .collAbort fin a => 0x6E000000#32 ||| putBit fin 31 ||| put a 17
  | .collRing fin d p => 0x6E800000#32 ||| putBit fin 31 ||| put d 17 ||| put p 11
  | .qbind fin q stream => 0x70000000#32 ||| putBit fin 31 ||| put q 20 ||| put stream 16
  | .qfree fin q => 0x70800000#32 ||| putBit fin 31 ||| put q 20
  | .qtry fin d q => 0x71000000#32 ||| putBit fin 31 ||| put d 17 ||| put q 14
  | .qpeek fin d q => 0x71800000#32 ||| putBit fin 31 ||| put d 17 ||| put q 14
  | .trap fin i => 0x74000000#32 ||| putBit fin 31 ||| put i 13
  | .sget fin kind d spr => 0x74800000#32 ||| putBit fin 31 ||| putBit kind 22 ||| put d 15 ||| put spr 5
  | .sset fin kind a spr la => 0x75000000#32 ||| putBit fin 31 ||| putBit kind 22 ||| put a 15 ||| put spr 5 ||| putBit la 4
  | .tsrd fin x => 0x75800000#32 ||| putBit fin 31 ||| put x 14
  | .rng fin x => 0x75A00000#32 ||| putBit fin 31 ||| put x 14
  | .launch fin x y => 0x75C00000#32 ||| putBit fin 31 ||| put x 14 ||| put y 8
  | .cinv fin x y => 0x75E00000#32 ||| putBit fin 31 ||| put x 14 ||| put y 8
  | .eret fin => 0x76000000#32 ||| putBit fin 31
  | .brk fin => 0x76100000#32 ||| putBit fin 31
  | .halt fin => 0x76200000#32 ||| putBit fin 31
  | .yield fin => 0x76300000#32 ||| putBit fin 31
  | .wfi => 0xF6400000#32
  | .iret => 0xF6500000#32
  | .nop fin => 0x7C000000#32 ||| putBit fin 31
  | .land fin => 0x7C400000#32 ||| putBit fin 31
  | .trail fin c b a => 0x7C800000#32 ||| putBit fin 31 ||| put c 14 ||| put b 7 ||| put a 0
  | .hx h => 0x7CC00000#32 ||| put h 0
  | .hm h => 0x7D000000#32 ||| put h 0
  | .hg outv in1v in0v in1 in0 => 0x7D400000#32 ||| putBit outv 18 ||| putBit in1v 17 ||| putBit in0v 16 ||| put in1 8 ||| put in0 0
  | .hs fin h => 0x7D800000#32 ||| putBit fin 31 ||| put h 0
  | .registerWrite .. | .packageReset .. | .memoryInitialisationDone .. | .modeWrite .. | .clkStable ..
  | .dutyWrite .. | .dataFlit .. | .idleFlit .. | .retryFlit .. | .timeFlit .. | .timeFlitSend ..
  | .masterTimeout .. | .domainJoin .. | .laneLockLoss .. | .retrainDone .. | .retrainTimeout .. | .sweepStep ..
  | .passBoundary .. | .rowRequestAccept .. | .hurryActivation .. | .bankAccess .. | .rowClose ..
  | .bankStoreAck .. | .combUpdate .. | .rowRequestComplete .. | .stkNbrWrite .. | .l2Miss .. | .migration ..
  | .pwrWarnAssert .. | .pwrWarnDeassert .. | .holdExpiry .. | .pwrCmdEnter .. | .pwrCmdResume ..
  | .brownOutEntry .. | .entryCommandTerminate .. | .entryVetoTimeout .. | .resumption .. | .ringWpWrite ..
  | .ringReset .. | .ringCfgWrite .. | .evqCfgWrite .. | .evqRpWrite .. | .ringNop .. | .ringLaunch ..
  | .ringWrite .. | .ringWait .. | .ringWaitPoll .. | .ringCopy .. | .ringCopyDone .. | .ctxSet .. | .ctxKill ..
  | .ringRegion .. | .purge .. | .answer .. | .attest .. | .heldEventPost .. | .fwGo .. | .fwLoadDone ..
  | .fwStart .. | .gridAccept .. | .gridReady .. | .gridDone .. | .teamPlace .. | .reserveTimeout ..
  | .preemptTimeout .. | .preBoundExpiry .. | .saveClose .. | .teamReplace .. | .groupActivate .. | .groupSwap ..
  | .joinComplete .. | .resultCommit .. | .breakpointMatch .. | .dbgStep .. | .dbgResume .. | .writeUpdate ..
  | .storeAck .. | .atomicMerge .. | .translationRequest .. | .attributeReturn .. | .lightFaultService ..
  | .fenceComplete .. | .fenceLinkTimeout .. | .taskLeave .. | .copyChunkWrite .. | .engineCommandComplete ..
  | .matrixStepRun .. | .deferredPageFree .. | .pfxInsertDecide .. | .postDecide .. | .siblingCancelStop ..
  | .holdTimeout .. | .siblingRelease .. | .roundInstall .. | .roundPush .. | .roundIncrement .. | .arfWrite ..
  | .collRoundOpen .. | .collRoundComplete .. | .collTimeout .. | .collAbortFlit .. | .collProbe ..
  | .collProbeTimeout .. | .collReformFlit .. | .collResumeFlit .. | .reformReturnTimeout .. | .thermSample ..
  | .ozTimer .. | .ozDoorWrite .. | .interruptEntry .. | .thermCfgWrite .. | .throttleWrite .. | .queuePopReturn ..
  | .waitcReturn .. | .barrierPhaseComplete .. | .sywWaitReturn .. | .sweepWaitReturn .. | .linkTraining ..
  | .reservedEncoding .. | .handleSliceOperation .. | .collWaitFlit .. => 0#32

end Sys2Proof
end

