-- ==== Sys2Proof/Config.lean ====
section
/-! DEFINITION. Config: what the manual leaves open, as constants without a body (log entries 5, 6, 8).  Nothing can be proved
of their values, so what is proved holds for every value. -/

namespace Sys2Proof

/-- A value that the manual calls undefined, fresh for each number (R3; log entry 5). -/
opaque Config.freeQuad : Nat → Quad

/-- An undefined lane of a vector register: the seed says which occasion left it undefined (R3, R97, R123). -/
opaque Config.undefLane : (seed reg lane : Nat) → Word

/-- An undefined predicate register at a group's start (R97). -/
opaque Config.undefPred : (seed reg : Nat) → Mask

/-- An undefined byte of a buffer (R142) or of a destination that the manual calls undefined. -/
opaque Config.undefByte : (seed off : Nat) → Byte

/-- Which of the lines that may go a full set evicts, by its place among them; a number past the last evicts none (R138, R151; log entry 37). -/
opaque Config.victim : Nat → Nat

/-- The bits of `rsq` within its bound (R325; log entry 6). -/
opaque Config.rsqBits : Word → Word

/-- The bits of `exp2` that Table 19.11 leaves open (log entry 6). -/
opaque Config.exp2Bits : Word → Word

/-- The bits of `log2` that Table 19.11 leaves open (log entry 6). -/
opaque Config.log2Bits : Word → Word

/-- The bits of `sin` for a positive argument (log entry 6). -/
opaque Config.sinBits : Word → Word

/-- The bits of `cos` for a positive argument (log entry 6). -/
opaque Config.cosBits : Word → Word

/-- The bits of `tanh` for a positive argument (log entry 6). -/
opaque Config.tanhBits : Word → Word


/-- Whether a Falcon-1024 signature over a list of bytes is good (R85, R86; log entry 8). -/
opaque Config.signatureGood : List Byte → List Byte → Bool

/-- The signature that the package makes over a list of bytes (R88; log entry 8). -/
opaque Config.sign : List Byte → List Byte

/-- The public key of the package (R87; log entry 8). -/
opaque Config.idPub : Nat → Byte

/-- The certificate of the package (R87; log entry 8). -/
opaque Config.idCert : Nat → Byte

/-- The serial number of the package (R87; log entry 8). -/
opaque Config.idSerial : Quad

end Sys2Proof
end

