-- ==== Sys2Proof/Machine/Fp.lean ====
section
/-! DEFINITION. Number formats and exact arithmetic (chapter 11): every operation is exact on dyadic numbers and is rounded once. -/

namespace Sys2Proof

/-- A decoded number: a NaN, an infinity, or (−1)^neg × m × 2^e. -/
inductive Num where
  /-- Not a number. -/
  | nan
  /-- An infinity. -/
  | inf (neg : Bool)
  /-- A finite number with its sign (a zero keeps its sign). -/
  | fin (neg : Bool) (m : Nat) (e : Int)
  deriving DecidableEq, Repr

/-- A standard format: exponent bits, mantissa bits; the bias is 2^(eb−1) − 1 (Table 11.1). -/
structure Fmt where
  /-- Exponent bits. -/
  eb : Nat
  /-- Mantissa bits. -/
  mb : Nat
  deriving DecidableEq, Repr

/-- FP32 (R194). -/
def Fmt.fp32 : Fmt := ⟨8, 23⟩
/-- FP16 (R194). -/
def Fmt.fp16 : Fmt := ⟨5, 10⟩
/-- BF16 (R194). -/
def Fmt.bf16 : Fmt := ⟨8, 7⟩

/-- The exponent bias. -/
def Fmt.bias (f : Fmt) : Int := 2 ^ (f.eb - 1) - 1

/-- The largest finite magnitude as a pattern without its sign. -/
def Fmt.maxMag (f : Fmt) : Nat := (2 ^ f.eb - 1) * 2 ^ f.mb - 1

/-- The pattern of an infinity without its sign. -/
def Fmt.infMag (f : Fmt) : Nat := (2 ^ f.eb - 1) * 2 ^ f.mb

/-- CanonicalNaN of the format (Table 11.1). -/
def Fmt.canonNaN (f : Fmt) : Nat := f.infMag + 2 ^ (f.mb - 1)

/-- The sign bit at its place. -/
def Fmt.signBit (f : Fmt) (neg : Bool) : Nat := if neg then 2 ^ (f.eb + f.mb) else 0

/-- The number that a pattern of a standard format stands for (R194). -/
def Fmt.decode (f : Fmt) (x : Nat) : Num :=
  let neg := x / 2 ^ (f.eb + f.mb) % 2 == 1
  let e := x / 2 ^ f.mb % 2 ^ f.eb
  let m := x % 2 ^ f.mb
  if e = 2 ^ f.eb - 1 then (if m = 0 then .inf neg else .nan)
  else if e = 0 then .fin neg m (1 - f.bias - f.mb)
  else .fin neg (2 ^ f.mb + m) (e - f.bias - f.mb)

/-- Whether a magnitude between two neighbouring codes goes up, by rounding mode (Table 11.2): 0 nearest even, 1 toward zero,
2 toward +infinity, 3 toward −infinity.  `odd` is bit 0 of the lower code, `rem` of `den` the part cut off. -/
def roundsUp (rm : Nat) (neg odd : Bool) (rem den : Nat) : Bool :=
  match rm with
  | 0 => den < 2 * rem || (den == 2 * rem && odd)
  | 1 => false
  | 2 => !neg && rem != 0
  | _ => neg && rem != 0

/-- The code (exponent and mantissa fields together) of a magnitude m × 2^e, rounded as if no code were too large.  `mb` is the
number of mantissa bits and `umin` the exponent of the least subnormal. -/
def roundCode (mb : Nat) (umin : Int) (rm : Nat) (neg : Bool) (m : Nat) (e : Int) : Nat :=
  if m = 0 then 0 else
    let u := max (e + (Nat.log2 m : Nat) - mb) umin
    let base := (u - umin).toNat * 2 ^ mb
    let sh := u - e
    if sh ≤ 0 then base + m * 2 ^ (-sh).toNat
    else
      let den := 2 ^ sh.toNat
      let code := base + m / den
      if roundsUp rm neg (code % 2 == 1) (m % den) den then code + 1 else code

/-- The exponent of the least subnormal of a standard format. -/
def Fmt.umin (f : Fmt) : Int := 1 - f.bias - f.mb

/-- Round a number to a standard format (R195, R196); with `sat` an overflow gives the largest finite value (R33, R203). -/
def Fmt.round (f : Fmt) (rm : Nat) (sat : Bool) : Num → Nat
  | .nan => f.canonNaN
  | .inf neg => f.signBit neg + f.infMag
  | .fin neg m e =>
    let c := roundCode f.mb f.umin rm neg m e
    f.signBit neg +
      (if c ≤ f.maxMag then c
       else if sat || rm == 1 || (rm == 2 && neg) || (rm == 3 && !neg) then f.maxMag else f.infMag)

/-- RoundNearestEven(x, format). -/
def Fmt.rne (f : Fmt) (x : Num) : Nat := f.round 0 false x

/-- The signed mantissa of a finite number at exponent `e0`, which is at most `e`. -/
def scaleTo (neg : Bool) (m : Nat) (e e0 : Int) : Int :=
  let k : Int := (m * 2 ^ (e - e0).toNat : Nat)
  if neg then -k else k

/-- The number with a signed mantissa; a zero takes the sign given. -/
def Num.ofInt (k : Int) (e : Int) (zneg : Bool) : Num :=
  if k = 0 then .fin zneg 0 e else .fin (k < 0) k.natAbs e

/-- The exact sum; an exact zero sum is −0 only when both operands are negative (R195). -/
def Num.add : Num → Num → Num
  | .nan, _ => .nan
  | _, .nan => .nan
  | .inf a, .inf b => if a = b then .inf a else .nan
  | .inf a, .fin .. => .inf a
  | .fin .., .inf b => .inf b
  | .fin na ma ea, .fin nb mb eb =>
    let e0 := min ea eb
    .ofInt (scaleTo na ma ea e0 + scaleTo nb mb eb e0) e0 (na && nb)

/-- The number with its sign changed. -/
def Num.neg : Num → Num
  | .nan => .nan
  | .inf n => .inf (!n)
  | .fin n m e => .fin (!n) m e

/-- The exact product; infinity × 0 is NaN. -/
def Num.mul : Num → Num → Num
  | .nan, _ => .nan
  | _, .nan => .nan
  | .inf a, .inf b => .inf (a != b)
  | .inf a, .fin b m _ => if m = 0 then .nan else .inf (a != b)
  | .fin a m _, .inf b => if m = 0 then .nan else .inf (a != b)
  | .fin na ma ea, .fin nb mb eb => .fin (na != nb) (ma * mb) (ea + eb)

/-- Whether a number is a NaN. -/
def Num.isNan : Num → Bool
  | .nan => true
  | .inf _ => false
  | .fin .. => false

/-- The order of two numbers that are no NaN, with −0 equal to +0: less, equal or greater. -/
def Num.cmp : Num → Num → Ordering
  | .nan, _ => .eq
  | _, .nan => .eq
  | .inf a, .inf b => if a = b then .eq else if a then .lt else .gt
  | .inf a, .fin .. => if a then .lt else .gt
  | .fin .., .inf b => if b then .gt else .lt
  | .fin na ma ea, .fin nb mb eb =>
    let e0 := min ea eb
    compare (scaleTo na ma ea e0) (scaleTo nb mb eb e0)

/-- The integer nearest a finite number by rounding mode. -/
def roundInt (rm : Nat) (neg : Bool) (m : Nat) (e : Int) : Int :=
  let q : Nat :=
    if 0 ≤ e then m * 2 ^ e.toNat
    else
      let den := 2 ^ (-e).toNat
      let c := m / den
      if roundsUp rm neg (c % 2 == 1) (m % den) den then c + 1 else c
  if neg then -(q : Int) else q

/-- Saturate(v, lo, hi). -/
def clampInt (v lo hi : Int) : Int := max lo (min v hi)

/-- The pattern of an integer in `w` bits (Wrap). -/
def wrapNat (v : Int) (w : Nat) : Nat := (v % (2 ^ w : Int)).toNat

/-- An integer type's value of an integer conversion: NaN gives 0, infinities the limits (R322). -/
def Num.toIntSat (rm : Nat) (lo hi : Int) : Num → Int
  | .nan => 0
  | .inf neg => if neg then lo else hi
  | .fin neg m e => clampInt (roundInt rm neg m e) lo hi

/-- `frnd`: a number rounded to an integral value (R318); a zero keeps the sign. -/
def Num.integral (rm : Nat) : Num → Num
  | .nan => .nan
  | .inf neg => .inf neg
  | .fin neg m e => .fin neg (roundInt rm neg m e).natAbs 0

/-- Integer square root, one bit of the result after another. -/
def isqrtBits : Nat → Nat → Nat → Nat
  | 0, _, r => r
  | b + 1, n, r =>
    let r' := r + 2 ^ b
    isqrtBits b n (if r' * r' ≤ n then r' else r)

/-- 1/m × 2^−e of a magnitude, with a last bit that says whether anything was cut off. -/
def recipMag (m : Nat) (e : Int) : Nat × Int :=
  let k := Nat.log2 m + 32
  let q := 2 ^ k / m
  (2 * q + (if 2 ^ k % m = 0 then 0 else 1), -e - k - 1)

/-- The square root of a magnitude m × 2^e, with a last bit that says whether anything was cut off. -/
def sqrtMag (m : Nat) (e : Int) : Nat × Int :=
  let k : Nat := 64 + (if (e - 64) % 2 = 0 then 0 else 1)
  let n := m * 2 ^ k
  let q := isqrtBits 60 n 0
  (2 * q + (if q * q = n then 0 else 1), (e - k) / 2 - 1)

/-! ### Narrow formats (R197 to R201) -/

/-- The fields of a tensor format register (Table 11.3). -/
structure Narrow where
  /-- SIGN. -/
  sign : Nat
  /-- EXP. -/
  exp : Nat
  /-- MAN. -/
  man : Nat
  /-- BIAS, signed. -/
  bias : Int
  /-- POLICY. -/
  policy : Nat
  /-- SC16. -/
  sc16 : Bool
  /-- EXTRA, a BF16 pattern. -/
  extra : Nat
  deriving DecidableEq, Repr

/-- The reset value of a format register: E4M3 (R197). -/
def fmtReset : Quad := 0x0000800001070069

/-- The fields of a format register value. -/
def Narrow.ofQuad (x : Quad) : Narrow where
  sign := (x.extractLsb' 0 1).toNat
  exp := (x.extractLsb' 1 4).toNat
  man := (x.extractLsb' 5 4).toNat
  bias := (x.extractLsb' 16 8).toInt
  policy := (x.extractLsb' 24 2).toNat
  sc16 := x.getLsbD 26
  extra := (x.extractLsb' 32 16).toNat

/-- W, the width of a code. -/
def Narrow.w (f : Narrow) : Nat := f.sign + f.exp + f.man

/-- C, the width of a container: 4 or 8 bits (R197). -/
def Narrow.c (f : Narrow) : Nat := if f.w ≤ 4 then 4 else 8

/-- R198: whether a format register value is valid. -/
def fmtValid (x : Quad) : Bool :=
  let f := Narrow.ofQuad x
  2 ≤ f.w && f.w ≤ 8 && f.exp ≤ 8 && f.man ≤ 8 && f.policy != 3 &&
  (f.policy != 0 || (2 ≤ f.exp && 1 ≤ f.man)) && (f.exp != 0 || f.policy == 2) &&
  x.extractLsb' 9 7 == 0 && x.extractLsb' 27 5 == 0 && x.extractLsb' 48 16 == 0

/-- R199: the exact value of a code of a narrow format. -/
def Narrow.decode (f : Narrow) (x : Nat) : Num :=
  let m := x % 2 ^ f.man
  let e := x / 2 ^ f.man % 2 ^ f.exp
  let s := f.sign == 1 && x / 2 ^ (f.exp + f.man) % 2 == 1
  if f.exp = 0 then
    let u := x % 2 ^ f.w
    if f.sign = 1 && 2 ^ (f.w - 1) ≤ u then .fin true (2 ^ f.w - u) (-f.bias) else .fin false u (-f.bias)
  else if f.w ≤ 4 && f.sign == 1 && e == 0 && m == 0 && s then Fmt.bf16.decode f.extra
  else if f.policy = 0 && e = 2 ^ f.exp - 1 then (if m = 0 then .inf s else .nan)
  else if f.policy = 1 && e = 2 ^ f.exp - 1 && m = 2 ^ f.man - 1 then .nan
  else if e = 0 then .fin s m (1 - f.bias - f.man)
  else .fin s (2 ^ f.man + m) (e - f.bias - f.man)

/-- The largest finite magnitude code of a floating narrow format. -/
def Narrow.maxCode (f : Narrow) : Nat :=
  match f.policy with
  | 0 => (2 ^ f.exp - 1) * 2 ^ f.man - 1
  | 1 => 2 ^ (f.exp + f.man) - 2
  | _ => 2 ^ (f.exp + f.man) - 1

/-- The code of −0: all zero when the remapped code is not in the set of R200. -/
def Narrow.negZero (f : Narrow) : Nat :=
  if f.w ≤ 4 && f.extra != 0x8000 then 0 else 2 ^ (f.exp + f.man)

/-- R200, Table 11.4: the code of a number in a narrow format. -/
def Narrow.encode (f : Narrow) (rm : Nat) (x : Num) : Nat :=
  if f.exp = 0 then
    let lo : Int := if f.sign = 1 then -(2 ^ (f.w - 1)) else 0
    let hi : Int := if f.sign = 1 then 2 ^ (f.w - 1) - 1 else 2 ^ f.w - 1
    match x with
    | .nan => 0
    | .inf neg => wrapNat (if neg then lo else hi) f.w
    | .fin neg m e => wrapNat (clampInt (roundInt rm neg m (e + f.bias)) lo hi) f.w
  else
    let withSign := fun (neg : Bool) (c : Nat) =>
      if !neg then c else if f.sign = 0 then 0 else if c = 0 then f.negZero else 2 ^ (f.exp + f.man) + c
    let infCode := (2 ^ f.exp - 1) * 2 ^ f.man
    match x with
    | .nan =>
      match f.policy with
      | 0 => infCode + 2 ^ (f.man - 1)
      | 1 => 2 ^ (f.exp + f.man) - 1
      | _ => 0
    | .inf neg => withSign neg (if f.policy = 0 then infCode else f.maxCode)
    | .fin neg m e =>
      let c := roundCode f.man (1 - f.bias - f.man) rm neg m e
      if c ≤ f.maxCode then withSign neg c
      else if f.policy = 0 && !(rm == 1 || (rm == 2 && neg) || (rm == 3 && !neg)) then withSign neg infCode
      else withSign neg f.maxCode

/-! ### FP32, FP16 and BF16 operations (R317 to R319) -/

/-- x + y, rounded once. -/
def Fmt.fadd (f : Fmt) (x y : Nat) : Nat := f.rne ((f.decode x).add (f.decode y))

/-- x − y, rounded once. -/
def Fmt.fsub (f : Fmt) (x y : Nat) : Nat := f.rne ((f.decode x).add (f.decode y).neg)

/-- x × y, rounded once. -/
def Fmt.fmul (f : Fmt) (x y : Nat) : Nat := f.rne ((f.decode x).mul (f.decode y))

/-- x × y + z, rounded once. -/
def Fmt.ffma (f : Fmt) (x y z : Nat) : Nat := f.rne (((f.decode x).mul (f.decode y)).add (f.decode z))

/-- The key that orders the non-NaN patterns of a format with −0 below +0 (R318). -/
def Fmt.orderKey (f : Fmt) (x : Nat) : Int :=
  let mag := x % 2 ^ (f.eb + f.mb)
  if x / 2 ^ (f.eb + f.mb) % 2 == 1 then -(mag : Int) - 1 else mag

/-- R318: `fmin` and `hmin` of a format (`low`), or `fmax` and `hmax`. -/
def Fmt.minMax (f : Fmt) (low : Bool) (x y : Nat) : Nat :=
  match (f.decode x).isNan, (f.decode y).isNan with
  | true, true => f.canonNaN
  | true, false => y
  | false, true => x
  | false, false => if (f.orderKey x ≤ f.orderKey y) == low then x else y

/-- A 32-bit pattern. -/
def toWord (n : Nat) : Word := BitVec.ofNat 32 n

/-- The halves of a lane taken one by one (R319). -/
def halves (f : Nat → Nat → Nat → Nat) (x y z : Word) : Word :=
  let lo := f (x.extractLsb' 0 16).toNat (y.extractLsb' 0 16).toNat (z.extractLsb' 0 16).toNat
  let hi := f (x.extractLsb' 16 16).toNat (y.extractLsb' 16 16).toNat (z.extractLsb' 16 16).toNat
  BitVec.ofNat 16 hi ++ BitVec.ofNat 16 lo

/-- The type of a packed word: TY 0 is BF16, 1 is FP16 (R319). -/
def packedFmt (ty : Bool) : Fmt := if ty then .fp16 else .bf16

/-- Lowest and highest value of an integer type code (Table 17.12). -/
def intLimits (code : Nat) : Int × Int :=
  match code with
  | 0 => (-128, 127)
  | 1 => (-32768, 32767)
  | 2 => (-2147483648, 2147483647)
  | 3 => (0, 255)
  | 4 => (0, 65535)
  | _ => (0, 4294967295)

/-- The number that a lane holds under a type code (R322). -/
def cvtSource (code : Nat) (a : Word) : Num :=
  match code with
  | 0 => Num.ofInt (a.extractLsb' 0 8).toInt 0 false
  | 1 => Num.ofInt (a.extractLsb' 0 16).toInt 0 false
  | 2 => Num.ofInt a.toInt 0 false
  | 3 => .fin false (a.extractLsb' 0 8).toNat 0
  | 4 => .fin false (a.extractLsb' 0 16).toNat 0
  | 5 => .fin false a.toNat 0
  | 6 => Fmt.fp32.decode a.toNat
  | 7 => Fmt.fp16.decode (a.extractLsb' 0 16).toNat
  | _ => Fmt.bf16.decode (a.extractLsb' 0 16).toNat

/-- R322: the conversion of a lane from type `ta` to type `td`. -/
def convert (rm td ta : Nat) (a : Word) : Word :=
  let x := cvtSource ta a
  match td with
  | 6 => toWord (Fmt.fp32.round rm false x)
  | 7 => toWord (Fmt.fp16.round rm false x)
  | 8 => toWord (Fmt.bf16.round rm false x)
  | code => BitVec.ofInt 32 (x.toIntSat rm (intLimits code).1 (intLimits code).2)

end Sys2Proof
end

