-- ==== Sys2Proof/Machine/Tbl.lean ====
section
/-! DEFINITION. Tables: sparse data by a numeric key, as a list of key and value pairs kept in rising order of key. -/

namespace Sys2Proof

/-- A table from numeric keys to values. -/
abbrev Tbl (α : Type) := List (Nat × α)

/-- The value stored under a key. -/
def Tbl.get? {α : Type} : Tbl α → Nat → Option α
  | [], _ => none
  | (a, x) :: t, k => if a = k then some x else Tbl.get? t k

/-- The value stored under a key, or the value `d` when there is none. -/
def Tbl.getD {α : Type} (t : Tbl α) (k : Nat) (d : α) : α := (t.get? k).getD d

/-- Store a value under a key. -/
def Tbl.set {α : Type} : Tbl α → Nat → α → Tbl α
  | [], k, v => [(k, v)]
  | (a, x) :: t, k, v =>
    if k < a then (k, v) :: (a, x) :: t else if a = k then (k, v) :: t else (a, x) :: Tbl.set t k v

/-- Remove a key. -/
def Tbl.del {α : Type} (t : Tbl α) (k : Nat) : Tbl α := List.filter (fun e => e.1 != k) t

/-- Change the value under a key, if there is one. -/
def Tbl.modify {α : Type} (t : Tbl α) (k : Nat) (f : α → α) : Tbl α :=
  match t.get? k with
  | some x => t.set k (f x)
  | none => t

/-- The keys of a table. -/
def Tbl.keys {α : Type} (t : Tbl α) : List Nat := List.map (·.1) t

/-- The least number below `n` that is no key of the table. -/
def Tbl.freeKey {α : Type} (t : Tbl α) (n : Nat) : Option Nat :=
  (List.range n).find? fun k => (t.get? k).isNone

/-- A list in ascending order of a key; elements of equal keys keep their order. -/
def sortOn {α : Type} (key : α → Nat) (l : List α) : List α :=
  l.foldr (fun x l => l.takeWhile (fun y => key y < key x) ++ x :: l.dropWhile fun y => key y < key x) []

/-- Keys rise strictly. -/
def Tbl.sorted {α : Type} : Tbl α → Bool
  | [] => true
  | [_] => true
  | (a, _) :: (b, y) :: t => a < b && Tbl.sorted ((b, y) :: t)

end Sys2Proof
end

