-- ==== Sys2Proof/Machine/Mem.lean ====
section
/-! DEFINITION. Byte memory in one canonical form: addresses rise strictly and no entry holds what an unlisted address reads
as.  The spec gives no contents of RAM after power-on; an unlisted byte reads 0 (DESIGN CHOICE, log entry 4). -/

namespace Sys2Proof

/-- A memory: its bytes that are not 0. -/
abbrev Memory := List Host.Cell

/-- What an unlisted byte reads as (DESIGN CHOICE, log entry 4). -/
def Memory.dflt : Byte := 0

/-- The byte at an address. -/
def Memory.byte (m : Memory) (a : Nat) : Byte := Tbl.getD m a Memory.dflt

/-- Store one byte; storing what an unlisted address reads as removes the entry. -/
def Memory.put (m : Memory) (a : Nat) (v : Byte) : Memory :=
  if v = Memory.dflt then Tbl.del m a else Tbl.set m a v

/-- The canonical form. -/
def Memory.wf (m : Memory) : Bool := Tbl.sorted m && m.all fun c => c.2 != Memory.dflt

/-- `n` bytes from an address, the lowest first. -/
def Memory.bytes (m : Memory) (a n : Nat) : List Byte := (List.range n).map fun k => m.byte (a + k)

/-- Store bytes from an address upwards. -/
def Memory.putBytes (m : Memory) (a : Nat) : List Byte → Memory
  | [] => m
  | b :: bs => Memory.putBytes (m.put a b) (a + 1) bs

/-- The little-endian value of a list of bytes (R1). -/
def leNat : List Byte → Nat
  | [] => 0
  | b :: bs => b.toNat + 256 * leNat bs

/-- The `n` little-endian bytes of a value (R1). -/
def leBytes : Nat → Nat → List Byte
  | 0, _ => []
  | n + 1, v => BitVec.ofNat 8 v :: leBytes n (v / 256)

/-- The little-endian value of `n` bytes from an address. -/
def Memory.nat (m : Memory) (a n : Nat) : Nat := leNat (m.bytes a n)

/-- A 32-bit word of memory. -/
def Memory.word (m : Memory) (a : Nat) : Word := BitVec.ofNat 32 (m.nat a 4)

/-- A 64-bit word of memory. -/
def Memory.quad (m : Memory) (a : Nat) : Quad := BitVec.ofNat 64 (m.nat a 8)

/-- Store the `n` little-endian bytes of a value. -/
def Memory.putNat (m : Memory) (a n v : Nat) : Memory := m.putBytes a (leBytes n v)

/-- The bytes of a range, moved so that address `a` becomes `b` (the source of a copy or a fill). -/
def Memory.slice (m : Memory) (a n b : Nat) : Memory :=
  (m.filter fun c => a ≤ c.1 && c.1 < a + n).map fun c => (c.1 - a + b, c.2)

/-- Clear a range to the unlisted value. -/
def Memory.clear (m : Memory) (a n : Nat) : Memory := m.filter fun c => c.1 < a || a + n ≤ c.1

/-- Every listed byte of `src` stored into `m` (used after `clear` to lay a slice into place). -/
def Memory.overlay (m src : Memory) : Memory := src.foldl (fun acc c => acc.put c.1 c.2) m

/-- The cells of bytes that stand from an address upwards. -/
def Memory.ofBytes : Nat → List Byte → Memory
  | _, [] => []
  | a, b :: bs => if b = Memory.dflt then Memory.ofBytes (a + 1) bs else (a, b) :: Memory.ofBytes (a + 1) bs

/-- A block of bytes laid into a memory: what `putBytes` does, in one pass. -/
def Memory.lay (m : Memory) (a : Nat) (bs : List Byte) : Memory :=
  (m.filter fun c => c.1 < a) ++ (Memory.ofBytes a bs ++ m.filter fun c => a + bs.length ≤ c.1)

/-- Replace `n` bytes at `b` by those of `src` at `a`. -/
def Memory.copyFrom (m src : Memory) (a b n : Nat) : Memory := (m.clear b n).overlay (src.slice a n b)

end Sys2Proof
end

