-- ==== Sys2Proof/Machine/State.lean ====
section
/-! DEFINITION. State: everything the manual gives one package of a domain (INVENTORY.md, ## State), as plain data, and the
state after reset. -/

namespace Sys2Proof.Machine

/-! ### Lanes, groups (chapters 6, 8, 17) -/

/-- The outcome of a long-latency operation, to be written to its register when it commits (R120). -/
inductive Result where
  /-- Lanes of a vector register. -/
  | lanes (reg : Nat) (vals : Tbl Word)
  /-- A scalar register. -/
  | scalar (reg : Nat) (val : Quad)
  /-- A lane of a load that waits for the next bump of its counter (R250): register, lane, address, bytes, and sign extension. -/
  | load (reg lane : Nat) (va : Quad) (size : Nat) (sext : Bool)
  /-- The record read of a `tsr.set` (R365): slot, record, whether it is valid, and its address. -/
  | record (slot : Nat) (bytes : List Byte) (addr : Quad) (lanes : Mask)
  deriving DecidableEq, Repr

/-- A long-latency result outstanding. -/
structure Pending where
  /-- What is written. -/
  res : Result
  /-- False while the value has not returned. -/
  ready : Bool
  /-- The run it was issued in has ended (R120). -/
  ended : Bool
  /-- The run end waits for it (R122). -/
  must : Bool
  /-- Lanes whose load read poison, with their addresses (R169). -/
  poisoned : Tbl Quad
  /-- Names the outside operation that supplies a value not yet ready. -/
  tag : Nat
  deriving DecidableEq, Repr

/-- A queue register (R224, R307 to R311). -/
structure QReg where
  /-- The stream it is bound to. -/
  stream : Option Nat
  /-- Unread records, the oldest first; at most 16. -/
  recs : List Quad
  /-- Records that the stream holds back, the oldest first. -/
  held : List Quad
  deriving DecidableEq, Repr

/-- What a group waits on at a word (R101). -/
inductive Block where
  /-- Nothing. -/
  | none
  /-- A pop of queue register q into sD (R308). -/
  | pop (d q : Nat)
  /-- `waitc` (R344). -/
  | waitc (cls n : Nat)
  /-- `bar` waiting for the end of a phase (R346). -/
  | bar (id phase : Nat)
  /-- `syw.wait` on the sync word at an offset of a buffer's scratchpad, until GEN passes g (R147). -/
  | syw (d handle : Nat) (g : Word)
  /-- `sweep.wait` on a row of package memory (R48, R378). -/
  | sweepWait (row pass : Nat)
  /-- A handle or prefix operation at its slice (R370): operation, sD, and the block. -/
  | slice (op d : Nat) (blk : List Quad)
  deriving DecidableEq, Repr

/-- What a group goes back to when it is rolled back past an incomplete fence (R184): all that words issued since may have changed. -/
structure Snap where
  /-- Program counters by lane. -/
  pcs : Tbl Quad
  /-- Lanes that owe the `land` check. -/
  arrived : Mask
  /-- The issue address A. -/
  a : Quad
  /-- The issuing set E. -/
  e : Mask
  /-- A run is open. -/
  runOpen : Bool
  /-- Words issued in the open run. -/
  runLen : Nat
  /-- Attached `hx` payload. -/
  hx : Option (BitVec 22)
  /-- Attached `hm` payload. -/
  hm : Option (BitVec 22)
  /-- Attached `hg` payload. -/
  hg : Option (BitVec 22)
  /-- The trailer of the run. -/
  trail : Option (List Nat)
  /-- Long-latency results outstanding. -/
  pend : List Pending
  /-- Freed registers. -/
  freed : Tbl Mask
  /-- Vector registers. -/
  v : Tbl Word
  /-- The seeds of their undefined lanes. -/
  vseed : Tbl Nat
  /-- The seed of the run temporaries. -/
  tseed : Nat
  /-- Scalar registers. -/
  s : Tbl Quad
  /-- Predicate registers. -/
  p : Tbl Mask
  /-- WIDTH of the group registers. -/
  g : Tbl Nat
  /-- rng.ctr. -/
  rngCtr : Quad
  deriving DecidableEq, Repr

/-- An incomplete fence (R183, R184). -/
structure Fence where
  /-- Its scope. -/
  scope : Nat
  /-- The tick since which it waits (R189). -/
  since : Nat
  /-- The group right after the fence's word. -/
  back : Option Snap
  /-- The lines that later loads have read, by address space and line. -/
  lines : List Nat
  deriving DecidableEq, Repr

/-- A group of 16 lanes. -/
structure Group where
  /-- The team, by its number in the state's table of teams; 0 for the Ozyth core's group. -/
  team : Nat
  /-- True for the Ozyth core, which executes as a group whose only lane is lane 0 (R314). -/
  oz : Bool
  /-- Group number within the team. -/
  num : Nat
  /-- Role. -/
  role : Nat
  /-- Group number within its role. -/
  roleGrp : Nat
  /-- Register budget (R124). -/
  budget : Nat
  /-- Core of the package, 24 × die + core. -/
  core : Nat
  /-- Partition. -/
  part : Nat
  /-- Position within the partition (R136). -/
  pos : Nat
  /-- Program counters by lane (R111). -/
  pcs : Tbl Quad
  /-- Exited lanes. -/
  exited : Mask
  /-- Lanes joined at their program counter. -/
  joined : Mask
  /-- Parked lanes. -/
  parked : Mask
  /-- Parked lanes that await service: the fault code and the address that each waits on. -/
  svc : Tbl (Nat × Quad)
  /-- Lanes that arrived by an indirect transfer and owe the `land` check (R130). -/
  arrived : Mask
  /-- The issue address A (R113). -/
  a : Quad
  /-- The issuing set E (R113). -/
  e : Mask
  /-- A run is open. -/
  runOpen : Bool
  /-- Words issued in the open run. -/
  runLen : Nat
  /-- Words that have ended in issue slots, by which a slot that issues is told from one that stalls (R104). -/
  words : Nat
  /-- Attached `hx` payload (R281). -/
  hx : Option (BitVec 22)
  /-- Attached `hm` payload. -/
  hm : Option (BitVec 22)
  /-- Attached `hg` payload. -/
  hg : Option (BitVec 22)
  /-- The trailer of the run: the registers it names (R283). -/
  trail : Option (List Nat)
  /-- Long-latency results outstanding, in issue order. -/
  pend : List Pending
  /-- Freed registers, each with the lanes in which its value is gone (R123). -/
  freed : Tbl Mask
  /-- Vector registers: lane l of register n under 16 n + l. -/
  v : Tbl Word
  /-- The seeds of the undefined lanes of vector registers that have lost a value: lane l of register n under 16 n + l. -/
  vseed : Tbl Nat
  /-- The seed of the run temporaries at the opening of the run (R121). -/
  tseed : Nat
  /-- The seed of the registers at the group's start. -/
  seed : Nat
  /-- Scalar registers. -/
  s : Tbl Quad
  /-- Predicate registers. -/
  p : Tbl Mask
  /-- WIDTH of the group registers (R126). -/
  g : Tbl Nat
  /-- Queue registers. -/
  q : Tbl QReg
  /-- in.trap per lane (R170). -/
  inTrap : Mask
  /-- tr.epc per lane. -/
  epc : Tbl Quad
  /-- tr.cause per lane. -/
  cause : Tbl Quad
  /-- tr.addr per lane. -/
  taddr : Tbl Quad
  /-- trap.base. -/
  trapBase : Quad
  /-- Lanes that owe a fault at the word they would issue next: code and address (R169, R365). -/
  owed : Tbl (Nat × Quad)
  /-- rng.key (R392). -/
  rngKey : Quad
  /-- rng.ctr. -/
  rngCtr : Quad
  /-- The current shape grant (R211). -/
  grant : Quad
  /-- The request that it answers, which names the operands' formats. -/
  grantReq : Quad
  /-- What the group waits on. -/
  block : Block
  /-- Whether the waiting word ends its run. -/
  blockFin : Bool
  /-- Stopped by a breakpoint, a step or team-stop (R132). -/
  stopped : Bool
  /-- A stop that takes effect at the next run boundary (R132). -/
  stopDue : Bool
  /-- The group runs one issue of a step (R133). -/
  stepping : Bool
  /-- A breakpoint match at this address is passed over at the next run opening (R133). -/
  skipBp : Option Quad
  /-- Its last stop was an address match (R132). -/
  matched : Bool
  /-- A stop at a run boundary that DBG_STAT has still to show: its CAUSE (R135). -/
  stopNote : Option Nat
  /-- Lanes of E took faults at the word at hand, so that A and E are recomputed after it (R114). -/
  split : Bool
  /-- The gang with which it opened its run, by an order number; 0 for none (R128). -/
  gang : Nat
  /-- The group stops for good at its next run boundary and exits (R171, R390). -/
  ending : Bool
  /-- Its sibling is cancelled: it stops at its next cancellation point and exits (R240). -/
  cancel : Bool
  /-- It is in the set of a pre-emption: it stops at its next run boundary (R106). -/
  saving : Bool
  /-- The stamp of the stop for its save (Table 8.7). -/
  stop : Option (Nat × Nat)
  /-- It has executed `trig` (R98). -/
  triggered : Bool
  /-- Writes that its `trig` releases and that are not yet performed (R98). -/
  trigStores : List Nat
  /-- Its hold interval is open (R241). -/
  hold : Bool
  /-- A hold opened before the decision defers its cancellation (R241). -/
  deferred : Bool
  /-- The exit, with its release, has been performed (R302). -/
  gone : Bool
  /-- Active slot, or none when pending (R101 to R104). -/
  slot : Option Nat
  /-- Order number of the last issue (R102). -/
  lastIssue : Nat
  /-- Order number of the last slot that the machine gave to its partition on its account (log entry 2). -/
  turn : Nat
  /-- Order number at which a pending group became ready (R103). -/
  readySince : Nat
  /-- It is the victim of a swap that is owed (R104). -/
  chosen : Bool
  /-- It was the victim of a swap that is owed, and its run has ended (R104). -/
  spent : Bool
  /-- A store with `.rel` waits: its scope, and since which tick (R181, R189). -/
  relWait : Option (Nat × Nat)
  /-- Its incomplete fence (R184). -/
  fence : Option Fence
  /-- The scope of a load with `.acq` that waits for a bump: it acquires when its value comes, and later accesses wait for that (R182, R250). -/
  acq : Option Nat
  /-- Writes lost under the fence or store that waits: status, peer package and virtual address, in order of their loss (R189, R190). -/
  lost : List (Nat × Nat × Nat)
  /-- Writes to other packages, or to the host, that are lost for it: it waits for their acknowledgement no more (R189). -/
  gaveUp : List Nat
  /-- Writes of the group not yet acknowledged: each with its store number (R152, R181). -/
  stores : List Nat
  /-- Writes observed by reads and not yet performed everywhere (R181). -/
  observed : List Nat
  /-- Outstanding commands per class, in issue order (R222): command numbers. -/
  cmds : Tbl (List Nat)
  deriving DecidableEq, Repr

/-! ### Teams and engines (chapters 5, 7, 11, 12) -/

/-- A tensor shape record (R218). -/
structure Tsr where
  /-- BASE. -/
  base : Quad
  /-- RANK, 1 to 5. -/
  rank : Nat
  /-- ESZ code: elements of 2^esz bytes. -/
  esz : Nat
  /-- SWZ code: span 16 × 2^swz bytes. -/
  swz : Nat
  /-- DIM0 to DIM4. -/
  dims : List Nat
  /-- STR1 to STR4, signed. -/
  strides : List Int
  deriving DecidableEq, Repr

/-- Where a command stands (R221, R222). -/
inductive CmdState where
  /-- In the task table. -/
  | waiting
  /-- It has left the task table and its engine runs it. -/
  | running
  /-- Completed, and waiting to retire behind an older command of its class. -/
  | done
  deriving DecidableEq, Repr

/-- An engine command (Table 12.4). -/
structure Cmd where
  /-- CLASS: 0 copy, 1 matrix, 2 attention, 3 row, 4 collective. -/
  cls : Nat
  /-- The command, numbered as its func within its major. -/
  op : Nat
  /-- The issuing group. -/
  gid : Nat
  /-- The team; 0 for the Ozyth core. -/
  team : Nat
  /-- The core whose task table holds it. -/
  core : Nat
  /-- The address space of its accesses. -/
  asid : Nat
  /-- Input token IN0, when it is valid. -/
  in0 : Option Nat
  /-- Input token IN1, when it is valid. -/
  in1 : Option Nat
  /-- Output token. -/
  out : Option Nat
  /-- TAG. -/
  tag : Word
  /-- FLAG or URG of the word. -/
  flag : Nat
  /-- Scalar operands as issued: the parameter block. -/
  block : List Quad
  /-- The shape grant as issued (R361). -/
  grant : Quad
  /-- The tensor shape record as issued (R365). -/
  tsr : Option Tsr
  /-- Vector registers held until the read (R217). -/
  holds : List Nat
  /-- Held registers to free after the read, with the lanes (R217). -/
  freeAfter : Tbl Mask
  /-- The vector operands as read when the command left the table: lane l of register n under 16 n + l. -/
  operands : Tbl Word
  /-- Format registers as read when the command left the table (R361). -/
  fmts : Tbl Quad
  /-- Where it stands. -/
  st : CmdState
  /-- Elements of a copy already written (R219). -/
  progress : Nat
  /-- Completion status. -/
  status : Nat
  /-- Input commands that must complete first (R222). -/
  after : List Nat
  /-- Round number of a collective command on its ring (R382). -/
  round : Nat
  /-- Stores that must be performed before it is offered (R376). -/
  waits : List Nat
  /-- Writes that it has made and that are not yet performed (R185). -/
  stores : List Nat
  /-- The request words of the formats of its grant (R211, R361). -/
  req : Quad
  /-- Arena pages that its handle named when it passed R229 (R231). -/
  pages : List Nat
  /-- The key positions that an `attn` reads, below the L that it found when it passed R229: the address of each, none where its page could not be
  told (R225). -/
  keys : List (Option Quad)
  /-- D128 of the handle's entry when the command passed R229. -/
  d128 : Bool
  /-- Tick at which it left the task table. -/
  began : Nat
  deriving DecidableEq, Repr

/-- States of a team (Table 5.4). -/
inductive TeamState where
  /-- Not placed. -/
  | unplaced
  /-- Placed on a core. -/
  | resident
  /-- Its save is running. -/
  | saving
  /-- In its save area. -/
  | saved
  /-- Exited. -/
  | exited
  deriving DecidableEq, Repr

/-- A barrier (R346). -/
structure Barrier where
  /-- Completed phases. -/
  phase : Nat
  /-- Groups that have arrived in the phase, by group number of the state. -/
  arrived : List Nat
  deriving DecidableEq, Repr

/-- A buffer-table entry (R141 to R144, R352). -/
structure Buf where
  /-- Live. -/
  live : Bool
  /-- Generation, modulo 16. -/
  gen : Nat
  /-- The team whose ways hold it. -/
  owner : Nat
  /-- The team that holds it. -/
  holder : Nat
  /-- Offset in the owner's scratchpad space. -/
  off : Nat
  /-- Size in bytes. -/
  size : Nat
  /-- Offset of its sync word (R352). -/
  syw : Option Nat
  deriving DecidableEq, Repr

/-- A team (chapter 5). -/
structure Team where
  /-- Its grid, by its number in the state's table of grids. -/
  grid : Nat
  /-- Team number within its sub-grid. -/
  num : Nat
  /-- Sibling number. -/
  sib : Nat
  /-- Rank within its cluster. -/
  rank : Nat
  /-- The first team of its cluster, by its number in the table of teams. -/
  cluster : Nat
  /-- Core of the package. -/
  core : Nat
  /-- State. -/
  st : TeamState
  /-- Its groups. -/
  groups : List Nat
  /-- fmt0 to fmt15 (R197). -/
  fmt : Tbl Quad
  /-- Tensor shape records loaded (R218). -/
  tsr : Tbl Tsr
  /-- Accumulator tiles: element (i, j) of tile t of partition p under ((p × 512 + t) × 32 + i) × 32 + j. -/
  tiles : Tbl Word
  /-- Scratchpad ways in conversion order (R139). -/
  ways : List Nat
  /-- Bytes of the scratchpad space that are not 0 or undefined. -/
  sp : Tbl Byte
  /-- Seed of the undefined bytes of each 256-byte unit that a buffer has held; 0 for a unit known to hold zeros (R140, R142). -/
  spSeed : Tbl Nat
  /-- Poisoned 8-byte words of the scratchpad. -/
  spPoison : List Nat
  /-- Barriers 0 to 14; barrier 15 of a cluster stands in its first team. -/
  bars : Tbl Barrier
  /-- Groups that have executed `trig`. -/
  trig : BitVec 64
  /-- Groups that have exited. -/
  exit : BitVec 64
  /-- Work counters: issue slots, matrix steps, bytes moved, engine time (Table 8.6). -/
  work : List Nat
  /-- Save area: package physical base and 64 KiB units. -/
  saveBase : Nat
  /-- Units of the save area. -/
  saveUnits : Nat
  /-- Order of placement. -/
  order : Nat
  /-- The team is being terminated (R171). -/
  terminating : Bool
  /-- Its sibling was cancelled (R240). -/
  cancelled : Bool
  /-- Chosen for pre-emption under wait-out, since a tick (R106). -/
  waitOut : Option Nat
  /-- Brown-out entry has saved it, so that resumption restores it on its core (R64, R68). -/
  byEntry : Bool
  /-- State kept by the package while the team is SAVED: queue registers of each group, by group number (R311). -/
  keptHeld : Tbl (List (Nat × List Quad))
  /-- Its live buffer-table entries while SAVED, with their sync-word offsets (Table 8.6, R348). -/
  keptBufs : Tbl Buf
  deriving DecidableEq, Repr

/-! ### Memory (chapters 2, 7, 8, 14) -/

/-- Who shares a grain block (R151). -/
inductive Sharers where
  /-- Up to 8 cores. -/
  | precise (cores : List Nat)
  /-- A mask of dies. -/
  | coarse (dies : BitVec 24)
  deriving DecidableEq, Repr

/-- The attributes of a page (Table 8.2). -/
structure PageAttr where
  /-- W. -/
  w : Bool
  /-- X. -/
  x : Bool
  /-- D. -/
  d : Bool
  /-- Sectors of a grain block: 1, 4 or 16 (R137). -/
  grain : Nat
  /-- NOMIG. -/
  nomig : Bool
  /-- ROUND and its counter. -/
  round : Option Nat
  /-- NC. -/
  nc : Bool
  /-- 2 MiB page. -/
  big : Bool
  /-- Domain physical address of the page. -/
  pa : Nat
  deriving DecidableEq, Repr

/-- A line at its home slice (R137, R149 to R151). -/
structure L2Line where
  /-- Valid sectors. -/
  valid : Mask
  /-- Dirty. -/
  dirty : Bool
  /-- Bytes by offset. -/
  data : Memory
  /-- Poisoned ECC words by offset. -/
  poison : List Nat
  /-- Sectors of a grain block. -/
  grain : Nat
  /-- Sharers by grain block. -/
  sharers : Tbl Sharers
  /-- The slot of the context that locked it (R150). -/
  locked : Option Nat
  /-- Comb-target (R40). -/
  comb : Bool
  /-- Counter of a round-managed line (R247). -/
  round : Option Nat
  /-- Cores that wait for it at the counter's next bump (R250). -/
  wanted : List Nat
  /-- Domain physical address of the line at its fill. -/
  pa : Nat
  /-- Sidecar sector: its scale bytes, and whether it is dirty; the rest of its 64 bytes reads 0 (R204 to R206). -/
  sidecar : Option (List Byte × Bool)
  /-- Stores written through and not yet acknowledged by the bank (R40). -/
  bankOut : Nat
  deriving DecidableEq, Repr

/-- A line in an L1 (R138, R247). -/
structure L1Line where
  /-- Valid sectors. -/
  valid : Mask
  /-- Bytes by offset. -/
  data : Memory
  /-- Poisoned ECC words by offset. -/
  poison : List Nat
  /-- Counter of a round-managed line. -/
  round : Option Nat
  /-- Fill rounds of a round-managed line, by sector. -/
  fills : Tbl Word
  /-- Sidecar sector. -/
  sidecar : Option (List Byte)
  /-- The way that holds it. -/
  way : Nat
  deriving DecidableEq, Repr

/-- Words on their way from a home slice to a core (R152). -/
structure Update where
  /-- Context address space. -/
  asid : Nat
  /-- Line number. -/
  line : Nat
  /-- Receiving core. -/
  core : Nat
  /-- Offset in the line; bytes of the sidecar sector stand from 512 on. -/
  off : Nat
  /-- The bytes. -/
  bytes : List Byte
  /-- Poison marks laid down or cleared with the bytes: the poisoned ECC words of the range. -/
  poison : List Nat
  /-- The store it belongs to. -/
  store : Nat
  deriving DecidableEq, Repr

/-- A store, atomic or merge under way (R152, R181). -/
structure Store where
  /-- The group that made it; 0 for an engine or a device agent. -/
  gid : Nat
  /-- Address space. -/
  asid : Nat
  /-- Virtual address. -/
  va : Nat
  /-- Bytes written. -/
  len : Nat
  /-- Domain physical address. -/
  pa : Nat
  /-- Core that made it. -/
  core : Nat
  /-- Acknowledgements still to come from sharers. -/
  acks : Nat
  /-- The bank has still to acknowledge it. -/
  bank : Bool
  /-- The peer package, or the host, that has still to acknowledge it (R149, R177). -/
  peer : Option Nat
  /-- Written into the home's copy (performed at team and core scope, Table 9.1). -/
  home : Bool
  /-- A merge of buffered atomics (R187). -/
  merged : Bool
  deriving DecidableEq, Repr

/-- An access queued at a bank (R40, R45). -/
structure BankAccess where
  /-- Address space. -/
  asid : Nat
  /-- Virtual address. -/
  va : Nat
  /-- Package physical address. -/
  pa : Nat
  /-- Bytes written. -/
  bytes : List Byte
  /-- The poison that the bytes carry, by offset from the address (R169). -/
  poison : List Nat
  /-- The store it belongs to. -/
  store : Nat
  deriving DecidableEq, Repr

/-- A bank acknowledgement or an application's words on their way to a home slice, in bank-stamp order (R40, R46). -/
structure BankMsg where
  /-- Address space. -/
  asid : Nat
  /-- Virtual address of the bytes. -/
  va : Nat
  /-- Package physical address of the bytes, by which the bank is known. -/
  pa : Nat
  /-- The bytes. -/
  bytes : List Byte
  /-- Poisoned ECC words of the range, by offset from `va`. -/
  poison : List Nat
  /-- The store that the bank acknowledges, or the one that stands for an application's words on their way (R46). -/
  store : Nat
  /-- An application's words. -/
  comb : Bool
  deriving DecidableEq, Repr

/-- An entry of an atomic buffer (R154). -/
structure AtomEntry where
  /-- Address space. -/
  asid : Nat
  /-- Virtual address. -/
  va : Nat
  /-- Operation code (R287). -/
  op : Nat
  /-- UNS. -/
  uns : Bool
  /-- Combined operand. -/
  val : Word
  /-- Groups that have contributed. -/
  gids : List Nat
  /-- It is to be merged, and its place has still to be made ready (R155). -/
  due : Bool
  deriving DecidableEq, Repr

/-- An entry of a core's page-attribute cache (R165): V, W, X, D and GRAIN of a page of an address space, and its size. -/
structure PacEntry where
  /-- Address space. -/
  asid : Nat
  /-- Virtual base of the page. -/
  va : Nat
  /-- W. -/
  w : Bool
  /-- X. -/
  x : Bool
  /-- D. -/
  d : Bool
  /-- GRAIN in sectors. -/
  grain : Nat
  /-- A 2 MiB page. -/
  big : Bool
  deriving DecidableEq, Repr

/-- A TLB entry of a die, or a reverse-map record: a page of an address space. -/
structure PageEntry where
  /-- Address space. -/
  asid : Nat
  /-- Virtual page base. -/
  va : Nat
  /-- Attributes. -/
  attr : PageAttr
  deriving DecidableEq, Repr

/-- A walk that waits for a host's answer (R163), by the record's queue and sequence number. -/
structure HostWalk where
  /-- Die and agent. -/
  die : Nat
  /-- Address space. -/
  asid : Nat
  /-- Virtual address. -/
  va : Quad
  /-- Access: 0 read, 1 write, 2 fetch. -/
  acc : Nat
  /-- A home or a device agent waits for it, besides the lanes that are parked. -/
  agent : Bool
  /-- The fault of the host's answer, which that home or agent has still to take (R168, R425). -/
  failed : Option Nat
  deriving DecidableEq, Repr

/-- A light-fault service in progress (R167). -/
structure LightSvc where
  /-- Address space. -/
  asid : Nat
  /-- Virtual address that the record names. -/
  va : Nat
  /-- Its page is a 2 MiB page. -/
  big : Bool
  /-- A REGION entry waits for it, besides the lanes that are parked (R35). -/
  ring : Bool
  /-- The host has answered 1, and the REGION entry that waits has still to take that. -/
  denied : Bool
  deriving DecidableEq, Repr

/-- A page move chosen by a scan (R58): it waits for the host's answer, or it is under way (R59). -/
structure Migr where
  /-- Die whose memory processor chose it. -/
  die : Nat
  /-- Address space of the mapping. -/
  asid : Nat
  /-- Virtual page base. -/
  va : Nat
  /-- Frame left, package physical base. -/
  src : Nat
  /-- Frame taken. -/
  dst : Nat
  /-- A 2 MiB page. -/
  big : Bool
  /-- A demotion. -/
  demote : Bool
  deriving DecidableEq, Repr

/-- One core of a die (chapters 6, 7, 8, 12, 14). -/
structure Core where
  /-- Lines of its L1, by address space and line. -/
  l1 : Tbl L1Line
  /-- Its page-attribute cache (R165). -/
  pac : List PacEntry
  /-- Its atomic buffer, the oldest entry first (R154). -/
  abuf : List AtomEntry
  /-- Its buffer table (R141). -/
  bufs : Tbl Buf
  /-- Its task table: command numbers in order of entry (R221). -/
  tasks : List Nat
  /-- Its round table: counter and value, the most recently used first (R246). -/
  rtab : List (Nat × Word)
  /-- Its instruction-cache lines: 128 bytes each, by address space and line (R397). -/
  icache : Tbl Memory
  /-- RND_STAT: bounded loads served from a copy, refetches and stalls (Table 14.2). -/
  rndServed : Word
  /-- RND_STAT: refetches and stalls. -/
  rndMissed : Word
  /-- CM_STAT, CM_ABUF and CM_UPD counters (Table 7.6), by counter. -/
  cm : Tbl Nat
  /-- DBG_CTL: TEAM_STOP. -/
  dbgTeamStop : Bool
  /-- DBG_CTL: PART. -/
  dbgPart : Nat
  /-- DBG_CTL: SLOT. -/
  dbgSlot : Nat
  /-- DBG_STAT: PART and SLOT of the last group to stop, and CAUSE (STOPPED is the state of that group). -/
  dbgStat : Nat × Nat × Nat
  /-- DBG_BP 0 to 3. -/
  dbgBp : Tbl Quad
  /-- DBG_ASID. -/
  dbgAsid : Nat
  /-- The last seven issue slots of each partition while THROTTLE is not 0, the youngest first: whether it issued (R401). -/
  recent : Tbl (List Bool)
  /-- What the last team that exited on it left in the accumulator tiles (Table 25.6); no instruction reads it. -/
  leftTiles : Tbl Word
  /-- What that team left in its scratchpad image (Table 25.6); no instruction reads it. -/
  leftSp : Memory
  deriving DecidableEq, Repr

/-- The state of a core after reset. -/
def Core.init : Core where
  l1 := []
  pac := []
  abuf := []
  bufs := []
  tasks := []
  rtab := []
  icache := []
  rndServed := 0
  rndMissed := 0
  cm := []
  dbgTeamStop := false
  dbgPart := 0
  dbgSlot := 0
  dbgStat := (0, 0, 0)
  dbgBp := []
  dbgAsid := 0
  recent := []
  leftTiles := []
  leftSp := []

/-- A context slot (R79, Tables 4.3, 7.6, 8.8, 9.7, 12.8). -/
structure Ctx where
  /-- Installed. -/
  live : Bool
  /-- ASID. -/
  asid : Nat
  /-- Tenant. -/
  tenant : Nat
  /-- ROOT, domain physical. -/
  root : Nat
  /-- LOCKQ. -/
  lockq : Nat
  /-- Being killed (R80). -/
  killing : Bool
  /-- KVA register. -/
  kva : Quad
  /-- LOCK_USED. -/
  lockUsed : Nat
  /-- CTX_FAULT: code, COUNT, VALID, grid number. -/
  fault : Nat × Nat × Bool × Nat
  /-- CTX_FADDR. -/
  faddr : Quad
  /-- CTX_FPC. -/
  fpc : Quad
  /-- CTX_FTIME. -/
  ftime : Quad
  /-- FERR_STAT. -/
  ferrStat : Quad
  /-- FERR_LO. -/
  ferrLo : Quad
  /-- FERR_HI. -/
  ferrHi : Quad
  /-- FERR_ASID. -/
  ferrAsid : Quad
  /-- FERR_TIME. -/
  ferrTime : Quad
  deriving DecidableEq, Repr

/-- A context slot after reset. -/
def Ctx.init : Ctx where
  live := false
  asid := 0
  tenant := 0
  root := 0
  lockq := 0
  killing := false
  kva := 0
  lockUsed := 0
  fault := (0, 0, false, 0)
  faddr := 0
  fpc := 0
  ftime := 0
  ferrStat := 0
  ferrLo := 0
  ferrHi := 0
  ferrAsid := 0
  ferrTime := 0

/-- The registers of the Ozyth core (Table 22.7, R398 to R400). -/
structure Ozyth where
  /-- It runs its image (R399). -/
  running : Bool
  /-- It waits at `wfi` (R400). -/
  waiting : Bool
  /-- Issue has stopped until package reset (R390). -/
  halted : Bool
  /-- oz.vbase. -/
  vbase : Quad
  /-- oz.ien. -/
  ien : Quad
  /-- oz.ipend. -/
  ipend : Quad
  /-- oz.epc. -/
  epc : Quad
  /-- oz.icause: source being served. -/
  icause : Nat
  /-- in.irq. -/
  inIrq : Bool
  /-- oz.ctx. -/
  ctx : Quad
  /-- oz.tcmp. -/
  tcmp : Quad
  /-- A write of oz.tcmp has armed the timer. -/
  armed : Bool
  /-- A good load of target 0 has placed an image. -/
  loaded : Bool
  deriving DecidableEq, Repr

/-- The Ozyth core after reset. -/
def Ozyth.init : Ozyth where
  running := false
  waiting := false
  halted := false
  vbase := 0
  ien := 0
  ipend := 0
  epc := 0
  icause := 0
  inIrq := false
  ctx := 0
  tcmp := 0
  armed := false
  loaded := false

/-- A post that the quorum unit has not decided (R237, R238). -/
structure Post where
  /-- Sibling. -/
  sib : Nat
  /-- Hash. -/
  hash : Quad
  /-- Time of its stamp. -/
  time : Nat
  /-- Source of its stamp. -/
  src : Nat
  deriving DecidableEq, Repr

/-- A sibling in the quorum unit's own state (Tables 13.1 to 13.3). -/
structure Sib where
  /-- STATUS. -/
  status : Nat
  /-- HELD. -/
  held : Bool
  /-- A counted or late post is recorded. -/
  posted : Bool
  /-- HASH. -/
  hash : Quad
  /-- Its release waits for a host's answer (R244). -/
  asked : Bool
  /-- The host has released its handles (R244). -/
  hostReleased : Bool
  /-- Its counters have been written (R242, R414). -/
  written : Bool
  deriving DecidableEq, Repr

/-- A ballot of a sibling set (chapter 13). -/
structure Ballot where
  /-- NSIB. -/
  n : Nat
  /-- Q. -/
  q : Nat
  /-- OUTCOME. -/
  outcome : Nat
  /-- WHASH. -/
  whash : Quad
  /-- QSTAMP: time and source. -/
  qstamp : Nat × Nat
  /-- COMPLETER. -/
  completer : Nat
  /-- Tick of the decision (R241). -/
  decided : Nat
  /-- A decision waits for a host's answer (R244). -/
  asked : Bool
  /-- The siblings. -/
  sibs : List Sib
  /-- Private-handle slots 0 to 55: sibling and handle (R236). -/
  slots : Tbl (Nat × Quad)
  /-- Posts not yet decided. -/
  posts : List Post
  /-- Virtual address of the record. -/
  addr : Quad
  /-- A program has stored to the record of the unfinished grid: its contents are unpredictable (R235). -/
  spoiled : Bool
  /-- The record's bytes have still to take free values for that. -/
  spoilDue : Bool
  deriving DecidableEq, Repr

/-- States of a grid (Table 5.1). -/
inductive GridState where
  /-- WAITING. -/
  | waiting
  /-- READY. -/
  | ready
  /-- RUNNING. -/
  | running
  /-- TRIGGERED. -/
  | triggered
  /-- DONE. -/
  | done
  deriving DecidableEq, Repr

/-- A grid (chapter 5). -/
structure Grid where
  /-- Context slot. -/
  ctx : Nat
  /-- Grid number. -/
  num : Nat
  /-- State. -/
  st : GridState
  /-- The launch record, 128 bytes (Table 4.4). -/
  record : List Byte
  /-- Copy of MODE taken when the grid is placed (R24). -/
  mode : Quad
  /-- The context's tenant number when the grid is placed (R79). -/
  tenant : Nat
  /-- The context's lock quota when the grid is placed (R79). -/
  lockq : Nat
  /-- Tick at which the team that it has to place next became so (R94, R105). -/
  since : Nat
  /-- Order of acceptance. -/
  order : Nat
  /-- Teams placed so far. -/
  placed : Nat
  /-- Reserving since its next team found no core for 1 ms (R94). -/
  reserving : Bool
  /-- Predecessors, by number in the table of grids (R92). -/
  preds : List Nat
  /-- Its ballot, when BALLOT is not 0 (R235). -/
  ballot : Option Ballot
  deriving DecidableEq, Repr

/-- A collective round open at a member of this package (R382 to R384). -/
structure Round where
  /-- Its command. -/
  cmd : Nat
  /-- Die of the member. -/
  die : Nat
  /-- Number of the round. -/
  num : Nat
  /-- Tick at which its command left the task table (R418). -/
  since : Nat
  deriving DecidableEq, Repr

/-- A ring slot as it is set at a member die of this package (R381, R385, R386). -/
structure Seat where
  /-- Virtual address of the membership table. -/
  addr : Quad
  /-- TMO in µs. -/
  tmo : Nat
  /-- GEN. -/
  gen : Nat
  /-- Members: package and die, in ring order. -/
  members : List (Nat × Nat)
  /-- Number of the next round. -/
  next : Nat
  /-- Disabled until the next `coll.ring` (R386). -/
  disabled : Bool
  /-- The member's recovery runs, with the silent member's index (R385). -/
  recovering : Option Nat
  /-- The member has sent probes: how many, and the tick of the last (R386). -/
  probing : Option (Nat × Nat)
  /-- The member has sent a flit around the ring and waits for its return: true for a re-form, false for a resume, and the tick of its sending (R386,
  R419). -/
  returning : Option (Bool × Nat)
  /-- A re-form flit has come, with its GEN and the silent member's index, and the member has still to rewrite its table (R386). -/
  reforming : Option (Nat × Nat)
  /-- Tick at which the member last had a flit of the ring from its upstream neighbour (R418). -/
  heard : Nat
  deriving DecidableEq, Repr

/-- A ring slot: its context, what it holds at each die at which it is set, and the rounds open there (R381, R382). -/
structure Ring where
  /-- Context slot. -/
  ctx : Nat
  /-- The slot at each die at which it is set. -/
  seats : Tbl Seat
  /-- Open rounds. -/
  rounds : List Round
  deriving DecidableEq, Repr

/-- A prefix insertion that its slice has not decided (R233). -/
structure Insertion where
  /-- Issuing group. -/
  gid : Nat
  /-- sD. -/
  d : Nat
  /-- Key. -/
  key : Nat
  /-- Handle. -/
  h : Quad
  /-- Time and source of its stamp. -/
  stamp : Nat × Nat
  /-- Slice die. -/
  die : Nat
  /-- It waits for a host's answer. -/
  asked : Bool
  deriving DecidableEq, Repr

/-- A push of a counter's value to a round table (R251). -/
structure Push where
  /-- Receiving core. -/
  core : Nat
  /-- Counter. -/
  counter : Nat
  /-- Value. -/
  val : Word
  /-- The tag of the `rbump`'s result, and its group. -/
  tag : Nat
  /-- Its group. -/
  gid : Nat
  deriving DecidableEq, Repr

/-- An arena page whose count fell to 0, not yet on FREE (R231, R411). -/
structure FreedPage where
  /-- Context slot. -/
  ctx : Nat
  /-- Page. -/
  page : Nat
  /-- Commands that it waits for. -/
  waits : List Nat
  deriving DecidableEq, Repr

/-! ### The host interface (chapter 4) -/

/-- What a record that awaits an answer is about (R83). -/
inductive Ask where
  /-- It awaits none. -/
  | none
  /-- Kind 0: a light-fault service (R167). -/
  | light (asid : Nat) (va : Quad)
  /-- Kind 1: a walk (R163): die, address space, address, access. -/
  | walk (die asid : Nat) (va : Quad) (acc : Nat)
  /-- Kind 2: a migration decision (R61). -/
  | migrate (m : Migr)
  /-- Kind 3: a ballot's decision, by number of the grid (R244). -/
  | decision (grid : Nat)
  /-- Kind 3: the release of a cancelled sibling. -/
  | release (grid sib : Nat)
  /-- Kind 4: recovery of a ring slot at a die (R386). -/
  | ring (slot die : Nat)
  /-- Kind 5: the throttle (R401). -/
  | thermal
  /-- Kind 6: an arena page whose count is pinned: context slot and page (R231). -/
  | audit (ctx page : Nat)
  /-- Kind 7: a prefix insertion, by its group (R233). -/
  | insertion (gid : Nat)
  /-- Kind 8: brown-out entry or resumption (R66, R67). -/
  | brown
  deriving DecidableEq, Repr

/-- An event bound for an event queue (Table 4.5). -/
structure HostEvent where
  /-- KIND. -/
  kind : Nat
  /-- DIE. -/
  die : Nat
  /-- Time and source of STAMP. -/
  stamp : Nat × Nat
  /-- PAYLOAD, 32 bytes. -/
  payload : List Byte
  /-- What its answer is about. -/
  ask : Ask
  deriving DecidableEq, Repr

/-- A posted record that awaits its answer (R83). -/
structure Posted where
  /-- Queue. -/
  queue : Nat
  /-- SEQ. -/
  seq : Word
  /-- What it is about. -/
  ask : Ask
  deriving DecidableEq, Repr

/-- The ring phase in progress (R72, Table 4.2). -/
inductive Phase where
  /-- None. -/
  | none
  /-- LAUNCH that finds the grid table full: the record's address. -/
  | launch (va : Quad)
  /-- WAIT: address and value. -/
  | wait (va v : Quad)
  /-- COPY: host bus address, virtual address, bytes left, direction (true: device to host). -/
  | copy (host va : Quad) (left : Nat) (out : Bool)
  /-- CTX_KILL of a slot. -/
  | kill (ctx : Nat)
  /-- PURGE: ASID, base, length. -/
  | purge (asid : Nat) (base : Quad) (len : Nat)
  deriving DecidableEq, Repr

/-- A command ring of the host (Table 4.8). -/
structure HostRing where
  /-- RING_BASE. -/
  base : Quad
  /-- LOG2. -/
  log2 : Nat
  /-- ENABLE. -/
  enable : Bool
  /-- ADMIN. -/
  admin : Bool
  /-- CTX. -/
  ctx : Nat
  /-- RING_WP. -/
  wp : Word
  /-- RING_RP. -/
  rp : Word
  /-- STATE: 0 idle, 1 running, 2 halted. -/
  state : Nat
  /-- ERR. -/
  err : Nat
  /-- BAD. -/
  bad : Word
  /-- RING_AT. -/
  at_ : Word
  /-- Ring phase in progress. -/
  phase : Phase
  /-- NOTIFY and TAG of the entry in progress, and its pointer. -/
  entry : Bool × Nat × Word
  /-- A reset waits for the ring phase to end (R74). -/
  resetDue : Bool
  deriving DecidableEq, Repr

/-- A command ring after reset. -/
def HostRing.init : HostRing where
  base := 0
  log2 := 4
  enable := false
  admin := false
  ctx := 0
  wp := 0
  rp := 0
  state := 0
  err := 0
  bad := 0
  at_ := 0
  phase := .none
  entry := (false, 0, 0)
  resetDue := false

/-- An event queue (Table 4.8). -/
structure Evq where
  /-- EVQ_BASE. -/
  base : Quad
  /-- LOG2. -/
  log2 : Nat
  /-- ENABLE. -/
  enable : Bool
  /-- KINDS. -/
  kinds : BitVec 16
  /-- VEC. -/
  vec : Nat
  /-- EVQ_WP. -/
  wp : Word
  /-- EVQ_RP. -/
  rp : Word
  /-- FULL. -/
  full : Bool
  /-- BADRP. -/
  badrp : Bool
  /-- STRAY. -/
  stray : Word
  /-- SEQ of the next record. -/
  seq : Word
  deriving DecidableEq, Repr

/-- An event queue after reset. -/
def Evq.init : Evq where
  base := 0
  log2 := 4
  enable := false
  kinds := 0
  vec := 0
  wp := 0
  rp := 0
  full := false
  badrp := false
  stray := 0
  seq := 0

/-- Firmware (R85, R86). -/
structure Firmware where
  /-- FW_STAT code. -/
  code : Nat
  /-- A load is in progress: the result that its checks gave at GO, and the bytes that they were made on (R86). -/
  load : Option (Nat × Memory)
  /-- FW_MIN of targets 0 to 2. -/
  min : Tbl Nat
  /-- FW_MEAS of targets 0 to 2. -/
  meas : Tbl (List Byte)
  /-- Targets that hold a good load. -/
  good : List Nat
  /-- A memory initialisation is in progress. -/
  initBusy : Bool
  deriving DecidableEq, Repr

/-- Firmware state after reset. -/
def Firmware.init : Firmware where
  code := 0
  load := none
  min := []
  meas := []
  good := []
  initBusy := false

/-- The host interface. -/
structure HostIf where
  /-- Command rings 0 to 31. -/
  rings : Tbl HostRing
  /-- Event queues 0 to 7. -/
  evqs : Tbl Evq
  /-- Held events, the oldest first (R82). -/
  held : List HostEvent
  /-- Records that await their answers. -/
  posted : List Posted
  /-- HIF_STAT.NOQ. -/
  noq : Bool
  /-- Interrupt vectors sent to the host, the oldest first. -/
  vectors : List Nat
  /-- Staging memory. -/
  staging : Memory
  /-- Firmware. -/
  fw : Firmware
  deriving DecidableEq, Repr

/-- The host interface after reset. -/
def HostIf.init : HostIf where
  rings := []
  evqs := []
  held := []
  posted := []
  noq := false
  vectors := []
  staging := []
  fw := Firmware.init

/-- A flit that the package sends (Table 1.3). -/
structure Flit where
  /-- TYPE: 0 DATA, 1 IDLE, 2 RETRY, 3 TIME. -/
  typ : Nat
  /-- VC. -/
  vc : Nat
  /-- SEQ. -/
  seq : Nat
  /-- ACK. -/
  ack : Nat
  /-- STOP. -/
  stop : BitVec 4
  /-- RSEQ. -/
  rseq : Nat
  /-- Payload. -/
  payload : List Byte
  deriving DecidableEq, Repr

/-- A link port: 0 to 23 the Iseth port of a die, 24 the Bilaelis link (R19 to R22). -/
structure Port where
  /-- UP. -/
  up : Bool
  /-- RETRAIN. -/
  retrain : Bool
  /-- DOWN. -/
  down : Bool
  /-- Retry count. -/
  retries : Word
  /-- Sequence number expected next. -/
  expect : Nat
  /-- Flits are discarded until the resend arrives. -/
  discard : Bool
  /-- RETRY flits sent since the last delivery. -/
  unanswered : Nat
  /-- Highest ACK received. -/
  acked : Nat
  /-- STOP levels of the partner's receive side. -/
  stop : BitVec 4
  /-- STOP levels of this receive side (R20). -/
  stops : BitVec 4
  /-- SEQ of the next new DATA flit. -/
  nextSeq : Nat
  /-- DATA flits sent and not yet acknowledged: SEQ, VC and payload. -/
  replay : List (Nat × Nat × List Byte)
  /-- `Pkg.clock` when its retraining started (R22). -/
  since : Nat
  /-- Flits sent, the oldest first. -/
  sent : List Flit
  /-- The receive buffer: VC and payload of the flits delivered and not yet taken out, the oldest first. -/
  inbox : List (Nat × List Byte)
  deriving DecidableEq, Repr

/-- A port after reset. -/
def Port.init : Port where
  up := false
  retrain := false
  down := false
  retries := 0
  expect := 0
  discard := false
  unanswered := 0
  acked := 4095
  stop := 0
  stops := 0
  nextSeq := 0
  replay := []
  since := 0
  sent := []
  inbox := []

/-- Package registers and state (chapters 1, 3, 22).  The local copies that the dies keep of the time counter are this one counter, with
no skew between them (DESIGN CHOICE, log entry 23). -/
structure Pkg where
  /-- PKG_ID. -/
  id : Nat
  /-- The time counter. -/
  now : Nat
  /-- Ticks that have passed since package reset, whatever the time counter does: the model's own field, by which it times silences and
  bounds. -/
  clock : Nat
  /-- TIME_WALL, without its carry beyond 64 bits. -/
  wall : Nat
  /-- It has joined a domain (R17). -/
  joined : Bool
  /-- TIME_STAT.SYNC. -/
  sync : Bool
  /-- Ticks by which the counter is ahead of the master's (R16). -/
  offset : Int
  /-- The counter stands still until it agrees with the master's (R17). -/
  still : Bool
  /-- R17 is to be applied at the next comparison with the master (R68). -/
  rejoin : Bool
  /-- It has joined or rejoined the domain, and its offset has not yet come within 8 ticks (R17). -/
  joining : Bool
  /-- Ticks since the counter last slewed, up to 63 (R15). -/
  sinceSlew : Nat
  /-- Live packages of the domain, this one apart (R16). -/
  live : List Nat
  /-- The domain time master. -/
  master : Nat
  /-- `clock` at the last time flit of the current master (R16). -/
  heardAt : Nat
  /-- MODE. -/
  mode : Quad
  /-- MODE_STAT.REJECT. -/
  reject : Bool
  /-- MODE_STAT.CLK_BUSY. -/
  clkBusy : Bool
  /-- DUTY. -/
  duty : Quad
  /-- PWR_STAT.STATE: 0 OFF, then as Table 3.4. -/
  pwr : Nat
  /-- PWR_WARN, the pin's level. -/
  warn : Bool
  /-- Nanoseconds for which the pin has been low (R62). -/
  lowFor : Nat
  /-- PWR_STAT.STEP. -/
  step : Nat
  /-- The last resumption step done (R68). -/
  back : Nat
  /-- CAUSE of the entry: 0 pin, 1 command (Table 3.8). -/
  cause : Nat
  /-- The entry waits for the host's answer (R66). -/
  vetoWait : Bool
  /-- `clock` at the trigger of the entry (R67). -/
  trigAt : Nat
  /-- `clock` at the end of the last entry step (R64). -/
  stepAt : Nat
  /-- PWR_CFG.AUTO. -/
  auto : Bool
  /-- PWR_CFG.HOLD. -/
  hold : Nat
  /-- BO_SAVED. -/
  boSaved : Quad
  /-- BO_WALL. -/
  boWall : Quad
  /-- TIME_GAP. -/
  timeGap : Quad
  /-- BO_COUNT. -/
  boCount : Word
  /-- ECC mode in force since memory initialisation (R24). -/
  eccStrong : Bool
  /-- Memory has been initialised. -/
  memInit : Bool
  /-- THERM_T by die. -/
  therm : Tbl Nat
  /-- The hottest temperature of the last sample round, if there was one (R422). -/
  hottest : Option Nat
  /-- THERM_CFG.HI. -/
  thermHi : Nat
  /-- THERM_CFG.LO. -/
  thermLo : Nat
  /-- THROTTLE. -/
  throttle : Nat
  /-- KV_TBL. -/
  kvTbl : Quad
  /-- PFX_TBL. -/
  pfxTbl : Quad
  /-- SAVE_BASE. -/
  saveBase : Quad
  /-- SAVE_LEN. -/
  saveLen : Quad
  deriving DecidableEq, Repr

/-- The package registers after reset (Tables 1.4, 1.5, 3.7, 22.9). -/
def Pkg.init : Pkg where
  id := 0
  now := 0
  clock := 0
  wall := 0
  joined := false
  sync := false
  offset := 0
  still := false
  rejoin := false
  joining := false
  sinceSlew := 0
  live := []
  master := 0
  heardAt := 0
  mode := 0x3120
  reject := false
  clkBusy := false
  duty := 0
  pwr := 0
  warn := false
  lowFor := 0
  step := 0
  back := 0
  cause := 0
  vetoWait := false
  trigAt := 0
  stepAt := 0
  auto := false
  hold := 10
  boSaved := 0
  boWall := 0
  timeGap := 0
  boCount := 0
  eccStrong := false
  memInit := false
  therm := []
  hottest := none
  thermHi := 95
  thermLo := 85
  throttle := 0
  kvTbl := 0
  pfxTbl := 0
  saveBase := 0
  saveLen := 0

/-- A region-table entry (Table 2.8), with what the stack keeps to count its passes (R36, R38). -/
structure Region where
  /-- FUNC. -/
  func : Nat
  /-- TYPE. -/
  typ : Nat
  /-- SAT. -/
  sat : Bool
  /-- DRAIN. -/
  drain : Bool
  /-- PASSES. -/
  passes : Nat
  /-- LEFT. -/
  left : Nat
  /-- The next entry of the region: stack and index. -/
  next : Option (Nat × Nat)
  /-- The first entry of the region: stack and index (its ID, R35). -/
  first : Nat × Nat
  /-- K0. -/
  k0 : Word
  /-- K1. -/
  k1 : Word
  /-- PBASE, in 1 KiB units. -/
  pbase : Nat
  /-- PLEN, in 1 KiB units. -/
  plen : Nat
  /-- VBASE. -/
  vbase : Nat
  /-- ASID. -/
  asid : Nat
  /-- First pass of each pseudo-channel in which it applies. -/
  p0 : Tbl Nat
  /-- Pseudo-channels that have crossed the boundary after `sweep.dereg`. -/
  crossed : BitVec 64
  /-- The group that registered it, if a group did (R407). -/
  gid : Option Nat
  /-- The commands of the `sweep.dereg` words that are pending (R374). -/
  dereg : List Nat
  deriving DecidableEq, Repr

/-- A row request in a slot of a base die (R39). -/
structure RowReq where
  /-- Request number. -/
  id : Nat
  /-- The command that made it. -/
  cmd : Nat
  /-- The issuing group. -/
  gid : Nat
  /-- Address space. -/
  asid : Nat
  /-- Virtual address of the row. -/
  va : Nat
  /-- Package physical address of the row. -/
  pa : Nat
  /-- Function. -/
  func : Nat
  /-- Type. -/
  typ : Nat
  /-- Saturate flag. -/
  sat : Bool
  /-- K0. -/
  k0 : Word
  /-- K1. -/
  k1 : Word
  /-- TAG. -/
  tag : Nat
  /-- Urgency: 0 plain, 1 `.sweeponly`, 2 `.hurry`. -/
  urg : Nat
  /-- It has been applied; its words are on their way. -/
  applied : Bool
  /-- The store number under which its words reach the sharers. -/
  store : Nat
  /-- Time of the application's bank stamp. -/
  time : Nat
  /-- What it would write is discarded: its sibling has been cancelled, and its row is not private (R242). -/
  lost : Bool
  deriving DecidableEq, Repr

/-- A memory stack and its base die (chapter 2). -/
structure Stack where
  /-- HOT. -/
  hot : Bool
  /-- DRAM temperature in °C. -/
  temp : Nat
  /-- STK_NBR.TEST. -/
  nbrTest : Bool
  /-- STK_NBR.SEED. -/
  nbrSeed : Word
  /-- Generator state of bank b of pseudo-channel c, under 32 c + b. -/
  xs : Tbl Word
  /-- STK_SCRUB: corrected errors. -/
  corrected : Word
  /-- STK_SCRUB: uncorrectable errors. -/
  uncorrected : BitVec 16
  /-- Next row index of each pseudo-channel; 32,768 after the last restore of a pass (R31). -/
  nextRow : Tbl Nat
  /-- Pass number of each pseudo-channel. -/
  pass : Tbl Nat
  /-- The period in force, as MODE_SWEEP and HOT at the channel's last boundary (R30). -/
  period : Tbl (Nat × Bool)
  /-- Region table. -/
  regions : Tbl Region
  /-- Row-request slots in order of acceptance. -/
  reqs : List RowReq
  /-- Open row of each bank, under 32 c + b. -/
  openRow : Tbl Nat
  deriving DecidableEq, Repr

/-- A stack after reset: 4,096 free slots and 256 free entries (Table 2.5). -/
def Stack.init : Stack where
  hot := false
  temp := 0
  nbrTest := false
  nbrSeed := 1
  xs := []
  corrected := 0
  uncorrected := 0
  nextRow := []
  pass := []
  period := []
  regions := []
  reqs := []
  openRow := []

/-- Events that the machine itself owes: each is the event of the table of that name, for the units given (log entry 2). -/
inductive Owed where
  /-- TRANSLATION_REQUEST. -/
  | translationRequest (die asid : Nat) (va : Quad) (acc core : Nat)
  /-- An agent posts a walk record for a home, or for lanes whose translation fault the host services (R163, Table 8.3). -/
  | walkPost (asid : Nat) (va : Quad) (acc : Nat)
  /-- ATTRIBUTE_RETURN. -/
  | attributeReturn (core asid : Nat) (va : Quad)
  /-- LIGHT_FAULT_SERVICE. -/
  | lightFaultService (asid : Nat) (va : Quad)
  /-- L2_MISS, by an access of a kind: 0 read, 1 write, 2 fetch. -/
  | l2Miss (asid : Nat) (va : Quad) (acc : Nat)
  /-- ATOMIC_MERGE. -/
  | atomicMerge (core asid : Nat) (va : Quad)
  /-- ATOMIC_MERGE of the oldest entry of a full atomic buffer, which counts as an eviction too (R154, Table 7.6). -/
  | atomicEvict (core asid : Nat) (va : Quad)
  /-- BANK_ACCESS: the oldest access queued at the bank of an address. -/
  | bankAccess (pa : Nat)
  /-- BANK_STORE_ACK: the oldest message to the home slice of a line. -/
  | bankStoreAck (asid : Nat) (va : Quad)
  /-- COMB_UPDATE. -/
  | combUpdate (asid : Nat) (va : Quad)
  /-- WRITE_UPDATE: the oldest update from a home slice to a core. -/
  | writeUpdate (slice core : Nat)
  /-- STORE_ACK. -/
  | storeAck (store : Nat)
  /-- ROUND_INSTALL. -/
  | roundInstall (core counter : Nat)
  /-- ROUND_PUSH: the oldest push to a core. -/
  | roundPush (core : Nat)
  /-- ROUND_INCREMENT. -/
  | roundIncrement (gid : Nat)
  /-- ROW_REQUEST_COMPLETE. -/
  | rowRequestComplete (stack id : Nat)
  /-- HANDLE_SLICE_OPERATION. -/
  | handleSlice (gid : Nat)
  /-- MIGRATION of the page in a frame. -/
  | migration (src : Nat)
  /-- COLL_ABORT_FLIT: an abort reaches another member die of this package (R385, R387). -/
  | collAbort (slot die status silent : Nat)
  /-- A re-form flit on its way to a member die, with its GEN and the silent member's index (R386). -/
  | collReform (slot die gen silent : Nat)
  /-- A resume flit on its way to a member die (R386). -/
  | collResume (slot die : Nat)
  deriving DecidableEq, Repr

/-- What moves next: an event, or an issue slot. -/
inductive Act where
  /-- An event of the table of operations and events. -/
  | event (i : Instr)
  /-- An issue slot of a partition (R102). -/
  | issue (core part : Nat)
  /-- An issue slot of the Ozyth core. -/
  | oz
  /-- The units of the package take the oldest `n` DATA flits of a channel out of a port's receive buffer (R20). -/
  | drain (port vc n : Nat)
  /-- A unit of the package sends a DATA flit on a port (R20, R21). -/
  | send (port vc : Nat) (payload : List Byte)
  /-- A port sends an IDLE flit, which carries its ACK and STOP levels (R20). -/
  | idle (port : Nat)
  /-- A bit of package memory errs: physical address, and bit of the byte (R44). -/
  | bitError (pa bit : Nat)
  /-- The DRAM temperature of a stack changes (R30). -/
  | dramTemp (stack temp : Nat)
  /-- The host writes bytes of its staging window (R71). -/
  | stage (off : Nat) (bytes : List Byte)
  deriving DecidableEq, Repr

/-- An entry of the agenda: so many ticks pass, and then this happens (log entry 2). -/
structure Agendum where
  /-- Ticks. -/
  ticks : Nat
  /-- What happens. -/
  act : Act
  deriving DecidableEq, Repr

/-- A fault of the model: the machine stops.  None of these is raised by an instruction whose effect the manual gives. -/
inductive Fault where
  /-- Raised by `step` alone, when the agenda names an instruction word where only an event of the table may stand: the outside of the
  machine does not execute words.  Safe. -/
  | notAnEvent
  deriving DecidableEq, Repr

/-- A refusal of the model. -/
inductive Refusal where
  /-- Raised by the dispatch for an instruction that has no meaning yet.  Safe. -/
  | notModelled (mnemonic : String)
  deriving DecidableEq, Repr

/-- The whole machine: one package of a domain. -/
structure State where
  /-- Package registers. -/
  pkg : Pkg
  /-- The group that issues: its number in `groups`. -/
  cur : Nat
  /-- The groups, by number; number 0 is the group of the Ozyth core. -/
  groups : Tbl Group
  /-- The teams, by number from 1. -/
  teams : Tbl Team
  /-- The grids, by number. -/
  grids : Tbl Grid
  /-- Engine commands, by number. -/
  cmds : Tbl Cmd
  /-- Cores, 24 × die + core; core 576 is the Ozyth core. -/
  cores : Tbl Core
  /-- Context slots 0 to 255. -/
  ctxs : Tbl Ctx
  /-- The Ozyth core's registers. -/
  oz : Ozyth
  /-- Package physical memory (R11). -/
  mem : Memory
  /-- Poisoned ECC words of package memory, by physical address. -/
  poison : List Nat
  /-- Memory of other packages as this one sees it, by domain physical address. -/
  peerMem : Memory
  /-- Its poisoned ECC words, as this package has written them (R169). -/
  peerPoison : List Nat
  /-- Private memory of the Ozyth core (R398). -/
  ozMem : Memory
  /-- Host memory. -/
  hostMem : Memory
  /-- The host interface. -/
  host : HostIf
  /-- Stacks 0 to 23. -/
  dram : Tbl Stack
  /-- ECC words with errors that no restore has met yet, by physical address: the bits in error (R44). -/
  eccErr : Tbl (List Nat)
  /-- Lines at their homes, by address space and line (R149). -/
  l2 : Tbl L2Line
  /-- TLB entries by translation agent, 8 × die + agent (R163). -/
  tlb : Tbl (List PageEntry)
  /-- The reverse map (R164). -/
  rmap : List PageEntry
  /-- Walks that wait for a host's answer (R163). -/
  hostWalks : List HostWalk
  /-- Light-fault services in progress (R167). -/
  lightSvcs : List LightSvc
  /-- MIG_HEAT per die: the base of the heat table in 64 KiB units of the stack (R55). -/
  migHeat : Tbl Nat
  /-- Page moves under way (R59). -/
  migrs : List Migr
  /-- Free 64 KiB frames, by package physical base, as the last scan found them (R58). -/
  freeFrames : List Nat
  /-- MIG_STAT per die: promotions and demotions. -/
  migStat : Tbl (Word × Word)
  /-- MIG_ABORT per die. -/
  migAbort : Tbl Word
  /-- SEQ of the next migration record (Table 3.3). -/
  migSeq : Nat
  /-- Link ports: 0 to 23 Iseth, 24 Bilaelis. -/
  ports : Tbl Port
  /-- Updates under way, the oldest first (R152). -/
  updates : List Update
  /-- Stores not yet acknowledged, by store number. -/
  stores : Tbl Store
  /-- Accesses queued at the banks, the oldest first (R45). -/
  bankq : List BankAccess
  /-- Messages from banks to home slices, the oldest first (R40). -/
  bankMsgs : List BankMsg
  /-- Address-range format registers 0 to 63: BASE, LEN, FMT and SCALE (R208). -/
  arf : Tbl (Quad × Quad × Quad × Quad)
  /-- Lines of 128 bytes held by the memory-side caches, by number (R54). -/
  msc : List Nat
  /-- MSC_STAT hits and misses per die. -/
  mscStat : Tbl (Word × Word)
  /-- Round counters (R245). -/
  rounds : Tbl Word
  /-- RND_CFG.STALL per counter. -/
  roundStall : Tbl Bool
  /-- Pushes under way, the oldest first (R251). -/
  pushes : List Push
  /-- Groups with an operation at a prefix-index slice, in order of arrival (R228, R370). -/
  sliceq : List Nat
  /-- Prefix insertions not yet decided (R233). -/
  insertions : List Insertion
  /-- Arena pages that wait to be pushed onto FREE (R231). -/
  freedPages : List FreedPage
  /-- KV_AUDIT: saturations and underflows (Table 12.8). -/
  kvAudit : Word × Word
  /-- PFX_STAT: insertions won and lost. -/
  pfxStat : Word × Word
  /-- Ring slots 0 to 63 of collectives (R381). -/
  rings : Tbl Ring
  /-- Time of the last stamp of each unit (R14). -/
  stamps : Tbl Nat
  /-- Events that the machine itself owes, the oldest first (log entry 2). -/
  due : List Owed
  /-- What moves next (log entry 2). -/
  agenda : List Agendum
  /-- The number that the next free value is applied to (log entry 5). -/
  free : Nat
  /-- The next number for a group, team, grid, command, store or order. -/
  fresh : Nat
  deriving DecidableEq, Repr

/-- A group that nothing has started; its values are those of R97 at a team's start, before ENTRY and PARAM. -/
def Group.init : Group where
  team := 0
  oz := false
  num := 0
  role := 0
  roleGrp := 0
  budget := 120
  core := 0
  part := 0
  pos := 0
  pcs := []
  exited := 0
  joined := 0
  parked := 0
  svc := []
  arrived := 0
  a := 0
  e := 0
  runOpen := false
  runLen := 0
  words := 0
  hx := none
  hm := none
  hg := none
  trail := none
  pend := []
  freed := []
  v := []
  vseed := []
  tseed := 0
  seed := 0
  s := []
  p := []
  g := []
  q := []
  inTrap := 0
  epc := []
  cause := []
  taddr := []
  trapBase := 0
  owed := []
  rngKey := 0
  rngCtr := 0
  grant := 0x801
  grantReq := 0
  block := .none
  blockFin := false
  stopped := false
  stopDue := false
  stepping := false
  skipBp := none
  matched := false
  stopNote := none
  split := false
  gang := 0
  ending := false
  cancel := false
  saving := false
  stop := none
  triggered := false
  trigStores := []
  hold := false
  deferred := false
  gone := false
  slot := none
  lastIssue := 0
  turn := 0
  readySince := 0
  chosen := false
  spent := false
  relWait := none
  fence := none
  acq := none
  lost := []
  gaveUp := []
  stores := []
  observed := []
  cmds := []

/-- The machine right after reset: every register at the value that its table gives, and those for which the manual gives none as
log entry 3 says. -/
def State.reset : State where
  pkg := Pkg.init
  cur := 0
  groups := [(0, { Group.init with oz := true, core := 576, exited := 0xFFFE })]
  teams := []
  grids := []
  cmds := []
  cores := []
  ctxs := []
  oz := Ozyth.init
  mem := []
  poison := []
  peerMem := []
  peerPoison := []
  ozMem := []
  hostMem := []
  host := HostIf.init
  dram := []
  eccErr := []
  l2 := []
  tlb := []
  rmap := []
  hostWalks := []
  lightSvcs := []
  migHeat := []
  migrs := []
  freeFrames := []
  migStat := []
  migAbort := []
  migSeq := 0
  ports := []
  updates := []
  stores := []
  bankq := []
  bankMsgs := []
  arf := []
  msc := []
  mscStat := []
  rounds := []
  roundStall := []
  pushes := []
  sliceq := []
  insertions := []
  freedPages := []
  kvAudit := (0, 0)
  pfxStat := (0, 0)
  rings := []
  stamps := []
  due := []
  agenda := []
  free := 0
  fresh := 2

end Sys2Proof.Machine
end

