-- ==== Sys2Proof/Machine/Ops.lean ====
section
/-! DEFINITION. Ops: the named operations over the state that every meaning uses: units by number, registers of the issuing
group, stamps, faults and traps, runs, and the issue of a word. -/

namespace Sys2Proof.Machine

/-- What a step answers. -/
abbrev Out := Host.Outcome State Fault Refusal

/-! ### Lanes and masks -/

/-- The lanes of a mask in ascending order (R192). -/
def lanesOf (m : Mask) : List Nat := (List.range 16).filter fun l => m.getLsbD l

/-- The mask with only lane l. -/
def laneBit (l : Nat) : Mask := BitVec.ofNat 16 (2 ^ l)

/-- The mask of a list of lanes. -/
def maskOf (ls : List Nat) : Mask := ls.foldl (fun m l => m ||| laneBit l) 0

/-- All 16 lanes. -/
def allLanes : Mask := 0xFFFF

/-! ### Power (R62, R64, R68, R76) -/

/-- Work goes on: in RUN, and in ENTER while the host's answer is awaited, before entry step 1 (R66).  (In part DEDUCED, log entry 27.) -/
def Pkg.running (p : Pkg) : Bool := p.pwr == 2 || (p.pwr == 3 && p.vetoWait)

/-- Ring entries are taken, and ring phases go on: from resumption step 5 on, and up to entry step 1 (R76).  (In part DEDUCED, log entry 27.) -/
def Pkg.fetches (p : Pkg) : Bool := p.running || (p.pwr == 5 && 5 ≤ p.back)

/-- Entry has stopped the groups: it waits for no answer of the host any more, and the hardware does what waited for one (R84).  (In part DEDUCED,
log entry 27.) -/
def Pkg.entered (p : Pkg) : Bool := p.pwr == 3 && 2 ≤ p.step

/-- The link to the host works: entry step 9 powers it down, and held events are posted after resumption step 5 (R67). -/
def Pkg.linked (p : Pkg) : Bool := !(p.pwr == 4 || (p.pwr == 5 && p.back < 5))

/-- The memories do not answer: the caches are lost at entry step 5, and the comb resumes at resumption step 4 (R64, R65, R68).  The Ozyth core, which
goes on, waits at every access to them.  (In part DEDUCED, log entry 27.) -/
def Pkg.memDown (p : Pkg) : Bool := (p.pwr == 3 && 5 ≤ p.step) || p.pwr == 4 || (p.pwr == 5 && p.back < 4)

/-- Entry step 3 has lasted 600 µs: a command that still runs is terminated (R64). -/
def Pkg.entryLate (p : Pkg) : Bool := p.pwr == 3 && p.step == 2 && p.stepAt + 600000 ≤ p.clock

/-! ### Units by number -/

/-- A team that nothing has placed (Table 5.4; R97, R197 give the values at a team's start). -/
def Team.init : Team where
  grid := 0
  num := 0
  sib := 0
  rank := 0
  cluster := 0
  core := 0
  st := .unplaced
  groups := []
  fmt := []
  tsr := []
  tiles := []
  ways := []
  sp := []
  spSeed := []
  spPoison := []
  bars := []
  trig := 0
  exit := 0
  work := [0, 0, 0, 0]
  saveBase := 0
  saveUnits := 0
  order := 0
  terminating := false
  cancelled := false
  waitOut := none
  byEntry := false
  keptHeld := []
  keptBufs := []

/-- A grid of no record. -/
def Grid.init : Grid where
  ctx := 0
  num := 0
  st := .waiting
  record := []
  mode := 0
  tenant := 0
  lockq := 0
  since := 0
  order := 0
  placed := 0
  reserving := false
  preds := []
  ballot := none

/-- The number of the Ozyth core's group. -/
def ozGid : Nat := 0

/-- A number that no group has: the maker of the writes of engines and device agents. -/
def noGid : Nat := 1

/-- The number under which the Ozyth core's caches and tables stand. -/
def ozCore : Nat := 576

/-- The issuing group. -/
def State.grp (s : State) : Group := s.groups.getD s.cur Group.init

/-- Replace the issuing group. -/
def State.setGrp (s : State) (g : Group) : State := { s with groups := s.groups.set s.cur g }

/-- Change the issuing group. -/
def State.updGrp (s : State) (f : Group → Group) : State := s.setGrp (f s.grp)

/-- A group by number. -/
def State.group (s : State) (gid : Nat) : Group := s.groups.getD gid Group.init

/-- Change a group by number, if there is one. -/
def State.updGroup (s : State) (gid : Nat) (f : Group → Group) : State :=
  { s with groups := s.groups.modify gid f }

/-- A core by number. -/
def State.core (s : State) (c : Nat) : Core := s.cores.getD c Core.init

/-- Change a core. -/
def State.updCore (s : State) (c : Nat) (f : Core → Core) : State :=
  { s with cores := s.cores.set c (f (s.core c)) }

/-- A team by number. -/
def State.team (s : State) (t : Nat) : Team := s.teams.getD t Team.init

/-- Change a team, if there is one. -/
def State.updTeam (s : State) (t : Nat) (f : Team → Team) : State := { s with teams := s.teams.modify t f }

/-- A grid by number. -/
def State.grid (s : State) (n : Nat) : Grid := s.grids.getD n Grid.init

/-- Change a grid, if there is one. -/
def State.updGrid (s : State) (n : Nat) (f : Grid → Grid) : State := { s with grids := s.grids.modify n f }

/-- A context slot. -/
def State.ctx (s : State) (n : Nat) : Ctx := s.ctxs.getD n Ctx.init

/-- Change a context slot. -/
def State.updCtx (s : State) (n : Nat) (f : Ctx → Ctx) : State := { s with ctxs := s.ctxs.set n (f (s.ctx n)) }

/-- The number of the next thing made. -/
def State.bumpFresh (s : State) : State := { s with fresh := s.fresh + 1 }

/-- The number after the next free value. -/
def State.bumpFree (s : State) : State := { s with free := s.free + 1 }

/-- Events that the machine owes, each once. -/
def State.owe (s : State) (l : List Owed) : State :=
  { s with due := l.foldl (fun (d : List Owed) i => if d.contains i then d else d ++ [i]) s.due }

/-- The team of the issuing group. -/
def State.myTeam (s : State) : Team := s.team s.grp.team

/-- The grid of the issuing group. -/
def State.myGrid (s : State) : Grid := s.grid s.myTeam.grid

/-- The context slot of a group; the Ozyth core takes that of oz.ctx (R398). -/
def State.ctxOf (s : State) (g : Group) : Nat :=
  if g.oz then (s.oz.ctx.extractLsb' 0 8).toNat else (s.grid (s.team g.team).grid).ctx

/-- The ASID of a group's context. -/
def State.asidOf (s : State) (g : Group) : Nat := (s.ctx (s.ctxOf g)).asid

/-- The tenant number that a group acts under: its grid's copy (R79), or that of the Ozyth core's context. -/
def State.tenantOf (s : State) (g : Group) : Nat :=
  if g.oz then (s.ctx (s.ctxOf g)).tenant else (s.grid (s.team g.team).grid).tenant

/-- The lock quota that a group acts under (R79). -/
def State.lockqOf (s : State) (g : Group) : Nat :=
  if g.oz then (s.ctx (s.ctxOf g)).lockq else (s.grid (s.team g.team).grid).lockq

/-- The MODE copy of the issuing group's grid (R24); the Ozyth core reads MODE itself. -/
def State.modeOf (s : State) (g : Group) : Quad :=
  if g.oz then s.pkg.mode else (s.grid (s.team g.team).grid).mode

/-- A field of a launch record (Table 4.4). -/
def recField (r : List Byte) (off n : Nat) : Nat := leNat ((r.drop off).take n)

/-! ### Stamps (R4, R14) -/

/-- The source number of unit `u` of die `d` (R13).  (In part DEDUCED, log entry 20.) -/
def State.source (s : State) (d u : Nat) : Nat := s.pkg.id * 2 ^ 18 + d * 2 ^ 13 + u

/-- The source number of a group's partition, or of the Ozyth core (Table 1.2, R392).  (In part DEDUCED, log entry 20.) -/
def State.groupSource (s : State) (g : Group) : Nat :=
  if g.oz then s.source 0 0x1FF0 else s.source (g.core / 24) (g.core % 24 * 64 + g.part)

/-- The time of the next stamp of a source: the present tick, or the first tick after its last stamp (R14). -/
def State.stampTime (s : State) (src : Nat) : Nat :=
  match s.stamps.get? src with
  | some t => max s.pkg.now (t + 1)
  | none => s.pkg.now

/-- Record a stamp of a source. -/
def State.stamp (s : State) (src : Nat) : State := { s with stamps := s.stamps.set src (s.stampTime src) }

/-! ### Registers of a group -/

/-- Lane l of a vector register; a lane that nothing has written holds an undefined value (R3). -/
def Group.readV (g : Group) (r l : Nat) : Word :=
  match g.v.get? (16 * r + l) with
  | some x => x
  | none => Config.undefLane (g.vseed.getD (16 * r + l) (if 120 ≤ r then g.tseed else g.seed)) r l

/-- Write lane l of a vector register. -/
def Group.writeV (g : Group) (r l : Nat) (x : Word) : Group := { g with v := g.v.set (16 * r + l) x }

/-- A scalar register; s0 reads 0 (R275). -/
def Group.readS (g : Group) (r : Nat) : Quad := if r = 0 then 0 else g.s.getD r 0

/-- Write a scalar register; a write to s0 is discarded (R275). -/
def Group.writeS (g : Group) (r : Nat) (x : Quad) : Group := if r = 0 then g else { g with s := g.s.set r x }

/-- The 16 lanes of a predicate register. -/
def Group.pred (g : Group) (r : Nat) : Mask :=
  match g.p.get? r with
  | some m => m
  | none => Config.undefPred g.seed r

/-- Lane l of a predicate register. -/
def Group.readP (g : Group) (r l : Nat) : Bool := (g.pred r).getLsbD l

/-- Write the lanes of `m` of a predicate register with the lanes of `x`. -/
def Group.writeP (g : Group) (r : Nat) (m x : Mask) : Group :=
  { g with p := g.p.set r ((g.pred r &&& ~~~m) ||| (x &&& m)) }

/-- The program counter of lane l. -/
def Group.pc (g : Group) (l : Nat) : Quad := g.pcs.getD l 0

/-- Write the program counter of lane l. -/
def Group.setPc (g : Group) (l : Nat) (x : Quad) : Group := { g with pcs := g.pcs.set l x }

/-- Lanes that are issuing or waiting (R111). -/
def Group.eligible (g : Group) : Mask := ~~~(g.exited ||| g.joined ||| g.parked)

/-- Sub-group width of a group register (R126). -/
def Group.subWidth (g : Group) (r : Nat) : Nat :=
  match g.g.getD r 2 with
  | 0 => 4
  | 1 => 8
  | _ => 16

/-- Write lanes of a vector register. -/
def Group.writeLanes (g : Group) (r : Nat) (f : Nat → Word) (ls : List Nat) : Group :=
  ls.foldl (fun g l => g.writeV r l (f l)) g

/-- A register that a write allocates again (R123). -/
def Group.allocate (g : Group) (r : Nat) : Group := { g with freed := g.freed.del r }

/-- The lanes in which a register is freed. -/
def Group.freedIn (g : Group) (r : Nat) : Mask := if r < 120 then g.freed.getD r 0 else 0

/-- A read of a register by the lanes of E meets one in which it is freed (R123). -/
def Group.isFreed (g : Group) (r : Nat) : Bool := g.freedIn r &&& g.e != 0

/-- A register is freed in the lanes of a mask, beside those in which it is freed already. -/
def Group.markFreed (g : Group) (r : Nat) (m : Mask) : Group := { g with freed := g.freed.set r (g.freedIn r ||| m) }

/-- Forget lanes of a register: each holds an undefined value from here on, named by a seed. -/
def Group.forget (g : Group) (r seed : Nat) (m : Mask) : Group :=
  { g with
    v := g.v.filter fun e => e.1 / 16 != r || !m.getLsbD (e.1 % 16)
    vseed := (lanesOf m).foldl (fun t l => t.set (16 * r + l) seed) g.vseed }

/-- The commands of a group that still hold a register (R217). -/
def State.holders (s : State) (gid r : Nat) : List Nat :=
  (s.cmds.filter fun e => e.2.gid == gid && e.2.st == .waiting && e.2.holds.contains r).map (·.1)

/-- Free lanes of a register of the issuing group (R123): a later read gives an undefined value, or meets the freed-register trap.  Those of `keep`
hold the values that the same word wrote.  A register that a command of the task table holds is freed after the command's read (R217). -/
def State.freeReg (s : State) (r : Nat) (freed keep : Mask) : State :=
  match s.holders s.cur r with
  | [] => ({ s with free := s.free + 1 }).updGrp fun g => (g.forget r s.free (freed &&& ~~~keep)).markFreed r freed
  | cs => { s with cmds := cs.foldl (fun t c => t.modify c fun x =>
      { x with freeAfter := x.freeAfter.set r (x.freeAfter.getD r 0 ||| freed) }) s.cmds }

/-- Results of `rbump` carry tags from this one on; every release of the group after an `rbump` waits for it (R251). -/
def bumpTag : Nat := 8192

/-- An `rbump` of the group has not returned (R251). -/
def Group.bumping (g : Group) : Bool := g.pend.any fun p => bumpTag ≤ p.tag && !p.ready

/-- A fresh long-latency result of the open run (R120). -/
def Group.addPending (g : Group) (res : Result) : Group :=
  { g with pend := g.pend ++ [⟨res, true, false, false, [], 0⟩] }

/-- The register that a result names: 0 to 127 a vector register, 128 and above a scalar register. -/
def Result.key : Result → Option Nat
  | .lanes r _ => some r
  | .scalar r _ => some (128 + r)
  | .load r .. => some r
  | .record .. => none

/-! ### Faults, traps and termination (R168 to R171) -/

/-- Fault codes of Table 8.3. -/
def fIllegal : Nat := 0x01
/-- run-length. -/
def fRunLength : Nat := 0x02
/-- register-range. -/
def fRegRange : Nat := 0x03
/-- freed-register. -/
def fFreed : Nat := 0x04
/-- member-absent. -/
def fMember : Nat := 0x05
/-- reconvergence. -/
def fReconv : Nat := 0x06
/-- jump-alignment. -/
def fJumpAlign : Nat := 0x07
/-- land. -/
def fLand : Nat := 0x08
/-- software. -/
def fSoftware : Nat := 0x09
/-- alignment. -/
def fAlign : Nat := 0x0A
/-- translation. -/
def fTranslation : Nat := 0x10
/-- write-protection. -/
def fWriteProt : Nat := 0x11
/-- light. -/
def fLight : Nat := 0x12
/-- walk. -/
def fWalk : Nat := 0x13
/-- synonym. -/
def fSynonym : Nat := 0x14
/-- physical-range. -/
def fPhysRange : Nat := 0x15
/-- row-region. -/
def fRowRegion : Nat := 0x16
/-- ownership. -/
def fOwnership : Nat := 0x17
/-- buffer-bounds. -/
def fBounds : Nat := 0x18
/-- handle. -/
def fHandle : Nat := 0x19
/-- poison. -/
def fPoison : Nat := 0x1A

/-- Fill the CTX_FAULT record of a context slot with a terminating fault: the first one fills it, every one counts (R171). -/
def State.recordFault (s : State) (slot code : Nat) (addr pc : Quad) (grid src : Nat) : State :=
  let t := s.stampTime src
  (s.stamp src).updCtx slot fun c =>
    let (code0, count, valid, grid0) := c.fault
    if valid then { c with fault := (code0, min 255 (count + 1), true, grid0) }
    else { c with
      fault := (code, min 255 (count + 1), true, grid)
      faddr := addr
      fpc := pc
      ftime := BitVec.ofNat 64 t }

/-- The input tokens of a command. -/
def Cmd.ins (c : Cmd) : List Nat := c.in0.toList ++ c.in1.toList

/-- Commands that have not left the task table are dropped (R171, R240): they leave their counters. -/
def State.dropWhere (s : State) (p : Cmd → Bool) : State :=
  let drop := (s.cmds.filter fun e => p e.2 && e.2.st == .waiting).map (·.1)
  { s with
    cmds := s.cmds.filter fun e => !drop.contains e.1
    cores := s.cores.map fun e => (e.1, { e.2 with tasks := e.2.tasks.filter fun c => !drop.contains c })
    groups := s.groups.map fun e =>
      (e.1, { e.2 with cmds := e.2.cmds.map fun k => (k.1, k.2.filter fun c => !drop.contains c) }) }

/-- Commands of a team that have not left the task table are dropped (R171). -/
def State.dropUnissued (s : State) (t : Nat) : State := s.dropWhere fun c => c.team == t

/-- Terminate(team) for a fault of the issuing group at `pc` (R171); on the Ozyth core issue stops until package reset. -/
def State.terminate (s : State) (code : Nat) (addr pc : Quad) : State :=
  let g := s.grp
  if g.oz then { s with oz := { s.oz with halted := true } }
  else
    let s := s.recordFault (s.ctxOf g) code addr pc s.myGrid.num (s.groupSource g)
    let s := s.dropUnissued g.team
    let s := s.updTeam g.team fun t => { t with terminating := true }
    { s with groups := s.groups.map fun e => (e.1, if e.2.team == g.team then { e.2 with ending := true } else e.2) }

/-- A lane of a group that may be rolled back takes a fault: it stays so whatever the rollback (R184). -/
def Fence.moved (f : Fence) (l : Nat) (pc : Quad) : Fence :=
  { f with back := f.back.map fun b => { b with pcs := b.pcs.set l pc, e := b.e &&& ~~~laneBit l, arrived := b.arrived ||| laneBit l } }

/-- One lane takes a fault at its program counter (R129, R170).  A fault delivered saves the program counter, the code and the
address in the lane and sends it to its vector; with in.trap set or no vector table it terminates the team, and the lane stays
parked. -/
def State.deliver (s : State) (l code : Nat) (addr : Quad) : State :=
  let g := s.grp
  let pc := g.pc l
  if g.inTrap.getLsbD l || g.trapBase == 0 then
    (s.terminate code addr pc).updGrp fun g =>
      { g with parked := g.parked ||| laneBit l, e := g.e &&& ~~~laneBit l, owed := g.owed.del l }
  else
    s.setGrp { g with
      epc := g.epc.set l pc
      cause := g.cause.set l (BitVec.ofNat 64 code)
      taddr := g.taddr.set l addr
      inTrap := g.inTrap ||| laneBit l
      pcs := g.pcs.set l (g.trapBase + BitVec.ofNat 64 (0x40 * code))
      parked := g.parked &&& ~~~laneBit l
      e := g.e &&& ~~~laneBit l
      arrived := g.arrived ||| laneBit l
      fence := g.fence.map fun f => f.moved l (g.trapBase + BitVec.ofNat 64 (0x40 * code))
      owed := g.owed.del l }

/-- A lane is parked until an agent services its fault (Table 8.3), with the address in tr.addr (R335); a light fault calls the service of R167, and a translation fault the
host's, for a fetch of a page without X unless a walk of the page waits already (R163). -/
def State.park (s : State) (l code : Nat) (addr : Quad) : State :=
  let s := s.updGrp fun g => { g with
    parked := g.parked ||| laneBit l
    svc := g.svc.set l (code, addr)
    taddr := g.taddr.set l addr
    e := g.e &&& ~~~laneBit l }
  if code = fLight then s.owe [.lightFaultService (s.asidOf s.grp) addr]
  else if code = fTranslation then s.owe [.walkPost (s.asidOf s.grp) addr 2]
  else s

/-- What a lane of E meets at a word instead of its effect. -/
structure LaneFault where
  /-- The lane. -/
  lane : Nat
  /-- The code of Table 8.3. -/
  code : Nat
  /-- The address concerned. -/
  addr : Quad
  /-- An agent services it: the lane parks. -/
  serviced : Bool
  deriving DecidableEq, Repr

/-- The lanes take their faults, in ascending lane order. -/
def State.takeFaults (s : State) (fs : List LaneFault) : State :=
  fs.foldl (fun s f => if f.serviced then s.park f.lane f.code f.addr else s.deliver f.lane f.code f.addr) s

/-- The lanes of E that a word's faults take leave the others, and A and E are recomputed after the word (R114). -/
def State.meetFaults (s : State) (fs : List LaneFault) : State :=
  let s := s.takeFaults fs
  if fs.isEmpty then s else s.updGrp fun g => { g with split := true }

/-- Every lane of E takes the same fault. -/
def Group.faultAll (g : Group) (code : Nat) (addr : Quad) : List LaneFault :=
  (lanesOf g.e).map fun l => ⟨l, code, addr, false⟩

/-! ### Runs (R119 to R123) -/

/-- The hints attached to the next word are discarded (R281). -/
def Group.dropHints (g : Group) : Group := { g with hx := none, hm := none, hg := none }

/-- Whether the run end waits for a result: every one without a trailer, else those it names, and always a record read (R122,
R283). -/
def mustWait (trail : Option (List Nat)) (p : Pending) : Bool :=
  match p.res, trail with
  | .record .., _ => true
  | .lanes .., none => true
  | .load .., none => true
  | .load r .., some l => l.contains r
  | .scalar .., none => true
  | .lanes r _, some l => l.contains r
  | .scalar .., some _ => false

/-- The end of a run: results of the run may commit from here on, temporaries that are still destinations are discarded (R121),
and the stops that wait for a run boundary take effect (R132, R133). -/
def Group.endRun (g : Group) : Group :=
  { g.dropHints with
    runOpen := false
    runLen := 0
    trail := none
    pend := (g.pend.filter fun p => p.ended || (match p.res with | .lanes r _ => r < 120 | .load r .. => r < 120 | _ => true)).map fun p =>
      if p.ended then p else { p with ended := true, must := mustWait g.trail p }
    stopped := g.stopped || g.stopDue || g.stepping
    stopNote := if g.stepping then some 3 else if g.stopDue && !g.stopped then some 0 else g.stopNote
    stopDue := false
    stepping := false
    split := false
    gang := 0 }

/-- The lowest program counter of the eligible lanes (R113). -/
def Group.minPc (g : Group) : Quad :=
  BitVec.ofNat 64 ((lanesOf g.eligible).foldl (fun m l => min m (g.pc l).toNat) (2 ^ 64 - 1))

/-- The lanes at an address among the eligible ones. -/
def Group.lanesAt (g : Group) (a : Quad) : Mask := maskOf ((lanesOf g.eligible).filter fun l => g.pc l == a)

/-- R114: the lanes at A that were already in E, or every lane at A. -/
def Group.openE (g : Group) (a : Quad) : Mask :=
  let at_ := g.lanesAt a
  if at_ &&& g.e == 0 then at_ else at_ &&& g.e

/-- R114: A and E are recomputed; the hints attached to the next word are discarded (R281). -/
def Group.recompute (g : Group) : Group := { g.dropHints with a := g.minPc, e := g.openE g.minPc, split := false }

/-- Results that the run end still waits for (R122). -/
def Group.runEndWaits (g : Group) : Bool := g.pend.any fun p => p.ended && p.must

/-! ### Execution past a fence (R184) -/

/-- What a rollback restores. -/
def Group.snap (g : Group) : Snap where
  pcs := g.pcs
  arrived := g.arrived
  a := g.a
  e := g.e
  runOpen := g.runOpen
  runLen := g.runLen
  hx := g.hx
  hm := g.hm
  hg := g.hg
  trail := g.trail
  pend := g.pend
  freed := g.freed
  v := g.v
  vseed := g.vseed
  tseed := g.tseed
  s := g.s
  p := g.p
  g := g.g
  rngCtr := g.rngCtr

/-- The group is rolled back to the word after its incomplete fence. -/
def Group.rollback (g : Group) : Group :=
  match g.fence with
  | some f => match f.back with
    | some b => { g with
        pcs := b.pcs, arrived := b.arrived, a := b.a, e := b.e, runOpen := b.runOpen, runLen := b.runLen, hx := b.hx, hm := b.hm, hg := b.hg
        trail := b.trail, pend := b.pend, freed := b.freed, v := b.v, vseed := b.vseed, tseed := b.tseed, s := b.s, p := b.p, g := b.g
        rngCtr := b.rngCtr, block := .none, split := false, gang := 0, fence := some { f with lines := [] } }
    | none => g
  | none => g

/-- Results outstanding change, in the group and in what it may be rolled back to. -/
def Group.mapPend (g : Group) (k : Pending → Pending) : Group :=
  { g with
    pend := g.pend.map k
    fence := g.fence.map fun f => { f with back := f.back.map fun b => { b with pend := b.pend.map k } } }

/-- R184: a core receives an update or an invalidation of a line: a group of it that a later load of the line has passed a fence is rolled back.
`at_` picks the groups by core. -/
def State.rollLine (s : State) (at_ : Nat → Bool) (key : Nat) : State :=
  if s.groups.any fun e => (e.2.fence.any fun f => f.lines.contains key) && at_ e.2.core then
    { s with groups := s.groups.map fun (e : Nat × Group) =>
        (e.1, if (e.2.fence.any fun f => f.lines.contains key) && at_ e.2.core then e.2.rollback else e.2) }
  else s

/-- A rollback could put the group back into a run, so that its temporaries must stay in the active set (R104, R184). -/
def Group.mayReopen (g : Group) : Bool := g.fence.any fun f => f.back.any (·.runOpen)

/-! ### The issue of a word (R295, R297) -/

/-- What the checks of Table 17.15 need to know of a word. -/
structure WordInfo where
  /-- The S bit. -/
  fin : Bool
  /-- Vector registers read. -/
  vr : List Nat := []
  /-- Vector registers written. -/
  vw : List Nat := []
  /-- Scalar registers named. -/
  sn : List Nat := []
  /-- Vector registers named without a read or a write. -/
  names : List Nat := []
  /-- Vector registers freed by a last-use bit. -/
  frees : List Nat := []
  /-- The last-use bit frees in every lane, as that of `vtos` does (R306). -/
  freesAll : Bool := false
  /-- It waits for an incomplete fence (R184). -/
  waits : Bool := false
  /-- It is a control word, which ends its run (R119). -/
  ctl : Bool := false
  /-- `hx` is accepted (Table 17.2). -/
  hx : Bool := false
  /-- `hg` is accepted (R282). -/
  hg : Bool := false
  /-- The `hm` payload is good for the word: given the attached payload, or none (R282). -/
  hm : Option (BitVec 22) → Bool := fun h => h.isNone
  /-- OUT is good for the attached `hg` (R282). -/
  out : Bool := true
  /-- Legal on the Ozyth core (R285). -/
  oz : Bool := true
  /-- Legal in a group. -/
  grp : Bool := true

/-- A register field names a run temporary. -/
def isTemp (r : Nat) : Bool := 120 ≤ r

/-- R276, for a last-use bit that an `hm` carries. -/
def WordInfo.freesOk (w : WordInfo) : Bool := w.frees.all fun r => r < 120

/-- Checks 3 to 6 of Table 17.15, in their order: the code of the first that fails. -/
def State.checkWord (s : State) (w : WordInfo) : Option Nat :=
  let g := s.grp
  if (if g.oz then !w.oz else !w.grp) || (g.hx.isSome && !w.hx) || (g.hg.isSome && !w.hg) || !w.hm g.hm || !w.out || !w.freesOk then
    some fIllegal
  else if 24 ≤ g.runLen then some fRunLength
  else if (w.vr ++ w.vw ++ w.names).any fun r => g.budget ≤ r && r < 120 then some fRegRange
  else if s.modeOf g |>.getLsbD 10 |> fun dead => dead && w.vr.any fun r => g.isFreed r then some fFreed
  else none

/-- A command of the task table that the group has issued still holds one of these registers (R217). -/
def State.held (s : State) (rs : List Nat) : Bool :=
  s.cmds.any fun e => e.2.gid == s.cur && e.2.st == .waiting && e.2.holds.any rs.contains

/-- A stop waits for the group's next run boundary (R106, R132, R133, R171, R240). -/
def Group.stopComes (g : Group) : Bool := g.stopDue || g.stepping || g.saving || g.ending || g.cancel

/-- The group is terminated or cancelled: it exits at the next place at which it may stop (R171, R240). -/
def Group.leaves (g : Group) : Bool := !g.oz && (g.ending || (g.cancel && !g.deferred))

/-- R184: an incomplete fence holds a word back: one that waits for it, and one that would end its run with a stop.  A load with `.acq` that waits for its
value holds every later access back (R182).  (In part DESIGN CHOICE, log entry 7.) -/
def Group.fenced (g : Group) (w : WordInfo) : Bool :=
  (g.fence.isSome && (w.waits || ((w.fin || w.ctl) && g.stopComes))) || (g.acq.isSome && w.waits)

/-- A result of an ended run that has not committed names one of these registers (R122). -/
def Group.uncommitted (g : Group) (rs : List Nat) : Bool :=
  g.pend.any fun p => p.ended && (match p.res.key with | some k => rs.contains k | none => false)

/-- R122: a register named by the word waits for a result of an ended run; R217: a register written is held; R184: a fence holds the word back.
(In part DEDUCED, log entry 7.) -/
def State.mustStall (s : State) (w : WordInfo) : Bool :=
  s.grp.uncommitted (w.vr ++ w.vw ++ w.sn.map (128 + ·)) || s.held w.vw || s.grp.fenced w

/-- What a word's own part did: it stalls (and may owe events), or it took its effect, with the faults of single lanes. -/
inductive Did where
  /-- The group stalls at the word; the state with what the stall brought about. -/
  | stall (s : State)
  /-- The word took its effect in the lanes that do not fault.  For a control word `ctl` is true: its effect has set the program
  counters, and the run ends. -/
  | did (s : State) (faults : List LaneFault) (ctl : Bool)

/-- The group counts a word of the run (R119) and an issue slot (Table 8.6). -/
def Group.countWord (g : Group) : Group := { g with runLen := g.runLen + 1, words := g.words + 1, relWait := none }

/-- Advance the lanes of E that did not fault past the word; one that did still owes its `land` check (R130). -/
def Group.advance (g : Group) (faulted : List Nat) : Group :=
  { g with
    pcs := (lanesOf g.e).foldl (fun t l => if faulted.contains l then t else t.set l (g.a + 4)) g.pcs
    arrived := g.arrived &&& ~~~(g.e &&& ~~~maskOf faulted) }

/-- Free the registers of the word's last-use bits, in the lanes of E that did not fault (R113, R123, R129, R313).  (In part DEDUCED, log entry 9.) -/
def State.freeRegs (s : State) (w : WordInfo) (faulted : Mask) : State :=
  w.frees.foldl (fun s r =>
    s.freeReg r ((if w.freesAll then allLanes else s.grp.e) &&& ~~~faulted) (if w.vw.contains r then s.grp.e else 0)) s

/-- What follows a word in its run: the run ends, or A and E go on to the next word, recomputed when lanes of E took faults (R114, R119). -/
def Group.onward (g : Group) (ends : Bool) : Group :=
  if ends || g.e == 0 then { g with a := g.a + 4 }.endRun
  else if g.split then g.recompute
  else { g with a := g.a + 4 }

/-- The word's end: program counters, faults, hints, the run's end (R119, R129, R281).  (In part DEDUCED, log entry 9.) -/
def State.finish (s : State) (w : WordInfo) (faults : List LaneFault) (ctl : Bool) : State :=
  let s := s.updGrp fun g => (if ctl then g else g.advance (faults.map (·.lane))).countWord.dropHints
  (s.meetFaults faults).updGrp fun g => g.onward (w.fin || ctl)

/-- A destination register is allocated again by the write (R123). -/
def State.allocAll (s : State) (rs : List Nat) : State :=
  s.updGrp fun g => rs.foldl (fun g r => if r < 120 then g.allocate r else g) g

/-- Issue a word: checks, stalls, its own part, and its end.  A word that faults waits for an incomplete fence.  (In part DEDUCED, log entry 7.) -/
def issue (w : WordInfo) (body : State → Did) (s : State) : Out :=
  match s.checkWord w with
  | some code => .next (if s.grp.fence.isSome then s else s.finish w (s.grp.faultAll code 0) false)
  | none =>
    if s.mustStall w then .next s
    else
      match body s with
      | .stall s' => .next s'
      | .did s' faults ctl =>
        if !faults.isEmpty && s.grp.fence.isSome then .next s
        else if s'.grp.e != 0 && faults.length == (lanesOf s'.grp.e).length then .next (s'.finish w faults ctl)
        else .next (((s'.freeRegs w (maskOf (faults.map (·.lane)))).allocAll w.vw).finish w faults ctl)

/-- A word that never stalls and never faults after decode. -/
def issueOk (w : WordInfo) (eff : State → State) (s : State) : Out := issue w (fun s => .did (eff s) [] false) s

end Sys2Proof.Machine
end

