-- ==== Sys2Proof/Machine/Translate.lean ====
section
/-! DEFINITION. Translation: page tables, walks, the reverse map, and the check of every access against the page-attribute cache
(R28, R159 to R167, R176). -/

namespace Sys2Proof.Machine

/-- Bytes of a heat table (R55). -/
def heatSize : Nat := 0x1000000

/-- The line number of a virtual address (R137). -/
def lineOf (va : Quad) : Nat := va.toNat / 512

/-- The key of a line of an address space. -/
def lineKey (asid line : Nat) : Nat := asid * 2 ^ 55 + line

/-- The home slice of a line (R149). -/
def homeSlice (asid line : Nat) : Nat := (line ^^^ asid) % 9216

/-- The set of a line in its home slice (R149). -/
def homeSet (asid line : Nat) : Nat := (line ^^^ asid) / 9216 % 32

/-- The die of a line's home slice. -/
def homeDie (asid line : Nat) : Nat := homeSlice asid line / 384

/-- R160: the package of a domain physical address. -/
def dpaPkg (a : Nat) : Nat := a / 2 ^ 45 % 64

/-- R160: the package physical address in a domain physical address. -/
def dpaLocal (a : Nat) : Nat := a % 2 ^ 45

/-- Whether a domain physical address is this package's. -/
def State.isMine (s : State) (a : Nat) : Bool := dpaPkg a == s.pkg.id

/-- R11: HBM. -/
def isHbm (pa : Nat) : Bool := pa < 0x018000000000

/-- R11: the capacity tier. -/
def isLp6 (pa : Nat) : Bool := 0x020000000000 ≤ pa && pa < 0x060000000000

/-- R27, R28: the row index of an HBM address. -/
def rowIndex (pa : Nat) : Nat := pa % 2 ^ 36 / 2 ^ 21

/-- R28: in strong ECC mode the rows of check bits are not addressable. -/
def State.isCheckRow (s : State) (pa : Nat) : Bool := s.pkg.eccStrong && isHbm pa && 30720 ≤ rowIndex pa

/-- Two ranges, of `n` bytes at `a` and of `m` bytes at `b`, share an address. -/
def overlaps (a n b m : Nat) : Bool := a < b + m && b < a + n

/-- Bytes of a page. -/
def pageSize (big : Bool) : Nat := if big then 2 ^ 21 else 2 ^ 16

/-- A range of `n` bytes meets one of 2 MiB units. -/
def inPool (base len : Quad) (pa n : Nat) : Bool :=
  overlaps pa n ((base.extractLsb' 21 24).toNat * 2 ^ 21) ((len.extractLsb' 0 24).toNat * 2 ^ 21)

/-- R228: a range meets the handle table, 128 MiB at KV_TBL. -/
def State.inKvTable (s : State) (pa n : Nat) : Bool :=
  s.pkg.kvTbl.getLsbD 0 && overlaps pa n ((s.pkg.kvTbl.extractLsb' 12 33).toNat * 4096) (2 ^ 27)

/-- R228, R232: a range meets the prefix table, NSETS sets of eight 32-byte entries at PFX_TBL. -/
def State.inPfxTable (s : State) (pa n : Nat) : Bool :=
  s.pkg.pfxTbl.getLsbD 0 &&
    overlaps pa n ((s.pkg.pfxTbl.extractLsb' 12 33).toNat * 4096) ((s.pkg.pfxTbl.extractLsb' 48 16).toNat * 256 * 256)

/-- R55: a range meets the heat table of its stack. -/
def State.inHeatTable (s : State) (pa n : Nat) : Bool :=
  s.pkg.memInit && isHbm pa &&
    overlaps pa n (pa / 2 ^ 36 * 2 ^ 36 + (s.migHeat.getD (pa / 2 ^ 36) 0xEFF00) * 2 ^ 16) heatSize

/-- R162: a page of `n` bytes takes in a range that no walk maps. -/
def State.physForbidden (s : State) (dpa n : Nat) : Bool :=
  let pa := dpaLocal dpa
  if s.isMine dpa then
    !(isHbm pa || isLp6 pa) || s.isCheckRow pa || inPool s.pkg.saveBase s.pkg.saveLen pa n || s.inHeatTable pa n ||
      s.inKvTable pa n || s.inPfxTable pa n
  else !(isHbm pa || isLp6 pa)

/-- Bytes at the memory side, of this package or, as far as this package can see, of another. -/
def State.physQuad (s : State) (dpa : Nat) : Quad :=
  if s.isMine dpa then s.mem.quad (dpaLocal dpa) else s.peerMem.quad dpa

/-- R164: a mapping breaks the reverse map when another mapping of one of its frames is loaded and one of the two is writable. -/
def State.synonym (s : State) (asid va : Nat) (attr : PageAttr) : Bool :=
  s.rmap.any fun e =>
    !(e.asid == asid && e.va == va) && overlaps e.attr.pa (pageSize e.attr.big) attr.pa (pageSize attr.big) && (e.attr.w || attr.w)

/-- The slot of the live context with an ASID. -/
def State.slotOfAsid (s : State) (asid : Nat) : Option Nat :=
  (s.ctxs.find? fun e => e.2.live && e.2.asid == asid).map (·.1)

/-- The attributes in a leaf (Table 8.2). -/
def leafAttr (e : Quad) (big : Bool) : PageAttr where
  w := e.getLsbD 2
  x := e.getLsbD 3
  d := e.getLsbD 4
  grain := match (e.extractLsb' 5 2).toNat with | 0 => 1 | 1 => 4 | _ => 16
  nomig := e.getLsbD 7
  round := if e.getLsbD 8 then some (e.extractLsb' 52 12).toNat else none
  nc := e.getLsbD 9
  big := big
  pa := (e.extractLsb' 12 39).toNat * 4096

/-- The base of the page that holds an address. -/
def pageBase (big : Bool) (va : Nat) : Nat := va / pageSize big * pageSize big

/-- R162: the checks of a leaf at level 3 or 4, and its attributes. -/
def State.leafCheck (s : State) (asid : Nat) (va : Quad) (e : Quad) (big : Bool) : Except Nat PageAttr :=
  let pa := (e.extractLsb' 12 39).toNat * 4096
  if e.extractLsb' 10 2 != 0 || e.getLsbD 51 || (!e.getLsbD 8 && e.extractLsb' 52 12 != 0) || (e.extractLsb' 5 2).toNat == 3 then
    .error fWalk
  else if pa / 4096 % 16 != 0 || (big && pa / 4096 % 512 != 0) then .error fWalk
  else if s.physForbidden pa (pageSize big) then .error fPhysRange
  else if s.synonym asid (pageBase big va.toNat) (leafAttr e big) then .error fSynonym
  else .ok (leafAttr e big)

/-- R162: the walk from a table, through the levels whose index shifts remain.  A table in a row of check bits is not addressable (R28; log entry 12). -/
def State.walkFrom (s : State) (asid : Nat) (va : Quad) : List Nat → Nat → Except Nat PageAttr
  | [], _ => .error fWalk
  | sh :: rest, t =>
    if !(isHbm (dpaLocal t) || isLp6 (dpaLocal t)) then .error fWalk
    else if s.isMine t && s.isCheckRow (dpaLocal t) then .error fPhysRange
    else
      let e := s.physQuad (t + 8 * (va.toNat / 2 ^ sh % (if sh = 16 then 32 else 512)))
      if !e.getLsbD 0 then .error fTranslation
      else if e.getLsbD 1 then
        if sh = 21 then s.leafCheck asid va e true
        else if sh = 16 then s.leafCheck asid va e false
        else .error fWalk
      else if sh = 16 || e.extractLsb' 2 10 != 0 || e.extractLsb' 51 13 != 0 then .error fWalk
      else s.walkFrom asid va rest ((e.extractLsb' 12 39).toNat * 4096)

/-- R162: a walk for an ASID and an address. -/
def State.walk (s : State) (asid : Nat) (va : Quad) : Except Nat PageAttr :=
  if va.toNat / 2 ^ 48 != 0 then .error fTranslation
  else
    match s.slotOfAsid asid with
    | none => .error fTranslation
    | some slot => s.walkFrom asid va [39, 30, 21, 16] (s.ctx slot).root

/-- The entry of a page in a list of entries. -/
def findPage (l : List PageEntry) (asid : Nat) (va : Quad) : Option PageAttr :=
  (l.find? fun e => e.asid == asid && e.va == pageBase e.attr.big va.toNat).map (·.attr)

/-- R163: the agent of a die that an address goes to. -/
def agentOf (va : Quad) : Nat := (va.extractLsb' 21 3).toNat

/-- The number of a die's agent among those of the package. -/
def agentKey (die : Nat) (va : Quad) : Nat := 8 * die + agentOf va

/-- The TLB of the agent of a die that an address goes to (R163). -/
def State.tlbOf (s : State) (die : Nat) (va : Quad) : List PageEntry := s.tlb.getD (agentKey die va) []

/-- The host walks (R163, R168); brown-out entry leaves it out (R84). -/
def State.hostWalksOn (s : State) : Bool := s.pkg.duty.getLsbD 1 && !s.pkg.entered

/-- What the check of an access finds (R165). -/
inductive Chk where
  /-- The access may go on. -/
  | ok (page : PacEntry)
  /-- The group stalls, and the machine owes these events. -/
  | stall (asks : List Owed)
  /-- The lane takes a fault. -/
  | fault (code : Nat)
  /-- The lane parks until an agent services it. -/
  | park (code : Nat)

/-- R165: the access against the attributes of its page: 0 read, 1 write, 2 fetch. -/
def accessCheck (p : PacEntry) (acc : Nat) : Chk :=
  match acc with
  | 0 => .ok p
  | 1 => if !p.w then .fault fWriteProt else if !p.d then .park fLight else .ok p
  | _ => if p.x then .ok p else .fault fTranslation

/-- The attributes that a core keeps of a page (R165). -/
def pacOf (asid : Nat) (va : Quad) (attr : PageAttr) : PacEntry :=
  ⟨asid, pageBase attr.big va.toNat, attr.w, attr.x, attr.d, attr.grain, attr.big⟩

/-- The entry of a page in a page-attribute cache. -/
def findPac (l : List PacEntry) (asid : Nat) (va : Quad) : Option PacEntry :=
  l.find? fun e => e.asid == asid && e.va == pageBase e.big va.toNat

/-- A walk of the page waits for the host's answer. -/
def State.walkPending (s : State) (asid : Nat) (va : Quad) : Bool :=
  !s.pkg.entered && s.hostWalks.any fun w => w.asid == asid && w.va.toNat / 2 ^ 16 == va.toNat / 2 ^ 16 && w.failed.isNone

/-- R168: a translation fault is serviced by the host while DUTY[1] = 1, and delivered otherwise. -/
def State.faultChk (s : State) (code : Nat) : Chk :=
  if code == fTranslation && s.hostWalksOn then .park code else .fault code

/-- R163, R165: the check of an access by a core in an address space.  On a miss the group stalls until the agent returns the
attributes; a walk that fails gives its fault at once; a walk that the host performs parks the lane (Table 8.3). -/
def State.pageCheck (s : State) (core asid : Nat) (va : Quad) (acc : Nat) : Chk :=
  if va.toNat / 2 ^ 48 != 0 && !s.hostWalksOn then .fault fTranslation
  else
    match findPac (s.core core).pac asid va with
    | some p =>
      match accessCheck p acc with
      | .fault code => s.faultChk code
      | c => c
    | none =>
      let die := homeDie asid (lineOf va)
      if (findPage (s.tlbOf die va) asid va).isSome then .stall [.attributeReturn core asid va]
      else if s.walkPending asid va then .park fTranslation
      else if s.hostWalksOn then .stall [.translationRequest die asid va acc core]
      else
        match s.walk asid va with
        | .error code => .fault code
        | .ok _ => .stall [.translationRequest die asid va acc core]

/-- The set of a page in an agent's TLB (DESIGN CHOICE, log entry 37). -/
def tlbSet (asid va : Nat) : Nat := (va / 2 ^ 24 * 32 + va / 2 ^ 16 % 32 + asid) % 512

/-- An entry enters a cache of pages: it takes the place of those that it overlaps, and in a full set of `ways` that of a victim
(log entry 37). -/
def cacheEntry {α : Type} [BEq α] (l : List α) (e : α) (displaced inSet : α → Bool) (ways n : Nat) : List α :=
  let kept := l.filter fun p => !displaced p
  let set := kept.filter inSet
  if set.length < ways then kept ++ [e]
  else match set[Config.victim n % set.length]? with
    | some v => kept.erase v ++ [e]
    | none => kept ++ [e]

/-- Two entries stand for one page. -/
def PageEntry.same (p e : PageEntry) : Bool := p.asid == e.asid && p.va == e.va && p.attr.big == e.attr.big

/-- Two pages of one address space overlap. -/
def PageEntry.over (p e : PageEntry) : Bool := p.asid == e.asid && overlaps p.va (pageSize p.attr.big) e.va (pageSize e.attr.big)

/-- A translation is loaded into an agent's TLB, of 512 sets of 8 entries, and the reverse map (R163, R164). -/
def State.loadTlb (s : State) (die asid : Nat) (va : Quad) (attr : PageAttr) : State :=
  let e : PageEntry := ⟨asid, pageBase attr.big va.toNat, attr⟩
  { s with
    tlb := s.tlb.set (agentKey die va) (cacheEntry (s.tlbOf die va) e (·.over e) (fun p => tlbSet p.asid p.va == tlbSet asid e.va) 8 s.free)
    free := s.free + 1
    rmap := if s.rmap.any (·.same e) then s.rmap.map (fun r => if r.same e then e else r) else s.rmap ++ [e] }

/-- Attributes enter a core's page-attribute cache of 64 entries (R165). -/
def State.loadPac (s : State) (core : Nat) (e : PacEntry) : State :=
  ({ s with free := s.free + 1 } : State).updCore core fun c => { c with
    pac := cacheEntry c.pac e (fun p => p.asid == e.asid && overlaps p.va (pageSize p.big) e.va (pageSize e.big)) (fun _ => true) 64 s.free }

/-- The address space of a group's accesses; the Ozyth core has one only while oz.ctx is valid (R398). -/
def State.spaceOf (s : State) (g : Group) : Option Nat :=
  if g.oz && !s.oz.ctx.getLsbD 8 then none else some (s.asidOf g)

/-- The check of an access of the issuing group; in brown-out the Ozyth core's waits for the memories (R65). -/
def State.check (s : State) (va : Quad) (acc : Nat) : Chk :=
  if s.pkg.memDown then .stall [] else
  match s.spaceOf s.grp with
  | some asid => s.pageCheck s.grp.core asid va acc
  | none => .fault fTranslation

end Sys2Proof.Machine
end

