-- ==== Sys2Proof/Machine/Stack.lean ====
section
/-! DEFINITION. Stack: rows, activations, comb arithmetic, region functions and row requests, as operations of the base dies
(R27 to R46, R405). -/

namespace Sys2Proof.Machine

/-- A stack by number. -/
def State.stack (s : State) (n : Nat) : Stack := s.dram.getD n Stack.init

/-- Change a stack. -/
def State.updStack (s : State) (n : Nat) (f : Stack → Stack) : State := { s with dram := s.dram.set n (f (s.stack n)) }

/-- Table 2.1: the pseudo-channel of a physical address. -/
def pcOf (pa : Nat) : Nat := pa / 2 ^ 10 % 64
/-- Table 2.1: the bank. -/
def bankOf (pa : Nat) : Nat := pa / 2 ^ 16 % 32
/-- The stack. -/
def stackOf (pa : Nat) : Nat := pa / 2 ^ 36
/-- The physical address of the row of a bank. -/
def rowAddr (st pc bank row : Nat) : Nat := st * 2 ^ 36 + row * 2 ^ 21 + bank * 2 ^ 16 + pc * 2 ^ 10
/-- The source number of a bank (Table 1.2). -/
def State.bankSource (s : State) (pa : Nat) : Nat := s.source (stackOf pa) (0x0800 + pcOf pa * 32 + bankOf pa)

/-- Whether two physical addresses lie in one bank. -/
def sameBank (a b : Nat) : Bool :=
  if isHbm a && isHbm b then stackOf a == stackOf b && pcOf a == pcOf b && bankOf a == bankOf b else a == b

/-- Bytes of an ECC word: 8 in standard mode, 32 in strong mode (R44, R169). -/
def State.eccSize (s : State) : Nat := if s.pkg.eccStrong then 32 else 8

/-! ### Stores under way (R152, R177, R181) -/

/-- A new store: its number and the state with it recorded for its group. -/
def State.newStore (s : State) (st : Store) : State :=
  let n := s.fresh
  ({ s with stores := s.stores.set n st, fresh := n + 1 }).updGroup st.gid fun g => { g with stores := g.stores ++ [n] }

/-- The group of a store no longer waits for it, and no group that observed it does. -/
def State.storeDone (s : State) (n : Nat) : State :=
  { s with
    stores := s.stores.del n
    groups := s.groups.map fun e =>
      (e.1, { e.2 with
        stores := e.2.stores.filter (· != n), observed := e.2.observed.filter (· != n)
        trigStores := e.2.trigStores.filter (· != n), gaveUp := e.2.gaveUp.filter (· != n) }) }

/-- A store with nothing left to wait for in this package is acknowledged at once (R152 step 5); one of another package's line waits for
that package. -/
def State.settleStore (s : State) (n : Nat) : State :=
  match s.stores.get? n with
  | some st => if st.acks = 0 && !st.bank && st.peer.isNone then s.owe [.storeAck n] else s
  | none => s

/-! ### Comb arithmetic (R33, Table 2.3) -/

/-- The new value of an INT32 element. -/
def combInt (func : Nat) (sat : Bool) (k0 k1 x : Word) : Word :=
  let fit := fun (v : Int) => BitVec.ofInt 32 (if sat then clampInt v (-2147483648) 2147483647 else v)
  match func with
  | 0 => x
  | 1 => 0
  | 2 => fit (x.toInt + k0.toInt)
  | 3 => fit (x.toInt * k0.toInt)
  | 4 => fit (x.toInt * k0.toInt + k1.toInt)
  | 5 => BitVec.ofInt 32 (clampInt x.toInt k0.toInt k1.toInt)
  | 6 => x.sshiftRight (k0.toNat % 32)
  | _ => x ^^^ k0

/-- The number with its exponent lowered. -/
def Num.scale (k : Int) : Num → Num
  | .nan => .nan
  | .inf n => .inf n
  | .fin n m e => .fin n m (e + k)

/-- The new value of an element of a floating type; the constants are binary32 values. -/
def combFloat (f : Fmt) (func : Nat) (sat : Bool) (k0 k1 : Word) (x : Nat) : Nat :=
  let v := f.decode x
  let c0 := Fmt.fp32.decode k0.toNat
  let c1 := Fmt.fp32.decode k1.toNat
  match func with
  | 0 => x
  | 1 => if v.isNan then f.canonNaN else 0
  | 2 => f.round 0 sat (v.add c0)
  | 3 => f.round 0 sat (v.mul c0)
  | 4 => f.round 0 sat ((v.mul c0).add c1)
  | 5 =>
    if v.isNan then f.canonNaN
    else
      let key := fun (n : Num) (z : Bool) => (n, z)
      let below := fun (a b : Num × Bool) => a.1.cmp b.1 == .lt || (a.1.cmp b.1 == .eq && a.2 && !b.2)
      let xv := key v (x / 2 ^ (f.eb + f.mb) % 2 == 1)
      let lo := key c0 (k0.getLsbD 31)
      let hi := key c1 (k1.getLsbD 31)
      if below xv lo then f.round 0 sat c0 else if below hi xv then f.round 0 sat c1 else x
  | 6 => f.round 0 sat (Num.scale (-(k0.toNat % 256 : Nat)) v)
  | _ => if v.isNan then x else x ^^^ (k0.toNat % 2 ^ (1 + f.eb + f.mb))

/-- R34: constants that a registration or an acceptance refuses, and the reserved type.  A NaN in a constant that the function does not use
(K1 of ADDK and MULK) refuses nothing (DESIGN CHOICE, log entry 39). -/
def combRefused (func typ : Nat) (k0 k1 : Word) : Bool :=
  let nan := fun (k : Word) => (Fmt.fp32.decode k.toNat).isNan
  typ == 3 ||
  (if typ = 0 then func == 5 && k1.slt k0
   else
     (func == 5 && (nan k0 || nan k1 || (Fmt.fp32.orderKey k1.toNat < Fmt.fp32.orderKey k0.toNat))) ||
     ((func == 2 || func == 3) && nan k0) || (func == 4 && (nan k0 || nan k1)))

/-- Bytes of an element: 4, or 2 for BF16. -/
def elemSize (typ : Nat) : Nat := if typ = 2 then 2 else 4

/-- The new bytes of an element. -/
def combElem (func typ : Nat) (sat : Bool) (k0 k1 : Word) (x : Nat) : Nat :=
  match typ with
  | 0 => (combInt func sat k0 k1 (toWord x)).toNat
  | 1 => combFloat .fp32 func sat k0 k1 x
  | _ => combFloat .bf16 func sat k0 k1 x

/-- Whether an ECC word that holds an address is poisoned. -/
def State.isPoisoned (s : State) (pa : Nat) : Bool := s.poison.contains (pa / s.eccSize * s.eccSize)

/-- An application to a row: every element but those of poisoned words takes its new value (R33, R34). -/
def State.applyRow (s : State) (row func typ : Nat) (sat : Bool) (k0 k1 : Word) : State :=
  let n := elemSize typ
  let mem := (List.range (1024 / n)).foldl (fun m i =>
    let a := row + i * n
    if s.isPoisoned a then m else m.putNat a n (combElem func typ sat k0 k1 (s.mem.nat a n))) s.mem
  { s with mem }

/-! ### Activations and restores (R39, R43, R44, R45) -/

/-- R44: the errors of an ECC word that its mode corrects: one bit of 64, or one 8-bit symbol of 32 bytes. -/
def State.corrects (s : State) (bits : List Nat) : Bool :=
  if s.pkg.eccStrong then bits.all fun b => b / 8 == bits.headD 0 / 8 else bits.length ≤ 1

/-- A bit of package memory errs; a second error of the bit undoes the first. -/
def State.bitErr (s : State) (pa bit : Nat) : State :=
  let w := pa / s.eccSize * s.eccSize
  let b := (pa - w) * 8 + bit % 8
  let old := s.eccErr.getD w []
  let new := if old.contains b then old.filter (· != b) else old ++ [b]
  { s with eccErr := if new.isEmpty then s.eccErr.del w else s.eccErr.set w new }

/-- R44: a restore corrects the errors of the row; an uncorrectable word becomes poison and is counted.  The counts wrap at their widths (DESIGN CHOICE,
log entry 39). -/
def State.scrubRow (s : State) (row : Nat) : State :=
  let errs := s.eccErr.filter fun e => row ≤ e.1 && e.1 < row + 1024
  let bad := (errs.filter fun e => !s.corrects e.2).map (·.1)
  { (s.updStack (stackOf row) fun st => { st with
      corrected := st.corrected + BitVec.ofNat 32 (errs.length - bad.length)
      uncorrected := st.uncorrected + BitVec.ofNat 16 bad.length }) with
    eccErr := s.eccErr.filter fun e => !(row ≤ e.1 && e.1 < row + 1024)
    poison := s.poison ++ bad.filter fun w => !s.poison.contains w }

/-- R43: one step of a bank's generator under TEST. -/
def xorshift (x : Word) : Word :=
  let x := x ^^^ (x <<< 13)
  let x := x ^^^ (x >>> 17)
  x ^^^ (x <<< 5)

/-- R43: the state of a bank's generator after the write that sets TEST. -/
def nbrSeedOf (seed : Word) (bank : Nat) : Word := if seed ^^^ toWord bank = 0 then 1 else seed ^^^ toWord bank

/-- R43: an activation draws; below the threshold the neighbours are restored, which changes no data. -/
def State.drawNeighbour (s : State) (row : Nat) : State :=
  let n := stackOf row
  let st := s.stack n
  let key := 32 * pcOf row + bankOf row
  let s' := if st.nbrTest then
      s.updStack n fun st => { st with xs := st.xs.set key (xorshift (st.xs.getD key (nbrSeedOf st.nbrSeed (bankOf row)))) }
    else s.bumpFree
  let u : Word := if st.nbrTest then xorshift (st.xs.getD key (nbrSeedOf st.nbrSeed (bankOf row)))
    else (Config.freeQuad s.free).setWidth 32
  if u.toNat < 2 ^ ((s.pkg.mode.extractLsb' 7 3).toNat + 24) then
    let s' := if rowIndex row = 0 then s' else s'.scrubRow (row - 2 ^ 21)
    if rowIndex row = 32767 then s' else s'.scrubRow (row + 2 ^ 21)
  else s'

/-- The region entry of a stack that covers a row. -/
def Stack.regionAt (st : Stack) (row : Nat) : Option (Nat × Region) :=
  let u := row % 2 ^ 36 / 1024
  st.regions.find? fun e => e.2.pbase ≤ u && u < e.2.pbase + e.2.plen

/-- A page of an address space has NC set, as the reverse map has it (R164). -/
def State.ncPage (s : State) (asid va : Nat) : Bool := s.rmap.any fun r => r.asid == asid && r.va == pageBase r.attr.big va && r.attr.nc

/-- The words of a row on their way to the home slices of its blocks after an application, one message for each line, all under one store
(R46).  A row on an NC page sends none: its application is complete at its bank stamp (R406). -/
def State.sendRow (s : State) (asid va row : Nat) : State :=
  let part := fun (k : Nat) => (⟨asid, va + 512 * k, row + 512 * k, s.mem.bytes (row + 512 * k) 512,
    (s.poison.filter fun w => row + 512 * k ≤ w && w < row + 512 * (k + 1)).map (· - (row + 512 * k)), s.fresh, true⟩ : BankMsg)
  let st : Store :=
    { gid := noGid, asid, va, len := 1024, pa := s.pkg.id * 2 ^ 45 + row, core := ozCore + 1, acks := 2, bank := false, peer := none, home := true,
      merged := false }
  if s.ncPage asid va then (s.newStore { st with acks := 0 }).settleStore s.fresh
  else ({ s.newStore st with bankMsgs := s.bankMsgs ++ [part 0, part 1] } : State).owe
    [.combUpdate asid (BitVec.ofNat 64 va), .combUpdate asid (BitVec.ofNat 64 (va + 512))]

/-- Apply a pending request to its row, with its own bank stamp (R39); one whose writes are discarded leaves every value as it is (R242). -/
def State.applyReq (s : State) (r : RowReq) : State :=
  let time := s.stampTime (s.bankSource r.pa)
  let s := (s.applyRow r.pa (if r.lost then 0 else r.func) r.typ r.sat r.k0 r.k1).stamp (s.bankSource r.pa)
  let s := s.updStack (stackOf r.pa) fun st =>
    { st with reqs := st.reqs.map fun q => if q.id = r.id then { q with applied := true, time, store := s.fresh } else q }
  s.sendRow r.asid r.va r.pa

/-- A line lies in a registered region or under a row request that has not completed, so that its lines are comb-target (R35, R39, R40). -/
def State.isComb (s : State) (pa : Nat) : Bool :=
  s.isMine pa && isHbm (dpaLocal pa) &&
    (let st := s.stack (stackOf (dpaLocal pa))
     (st.regionAt (dpaLocal pa)).isSome || st.reqs.any fun r => r.pa == dpaLocal pa / 1024 * 1024)

/-- Requests that a restore of a row applies, in order of acceptance: at a sweep restore those that are plain, `.sweeponly` or
`.hurry`, at a demand activation those that are plain or `.hurry` (R39). -/
def Stack.dueReqs (st : Stack) (row : Nat) (sweep : Bool) : List RowReq :=
  st.reqs.filter fun r => r.pa == row && !r.applied && (sweep || r.urg != 1)

/-- A demand activation of a closed row: its requests apply, and then the row stands open (R39, R45). -/
def State.activate (s : State) (row : Nat) : State :=
  let n := stackOf row
  let s := (s.scrubRow row).drawNeighbour row
  let s := ((s.stack n).dueReqs row false).foldl State.applyReq s
  s.updStack n fun st => { st with openRow := st.openRow.set (32 * pcOf row + bankOf row) (rowIndex row) }

/-- R45: a bank activates the row of a physical address when it is not open. -/
def State.bankOpen (s : State) (pa : Nat) : State :=
  if isHbm pa && (s.stack (stackOf pa)).openRow.get? (32 * pcOf pa + bankOf pa) != some (rowIndex pa) then s.activate (pa / 1024 * 1024) else s

/-- R45: a bank stamps an access to a physical address. -/
def State.bankStamp (s : State) (pa : Nat) : State := if isHbm pa then s.stamp (s.bankSource pa) else s

/-- R45: a bank performs an access to a physical address: it activates the row when it is not open, and stamps the access. -/
def State.bankTouch (s : State) (pa : Nat) : State := (s.bankOpen pa).bankStamp pa

/-- Whether a region's function applies to its rows of pseudo-channel c in pass n (R36, R38). -/
def Region.appliesIn (r : Region) (c n : Nat) : Bool :=
  let p0 := r.p0.getD c 0
  p0 ≤ n && !r.crossed.getLsbD c && (r.passes == 65535 || n - p0 < r.passes)

/-- R31, R39: the sweep restores one row of a bank: its region function when due, then its pending requests. -/
def State.sweepRow (s : State) (row pass : Nat) : State :=
  let n := stackOf row
  let s := (s.scrubRow row).drawNeighbour row
  let s := match (s.stack n).regionAt row with
    | some (_, r) =>
      if r.appliesIn (pcOf row) pass then
        let s := (s.applyRow row r.func r.typ r.sat r.k0 r.k1).stamp (s.bankSource row)
        let va := r.vbase + (row % 2 ^ 36 / 1024 - r.pbase) * 1024
        s.sendRow r.asid va row
      else s
    | none => s
  ((s.stack n).dueReqs row true).foldl State.applyReq s

end Sys2Proof.Machine
end

