-- ==== Sys2Proof/Machine/Operands.lean ====
section
/-! DEFINITION. Operands: every operand form of a word, as the checks see it and as its value is formed: register fields,
last-use bits, immediates with and without `hx`, the operands that `hm` carries, branch offsets, parameter blocks. -/

namespace Sys2Proof.Machine

/-- A register freed when its last-use bit is 1 (R276). -/
def freeIf (bit : Bool) (r : Nat) : List Nat := if bit then [r] else []

/-- Shape A with sources A and B. -/
def infoA (fin la lb : Bool) (d a b : BitVec 7) : WordInfo :=
  { fin, vr := [a.toNat, b.toNat], vw := [d.toNat], frees := freeIf la a.toNat ++ freeIf lb b.toNat }

/-- Shape A that also reads its destination (R314). -/
def infoAD (fin la lb : Bool) (d a b : BitVec 7) : WordInfo :=
  { fin, vr := [a.toNat, b.toNat, d.toNat], vw := [d.toNat], frees := freeIf la a.toNat ++ freeIf lb b.toNat }

/-- One vector source and a vector destination. -/
def infoU (fin la : Bool) (d a : BitVec 7) : WordInfo :=
  { fin, vr := [a.toNat], vw := [d.toNat], frees := freeIf la a.toNat }

/-- Scalar words: the scalar registers named (R303, R304). -/
def infoS (fin : Bool) (rs : List (BitVec 6)) (hx : Bool := false) : WordInfo :=
  { fin, sn := rs.map BitVec.toNat, hx }

/-- R279: the immediate of shape AI. -/
def vecImm (g : Group) (i : BitVec 8) : Word :=
  match g.hx with
  | none => i.signExtend 32
  | some h => (h ++ i : BitVec 30).signExtend 32

/-- R279, R304: the immediate of shape I. -/
def scalarImm (g : Group) (i : BitVec 11) : Quad :=
  match g.hx with
  | none => i.signExtend 64
  | some h => (h ++ i : BitVec 33).signExtend 64

/-- R279: the byte offset of a memory word. -/
def memImm (g : Group) : Int :=
  match g.hx with
  | none => 0
  | some h => h.toInt

/-- R278: the target of a branch of shape B. -/
def targetB (g : Group) (off : BitVec 20) : Quad := g.a + (off.signExtend 64 <<< 2)

/-- R278: the target of a branch of shape BS. -/
def targetBS (g : Group) (off : BitVec 11) : Quad := g.a + (off.signExtend 64 <<< 2)

/-- R299: the target of an indirect transfer. -/
def targetV (g : Group) (r l : Nat) : Quad := g.a.extractLsb' 32 32 ++ g.readV r l

/-- R299: the link of a call. -/
def linkOf (g : Group) : Word := (g.a + 4).extractLsb' 0 32

/-- R292: the parameter block of n registers from sP. -/
def blockOf (g : Group) (p : BitVec 6) (n : Nat) : List Quad :=
  (List.range n).map fun k => g.readS (p.toNat + k)

/-- The scalar registers of a parameter block. -/
def blockRegs (p : BitVec 6) (n : Nat) : List Nat := (List.range n).map fun k => p.toNat + k

/-! ### The operands of `hm` (R282) -/

/-- ORD of an `hm` payload. -/
def hmOrd (h : BitVec 22) : Nat := (h.extractLsb' 0 2).toNat

/-- SCOPE of an `hm` payload. -/
def hmScope (h : BitVec 22) : Nat := (h.extractLsb' 2 3).toNat

/-- ORD 3 is reserved, and SCOPE is 0 when ORD is 0. -/
def hmOrdOk (h : BitVec 22) : Bool := hmOrd h != 3 && (hmOrd h != 0 || hmScope h == 0)

/-- The payload for a load (Table 17.5). -/
def hmLoadOk : Option (BitVec 22) → Bool
  | none => true
  | some h => hmOrdOk h && hmOrd h != 2 && (h.getLsbD 9 || h.extractLsb' 5 4 == 0) && h.extractLsb' 10 12 == 0

/-- The payload for a store. -/
def hmStoreOk : Option (BitVec 22) → Bool
  | none => true
  | some h => hmOrdOk h && hmOrd h != 1 && h.extractLsb' 5 17 == 0

/-- The payload for an atomic: XDV exactly when RET, XBV exactly for `atom.cas`, LB only with XBV (Table 17.5); `.acq` only on
a returning atomic. A returning atomic needs the hint (R281). -/
def hmAtomOk (ret cas : Bool) : Option (BitVec 22) → Bool
  | none => !ret
  | some h =>
    hmOrdOk h && (hmOrd h != 1 || ret) && (h.getLsbD 12 == ret) && (h.getLsbD 12 || h.extractLsb' 5 7 == 0) &&
    (h.getLsbD 20 == cas) && (h.getLsbD 20 || (h.extractLsb' 13 7 == 0 && !h.getLsbD 21))

/-- The payload for a shuffle or `bcast`, which need the hint. -/
def hmLaneOk : Option (BitVec 22) → Bool
  | none => false
  | some h => h.getLsbD 20 && h.extractLsb' 0 13 == 0

/-- XD: the destination of a returning atomic. -/
def hmXD (g : Group) : Nat :=
  match g.hm with
  | none => 0
  | some h => (h.extractLsb' 5 7).toNat

/-- XB: the second operand. -/
def hmXB (g : Group) : Nat :=
  match g.hm with
  | none => 0
  | some h => (h.extractLsb' 13 7).toNat

/-- LB: last use of XB. -/
def hmLB (g : Group) : Bool :=
  match g.hm with
  | none => false
  | some h => h.getLsbD 21

/-- R248: the staleness bound of a load: that of its modifier, or MODE_STALE. -/
def loadBound (s : State) : Nat :=
  match s.grp.hm with
  | some h => if h.getLsbD 9 then (h.extractLsb' 5 4).toNat else ((s.modeOf s.grp).extractLsb' 16 4).toNat
  | none => ((s.modeOf s.grp).extractLsb' 16 4).toNat

/-- The acquire scope of a load or atomic, if it is an acquire. -/
def acqScope (g : Group) : Option Nat :=
  match g.hm with
  | some h => if hmOrd h = 1 then some (hmScope h) else none
  | none => none

/-- The release scope of a store or atomic, if it is a release. -/
def relScope (g : Group) : Option Nat :=
  match g.hm with
  | some h => if hmOrd h = 2 then some (hmScope h) else none
  | none => none

/-- IN0 of the attached `hg`, when it is valid (R282). -/
def hgIn0 (g : Group) : Option Nat := g.hg.bind fun h => if h.getLsbD 16 then some (h.extractLsb' 0 8).toNat else none

/-- IN1 of the attached `hg`, when it is valid (R282). -/
def hgIn1 (g : Group) : Option Nat := g.hg.bind fun h => if h.getLsbD 17 then some (h.extractLsb' 8 8).toNat else none

/-- Input tokens of the attached `hg` (R282). -/
def hgIns (g : Group) : List Nat := (hgIn0 g).toList ++ (hgIn1 g).toList

/-- Output token: OUT of the word when the attached `hg` has OUTV. -/
def hgOut (g : Group) (out : BitVec 8) : Option Nat :=
  match g.hg with
  | none => none
  | some h => if h.getLsbD 18 then some out.toNat else none

/-- R282: OUT must be 0 unless an `hg` with OUTV = 1 is attached. -/
def outOk (g : Group) (out : BitVec 8) : Bool := out == 0 || (hgOut g out).isSome

/-! ### Writing results -/

/-- A fixed-latency word that writes vD in the lanes of E (R313). -/
def vecWord (w : WordInfo) (d : BitVec 7) (f : Group → Nat → Word) : State → Out :=
  issueOk w fun s => s.updGrp fun g => g.writeLanes d.toNat (f g) (lanesOf g.e)

/-- A long-latency word that writes vD in the lanes of E when its result commits (R120). -/
def vecLong (w : WordInfo) (d : BitVec 7) (f : Group → Nat → Word) : State → Out :=
  issueOk w fun s => s.updGrp fun g =>
    g.addPending (.lanes d.toNat ((lanesOf g.e).map fun l => (l, f g l)))

/-- A word that writes sD once per pass, with fixed latency (R297). -/
def scalarWord (w : WordInfo) (d : BitVec 6) (f : Group → Quad) : State → Out :=
  issueOk w fun s => s.updGrp fun g => g.writeS d.toNat (f g)

/-- A word that writes pD in the lanes of E (R320, R321). -/
def predWord (w : WordInfo) (d : BitVec 3) (f : Group → Nat → Bool) : State → Out :=
  issueOk w fun s => s.updGrp fun g =>
    g.writeP d.toNat g.e (maskOf ((lanesOf g.e).filter (f g)))

/-- A binary word of shape A. -/
def vecBin (fin la lb : Bool) (d a b : BitVec 7) (f : Word → Word → Word) : State → Out :=
  vecWord (infoA fin la lb d a b) d fun g l => f (g.readV a.toNat l) (g.readV b.toNat l)

/-- A unary word. -/
def vecUn (fin la : Bool) (d a : BitVec 7) (f : Word → Word) : State → Out :=
  vecWord (infoU fin la d a) d fun g l => f (g.readV a.toNat l)

end Sys2Proof.Machine
end

