-- ==== Sys2Proof/Machine/Flags.lean ====
section
/-! DEFINITION. Flags: the conditions of the compares, predicate logic and scalar branches (R298, R320, R321).  The machine has
no status flags (R195): a condition goes to a predicate register or decides a branch. -/

namespace Sys2Proof.Machine

/-- COND of a compare, from the order of its operands (R320). -/
def condHolds (cond : Nat) (o : Ordering) : Bool :=
  match cond with
  | 0 => o == .eq
  | 1 => o != .eq
  | 2 => o == .lt
  | 3 => o != .gt
  | 4 => o == .gt
  | _ => o != .lt

/-- `icmp`: signed when X is 0, unsigned when it is 1. -/
def icmpHolds (cond : Nat) (x : Bool) (a b : Word) : Bool :=
  condHolds cond (if x then compare a.toNat b.toNat else compare a.toInt b.toInt)

/-- `fcmp`: with a NaN operand every condition is 0, or 1 under `.un`. -/
def fcmpHolds (cond : Nat) (x : Bool) (a b : Word) : Bool :=
  let u := Fmt.fp32.decode a.toNat
  let v := Fmt.fp32.decode b.toNat
  if u.isNan || v.isNan then x else condHolds cond (u.cmp v)

/-- The scalar branch tests of Table 18.1. -/
def sbHolds (func : Nat) (a b : Quad) : Bool :=
  match func with
  | 3 => a == b
  | 4 => a != b
  | 5 => a.slt b
  | _ => !a.slt b

end Sys2Proof.Machine
end

