-- ==== Sys2Proof/Machine/Teams.lean ====
section
/-! DEFINITION. Teams: barriers, the exit of lanes, groups and teams, and stops (R98, R107, R116 to R118, R132, R302, R346). -/

namespace Sys2Proof.Machine

/-- The teams of a team's cluster (R96). -/
def State.clusterTeams (s : State) (t : Nat) : List Nat :=
  (s.teams.filter fun e => e.2.cluster == (s.team t).cluster && e.2.cluster != 0).map (·.1)

/-- The teams of a cluster, or the team alone when it was launched with CLUSTER = 1. -/
def State.peers (s : State) (t : Nat) : List Nat :=
  if (s.team t).cluster == 0 then [t] else s.clusterTeams t

/-! ### Fused cluster L1s (R148) -/

/-- The L1s of a team's cluster are fused: its grid says so, and no team of the cluster is saved or has exited. -/
def State.fused (s : State) (t : Nat) : Bool :=
  (s.team t).cluster != 0 && recField (s.grid (s.team t).grid).record 22 1 / 4 % 2 == 1 &&
    (s.clusterTeams t).all fun u => (s.team u).st == .resident || (s.team u).st == .saving

/-- The fused cluster that a core belongs to, by one of its teams. -/
def State.fusedAt (s : State) (core : Nat) : Option Nat :=
  (s.teams.find? fun e => e.2.core == core && (e.2.st == .resident || e.2.st == .saving) && s.fused e.1).map (·.1)

/-- R148: the core whose L1 may hold a line for a core: the core itself, or the one of its fused cluster whose rank the line names. -/
def State.copyCore (s : State) (core line : Nat) : Nat :=
  match s.fusedAt core with
  | none => core
  | some t =>
    let ts := s.clusterTeams t
    ((ts.find? fun u => (s.team u).rank == line % ts.length).map fun u => (s.team u).core).getD core

/-- The L1s of a team's cluster are fused or come apart: no copy stays where the other arrangement would not look for it. -/
def State.regroupL1 (s : State) (t : Nat) : State :=
  if (s.team t).cluster != 0 && recField (s.grid (s.team t).grid).record 22 1 / 4 % 2 == 1 then
    (s.clusterTeams t).foldl (fun s u => s.updCore (s.team u).core fun c => { c with l1 := [] }) s
  else s

/-- R345: the participants of barrier n for a group of a team. -/
def State.participants (s : State) (t n : Nat) : List Nat :=
  if n = 15 then (s.peers t).flatMap fun u => (s.team u).groups
  else (s.team t).groups.filter fun gid =>
    let g := s.group gid
    if 1 ≤ n && n ≤ 4 then g.part == n - 1 else if 5 ≤ n && n ≤ 8 then g.role == n - 5 else true

/-- The team that holds barrier n: barrier 15 stands in the cluster's first team. -/
def State.barHome (s : State) (t n : Nat) : Nat :=
  if n = 15 && (s.team t).cluster != 0 then (s.team t).cluster else t

/-- Barrier n of a team. -/
def State.barrier (s : State) (t n : Nat) : Barrier := (s.team (s.barHome t n)).bars.getD n ⟨0, []⟩

/-- Store barrier n of a team. -/
def State.setBarrier (s : State) (t n : Nat) (b : Barrier) : State :=
  s.updTeam (s.barHome t n) fun tm => { tm with bars := tm.bars.set n b }

/-- R346: when every participant that has not exited has arrived, the phase advances. -/
def State.barAdvance (s : State) (t n : Nat) : State :=
  let b := s.barrier t n
  let live := (s.participants t n).filter fun gid => (s.group gid).exited != allLanes
  if !b.arrived.isEmpty && live.all b.arrived.contains then s.setBarrier t n ⟨(b.phase + 1) % 2 ^ 32, []⟩ else s

/-- A group arrives at a barrier (R346). -/
def State.arriveAt (s : State) (t n gid : Nat) : State :=
  let b := s.barrier t n
  (s.setBarrier t n { b with arrived := b.arrived ++ [gid] }).barAdvance t n

/-- A group that exits leaves every participant set at once (R346). -/
def State.leaveBarriers (s : State) (t gid : Nat) : State :=
  (List.range 16).foldl (fun s n =>
    let b := s.barrier t n
    (if b.arrived.contains gid then s.setBarrier t n { b with arrived := b.arrived.filter (· != gid) } else s).barAdvance t n) s

/-- When a team exits, every buffer allocated in its ways is freed, whoever holds it (R142). -/
def State.freeBuffers (s : State) (t : Nat) : State :=
  s.updCore (s.team t).core fun c => { c with bufs := c.bufs.map fun e =>
    (e.1, if e.2.live && e.2.owner == t then { e.2 with live := false, gen := (e.2.gen + 1) % 16, syw := none } else e.2) }

/-- What a team leaves on its core at its exit: its tiles and its scratchpad image, as they stood (Table 25.6). -/
def State.leaveImage (s : State) (t : Nat) : State :=
  let tm := s.team t
  if tm.st == .saved then s else s.updCore tm.core fun c => { c with leftTiles := tm.tiles, leftSp := tm.sp }

/-- A team exits (R107, R139, R142, R172): its buffers, ways and save area are free again. -/
def State.teamExit (s : State) (t : Nat) : State :=
  (((s.leaveImage t).freeBuffers t).regroupL1 t).updTeam t fun tm => { tm with st := .exited, ways := [], sp := [], spSeed := [], saveUnits := 0 }

/-- Table 5.4: a team whose groups have all exited is EXITED when it is resident; one that is being saved, or is saved, comes to it only by a kill
or a cancellation. -/
def State.mayExit (s : State) (t : Nat) : Bool :=
  let tm := s.team t
  tm.st == .resident || ((tm.st == .saving || tm.st == .saved) && (tm.cancelled || (s.ctx (s.grid tm.grid).ctx).killing))

/-- A team with no group left exits, if it may. -/
def State.teamGone (s : State) (t : Nat) : State :=
  if s.mayExit t && (s.team t).groups.all fun h => (s.group h).gone then s.teamExit t else s

/-- The exit of a group, with its release, is performed once every engine command it issued has completed (R302), row requests and regions left out
(R91), and every `rbump` before it (R251): its queue registers are unbound and their records discarded; the last group's exit is the team's. -/
def State.groupGone (s : State) (gid : Nat) : State :=
  let g := s.group gid
  if g.exited == allLanes && !g.gone && !g.oz && !g.bumping && (g.cmds.all fun c => c.1 == 3 || c.2.isEmpty) then
    let s := s.updGroup gid fun g => { g with gone := true, q := [], slot := none, pend := [] }
    (s.updTeam g.team fun t => { t with exit := t.exit ||| BitVec.ofNat 64 (2 ^ g.num) }).teamGone g.team
  else s

/-- The group has no lane left: it leaves the barriers, and its exit is performed when its commands are done.  Its exit is a release, which merges
everything that its core buffers (R155). -/
def State.groupExit (s : State) (gid : Nat) : State :=
  let g := s.group gid
  if g.exited == allLanes then
    let merges : List Owed := (s.core g.core).abuf.map fun a => .atomicMerge g.core a.asid (BitVec.ofNat 64 a.va)
    ((s.leaveBarriers g.team gid).groupGone gid).owe merges
  else s

/-- A result without what it holds for some lanes; none when it was a stalled load of one of them. -/
def Pending.without (m : Mask) (p : Pending) : Option Pending :=
  let p := { p with poisoned := p.poisoned.filter fun x => !m.getLsbD x.1 }
  match p.res with
  | .lanes r vals => some { p with res := .lanes r (vals.filter fun x => !m.getLsbD x.1) }
  | .load _ l .. => if m.getLsbD l then none else some p
  | .record slot bytes addr lanes => some { p with res := .record slot bytes addr (lanes &&& ~~~m) }
  | .scalar .. => some p

/-- The lanes of E exit (R118): what is outstanding for them is discarded (R302). -/
def State.exitLanes (s : State) : State :=
  s.updGrp fun g => { g with
    exited := g.exited ||| g.e, arrived := g.arrived &&& ~~~g.e, pend := g.pend.filterMap (Pending.without g.e)
    owed := g.owed.filter fun x => !g.e.getLsbD x.1, e := 0 }

/-- Every lane of a group exits at once: a termination, a cancellation or a halt (R171, R240, R390). -/
def State.endGroup (s : State) (gid : Nat) : State :=
  (s.updGroup gid fun g => { g.endRun with
    exited := allLanes, joined := 0, parked := 0, e := 0, svc := [], block := .none, ending := false, stopped := false, stopDue := false
    fence := none, acq := none }).groupExit gid

/-- R116, R117: no lane is eligible and none is parked.  Lanes joined at one address move on together; otherwise those joined
at the lowest address take the reconvergence fault. -/
def State.settleJoin (s : State) : State :=
  let g := s.grp
  if g.eligible == 0 && g.joined != 0 && g.parked == 0 then
    let js := lanesOf g.joined
    let j := js.foldl (fun m l => min m (g.pc l).toNat) (2 ^ 64)
    let low := js.filter fun l => (g.pc l).toNat == j
    if low.length == js.length then
      s.setGrp { g with
        pcs := js.foldl (fun t l => t.set l (BitVec.ofNat 64 j + 4)) g.pcs
        joined := 0
        arrived := 0
        e := g.joined }
    else
      (s.setGrp { g with joined := g.joined &&& ~~~maskOf low }).takeFaults (low.map fun l => ⟨l, fReconv, 0, false⟩)
  else s

/-! ### Stops (R132, R309, R348) -/

/-- Run an operation as if the group issued, and give the machine back its issuing group. -/
def State.asGroup (s : State) (gid : Nat) (f : State → State) : State :=
  { f { s with cur := gid } with cur := s.cur }

/-- The group waits at a word that counts as a run boundary for a stop (R309, R348): a `bar` does no longer once its phase has completed.  An incomplete
fence is waited for first (R184). -/
def State.stopsAt (s : State) (gid : Nat) : Bool :=
  let g := s.group gid
  g.fence.isNone && match g.block with
    | .pop .. => true
    | .waitc .. => true
    | .bar n ph => (s.barrier g.team n).phase == ph
    | .syw .. => true
    | .sweepWait .. => true
    | .none => false
    | .slice .. => false

/-- The group is stopped at the word that it waits at, where it may: the word is executed afresh on resumption.  A group stopped at `bar` first
withdraws its arrival (R348).  A stop of its team is shown once its results are there (R309). -/
def State.unblock (s : State) (gid : Nat) : State :=
  if s.stopsAt gid then
    let g := s.group gid
    let s := match g.block with
      | .bar n _ =>
        let b := s.barrier g.team n
        s.setBarrier g.team n { b with arrived := b.arrived.filter (· != gid) }
      | _ => s
    s.updGroup gid fun g => { ({ g with stopDue := false } : Group).endRun with block := .none, stopDue := g.stopDue }
  else s

/-- The last group to stop, in its core's debug registers, and why (R135). -/
def State.noteStop (s : State) (g : Group) (cause : Nat) : State :=
  s.updCore g.core fun c => { c with dbgStat := (g.part, g.pos, cause) }

/-- A group of a team that stops: at once at a run boundary; at a word at which it waits, once its results are there (R309); otherwise at the end of its
run (R132).  A step that finds it waiting at a word is over (DEDUCED, log entry 31). -/
def State.stopMember (s : State) (gid : Nat) : State :=
  let g := s.group gid
  if g.gone || g.stopped || g.exited == allLanes then s
  else if !g.runOpen && g.block == .none && g.fence.isNone then (s.updGroup gid fun g => { g with stopped := true }).noteStop g 0
  else if s.stopsAt gid then ((s.updGroup gid fun g => { g with stepping := false }).unblock gid).updGroup gid fun g => { g with stopDue := true }
  else s.updGroup gid fun g => { g with stopDue := true }

/-- A stop that is due at the run boundary at which the group stands: it comes when its results and an incomplete fence are there (R184, R309). -/
def State.stopDone (s : State) (gid : Nat) : State :=
  let g := s.group gid
  if g.stopDue && !g.runOpen && g.block == .none && g.fence.isNone && g.pend.isEmpty then
    s.updGroup gid fun g => { g with stopped := true, stopDue := false, stopNote := if g.stopped then g.stopNote else some 0 }
  else s

/-- R132: with TEAM_STOP every other group of the team stops at its next run boundary. -/
def State.teamStop (s : State) : State :=
  let g := s.grp
  if (s.core g.core).dbgTeamStop && !g.oz then
    ((s.groups.filter fun e => e.2.team == g.team && e.1 != s.cur && !e.2.oz).map (·.1)).foldl State.stopMember s
  else s

end Sys2Proof.Machine
end

