-- ==== Sys2Proof/Machine/Memory.lean ====
section
/-! DEFINITION. Memory: lines at their homes and in the L1s, fills, loads, stores, the write-update directory, atomics and the
release of writes (R40, R54, R55, R137, R138, R149 to R156, R169, R177 to R182, R204 to R206, R247 to R249). -/

namespace Sys2Proof.Machine

/-! ### Lines -/

/-- A line at its home. -/
def State.line? (s : State) (asid : Nat) (va : Quad) : Option L2Line := s.l2.get? (lineKey asid (lineOf va))

/-- Store a line at its home. -/
def State.setLine (s : State) (asid : Nat) (va : Quad) (l : L2Line) : State :=
  { s with l2 := s.l2.set (lineKey asid (lineOf va)) l }

/-- Offset of an address in its line. -/
def lineOff (va : Quad) : Nat := va.toNat % 512

/-- Sectors of the grain block of `grain` sectors that holds an offset (R137). -/
def blockMask (grain off : Nat) : Mask :=
  maskOf ((List.range grain).map fun k => off / 32 / grain * grain + k)

/-- The grain block of an offset. -/
def blockIndex (grain off : Nat) : Nat := off / 32 / grain

/-- Whether a line holds the sector of an offset. -/
def hasSector (valid : Mask) (off : Nat) : Bool := valid.getLsbD (off / 32)

/-- Poison marks of a range of ECC words, from those of another table, moved (R169). -/
def movePoison (src : List Nat) (a n b : Nat) : List Nat := (src.filter fun w => a ≤ w && w < a + n).map fun w => w - a + b

/-- R169: a write of `n` bytes at `a` clears the poison of the words it covers wholly. -/
def clearPoison (ps : List Nat) (ecc a n : Nat) : List Nat := ps.filter fun w => !(a ≤ w && w + ecc ≤ a + n)

/-- The poison of a copy after `n` bytes are written at `off`: the words covered wholly are clear, and those of the bytes `pz` are poisoned with what
was written (R169). -/
def newPoison (ps : List Nat) (ecc off n : Nat) (pz : List Nat) : List Nat :=
  let kept := clearPoison ps ecc off n
  kept ++ ((pz.map fun b => b / ecc * ecc).eraseDups.filter fun w => !kept.contains w)

/-- Bytes go to the memory of another package, with the poison of the bytes `pz` (R149, R169). -/
def State.peerPut (s : State) (dpa : Nat) (bytes : List Byte) (pz : List Nat) : State :=
  { s with peerMem := s.peerMem.putBytes dpa bytes, peerPoison := newPoison s.peerPoison s.eccSize dpa bytes.length (pz.map (dpa + ·)) }

/-! ### Address-range formats and sidecars (R204 to R206) -/

/-- The lowest-numbered valid register that covers an address, with the number of scale bytes of a line and their address. -/
def State.sidecarOf (s : State) (pa : Nat) : Option (Nat × Nat) :=
  let hit := s.arf.find? fun e =>
    let (b, len, _, _) := e.2
    let base := (b.extractLsb' 16 29).toNat * 2 ^ 16
    b.getLsbD 0 && base ≤ pa && pa < base + (len.extractLsb' 0 29).toNat * 2 ^ 16
  hit.map fun e =>
    let (b, _, fmt, sc) := e.2
    let n := if fmt.getLsbD 0 then (if fmt.getLsbD 1 then 64 else 32) else (if fmt.getLsbD 1 then 32 else 16)
    (n, (sc.extractLsb' 6 39).toNat * 64 + (pa - (b.extractLsb' 16 29).toNat * 2 ^ 16) / 512 * n)

/-- The scale bytes of a line's sidecar as the controller reads them; the rest of its 64 bytes reads 0 (R205). -/
def State.readSidecar (s : State) (pa : Nat) : Option (List Byte) := (s.sidecarOf pa).map fun (n, a) => s.mem.bytes a n

/-- The access to a line's scale bytes, wherever they lie (R45, R54, R204). -/
def State.openSidecar (s : State) (touch : State → Nat → Nat → State) (pa : Nat) : State :=
  match s.sidecarOf pa with
  | some (n, a) => touch s a n
  | none => s

/-- The poison that a line's sidecar is read with; in the copies of a line it stands from offset 512 on (R169). -/
def State.sidecarPoison (s : State) (pa : Nat) : List Nat :=
  match s.sidecarOf pa with
  | some (n, a) => (s.poison.filter fun w => w < a + n && a < w + s.eccSize).map fun w => 512 + (w - a)
  | none => []

/-! ### Fills (R55, R156, R163) -/

/-- R12: the die that owns a capacity-tier frame. -/
def frameDie (pa : Nat) : Nat := (pa - 0x020000000000) / 2 ^ 21 % 24

/-- R55: the address of the heat counter of a unit of 64 KiB. -/
def State.heatAddr (s : State) (pa : Nat) : Nat :=
  let d := if isHbm pa then stackOf pa else frameDie pa
  let idx := if isHbm pa then pa % 2 ^ 36 / 2 ^ 16 else
    1048576 + 32 * ((pa - 0x020000000000) / 2 ^ 21 / 24) + pa % 2 ^ 21 / 2 ^ 16
  d * 2 ^ 36 + s.migHeat.getD d 0xEFF00 * 2 ^ 16 + idx * 4

/-- R55: while MODE_MIG is not 0 a fill adds 1 to its unit's counter, saturating, as one access at the bank. -/
def State.countHeat (s : State) (pa : Nat) : State :=
  if s.pkg.mode.extractLsb' 5 2 == 0 || !s.pkg.memInit then s
  else
    let a := s.heatAddr pa
    let s := s.bankTouch a
    { s with mem := s.mem.putNat a 4 (min 0x7FFFFFFF (s.mem.nat a 4 + 1)) }

/-- R54: the memory-side cache of a frame's die is asked for a line: a hit, or a miss that takes the line in, in place of a victim when the
line's set of 16 is full.  Which set and which victim is the model's choice (log entry 37). -/
def State.mscLine (s : State) (line : Nat) : State :=
  let d := frameDie (128 * line)
  let (h, m) := s.mscStat.getD d (0, 0)
  if s.msc.contains line then { s with mscStat := s.mscStat.set d (h + 1, m) }
  else
    let set := s.msc.filter fun x => frameDie (128 * x) == d && x % 16384 == line % 16384
    let kept := match (if 16 ≤ set.length then set[Config.victim s.free % set.length]? else none) with
      | some v => s.msc.erase v
      | none => s.msc
    { s with msc := kept ++ [line], mscStat := s.mscStat.set d (h, m + 1), free := s.free + 1 }

/-- R54, R156: the lines of `n` bytes of the capacity tier at the memory-side cache of their die. -/
def State.touchMsc (s : State) (pa n : Nat) : State :=
  if isLp6 pa then ((List.range ((pa % 128 + n + 127) / 128)).map fun k => pa / 128 + k).foldl State.mscLine s else s

/-- What the translation of an access at a home gives. -/
inductive Tr where
  /-- The page. -/
  | page (s : State) (attr : PageAttr)
  /-- A walk is waited for. -/
  | asks (s : State)
  /-- The walk has failed. -/
  | fails (s : State)

/-- The host has answered a walk of the page with a fault. -/
def State.walkFailed (s : State) (asid : Nat) (va : Quad) : Bool :=
  s.hostWalks.any fun w => w.asid == asid && w.va.toNat / 2 ^ 16 == va.toNat / 2 ^ 16 && w.failed.isSome

/-- The fault that the host's answer to a walk of the page gave (R168). -/
def State.walkFault (s : State) (asid : Nat) (va : Quad) : Option Nat :=
  s.hostWalks.findSome? fun w => if w.asid == asid && w.va.toNat / 2 ^ 16 == va.toNat / 2 ^ 16 then w.failed else none

/-- The fault that the host answered is taken. -/
def State.clearFail (s : State) (asid : Nat) (va : Quad) : State :=
  { s with hostWalks := s.hostWalks.filter fun w => !(w.asid == asid && w.va.toNat / 2 ^ 16 == va.toNat / 2 ^ 16 && w.failed.isSome) }

/-- A page leaves every page-attribute cache, so that an access to it is checked again. -/
def State.dropPac (s : State) (asid : Nat) (va : Quad) : State :=
  { s with cores := s.cores.map fun e =>
      (e.1, { e.2 with pac := e.2.pac.filter fun p => !(p.asid == asid && p.va == pageBase p.big va.toNat) }) }

/-- R163: the home's agent translates for an access of a kind: it hits, has the memory processor walk, or posts a record and waits for the
host's answer.  A walk that the host has been asked for is finished by the host, whatever DUTY[1] holds by then (R25). -/
def State.translate (s : State) (asid : Nat) (va : Quad) (acc : Nat) : Tr :=
  let die := homeDie asid (lineOf va)
  match findPage (s.tlbOf die va) asid va with
  | some attr => .page s attr
  | none =>
    if s.walkPending asid va then .asks s
    else if s.walkFailed asid va then .fails ((s.clearFail asid va).dropPac asid va)
    else if s.hostWalksOn then .asks (s.owe [.walkPost asid va acc])
    else
      match s.walk asid va with
      | .ok attr => .page (s.loadTlb die asid va attr) attr
      | .error _ => .fails (s.dropPac asid va)

/-- The check of a page by a word that may name more pages than a page-attribute cache holds: by the core's copy of the attributes, or else by those that
the home's agent returns (R163, R165). -/
def State.checkMany (s : State) (va : Quad) (acc : Nat) : Chk :=
  match s.check va acc, s.spaceOf s.grp with
  | .stall (q :: qs), some asid =>
    match s.translate asid va acc with
    | .page _ attr =>
      match accessCheck (pacOf asid va attr) acc with
      | .fault code => s.faultChk code
      | c => c
    | _ => .stall (q :: qs)
  | c, _ => c

/-- The domain physical address of an address on a page. -/
def pageAddr (attr : PageAttr) (va : Quad) : Nat := attr.pa + va.toNat % pageSize attr.big

/-- An empty line of a page. -/
def newLine (attr : PageAttr) (pa : Nat) : L2Line where
  valid := 0
  dirty := false
  data := []
  poison := []
  grain := attr.grain
  sharers := []
  locked := none
  comb := false
  round := attr.round
  wanted := []
  pa := pa
  sidecar := none
  bankOut := 0

/-- What a line at its home holds of its page. -/
def L2Line.attr (l : L2Line) : PageAttr where
  w := true
  x := true
  d := true
  grain := l.grain
  nomig := false
  round := l.round
  nc := false
  big := false
  pa := l.pa / 65536 * 65536

/-- R163: the page of an access that a core's copy does not serve: what its home holds, or the translation of the home's agent. -/
def State.pageFor (s : State) (asid : Nat) (va : Quad) (acc : Nat) : Tr :=
  match s.line? asid va with
  | some l => if hasSector l.valid (lineOff va) then .page s l.attr else s.translate asid va acc
  | none => s.translate asid va acc

/-- R17: a page of another package while the package catches up with the domain's time: it takes part in no traffic. -/
def State.heldPeer (s : State) (attr : PageAttr) : Bool := s.pkg.sync && !s.isMine attr.pa

/-- The line that a fill goes into: the one at the home, or, where none holds a sector, one made afresh of the page. -/
def State.lineFor (s : State) (asid : Nat) (attr : PageAttr) (va : Quad) (pa : Nat) : L2Line :=
  let fresh := { newLine attr pa with comb := s.isComb pa }
  match s.line? asid va with
  | none => fresh
  | some l => if l.valid == 0 then { fresh with locked := l.locked, wanted := l.wanted, bankOut := l.bankOut } else l

/-- The events of accesses and messages of a line that are at a bank, or on their way back from one (R40, R46). -/
def State.bankAsks (s : State) (asid : Nat) (va : Quad) : List Owed :=
  ((s.bankq.filter fun b => b.asid == asid && b.va / 512 == lineOf va).map fun b => .bankAccess b.pa) ++
    (s.bankMsgs.filter fun m => m.asid == asid && m.va / 512 == lineOf va).map fun m =>
      if m.comb then .combUpdate asid va else .bankStoreAck asid va

/-- A line with the grain block of an offset read into it from a memory, at an address (R137); the first block brings the sidecar (R204). -/
def L2Line.fill (l : L2Line) (s : State) (mem : Memory) (base off : Nat) (mine : Bool) : L2Line :=
  let first := blockIndex l.grain off * l.grain * 32
  let n := l.grain * 32
  let loc := dpaLocal l.pa
  { l with
    valid := l.valid ||| blockMask l.grain off
    data := l.data.copyFrom mem (base + first) first n
    poison := l.poison ++ (if mine then movePoison s.poison (loc + first) n first else movePoison s.peerPoison (base + first) n first) ++
      (if l.valid == 0 && mine then s.sidecarPoison loc else [])
    sharers := l.sharers.del (blockIndex l.grain off)
    sidecar := if l.valid == 0 && mine then (s.readSidecar loc).map (·, false) else l.sidecar }

/-- Fill the grain block of an address into its home, for an access of a kind (R137, R163).  What an activation that the read brings about sends to the
line comes first (R45).  (In part DEDUCED, log entry 37.) -/
def State.fillBlock (s : State) (asid : Nat) (va : Quad) (acc : Nat) : State :=
  match s.translate asid va acc with
  | .asks s => s
  | .fails s => s
  | .page s attr =>
    let pa := pageAddr attr va / 512 * 512
    let line := s.lineFor asid attr va pa
    if hasSector line.valid (lineOff va) || attr.nc || s.heldPeer attr then s
    else if !s.isMine pa then s.setLine asid va (line.fill s s.peerMem pa (lineOff va) false)
    else
      let first := dpaLocal pa + blockIndex line.grain (lineOff va) * line.grain * 32
      let s := (s.touchMsc first (line.grain * 32)).bankOpen first
      match s.bankAsks asid va with
      | q :: qs => s.owe (q :: qs)
      | [] =>
        let s := s.bankStamp first
        let s := if line.valid == 0 then s.openSidecar (fun s a n => (s.touchMsc a n).bankTouch a) (dpaLocal pa) else s
        (s.setLine asid va (line.fill s s.mem (dpaLocal pa) (lineOff va) true)).countHeat first

/-- A dirty line's bytes go to memory (R151). -/
def State.writeData (s : State) (l : L2Line) : State :=
  let loc := dpaLocal l.pa
  if l.dirty then
    let s := (s.touchMsc loc 512).bankTouch loc
    { s with
      mem := (lanesOf l.valid).foldl (fun m k => m.copyFrom l.data (k * 32) (loc + k * 32) 32) s.mem
      poison := (s.poison.filter fun w => !(loc ≤ w && w < loc + 512 && l.valid.getLsbD ((w - loc) / 32))) ++
        (l.poison.filter (· < 512)).map (· + loc) }
  else s

/-- A dirty sidecar goes to its scale bytes, or is dropped when no register covers the line any more (R206): the state, and the sidecar that stays. -/
def State.writeScales (s : State) (l : L2Line) : State × Option (List Byte × Bool) :=
  match l.sidecar, s.sidecarOf (dpaLocal l.pa) with
  | some (bs, true), some (n, a) =>
    let s := (s.touchMsc a n).bankTouch a
    ({ s with
      mem := s.mem.putBytes a ((bs ++ List.replicate 64 0).take n)
      poison := newPoison s.poison s.eccSize a n ((l.poison.filter (512 ≤ ·)).map fun w => w - 512 + a) }, some (bs, false))
  | some (_, true), none => (s, none)
  | side, _ => (s, side)

/-- A line's bytes are written back to memory, and its sidecar to its scale bytes (R151, R206). -/
def State.writeBack (s : State) (asid : Nat) (va : Quad) : State :=
  match s.line? asid va with
  | none => s
  | some l =>
    if s.isMine l.pa then
      let r := (s.writeData l).writeScales l
      r.1.setLine asid va { l with dirty := false, sidecar := r.2 }
    else s.setLine asid va { l with dirty := false }

/-! ### Sharers (R151, R152) -/

/-- The die of a core; the Ozyth core stands on die 0. -/
def dieOfCore (c : Nat) : Nat := if c = 576 then 0 else c / 24

/-- The cores that a sharer record names. -/
def sharerCores : Sharers → List Nat
  | .precise l => l
  | .coarse m => (List.range 577).filter fun c => m.getLsbD (dieOfCore c)

/-- A core is recorded as a sharer: the ninth turns the record coarse. -/
def addSharer (sh : Sharers) (c : Nat) : Sharers :=
  match sh with
  | .precise l =>
    if l.contains c then .precise l
    else if l.length < 8 then .precise (l ++ [c])
    else .coarse ((l ++ [c]).foldl (fun m x => m ||| BitVec.ofNat 24 (2 ^ dieOfCore x)) 0)
  | .coarse m => .coarse (m ||| BitVec.ofNat 24 (2 ^ dieOfCore c))

/-- The home removes a core from a precise sharer record (R152 step 3). -/
def Sharers.drop (sh : Sharers) (core : Nat) : Sharers :=
  match sh with
  | .precise l => .precise (l.filter (· != core))
  | .coarse m => .coarse m

/-- The sharers of the grain block of an offset. -/
def L2Line.sharersAt (l : L2Line) (off : Nat) : Sharers := l.sharers.getD (blockIndex l.grain off) (.precise [])

/-! ### Updates from a home to a core (R152) -/

/-- A counter of a core's memory registers (Table 7.6): 0 merges, 1 evictions, 2 updates applied, 3 updates dropped. -/
def State.countCm (s : State) (core k : Nat) : State :=
  s.updCore core fun c => { c with cm := c.cm.set k ((c.cm.getD k 0 + 1) % 2 ^ 32) }

/-- Bytes laid into a core's copy: of its data, or of its sidecar sector from offset 512 on; none when the copy does not hold them. -/
def L1Line.put (l : L1Line) (ecc off : Nat) (bytes : List Byte) (poison : List Nat) : Option L1Line :=
  if off < 512 then
    if hasSector l.valid off then
      some { l with
        data := l.data.putBytes off bytes
        poison := newPoison l.poison ecc off bytes.length poison }
    else none
  else l.sidecar.map fun sc => { l with
      sidecar := some (sc.take (off - 512) ++ bytes ++ sc.drop (off - 512 + bytes.length))
      poison := newPoison l.poison ecc off bytes.length poison }

/-- The home forgets a core that holds nothing of a block; words of the sidecar belong to every block (R152 step 3, R206). -/
def L2Line.forget (l : L2Line) (off core : Nat) : L2Line :=
  if off < 512 then { l with sharers := l.sharers.set (blockIndex l.grain off) ((l.sharersAt off).drop core) }
  else { l with sharers := l.sharers.map fun (e : Nat × Sharers) => (e.1, e.2.drop core) }

/-- A core applies an update to a line that it holds, or drops it and leaves the precise record; it acknowledges (R152 steps 3 and 4). -/
def State.applyUpdate (s : State) (u : Update) : State :=
  let key := lineKey u.asid u.line
  let va := BitVec.ofNat 64 (u.line * 512)
  let s := match ((s.core u.core).l1.get? key).bind fun l => l.put s.eccSize u.off u.bytes u.poison with
    | some l => (s.updCore u.core fun c => { c with l1 := c.l1.set key l }).countCm u.core 2
    | none =>
      (match s.line? u.asid va with
        | some h => s.setLine u.asid va (h.forget u.off u.core)
        | none => s).countCm u.core 3
  let s := s.rollLine (fun c => s.copyCore c u.line == u.core) key
  ({ s with stores := s.stores.modify u.store fun st => { st with acks := st.acks - 1 } } : State).settleStore u.store

/-- Every update on the path from a home slice to a core arrives, in order. -/
def State.drainPath (s : State) (slice core : Nat) : State :=
  let mine := fun (u : Update) => homeSlice u.asid u.line == slice && u.core == core
  (s.updates.filter mine).foldl State.applyUpdate { s with updates := s.updates.filter fun u => !mine u }

/-- Every update on its way for a line arrives, behind those before it on its path: what an invalidation at the sharers waits for (R151). -/
def State.drainLine (s : State) (asid line : Nat) : State :=
  ((s.updates.filter fun u => u.asid == asid && u.line == line).map (·.core)).eraseDups.foldl
    (fun s core => s.drainPath (homeSlice asid line) core) s

/-- R152 steps 1 and 2: words written into the home's copy are sent to every sharer of the block, but for the storing core when the
record is precise; a round-managed line sends nothing (R247).  `n` is the store's number; `off` is 512 and above for words of the sidecar,
which every block's sharers get (R206). -/
def State.forwardAt (s : State) (asid : Nat) (va : Quad) (off : Nat) (bytes : List Byte) (core n : Nat) : State :=
  match s.line? asid va with
  | none => s
  | some l =>
    let core := s.copyCore core (lineOf va)
    let of_ := fun (sh : Sharers) => match sh with
      | .precise cs => cs.filter (· != core)
      | .coarse _ => sharerCores sh
    let cores := if l.round.isSome then []
      else if off < 512 then of_ (l.sharersAt off)
      else (l.sharers.flatMap fun e => of_ e.2).eraseDups
    let first := off / 32 * 32
    let ps := movePoison l.poison first ((off % 32 + bytes.length + 31) / 32 * 32) first
    let s := { s with
      updates := s.updates ++ cores.map fun c =>
        ({ asid, line := lineOf va, core := c, off, bytes, poison := ps, store := n } : Update)
      stores := s.stores.modify n fun st => { st with acks := st.acks + cores.length } }
    s.owe (cores.map fun c => .writeUpdate (homeSlice asid (lineOf va)) c)

/-- Words of a line's data are forwarded. -/
def State.forward (s : State) (asid : Nat) (va : Quad) (bytes : List Byte) (core n : Nat) : State :=
  s.forwardAt asid va (lineOff va) bytes core n

/-- Write bytes into the home's copy of a line, with the poison that they carry; the copy of another package's line is never dirty, since the
words go on to that package (R149). -/
def State.writeHome (s : State) (asid : Nat) (va : Quad) (bytes : List Byte) (pz : List Nat) : State :=
  match s.line? asid va with
  | none => s
  | some l => s.setLine asid va { l with
      data := l.data.putBytes (lineOff va) bytes
      poison := newPoison l.poison s.eccSize (lineOff va) bytes.length (pz.map (lineOff va + ·))
      dirty := l.dirty || s.isMine l.pa }

/-- Write bytes into a core's copy of a line, if its L1 holds the sector. -/
def State.putL1 (s : State) (core asid : Nat) (va : Quad) (bytes : List Byte) (pz : List Nat) : State :=
  let key := lineKey asid (lineOf va)
  match ((s.core core).l1.get? key).bind fun l => l.put s.eccSize (lineOff va) bytes (pz.map (lineOff va + ·)) with
  | some l => s.updCore core fun x => { x with l1 := x.l1.set key l }
  | none => s

/-- Write bytes into a storing core's copy of a line, if it holds the sector (R138); groups of the core that have read the line past a fence are rolled
back (R184).  Words of earlier stores that are on their way to the
copy arrive first, so that they do not overwrite these (R178, R179). -/
def State.writeL1 (s : State) (core asid : Nat) (va : Quad) (bytes : List Byte) (pz : List Nat) : State :=
  let c := s.copyCore core (lineOf va)
  ((s.drainPath (homeSlice asid (lineOf va)) c).rollLine (fun k => s.copyCore k (lineOf va) == c) (lineKey asid (lineOf va))).putL1 c asid va bytes pz

/-- A core's copy of a line is gone. -/
def State.dropL1 (s : State) (core asid : Nat) (va : Quad) : State :=
  s.updCore (s.copyCore core (lineOf va)) fun c => { c with l1 := c.l1.del (lineKey asid (lineOf va)) }

/-- The home drops a line: the updates on their way to its sharers arrive, every copy is invalidated, and a dirty line is written back (R151).
A locked line, or one that a core waits for, keeps its place without a sector (R150; DESIGN CHOICE, log entry 37). -/
def State.dropLine (s : State) (asid : Nat) (va : Quad) : State :=
  let s := (s.drainLine asid (lineOf va)).writeBack asid va
  let key := lineKey asid (lineOf va)
  let s : State := { s with cores := s.cores.map fun (e : Nat × Core) => (e.1, { e.2 with l1 := e.2.l1.del key }) }
  let s := s.rollLine (fun _ => true) key
  match s.line? asid va with
  | none => s
  | some l =>
    if l.locked.isSome || !l.wanted.isEmpty then
      s.setLine asid va { l with valid := 0, dirty := false, data := [], poison := [], sharers := [], sidecar := none }
    else { s with l2 := s.l2.del key }

/-! ### Room at a home (R149, R151) -/

/-- The lines of the set that a line has at its home slice (R149). -/
def State.setLines (s : State) (asid : Nat) (va : Quad) : Tbl L2Line :=
  s.l2.filter fun e => (e.1 % 2 ^ 55 ^^^ e.1 / 2 ^ 55) % 294912 == (lineOf va ^^^ asid) % 294912

/-- A line that its home may evict: it is not locked (R150), nothing of it is at a bank, and no core waits for it at a bump. -/
def L2Line.mayGo (l : L2Line) : Bool := l.locked.isNone && l.bankOut == 0 && l.wanted.isEmpty

/-- R149, R151: room for a line at its home, or none while no line of its set may go.  A full set of 16 evicts a line: the updates on their way
to its sharers arrive, every copy is invalidated, and a dirty line is written back.  Which line goes is free (log entry 37). -/
def State.makeRoom (s : State) (asid : Nat) (va : Quad) : Option State :=
  let set := s.setLines asid va
  if (s.line? asid va).isSome || set.length < 16 then some s
  else
    let may := (set.filter fun e => e.2.mayGo).map (·.1)
    (may[Config.victim s.free % may.length]?).map fun key =>
      ({ s with free := s.free + 1 } : State).dropLine (key / 2 ^ 55) (BitVec.ofNat 64 (key % 2 ^ 55 * 512))

/-- An L2 miss: the home's agent translates; what banks still have of the line comes first; then the home makes room, and the grain block is filled
(R45, R137, R151, R163).  A page with NC = 1 has no line at a home. -/
def State.fillHome (s : State) (asid : Nat) (va : Quad) (acc : Nat) : State :=
  if s.pkg.memDown then s else
  match s.translate asid va acc with
  | .asks s => s
  | .fails s => s
  | .page s attr =>
    if attr.nc then s else
    match s.bankAsks asid va with
    | q :: qs => s.owe (q :: qs)
    | [] =>
      match s.makeRoom asid va with
      | some s => s.fillBlock asid va acc
      | none => s

/-- What an access to a line that its home does not hold waits for.  In a full set the access itself brings the line in (log entry 37): it waits only
for a translation, or until a line of the set may go. -/
def State.missAsks (s : State) (asid : Nat) (va : Quad) (acc : Nat) : List Owed :=
  let set := s.setLines asid va
  if set.length < 16 then [.l2Miss asid va acc]
  else
    match s.translate asid va acc with
    | .page .. =>
      if set.any fun e => e.2.mayGo then s.bankAsks asid va
      else .l2Miss asid va acc :: set.flatMap fun e => s.bankAsks (e.1 / 2 ^ 55) (BitVec.ofNat 64 (e.1 % 2 ^ 55 * 512))
    | _ => [.l2Miss asid va acc]

/-- The home holds the sector of an address, if room and a translation let it. -/
def State.bring (s : State) (asid : Nat) (va : Quad) (acc : Nat) : State :=
  if ((s.line? asid va).map fun l => hasSector l.valid (lineOff va)).getD false then s else s.fillHome asid va acc

/-! ### Buffered atomics (R154, R155) -/

/-- An operation of Table 20.5 on an old value; none when it writes nothing (`atom.cas` that fails). -/
def atomNew (op : Nat) (uns : Bool) (old a b : Word) : Option Word :=
  match op with
  | 0 => some (old + a)
  | 1 => some (toWord (Fmt.fp32.fadd old.toNat a.toNat))
  | 2 => some (if uns then (if old.ule a then old else a) else (if old.sle a then old else a))
  | 3 => some (if uns then (if old.ule a then a else old) else (if old.sle a then a else old))
  | 4 => some (old &&& a)
  | 5 => some (old ||| a)
  | 6 => some (old ^^^ a)
  | 7 => some a
  | _ => if old = a then some b else none

/-- The cores that buffer an atomic to the line of an address: each must merge before the line is read at its home. -/
def State.mergesDue (s : State) (asid : Nat) (va : Quad) : List Owed :=
  s.cores.flatMap fun e => (e.2.abuf.filter fun a => a.asid == asid && a.va / 512 == lineOf va).map fun a =>
    .atomicMerge e.1 asid (BitVec.ofNat 64 a.va)

/-- What must happen before `va` can be read at its home by an access of a kind: merges, a fill, or a bank's acknowledgement (R40, R155,
R163). -/
def State.homeAsks (s : State) (asid : Nat) (va : Quad) (acc : Nat) : List Owed :=
  match s.mergesDue asid va with
  | m :: ms => m :: ms
  | [] =>
    match s.line? asid va with
    | none => s.missAsks asid va acc
    | some l =>
      if !hasSector l.valid (lineOff va) then [.l2Miss asid va acc]
      else if l.bankOut != 0 then s.bankAsks asid va
      else []

/-- What must happen before the home of a line that is not comb-target takes a write: words of the line that are at a bank or on their way
from one are older than it (R179). -/
def State.homeWaits (s : State) (asid : Nat) (va : Quad) (l : L2Line) : List Owed := if l.comb then [] else s.bankAsks asid va

/-- The stores not yet acknowledged that write the line of an address: a read that may see them makes them part of the reader's
cumulative set (R181). -/
def State.storesAt (s : State) (asid : Nat) (va : Quad) : List Nat :=
  (s.stores.filter fun e => e.2.asid == asid && e.2.va / 512 ≤ lineOf va && lineOf va ≤ (e.2.va + e.2.len - 1) / 512).map (·.1)

/-- The group has observed these stores. -/
def Group.observe (g : Group) (ns : List Nat) : Group :=
  { g with observed := g.observed ++ ns.filter fun n => !g.observed.contains n && !g.stores.contains n }

/-- A read of a line's bytes: the bytes, and whether one is poisoned. -/
def readLine (data : Memory) (poison : List Nat) (ecc off n : Nat) : List Byte × Bool :=
  (data.bytes off n, poison.any fun w => w < off + n && off < w + ecc)

/-- The ways of a core that are cache ways, in descending number (R138, R139). -/
def State.cacheWays (s : State) (core : Nat) : List Nat :=
  let used := s.teams.flatMap fun e => if e.2.core == core && (e.2.st == .resident || e.2.st == .saving) then e.2.ways else []
  (List.range 16).reverse.filter fun w => !used.contains w

/-- R140: ways of a core become scratchpad: the lines that they hold are invalidated. -/
def State.convertWays (s : State) (core : Nat) (ws : List Nat) : State :=
  s.updCore core fun c => { c with l1 := c.l1.filter fun e => !ws.contains e.2.way }

/-- R138: a core's L1 makes room for a line: a free cache way of its set, or that of a victim, which is evicted without notice to the home.
Which line goes, and that bits [14:9] of the address name the set, is the model's choice (log entry 37). -/
def State.roomL1 (s : State) (core key : Nat) : Option Nat × State :=
  let set := (s.core core).l1.filter fun e => e.1 % 64 == key % 64
  match (s.cacheWays core).find? fun w => !set.any fun e => e.2.way == w with
  | some w => (some w, s)
  | none =>
    match set[Config.victim s.free % set.length]? with
    | some v => (some v.2.way, ({ s with free := s.free + 1 } : State).updCore core fun c => { c with l1 := c.l1.del v.1 })
    | none => (none, s)

/-- The place of a line in a core's L1: where it is, or where room is made. -/
def State.placeL1 (s : State) (core key : Nat) : Option L1Line × State :=
  match (s.core core).l1.get? key with
  | some l => (some l, s)
  | none =>
    let (w, s) := s.roomL1 core key
    (w.map fun way => ⟨0, [], [], none, [], none, way⟩, s)

/-- Copy the grain block of an address from its home into a core's L1, behind the updates on their way there, and record the core as a sharer
(R138, R152, R247); a core whose ways are all scratchpad keeps no copy.  In a fused cluster the copy goes to the core that the line names
(R148). -/
def State.fillL1 (s : State) (core asid : Nat) (va : Quad) (fillRound : Option (Nat × Word)) : State :=
  let core := s.copyCore core (lineOf va)
  let s := s.drainPath (homeSlice asid (lineOf va)) core
  match s.line? asid va with
  | none => s
  | some l =>
    let key := lineKey asid (lineOf va)
    match s.placeL1 core key with
    | (none, s) => s
    | (some old, s) =>
      let blk := blockMask l.grain (lineOff va)
      let first := blockIndex l.grain (lineOff va) * l.grain * 32
      let n := l.grain * 32
      let s := s.updCore core fun c => { c with l1 := c.l1.set key { old with
        valid := old.valid ||| blk
        data := old.data.copyFrom l.data first first n
        poison := (old.poison.filter fun w => !(first ≤ w && w < first + n) && w < 512) ++ movePoison l.poison first n first ++
          l.poison.filter (512 ≤ ·)
        round := l.round
        fills := (lanesOf blk).foldl (fun t k => match fillRound with
          | some (_, f) => t.set k f
          | none => t.del k) old.fills
        sidecar := l.sidecar.map (·.1) } }
      s.setLine asid va { l with
        sharers := l.sharers.set (blockIndex l.grain (lineOff va)) (addSharer (l.sharersAt (lineOff va)) core) }

end Sys2Proof.Machine
end

