-- ==== Sys2Proof/Machine/LoadStore.lean ====
section
/-! DEFINITION. Loads, stores and atomics: majors 0x10 to 0x12 (R40, R153, R165, R169, R177 to R182, R192, R247 to R250, R334 to
R342), and the control space and private memory of the Ozyth core (R398). -/

namespace Sys2Proof.Machine

/-- R334: the address of a lane. -/
def memAddr (g : Group) (base : BitVec 5) (off : BitVec 7) (l : Nat) : Quad :=
  g.readS base.toNat + (g.readV off.toNat l).setWidth 64 + BitVec.ofInt 64 (memImm g)

/-- R398: the Ozyth core's private memory. -/
def isOzPrivate (va : Quad) : Bool := 0x0000E00000000000 ≤ va.toNat && va.toNat < 0x0000E00000400000

/-- R398: package control space as the Ozyth core sees it. -/
def isOzControl (va : Quad) : Bool := 0x0000F00000000000 ≤ va.toNat && va.toNat < 0x0000F00001000000

/-- What the checks of Table 20.1 give a lane. -/
inductive LaneChk where
  /-- The lane passes; its address is a translated one, or in one of the Ozyth core's own ranges. -/
  | pass (translated : Bool)
  /-- The lane faults or parks. -/
  | bad (f : LaneFault)
  /-- The word stalls. -/
  | stall (asks : List Owed)

/-- Table 20.1: the checks of an access of `n` bytes by a lane of the issuing group. -/
def State.laneCheck (s : State) (l : Nat) (va : Quad) (n acc : Nat) : LaneChk :=
  if va.toNat % n != 0 then .bad ⟨l, fAlign, va, false⟩
  else if s.grp.oz && isOzPrivate va then .pass false
  else if s.grp.oz && isOzControl va then (if n = 8 then .pass false else .bad ⟨l, fAlign, va, false⟩)
  else
    match s.check va acc with
    | .ok _ => .pass true
    | .stall asks => .stall asks
    | .fault code => .bad ⟨l, code, va, false⟩
    | .park code => .bad ⟨l, code, va, true⟩

/-- The lanes that pass, with their addresses, and whether these are translated; those that do not; and what stalls the word (R335: every check is made
before any access). -/
structure Checked where
  /-- Lanes that pass. -/
  good : List (Nat × Quad × Bool)
  /-- Lanes that fault. -/
  bad : List LaneFault
  /-- What the word waits for. -/
  asks : List Owed

/-- The checks of every lane of E. -/
def State.checkLanes (s : State) (addr : Nat → Quad) (n acc : Nat) : Checked :=
  (lanesOf s.grp.e).foldr (fun l c =>
    match s.laneCheck l (addr l) n acc with
    | .pass mem => { c with good := (l, addr l, mem) :: c.good }
    | .bad f => { c with bad := f :: c.bad }
    | .stall asks => { c with asks := asks ++ c.asks }) ⟨[], [], []⟩

/-! ### Release and acquire (R177, R181, R182) -/

/-- Whether a store is performed at a scope (Table 9.1); a merge of buffered atomics is at any scope only once its home has acknowledged it
(R187). -/
def Store.performedAt (st : Store) (scope : Nat) : Bool :=
  if scope = 0 && !st.merged then true
  else if scope ≤ 2 && !st.merged then st.home && !st.bank
  else if scope ≤ 5 then st.acks = 0 && !st.bank
  else st.acks = 0 && !st.bank && st.peer.isNone

/-- The tag of a fence's status. -/
def fenceTag : Nat := 5000

/-- The merges of every entry that a core buffers. -/
def State.mergesOf (s : State) (core : Nat) : List Owed :=
  (s.core core).abuf.map fun a => .atomicMerge core a.asid (BitVec.ofNat 64 a.va)

/-- What the cumulative set of a group still waits for at a scope: the buffered atomics of its core, and the stores that are not
performed there; one that it has lost need be performed in this package only (R189).  `none` when nothing is left. -/
def State.cumulative (s : State) (g : Group) (scope : Nat) : Option (List Owed) :=
  let merges := s.mergesOf g.core
  if !merges.isEmpty then some merges
  else if (g.stores ++ g.observed).all fun n => match s.stores.get? n with
      | some st => st.performedAt (if g.gaveUp.contains n then min scope 5 else scope)
      | none => true
  then none else some []

/-- What a release of the group at a scope still waits for: its cumulative set (R181), and every earlier `rbump` (R251).  `none`
when the release is performed. -/
def State.releaseAsks (s : State) (g : Group) (scope : Nat) : Option (List Owed) :=
  if g.bumping then some [] else s.cumulative g scope

/-- FENCE_ERR (R190, Table 9.7): what the fence or store of the issuing group has lost fills the record, or adds to its COUNT.  A line written counts
once (DEDUCED from R190's example, log entry 33). -/
def State.recordLoss (s : State) : State :=
  let g := s.grp
  match g.lost with
  | [] => s
  | (status, peer, va) :: more =>
    let vas := va :: more.map (·.2.2)
    let n := (vas.map (· / 512)).eraseDups.length
    let src := s.groupSource g
    let grid := if g.oz then 0 else (s.grid (s.team g.team).grid).num
    let t := s.stampTime src
    let asid := s.asidOf g
    ((s.stamp src).updCtx (s.ctxOf g) fun c =>
      let count := (c.ferrStat.extractLsb' 16 16).toNat
      if c.ferrStat.getLsbD 0 then
        { c with ferrStat := (c.ferrStat &&& ~~~0xFFFF0000) ||| BitVec.ofNat 64 (min 0xFFFF (count + n) * 2 ^ 16) }
      else { c with
        ferrStat := BitVec.ofNat 64 (1 + status * 2 + peer % 64 * 2 ^ 8 + min 0xFFFF n * 2 ^ 16 + grid * 2 ^ 32)
        ferrLo := BitVec.ofNat 64 (vas.foldl min va), ferrHi := BitVec.ofNat 64 (vas.foldl max 0)
        ferrAsid := BitVec.ofNat 64 asid, ferrTime := BitVec.ofNat 64 t }).updGrp fun g => { g with lost := [] }

/-- R149, R182: an acquire at domain or system scope drops the package's copies of lines of other packages.  At every smaller
scope the write-update directory keeps copies current, and a release waits for every sharer, so the acquire needs nothing more. -/
def State.acquire (s : State) (scope : Nat) : State :=
  if 6 ≤ scope then
    ((s.l2.filter fun e => !s.isMine e.2.pa).map (·.1)).foldl
      (fun s key => s.dropLine (key / 2 ^ 55) (BitVec.ofNat 64 (key % 2 ^ 55 * 512))) s
  else s

/-! ### Reading for a lane -/

/-- What a read gives. -/
inductive Rd where
  /-- Bytes, whether one is poisoned, and the state with what the read brought about. -/
  | bytes (s : State) (bs : List Byte) (poisoned : Bool)
  /-- Events come first; the word stalls. -/
  | asks (l : List Owed)
  /-- R250: the load waits for the next bump of its counter. -/
  | stalled (s : State) (counter : Nat)

/-- The value of a counter in a core's round table (R246). -/
def State.roundValue (s : State) (core c : Nat) : Option Word :=
  ((s.core core).rtab.find? fun e => e.1 == c).map (·.2)

/-- A use of a counter makes it the most recently used of the table (R246). -/
def State.useRound (s : State) (core c : Nat) : State :=
  s.updCore core fun k => match k.rtab.find? fun e => e.1 == c with
    | some e => { k with rtab := e :: k.rtab.filter fun x => x.1 != c }
    | none => k

/-- A read at the memory side: an NC page (Table 8.2).  Accesses queued at the bank come first (R45).  `again`: a lane of the same
word has read the same 64-byte block, so that the two are one access (R405). -/
def State.readNc (s : State) (asid : Nat) (attr : PageAttr) (va : Quad) (n acc : Nat) (again : Bool) : Rd :=
  let pa := pageAddr attr va
  if s.heldPeer attr then .asks [.l2Miss asid va acc]
  else if s.isMine pa then
    let loc := dpaLocal pa
    if s.bankq.any fun b => b.pa / 1024 == loc / 1024 then .asks [.bankAccess loc]
    else
      let s := if again then s else (s.touchMsc loc n).bankTouch loc
      let r := readLine s.mem s.poison s.eccSize loc n
      .bytes s r.1 r.2
  else
    let r := readLine s.peerMem s.peerPoison s.eccSize pa n
    .bytes s r.1 r.2

/-- A read at the home slice by an access of a kind, that leaves a copy in the core's L1 when `copy` says so. -/
def State.readHome (s : State) (core asid : Nat) (va : Quad) (n acc : Nat) (copy : Bool) (fr : Option (Nat × Word)) : Rd :=
  match s.homeAsks asid va acc with
  | a :: as => .asks (a :: as)
  | [] =>
    let s := s.bring asid va acc
    match s.line? asid va with
    | none => .asks [.l2Miss asid va acc]
    | some l =>
      let r := readLine l.data l.poison s.eccSize (lineOff va) n
      let s := if copy then s.fillL1 core asid va fr else s
      .bytes s r.1 r.2

/-- A read through the core's L1 (R138, R148); the core's own buffered atomics to the line are merged first (R155). -/
def State.readL1 (s : State) (core asid : Nat) (va : Quad) : Option L1Line :=
  if (s.core core).abuf.any fun a => a.asid == asid && a.va / 512 == lineOf va then none
  else
    match (s.core (s.copyCore core (lineOf va))).l1.get? (lineKey asid (lineOf va)) with
    | some l => if hasSector l.valid (lineOff va) then some l else none
    | none => none

/-- R249: a load of a round-managed line under bound k. -/
def State.readRound (s : State) (core asid : Nat) (va : Quad) (n k c : Nat) : Rd :=
  if k = 15 then s.readHome core asid va n 0 false none
  else
    match s.roundValue core c with
    | none => .asks [.roundInstall core c]
    | some t =>
      let s := s.useRound core c
      let refetch := fun (s : State) =>
        if s.roundStall.getD c false then
          match s.homeAsks asid va 0 with
          | a :: as => Rd.asks (a :: as)
          | [] =>
            let s := s.bring asid va 0
            .stalled ((s.line? asid va).elim s fun l => s.setLine asid va { l with wanted := if l.wanted.contains core then l.wanted else l.wanted ++ [core] }) c
        else s.readHome core asid va n 0 true (some (c, t))
      match s.readL1 core asid va with
      | some l =>
        match l.fills.get? (lineOff va / 32) with
        | some f =>
          if (t - f).toNat ≤ k then
            let r := readLine l.data l.poison s.eccSize (lineOff va) n
            .bytes (s.updCore core fun x => { x with rndServed := x.rndServed + 1 }) r.1 r.2
          else refetch s
        | none => refetch s
      | none => refetch s

/-- A read of `n` bytes by a core under bound k (R337, R248): by its copy, or else as the translation of the home's agent says (R163). -/
def State.readVa (s : State) (core asid : Nat) (va : Quad) (n k : Nat) (again : Bool) : Rd :=
  match s.readL1 core asid va with
  | some l =>
    match l.round with
    | some c => s.readRound core asid va n k c
    | none =>
      let r := readLine l.data l.poison s.eccSize (lineOff va) n
      .bytes s r.1 r.2
  | none =>
    match s.pageFor asid va 0 with
    | .page s attr =>
      if attr.nc then s.readNc asid attr va n 0 again
      else match attr.round with
        | some c => s.readRound core asid va n k c
        | none => s.readHome core asid va n 0 true none
    | _ => .asks [.l2Miss asid va 0]

/-- The line of an address is round-managed, as a core's copy or its home has it. -/
def State.roundLine (s : State) (core asid : Nat) (va : Quad) : Bool :=
  match (s.core (s.copyCore core (lineOf va))).l1.get? (lineKey asid (lineOf va)) with
  | some l => l.round.isSome
  | none => (s.line? asid va).any (·.round.isSome)

/-- A refetch or a stall of a bounded load counts in RND_STAT (Table 14.2). -/
def State.countRound (s : State) (core asid : Nat) (va : Quad) (k : Nat) (before : State) : State :=
  if s.roundLine core asid va && k != 15 && (s.core core).rndServed == (before.core core).rndServed then
    s.updCore core fun x => { x with rndMissed := x.rndMissed + 1 }
  else s

/-- The counts of RND_STAT of a core are those of another state: a word that stalls has served no load yet. -/
def State.sameCounts (s : State) (core : Nat) (before : State) : State :=
  s.updCore core fun x => { x with rndServed := (before.core core).rndServed, rndMissed := (before.core core).rndMissed }

/-- What the reads of lanes wait for before any is made: none of them makes its access while another's line or page is not at hand. -/
def State.readNeeds (s : State) (good : List (Nat × Quad × Bool)) (n k : Nat) : List Owed :=
  good.flatMap fun (_, va, mem) =>
    if !mem then [] else match s.readVa s.grp.core (s.asidOf s.grp) va n k false with
      | .asks as => as
      | _ => []

/-- The bytes that the lanes of a load read, in ascending lane order; a stalled lane has none. -/
structure Reads where
  /-- The state. -/
  st : State
  /-- Lane, bytes and poison. -/
  got : List (Nat × List Byte × Bool)
  /-- Lanes whose load waits for a bump: lane, address and counter. -/
  waits : List (Nat × Quad × Nat)
  /-- What the word waits for. -/
  asks : List Owed

/-- Reads of several lanes. -/
def State.readLanes (s : State) (good : List (Nat × Quad × Bool)) (n k : Nat)
    (control : State → Quad → Quad × State) : Reads :=
  good.foldl (fun r (l, va, mem) =>
    let s := r.st
    if !mem then
      if isOzPrivate va then { r with got := r.got ++ [(l, s.ozMem.bytes (va.toNat - 0x0000E00000000000) n, false)] }
      else
        let (v, s) := control s va
        { r with st := s, got := r.got ++ [(l, leBytes n v.toNat, false)] }
    else
      let asid := s.asidOf s.grp
      let again := good.any fun x => r.got.any (·.1 == x.1) && x.2.1.toNat / 64 == va.toNat / 64
      match s.readVa s.grp.core asid va n k again with
      | .asks as => { r with asks := r.asks ++ as }
      | .stalled s' c => { r with st := s'.countRound s.grp.core asid va k s, waits := r.waits ++ [(l, va, c)] }
      | .bytes s' bs p =>
        let s' := (s'.countRound s.grp.core asid va k s).updGrp fun g => g.observe (s.storesAt asid va)
        { r with st := s', got := r.got ++ [(l, bs, p)] })
    ⟨s, [], [], []⟩

/-! ### Loads -/

/-- R250: a stalled load, named by its counter; its value comes with the bump. -/
def stallTag (c : Nat) : Nat := c + 1

/-- The register value of up to 4 bytes, zero- or sign-extended (Table 20.2). -/
def widen (sext : Bool) (bs : List Byte) : Word :=
  let x := BitVec.ofNat 32 (leNat bs)
  if sext then (if bs.length = 1 then (x.setWidth 8).signExtend 32 else (x.setWidth 16).signExtend 32) else x

/-- The lanes of a register from the bytes that a load read: register i of it takes bytes 4i to 4i+3 (Table 20.2); a lane that read
poison takes an undefined value (R169). -/
def loadVals (got : List (Nat × List Byte × Bool)) (sext : Bool) (seed i : Nat) : Tbl Word :=
  got.map fun (l, bs, bad) => (l, if bad then Config.undefLane seed i l else widen sext ((bs.drop (4 * i)).take 4))

/-- R184: a load that passes an incomplete fence reads copies of its core's L1 alone, so that the core hears of every later write to them; any other load
waits for the fence, and a load with `.acq` that waits for its value holds back every other (R182).  (In part DESIGN CHOICE, log entry 7.) -/
def State.loadWaits (s : State) (good : List (Nat × Quad × Bool)) : Bool :=
  s.grp.acq.isSome || (s.grp.fence.isSome && (acqScope s.grp).isSome) ||
    (s.grp.fence.isSome && !good.all fun (_, va, mem) => mem && ((s.readL1 s.grp.core (s.asidOf s.grp) va).any fun l => l.round.isNone))

/-- The lines that a load past a fence has read. -/
def Group.passFence (g : Group) (asid : Nat) (good : List (Nat × Quad × Bool)) : Group :=
  { g with fence := g.fence.map fun f => { f with lines := f.lines ++ (good.map fun x => lineKey asid (lineOf x.2.1)).filter fun k => !f.lines.contains k } }

/-- The acquire of a load: when its values come (R182, R250). -/
def State.loadAcquire (s : State) (waits : Bool) : State :=
  match acqScope s.grp with
  | some sc => if waits then s.updGrp fun g => { g with acq := some sc } else s.acquire sc
  | none => s

/-- A load of `n` bytes into `regs` registers (R336, R337).  `sext` sign-extends a byte or a half. -/
def loadWord (control : State → Quad → Quad × State) (n regs : Nat) (sext : Bool)
    (fin : Bool) (data off : BitVec 7) (lu : Bool) (base : BitVec 5) : State → Out :=
  issue {
      fin, vr := [off.toNat], vw := (List.range regs).map (data.toNat + ·), sn := [base.toNat], frees := freeIf lu off.toNat
      hx := true, hm := hmLoadOk } fun s =>
    let g := s.grp
    let c := s.checkLanes (memAddr g base off) n 0
    let needs := s.readNeeds c.good n (loadBound s)
    if !c.asks.isEmpty then .stall (s.owe c.asks)
    else if s.loadWaits c.good then .stall s
    else if !needs.isEmpty then .stall (s.owe needs)
    else
      let r := s.readLanes c.good n (loadBound s) control
      if !r.asks.isEmpty then .stall ((r.st.sameCounts g.core s).owe r.asks)
      else
        let s := (r.st.updGrp fun h => h.passFence (s.asidOf g) c.good).loadAcquire (!r.waits.isEmpty)
        let pz := (r.got.filter fun x => x.2.2).map fun x => (x.1, memAddr g base off x.1)
        let done : List Pending := (List.range regs).map fun i =>
          ⟨.lanes (data.toNat + i) (loadVals r.got sext s.free i), true, false, false, (if i = 0 then pz else []), 0⟩
        let late : List Pending := r.waits.flatMap fun (l, va, c) => (List.range regs).map fun i =>
          ⟨.load (data.toNat + i) l (va + BitVec.ofNat 64 (4 * i)) (min n 4) sext, false, false, false, [], stallTag c⟩
        let s := s.updGrp fun g => { g with pend := g.pend ++ done ++ late }
        .did (if pz.isEmpty then s else { s with free := s.free + 1 }) c.bad false

/-! ### Stores -/

/-- The record of a write of `n` bytes of a page, as it stands when the home has taken it and nothing is left to wait for. -/
def storeRec (gid core asid : Nat) (attr : PageAttr) (va : Quad) (n : Nat) : Store where
  gid := gid
  asid := asid
  va := va.toNat
  len := n
  pa := pageAddr attr va
  core := core
  acks := 0
  bank := false
  peer := none
  home := true
  merged := false

/-- A store waits in the queue of its bank (R45). -/
def State.queueStore (s : State) (st : Store) (bytes : List Byte) (pz : List Nat) : State :=
  ({ s.newStore st with
    bankq := s.bankq ++ [(⟨st.asid, st.va, dpaLocal st.pa, bytes, pz, s.fresh⟩ : BankAccess)] } : State).owe
    [.bankAccess (dpaLocal st.pa), .bankStoreAck st.asid (BitVec.ofNat 64 st.va)]

/-- A write updates the writing core's copy and the home's, and is sent to the sharers (R138, R152).  A copy of a round-managed line takes the core's own
stores alone (R247): `own`. -/
def State.homeStore (s : State) (st : Store) (bytes : List Byte) (pz : List Nat) (own : Bool) : State :=
  let va := BitVec.ofNat 64 st.va
  let round := (s.line? st.asid va).any (·.round.isSome)
  let s' := s.newStore st
  let s' := if own || !round then s'.writeL1 st.core st.asid va bytes pz else s'
  ((s'.writeHome st.asid va bytes pz).forward st.asid va bytes st.core s.fresh).settleStore s.fresh

/-- R235: a program's store of `n` bytes to the ballot record of an unfinished grid makes the record's later contents unpredictable. -/
def State.spoil (s : State) (asid va n : Nat) : State :=
  let hit := fun (g : Grid) => g.st != .done && (s.ctx g.ctx).asid == asid && g.ballot.any fun b => overlaps b.addr.toNat 4096 va n
  if s.grids.any fun e => hit e.2 then
    { s with grids := s.grids.map fun (e : Nat × Grid) =>
        (e.1, if hit e.2 then { e.2 with ballot := e.2.ballot.map fun b => { b with spoiled := true, spoilDue := true } } else e.2) }
  else s

/-- A store of one lane or engine into an address space (R40, R149, R152, R340): where it goes, and its acknowledgement.  `pz`: the poison that
an engine's bytes carry, by offset from the first (R169). -/
def State.storeTo (s : State) (core gid asid : Nat) (attr : PageAttr) (va : Quad) (bytes : List Byte) (pz : List Nat) : State :=
  let pa := pageAddr attr va
  let st := storeRec gid core asid attr va bytes.length
  let s := s.spoil asid va.toNat bytes.length
  if !s.isMine pa then
    let far := { st with peer := some (dpaPkg pa) }
    let s := s.peerPut pa bytes pz
    if attr.nc then s.newStore far else (s.bring asid va 1).homeStore far bytes pz (gid != noGid)
  else if attr.nc then s.queueStore { st with bank := true } bytes pz
  else
    let s := s.bring asid va 1
    match s.line? asid va with
    | some l =>
      if l.comb then
        ((s.dropL1 core asid va).setLine asid va { l with bankOut := l.bankOut + 1 }).queueStore { st with bank := true, home := false } bytes pz
      else s.homeStore st bytes pz (gid != noGid)
    | none => s.queueStore { st with bank := true } bytes pz

/-- Whether a store to a page can go to its home now: nothing is needed at the memory side or for a line that the home holds. -/
def State.storeAsks (s : State) (asid : Nat) (attr : PageAttr) (va : Quad) : List Owed :=
  if s.heldPeer attr then [.l2Miss asid va 1]
  else if attr.nc then []
  else
    match s.line? asid va with
    | some l => if hasSector l.valid (lineOff va) then s.homeWaits asid va l else [.l2Miss asid va 1]
    | none => s.missAsks asid va 1

/-- The atomics that a core buffers for the words that a store of `n` bytes writes: they come before it (R178). -/
def State.storeMerges (s : State) (core asid : Nat) (va : Quad) (n : Nat) : List Owed :=
  ((s.core core).abuf.filter fun a => a.asid == asid && a.va < va.toNat + n && va.toNat < a.va + 4).map fun a =>
    .atomicMerge core asid (BitVec.ofNat 64 a.va)

/-- What a store with `.rel` still waits for (R181). -/
def State.relAsks (s : State) : Option (List Owed) :=
  match relScope s.grp with
  | some sc => s.releaseAsks s.grp sc
  | none => none

/-- A store with `.rel` begins to wait, if it does not wait already (R189). -/
def State.relWaits (s : State) : State :=
  s.updGrp fun g => { g with relWait := if g.relWait.isSome then g.relWait else (relScope g).map fun sc => (sc, s.pkg.now) }

/-- What the lanes of a store wait for. -/
def State.storeNeeds (s : State) (good : List (Nat × Quad × Bool)) (n : Nat) : List Owed :=
  good.flatMap fun (_, va, mem) =>
    if !mem then [] else s.storeMerges s.grp.core (s.asidOf s.grp) va n ++ (match s.pageFor (s.asidOf s.grp) va 1 with
      | .page s attr => s.storeAsks (s.asidOf s.grp) attr va
      | _ => [.l2Miss (s.asidOf s.grp) va 1])

/-- The bytes that a lane stores (Table 20.3). -/
def storeBytes (g : Group) (data n regs l : Nat) : List Byte :=
  ((List.range regs).flatMap fun i => leBytes 4 (g.readV (data + i) l).toNat).take n

/-- A store of one lane. -/
def State.storeLane (s : State) (control : State → Quad → Quad → State) (core asid : Nat) (va : Quad) (mem : Bool)
    (bytes : List Byte) : State :=
  if mem then
    match s.pageFor asid va 1 with
    | .page s attr => s.storeTo core s.cur asid attr va bytes []
    | .asks s => s
    | .fails s => s
  else
    if isOzPrivate va then { s with ozMem := s.ozMem.putBytes (va.toNat - 0x0000E00000000000) bytes }
    else control s va (BitVec.ofNat 64 (leNat bytes))

/-- Stores of several lanes, in ascending lane order (R192). -/
def State.storeLanes (s : State) (control : State → Quad → Quad → State) (core asid : Nat)
    (good : List (Nat × Quad × Bool)) (bytes : Nat → List Byte) : State :=
  good.foldl (fun s (l, va, mem) => s.storeLane control core asid va mem (bytes l)) s

/-- A store of `n` bytes from `regs` registers (R340), in ascending lane order (R192). -/
def storeWord (control : State → Quad → Quad → State) (n regs : Nat)
    (fin : Bool) (data off : BitVec 7) (lu : Bool) (base : BitVec 5) : State → Out :=
  issue {
      fin, vr := off.toNat :: (List.range regs).map (data.toNat + ·), sn := [base.toNat]
      frees := if lu then (List.range regs).map (data.toNat + ·) else [], hx := true, hm := hmStoreOk, waits := true } fun s =>
    let g := s.grp
    let c := s.checkLanes (memAddr g base off) n 1
    if !c.asks.isEmpty then .stall (s.owe c.asks)
    else
      match s.relAsks with
      | some as => .stall (s.relWaits.owe as)
      | none =>
        let s := s.recordLoss
        if !(s.storeNeeds c.good n).isEmpty then .stall (s.owe (s.storeNeeds c.good n))
        else .did (s.storeLanes control g.core (s.asidOf g) c.good (storeBytes g data.toNat n regs)) c.bad false

/-! ### Atomics -/

/-- The place of an atomic that executes now (Table 7.5). -/
inductive Place where
  /-- At the home slice, on its copy. -/
  | home
  /-- At the stack base die: package physical address, and whether the line is comb-target. -/
  | bank (pa : Nat) (comb : Bool)
  /-- At the memory-side cache. -/
  | cache (pa : Nat)
  /-- At the owning package. -/
  | peer (pa : Nat)
  /-- Events come first. -/
  | asks (l : List Owed)

/-- Table 7.5, R342: where an atomic on an address of a page executes. -/
def State.placeRaw (s : State) (asid : Nat) (attr : PageAttr) (va : Quad) : Place :=
  let pa := pageAddr attr va
  let loc := dpaLocal pa
  let queued := s.bankq.any fun b => b.pa / 1024 == loc / 1024
  let line := (s.line? asid va).filter fun l => hasSector l.valid (lineOff va)
  if s.heldPeer attr then .asks [.l2Miss asid va 1]
  else if !s.isMine pa then .peer pa
  else if attr.nc then (if queued then .asks [.bankAccess loc] else if isLp6 loc then .cache loc else .bank loc false)
  else if (line.map (·.comb)).getD (s.isComb pa) then (if queued then .asks [.bankAccess loc, .bankStoreAck asid va] else .bank loc true)
  else
    match s.bankAsks asid va with
    | q :: qs => .asks (q :: qs)
    | [] =>
      if isLp6 loc then .cache loc
      else if line.isSome then .home
      else if s.pkg.mode.getLsbD 20 then .bank loc false
      else
        match (if (s.line? asid va).isSome then [.l2Miss asid va 1] else s.missAsks asid va 1) with
        | q :: qs => .asks (q :: qs)
        | [] => .home

/-- The place of an atomic that is not buffered: the buffered entries of its line are merged first (R155). -/
def State.placeOf (s : State) (asid : Nat) (attr : PageAttr) (va : Quad) : Place :=
  match s.mergesDue asid va with
  | m :: ms => .asks (m :: ms)
  | [] => s.placeRaw asid attr va

/-- The other groups that contributed to a merge wait for its store too (R155). -/
def State.share (s : State) (n : Nat) (gids : List Nat) : State :=
  { s with groups := s.groups.map fun (g : Nat × Group) =>
      (g.1, if gids.contains g.1 && !g.2.stores.contains n then { g.2 with stores := g.2.stores ++ [n] } else g.2) }

/-- The new value of an atomic at the memory side, with its store: a comb-target line's home applies it at the bank's acknowledgement (R40). -/
def State.bankAtom (s : State) (st : Store) (pa : Nat) (comb : Bool) (v : Word) : State :=
  let bs := leBytes 4 v.toNat
  let va := BitVec.ofNat 64 st.va
  let s := { s with mem := s.mem.putBytes pa bs, poison := clearPoison s.poison s.eccSize pa 4 }
  if comb then
    let s := s.dropL1 st.core st.asid va
    let s := match s.line? st.asid va with
      | some l => s.setLine st.asid va { l with bankOut := l.bankOut + 1 }
      | none => s
    ({ s.newStore { st with bank := true, home := false } with
      bankMsgs := s.bankMsgs ++ [(⟨st.asid, st.va, pa, bs, [], s.fresh, false⟩ : BankMsg)] } : State).owe [.bankStoreAck st.asid va]
  else (s.newStore st).settleStore s.fresh

/-- An atomic at its place as one indivisible step, for the groups that contribute to it: the old value, and the state with the new one written
and sent to sharers. -/
def State.atomAt (s : State) (core : Nat) (gids : List Nat) (merged : Bool) (asid : Nat) (attr : PageAttr) (va : Quad) (p : Place) (op : Nat)
    (uns : Bool) (a b : Word) : Word × State :=
  let st := { storeRec (gids.headD noGid) core asid attr va 4 with merged }
  let write := fun (s : State) (old : Word) (f : State → Word → State) => match atomNew op uns old a b with
    | none => (old, s)
    | some v => (old, (f (s.spoil asid va.toNat 4) v).share s.fresh gids)
  match p with
  | .home =>
    let s := s.bring asid va 1
    match s.line? asid va with
    | none => (0, s)
    | some l => write s (l.data.word (lineOff va)) fun s v => s.homeStore st (leBytes 4 v.toNat) [] false
  | .bank pa comb =>
    let s := s.bankTouch pa
    write s (s.mem.word pa) fun s v => s.bankAtom st pa comb v
  | .cache pa =>
    -- a home that holds the line invalidates its sharers, writes it back and drops it first (Table 7.5)
    let s := (s.dropLine asid va).touchMsc pa 4
    write s (s.mem.word pa) fun s v => s.bankAtom st pa false v
  | .peer pa =>
    let s := s.dropLine asid va
    write s (s.peerMem.word pa) fun s v =>
      (s.newStore { st with peer := some (dpaPkg pa) }).peerPut pa (leBytes 4 v.toNat) []
  | .asks _ => (0, s)

/-- R154: a contribution to the core's atomic buffer joins a matching entry or takes a free one.  An entry of another operation
on its address, and the oldest entry of a full buffer, must be merged first: these are owed. -/
def State.bufferAsks (s : State) (core asid : Nat) (va : Quad) (op : Nat) (uns : Bool) : List Owed :=
  let buf := (s.core core).abuf
  let other := buf.filter fun a => a.asid == asid && a.va == va.toNat && !(a.op == op && a.uns == uns)
  let hit := buf.any fun a => a.asid == asid && a.va == va.toNat && a.op == op && a.uns == uns
  match other with
  | a :: _ => [.atomicMerge core a.asid (BitVec.ofNat 64 a.va)]
  | [] =>
    if !hit && 64 ≤ buf.length then
      match buf with
      | a :: _ => [.atomicEvict core a.asid (BitVec.ofNat 64 a.va)]
      | [] => []
    else []

/-- Join or take an entry of the atomic buffer. -/
def State.bufferAtom (s : State) (core gid asid : Nat) (va : Quad) (op : Nat) (uns : Bool) (a : Word) : State :=
  s.updCore core fun c =>
    if c.abuf.any fun e => e.asid == asid && e.va == va.toNat && e.op == op && e.uns == uns then
      { c with abuf := c.abuf.map fun e =>
          if e.asid == asid && e.va == va.toNat && e.op == op && e.uns == uns then
            { e with val := (atomNew op uns e.val a 0).getD e.val, gids := if e.gids.contains gid then e.gids else e.gids ++ [gid] }
          else e }
    else { c with abuf := c.abuf ++ [⟨asid, va.toNat, op, uns, a, [gid], false⟩] }

/-- What an atomic of a lane waits for. -/
def State.atomAsks (s : State) (buffered : Bool) (core asid : Nat) (attr : PageAttr) (va : Quad) (op : Nat) (uns : Bool) : List Owed :=
  if buffered then s.bufferAsks core asid va op uns
  else match s.placeOf asid attr va with
    | .asks l => l
    | _ => []

/-- Atomics of several lanes in ascending order: the state, the old values of the lanes done, and what the others wait for. -/
structure Atoms where
  /-- The state. -/
  st : State
  /-- Lanes done, with the old values. -/
  old : Tbl Word
  /-- What stops the rest. -/
  asks : List Owed

/-- An atomic that the core's buffer may take (R154, R342). -/
def State.isBuffered (s : State) (ret : Bool) (op : Nat) (attr : PageAttr) : Bool :=
  !ret && op < 7 && (relScope s.grp).isNone && !attr.nc && s.isMine attr.pa

/-- The atomic of one lane, after those of the lanes before it. -/
def Atoms.lane (r : Atoms) (g : Group) (asid op : Nat) (ret uns : Bool) (l : Nat) (va : Quad) (mem : Bool) (a b : Word) :
    Atoms :=
  if !mem then
    -- the private memory of the Ozyth core has one copy
    let at_ := va.toNat - 0x0000E00000000000
    let old := r.st.ozMem.word at_
    match atomNew op uns old a b with
    | some v => { r with st := { r.st with ozMem := r.st.ozMem.putNat at_ 4 v.toNat }, old := r.old ++ [(l, old)] }
    | none => { r with old := r.old ++ [(l, old)] }
  else
    match r.st.pageFor asid va 1 with
    | .page s attr =>
      let buffered := s.isBuffered ret op attr
      match s.atomAsks buffered g.core asid attr va op uns with
      | q :: qs => { r with asks := r.asks ++ (q :: qs) }
      | [] =>
        if buffered then { r with st := s.bufferAtom g.core s.cur asid va op uns a }
        else
          let (old, s') := s.atomAt g.core [s.cur] false asid attr va (s.placeOf asid attr va) op uns a b
          { r with st := s'.updGrp fun g => g.observe (s.storesAt asid va), old := r.old ++ [(l, old)] }
    | _ => { r with asks := r.asks ++ [.l2Miss asid va 1] }

/-- The atomics of several lanes in ascending order (R192): what any of them waits for is found in the state as the lanes before it leave
it. -/
def State.atomLanes (s : State) (good : List (Nat × Quad × Bool)) (op : Nat) (ret uns : Bool) (data : Nat) : Atoms :=
  let g := s.grp
  good.foldl (fun r (l, va, mem) => r.lane g (s.asidOf g) op ret uns l va mem (g.readV data l) (g.readV (hmXB g) l)) ⟨s, [], []⟩

/-- An atomic word (R341, R342).  An atomic at the memory side or at a home touches one line at a time: a lane whose line is not
ready stops the word before any lane acts. -/
def atomWord (op : Nat) (ret uns : Bool) (fin : Bool) (data off : BitVec 7) (lu : Bool) (base : BitVec 5) (s : State) : Out :=
  let g := s.grp
  let cas := op == 8
  issue {
      fin, vr := [off.toNat, data.toNat] ++ (if cas then [hmXB g] else []), vw := if ret then [hmXD g] else [], sn := [base.toNat]
      frees := freeIf lu data.toNat ++ (if cas then freeIf (hmLB g) (hmXB g) else []), hx := true, hm := hmAtomOk ret cas, waits := true } (fun s =>
    let g := s.grp
    let c := s.checkLanes (memAddr g base off) 4 1
    if !c.asks.isEmpty then .stall (s.owe c.asks)
    else
      match s.relAsks with
      | some as => .stall (s.relWaits.owe as)
      | none =>
        let s := s.recordLoss
        let r := s.atomLanes c.good op ret uns data.toNat
        if !r.asks.isEmpty then .stall (s.owe r.asks)
        else
          let s := match acqScope g with
            | some sc => r.st.acquire sc
            | none => r.st
          .did (if ret then s.updGrp fun g' => g'.addPending (.lanes (hmXD g) r.old) else s) c.bad false) s

end Sys2Proof.Machine
end

