-- ==== Sys2Proof/Machine/Order.lean ====
section
/-! DEFINITION. Ordering words: major 0x13 (R98, R181 to R184, R343 to R348), and how a group that waits at a word goes on or is
stopped there. -/

namespace Sys2Proof.Machine

/-! ### Waiting at a word (R101, R309, R348) -/

/-- The group waits at the word (R101).  (In part DEDUCED, log entry 7.) -/
def State.blockAt (s : State) (b : Block) (fin : Bool) : State := s.updGrp fun g => { g with block := b, blockFin := fin }

/-- The word that the group waits at completes with an effect and faults. -/
def State.resumeWord (s : State) (gid : Nat) (eff : State → State) (faults : State → List LaneFault) : State :=
  s.asGroup gid fun s =>
    let fin := s.grp.blockFin
    let s := eff (s.updGrp fun g => { g with block := .none })
    s.finish { fin } (faults s) false

/-! ### Fences (R183, R184, R343) -/

/-- Every earlier read of the group has returned (R183). -/
def Group.readsBack (g : Group) : Bool := g.pend.all fun p => p.ready || p.tag == fenceTag

/-- What an incomplete fence of a group at a scope still waits for; none when it is complete. -/
def State.fenceAsks (s : State) (g : Group) (scope : Nat) : Option (List Owed) :=
  match s.releaseAsks g scope with
  | some l => some l
  | none => if g.readsBack then none else some []

/-- A fence completes: it is an acquire; its status, that of the first write it lost or 0, is ready for sD; and FENCE_ERR takes what it lost (R183, R189,
R190).  What the acquire drops may send a later load of the group back behind the fence first (R184). -/
def State.fenceDone (s : State) (gid scope : Nat) : State :=
  let status := ((s.group gid).lost.map (·.1)).headD 0
  ((s.acquire scope).asGroup gid State.recordLoss).updGroup gid fun g => { g.mapPend fun p =>
      if p.tag == fenceTag && !p.ready then
        { p with ready := true, res := match p.res with
            | .scalar d _ => .scalar d (BitVec.ofNat 64 status)
            | r => r }
      else p with
    fence := none }

/-- The issuing group as the words after its fence find it: where a rollback takes it (R184). -/
def Group.mark (g : Group) : Group := { g with fence := g.fence.map fun f => { f with back := some g.snap } }

/-- What follows the word of a fence that is not complete. -/
def marked (o : Out) : Out :=
  match o with
  | .next t => .next (if t.grp.fence.any (·.back.isNone) then t.updGrp Group.mark else t)
  | .fault r => .fault r
  | .refused r => .refused r

/-- R343, `fence`: its status is a long-latency result, and the group goes on before the fence completes (R184).  A second fence waits for the first
(DEDUCED, log entry 7). -/
def execFence (fin : Bool) (scope : BitVec 3) (d : BitVec 6) (s : State) : Out :=
  marked (issue { fin, sn := [d.toNat], waits := true } (fun s =>
    let g := s.grp
    let status := fun (ready : Bool) (g : Group) =>
      { g with pend := g.pend ++ [⟨.scalar d.toNat 0, ready, false, false, [], fenceTag⟩] }
    match s.fenceAsks g scope.toNat with
    | none => .did ((s.acquire scope.toNat).updGrp (status true)) [] false
    | some asks => .did ((s.owe asks).updGrp fun g => { status false g with fence := some ⟨scope.toNat, s.pkg.now, none, []⟩ }) [] false) s)

/-! ### `waitc` (R344) -/

/-- Commands of a class that the group has outstanding. -/
def Group.outstanding (g : Group) (cls : Nat) : Nat := (g.cmds.getD cls []).length

/-- R344, Table 9.5: the acquire of a class. -/
def State.acquireClass (s : State) (cls : Nat) : State := if cls = 4 then s.acquire 6 else s

/-- R344, `waitc`; on the Ozyth core it completes at once with no effect (R354). -/
def execWaitc (fin : Bool) (cls : BitVec 3) (n : BitVec 8) (s : State) : Out :=
  issue { fin, waits := true } (fun s =>
    if s.grp.oz then .did s [] false
    else if s.grp.outstanding cls.toNat ≤ n.toNat then .did (s.acquireClass cls.toNat) [] false
    else .stall (s.blockAt (.waitc cls.toNat n.toNat) fin)) s

/-! ### Barriers (R345, R346) -/

/-- Table 20.7: the scope of a barrier. -/
def barScope (n : Nat) : Nat := if n = 15 then 3 else 1

/-- `arrive` and the first part of `bar`: the group waits while it is in the arrived set, releases, and arrives. -/
def barWord (fin isBar : Bool) (id : BitVec 4) : State → Out :=
  issue { fin, waits := true } fun s =>
    let g := s.grp
    let n := id.toNat
    if g.oz then .did s [] false
    else if !(s.participants g.team n).contains s.cur then .did s (g.faultAll fIllegal 0) false
    else if (s.barrier g.team n).arrived.contains s.cur then .stall s
    else
      match s.releaseAsks g (barScope n) with
      | some asks => .stall (s.owe asks)
      | none =>
        let ph := (s.barrier g.team n).phase
        let s := s.arriveAt g.team n s.cur
        if !isBar || (s.barrier g.team n).phase != ph then .did s [] false
        else .stall (s.blockAt (.bar n ph) fin)

/-- R346, `bar`. -/
def execBar (fin : Bool) (id : BitVec 4) (s : State) : Out := barWord fin true id s

/-- R346, `arrive`. -/
def execArrive (fin : Bool) (id : BitVec 4) (s : State) : Out := barWord fin false id s

/-! ### `trig` (R98, R347) -/

/-- R347, `trig`: it acts once for the group, and releases at package scope what the group wrote before it, after every
`rbump` before it (R251). -/
def execTrig (fin : Bool) (s : State) : Out :=
  issue { fin, waits := true } (fun s =>
    let g := s.grp
    if g.oz || g.triggered then .did s [] false
    else if g.bumping then .stall s
    else if !(s.core g.core).abuf.isEmpty then .stall (s.owe ((s.releaseAsks g 5).getD []))
    else .did ((s.updGrp fun g => { g with triggered := true, trigStores := g.stores ++ g.observed }).updTeam g.team fun t =>
      { t with trig := t.trig ||| BitVec.ofNat 64 (2 ^ g.num) }) [] false) s

/-! ### The end of a wait -/

/-- FENCE_COMPLETE: a fence completes once nothing is left to wait for (R183). -/
def execFenceComplete (gid : Nat) (s : State) : Out :=
  .next (match (s.group gid).fence with
    | some f =>
      match s.fenceAsks (s.group gid) f.scope with
      | none => s.fenceDone gid f.scope
      | some asks => s.owe asks
    | none => s)

/-- WAITC_RETURN (R344): the word completes, but in a group that is to stop at it for good (R240). -/
def execWaitcReturn (gid : Nat) (s : State) : Out :=
  .next (match (s.group gid).block with
    | .waitc cls n =>
      if (s.group gid).outstanding cls ≤ n && !(s.group gid).leaves then s.resumeWord gid (·.acquireClass cls) (fun _ => []) else s
    | _ => s)

/-- BARRIER_PHASE_COMPLETE (R346): the phase has advanced, and the waiting `bar` returns. -/
def execBarrierPhaseComplete (gid : Nat) (s : State) : Out :=
  .next (match (s.group gid).block with
    | .bar n ph => if (s.barrier (s.group gid).team n).phase != ph then s.resumeWord gid id (fun _ => []) else s
    | _ => s)

end Sys2Proof.Machine
end

