-- ==== Sys2Proof/Machine/Scratch.lean ====
section
/-! DEFINITION. Scratchpad words: major 0x14 (R139 to R147, R150, R158, R349 to R354). -/

namespace Sys2Proof.Machine

/-! ### Bytes of a team's scratchpad space (R139, R140, R142) -/

/-- A byte of a team's scratchpad space: as written, 0 in a unit known to hold zeros, undefined otherwise. -/
def Team.spByte (t : Team) (a : Nat) : Byte :=
  match t.sp.get? a with
  | some b => b
  | none => if t.spSeed.getD (a / 256) 0 = 0 then 0 else Config.undefByte (t.spSeed.getD (a / 256) 0) a

/-- Bytes from an offset of the space. -/
def Team.spBytes (t : Team) (a n : Nat) : List Byte := (List.range n).map fun k => t.spByte (a + k)

/-- Write bytes of the space; a write that covers a poisoned 8-byte word clears it (R169). -/
def Team.spWrite (t : Team) (a : Nat) (bs : List Byte) : Team :=
  { t with
    sp := (List.range bs.length).foldl (fun m k => m.set (a + k) (bs.getD k 0)) t.sp
    spPoison := t.spPoison.filter fun w => !(a ≤ w && w + 8 ≤ a + bs.length) }

/-- Whether a range of the space holds poison. -/
def Team.spPoisoned (t : Team) (a n : Nat) : Bool := t.spPoison.any fun w => w < a + n && a < w + 8

/-- A 32-bit word of the space. -/
def Team.spWord (t : Team) (a : Nat) : Word := BitVec.ofNat 32 (leNat (t.spBytes a 4))

/-! ### Buffers (R141 to R144) -/

/-- RANK of a buffer handle (Table 7.3). -/
def hRank (h : Quad) : Nat := (h.extractLsb' 12 4).toNat
/-- GEN of a buffer handle. -/
def hGen (h : Quad) : Nat := (h.extractLsb' 8 4).toNat
/-- INDEX of a buffer handle. -/
def hIndex (h : Quad) : Nat := (h.extractLsb' 0 8).toNat

/-- The core that a rank of a team's cluster stands on. -/
def State.rankCore (s : State) (t rank : Nat) : Option Nat :=
  ((s.peers t).find? fun u => (s.team u).rank == rank).map fun u => (s.team u).core

/-- R143: the buffer that a handle names, with its core and entry, when the team holds it. -/
def State.buffer (s : State) (t : Nat) (h : Quad) : Option (Nat × Nat × Buf) :=
  match s.rankCore t (hRank h) with
  | none => none
  | some core =>
    match (s.core core).bufs.get? (hIndex h) with
    | some b => if b.live && b.gen == hGen h && b.holder == t && hIndex h != 255 then some (core, hIndex h, b) else none
    | none => none

/-- A handle names an entry whose buffer has been freed (R142, R352). -/
def State.bufferFreed (s : State) (t : Nat) (h : Quad) : Bool :=
  match s.rankCore t (hRank h) with
  | none => false
  | some core => ((s.core core).bufs.get? (hIndex h)).any fun b => !(b.live && b.gen == hGen h)

/-- Change a buffer-table entry. -/
def State.setBuf (s : State) (core i : Nat) (b : Buf) : State := s.updCore core fun c => { c with bufs := c.bufs.set i b }

/-- Whether a command names the buffer of a handle: copies, `accld`, `accst` and `attn` (R144, R350, R363). -/
def Cmd.namesBuffer (c : Cmd) (h : Quad) : Bool :=
  let k := match c.cls, c.op with
    | 0, 0 => some ((c.block.getD 0 0).extractLsb' 0 16)
    | 0, 1 => some ((c.block.getD 0 0).extractLsb' 0 16)
    | 1, 5 => some ((c.block.getD 0 0).extractLsb' 16 16)
    | 1, 6 => some ((c.block.getD 0 0).extractLsb' 16 16)
    | 2, 0 => some ((c.block.getD 1 0).extractLsb' 0 16)
    | _, _ => none
  k == some (h.extractLsb' 0 16)

/-- A command of the team that names the buffer has not completed. -/
def State.bufferBusy (s : State) (t : Nat) (h : Quad) : Bool :=
  s.cmds.any fun e => e.2.team == t && e.2.st != .done && e.2.namesBuffer h

/-- A word on a held buffer: the ownership fault in the lanes of E when the team does not hold it; the Ozyth core holds none
(R354). -/
def bufferWord (w : WordInfo) (h : Group → Quad) (body : State → Nat → Nat → Buf → Did) : State → Out :=
  issue w fun s =>
    let g := s.grp
    match (if g.oz then none else s.buffer g.team (h g)) with
    | none => .did s (g.faultAll fOwnership 0) false
    | some (core, i, b) => body s core i b

/-- R349: the offset of a lane, a signed integer. -/
def spOffset (g : Group) (off : BitVec 7) (l : Nat) : Int := (g.readV off.toNat l).toNat + memImm g

/-- R349: the lanes that fault at an access of a buffer; tr.addr takes the offset. -/
def spFaults (g : Group) (off : BitVec 7) (size : Nat) : List LaneFault :=
  (lanesOf g.e).filterMap fun l =>
    let o := spOffset g off l
    if o % 4 != 0 then some ⟨l, fAlign, BitVec.ofInt 64 o, false⟩
    else if o < 0 || (size : Int) < o + 4 then some ⟨l, fBounds, BitVec.ofInt 64 o, false⟩
    else none

/-- R349, `lds`. -/
def execLds (fin : Bool) (data off : BitVec 7) (lu : Bool) (base : BitVec 5) (s : State) : Out :=
  bufferWord {
      fin, vr := [off.toNat], vw := [data.toNat], sn := [base.toNat], frees := freeIf lu off.toNat, hx := true, waits := true }
    (fun g => g.readS base.toNat) (fun s _ _ b =>
      let g := s.grp
      let bad := spFaults g off b.size
      let good := (lanesOf g.e).filter fun l => !bad.any (·.lane == l)
      let t := s.team b.owner
      let at_ := fun l => b.off + (spOffset g off l).toNat
      let pz := (good.filter fun l => t.spPoisoned (at_ l) 4).map fun l => (l, BitVec.ofInt 64 (spOffset g off l))
      let vals := good.map fun l => (l, if pz.any (·.1 == l) then Config.undefLane s.free 0 l else t.spWord (at_ l))
      .did (({ s with free := s.free + 1 } : State).updGrp fun g => { g with pend := g.pend ++ [⟨.lanes data.toNat vals, true, false, false, pz, 0⟩] }) bad false) s

/-- R349, `sts`, in ascending lane order (R192). -/
def execSts (fin : Bool) (data off : BitVec 7) (lu : Bool) (base : BitVec 5) (s : State) : Out :=
  bufferWord {
      fin, vr := [off.toNat, data.toNat], sn := [base.toNat], frees := freeIf lu data.toNat, hx := true, waits := true }
    (fun g => g.readS base.toNat) (fun s _ _ b =>
      let g := s.grp
      let bad := spFaults g off b.size
      let good := (lanesOf g.e).filter fun l => !bad.any (·.lane == l)
      .did (s.updTeam b.owner fun t => good.foldl (fun t l =>
        t.spWrite (b.off + (spOffset g off l).toNat) (leBytes 4 (g.readV data.toNat l).toNat)) t) bad false) s

/-! ### Allocation (R142, R350) -/

/-- Extents of the live buffers in a team's space: offset and end. -/
def State.extents (s : State) (t : Nat) : List (Nat × Nat) :=
  ((s.core (s.team t).core).bufs.filter fun e => e.2.live && e.2.owner == t).map fun e => (e.2.off, e.2.off + e.2.size)

/-- R142: the lowest offset of the space with that many contiguous free bytes. -/
def State.findSpace (s : State) (t size : Nat) : Option Nat :=
  let ex := s.extents t
  let limit := (s.team t).ways.length * 32768
  let fits := fun a => a + size ≤ limit && ex.all fun e => e.2 ≤ a || a + size ≤ e.1
  ((0 :: ex.map (·.2)).filter fits).foldl (fun m a => match m with
    | none => some a
    | some b => some (min a b)) none

/-- R142: the units of a new buffer: those never used since their conversion hold zeros, the others hold undefined bytes. -/
def Team.freshUnits (t : Team) (off size seed : Nat) : Team :=
  let us := (List.range (size / 256)).map fun k => off / 256 + k
  let old := us.filter fun u => (t.spSeed.get? u).isSome
  { t with
    sp := t.sp.filter fun e => !us.contains (e.1 / 256)
    spPoison := t.spPoison.filter fun w => !us.contains (w / 256)
    spSeed := us.foldl (fun m u => m.set u (if old.contains u then seed + 1 else 0)) t.spSeed }

/-- R142: allocate a buffer of a team: the handle, or 0xFFFF. -/
def State.allocBuffer (s : State) (t size : Nat) : Quad × State :=
  let tm := s.team t
  let n := (size + 255) / 256 * 256
  if size = 0 || 524288 < size then (0xFFFF, s)
  else
    match (List.range 255).find? fun i => !(((s.core tm.core).bufs.get? i).map (·.live)).getD false, s.findSpace t n with
    | some i, some off =>
      let gen := (((s.core tm.core).bufs.get? i).map (·.gen)).getD 0
      let s' := (s.setBuf tm.core i ⟨true, gen, t, t, off, n, none⟩).bumpFree
      (BitVec.ofNat 64 (tm.rank * 4096 + gen * 256 + i), s'.updTeam t fun tm => tm.freshUnits off n s.free)
    | _, _ => (0xFFFF, s)

/-- R350, `sp.alloc`. -/
def execSpAlloc (fin : Bool) (x y : BitVec 6) (s : State) : Out :=
  issueOk { infoS fin [x, y] with waits := true } (fun s =>
    let g := s.grp
    let r := if g.oz then ((0xFFFF : Quad), s) else s.allocBuffer g.team (g.readS y.toNat).toNat
    r.2.updGrp fun g => g.writeS x.toNat r.1) s

/-- R142, R350, `sp.free`: it waits for the commands that name the buffer. -/
def execSpFree (fin : Bool) (x : BitVec 6) (s : State) : Out :=
  bufferWord { infoS fin [x] with waits := true } (fun g => g.readS x.toNat) (fun s core i b =>
    if s.bufferBusy s.grp.team (s.grp.readS x.toNat) then .stall s
    else .did (s.setBuf core i { b with live := false, gen := (b.gen + 1) % 16, syw := none }) [] false) s

/-- R144, R350, `bheld`. -/
def execBheld (fin : Bool) (x y : BitVec 6) (s : State) : Out :=
  issue { infoS fin [x, y] with waits := true } (fun s =>
    let g := s.grp
    if g.oz then .did s (g.faultAll fOwnership 0) false
    else .did (s.updGrp fun g => g.writeS x.toNat (if (s.buffer g.team (g.readS y.toNat)).isSome then 1 else 0)) [] false) s

/-- R144, R350, `bhand`: it waits for the commands that name the buffer, releases at cluster scope, and sets the holder. -/
def execBhand (fin : Bool) (x : BitVec 6) (rank : BitVec 4) (s : State) : Out :=
  bufferWord { infoS fin [x] with waits := true } (fun g => g.readS x.toNat) (fun s core i b =>
    let g := s.grp
    match (s.peers g.team).find? fun u => (s.team u).rank == rank.toNat with
    | none => .did s (g.faultAll fOwnership 0) false
    | some u =>
      if u = g.team then .did s [] false
      else if s.bufferBusy g.team (g.readS x.toNat) then .stall s
      else
        match s.releaseAsks g 3 with
        | some asks => .stall (s.owe asks)
        | none => .did (s.setBuf core i { b with holder := u }) [] false) s

/-! ### Sync words (R145 to R147, R351, R352) -/

/-- R351: the offset of `syw.init` in bytes. -/
def sywOffset (g : Group) (i : BitVec 11) : Nat :=
  16 * (match g.hx with
    | none => i.toNat
    | some h => h.toNat * 2048 + i.toNat)

/-- R351, `syw.init`. -/
def execSywInit (fin : Bool) (h a : BitVec 6) (i : BitVec 11) (s : State) : Out :=
  bufferWord { infoS fin [h, a] true with waits := true } (fun g => g.readS h.toNat) (fun s core k b =>
    let g := s.grp
    let off := sywOffset g i
    if b.size < off + 16 then .did s (g.faultAll fBounds (BitVec.ofNat 64 off)) false
    else
      let s := s.updTeam b.owner fun t =>
        t.spWrite (b.off + off) (leBytes 4 ((g.readS a.toNat).toNat % 2 ^ 32) ++ leBytes 8 0)
      .did (s.setBuf core k { b with syw := some off }) [] false) s

/-- R147: GEN has passed g. -/
def sywPassed (gen g : Word) : Bool := 1 ≤ (gen - g).toNat && (gen - g).toNat ≤ 2 ^ 31 - 1

/-- GEN of the recorded sync word of a held buffer. -/
def State.sywGen (s : State) (t : Nat) (h : Quad) : Option Word :=
  match s.buffer t h with
  | some (_, _, b) => b.syw.map fun off => (s.team b.owner).spWord (b.off + off + 8)
  | none => none

/-- R146: bytes are counted into a sync word as one indivisible step; the phases completed advance GEN. -/
def Team.sywCount (t : Team) (a bytes : Nat) : Team :=
  let target := (t.spWord a).toNat
  let count := ((t.spWord (a + 4)).toNat + bytes) % 2 ^ 32
  let gen := (t.spWord (a + 8)).toNat
  if target = 0 then t.spWrite (a + 4) (leBytes 4 count)
  else t.spWrite (a + 4) (leBytes 4 (count % target) ++ leBytes 4 (gen + count / target))

/-- What a `syw.wait` meets that finds no sync word recorded: a buffer without one, or one that has been freed, raises buffer-bounds (R352). -/
def State.sywFault (s : State) (g : Group) (h : Quad) : Nat :=
  if !g.oz && ((s.buffer g.team h).isSome || s.bufferFreed g.team h) then fBounds else fOwnership

/-- R147, R352, `syw.wait`. -/
def execSywWait (fin : Bool) (d h a : BitVec 6) (s : State) : Out :=
  issue { infoS fin [d, h, a] with waits := true } (fun s =>
    let g := s.grp
    let v := (g.readS a.toNat).setWidth 32
    match (if g.oz then none else s.sywGen g.team (g.readS h.toNat)) with
    | none => .did s (g.faultAll (s.sywFault g (g.readS h.toNat)) 0) false
    | some gen =>
      if sywPassed gen v then .did (s.updGrp fun g => g.addPending (.scalar d.toNat (gen.setWidth 64))) [] false
      else .stall (s.blockAt (.syw d.toNat ((g.readS h.toNat).toNat % 65536) v) fin)) s

/-- SYW_WAIT_RETURN (R147), but in a group that is to stop at the word for good (R240); a buffer freed meanwhile gives the fault that a fresh `syw.wait` would. -/
def execSywWaitReturn (gid : Nat) (s : State) : Out :=
  .next (match (s.group gid).block with
    | .syw d h v =>
      let t := (s.group gid).team
      match s.sywGen t (BitVec.ofNat 64 h) with
      | some gen =>
        if sywPassed gen v && !(s.group gid).leaves then
          s.resumeWord gid (fun s => s.updGrp fun g => g.addPending (.scalar d (gen.setWidth 64))) (fun _ => [])
        else s
      | none =>
        s.resumeWord gid id (fun s =>
          s.grp.faultAll (s.sywFault s.grp (BitVec.ofNat 64 h)) 0)
    | _ => s)

/-! ### `lock` and `unlock` (R150, R353) -/

/-- The first address on each 64 KiB page of `n` bytes from an address. -/
def pagesOf (va : Quad) (n : Nat) : List Quad :=
  if n = 0 then [] else
    (List.range ((va.toNat % 65536 + n + 65535) / 65536)).map fun k =>
      if k = 0 then va else BitVec.ofNat 64 ((va.toNat / 65536 + k) * 65536)

/-- The first address that fails the check of its page. -/
def State.badPage (s : State) (acc : Nat) (vas : List Quad) : Option Quad :=
  vas.find? fun va => match s.checkMany va acc with
    | .ok _ => false
    | _ => true

/-- A word that reads or writes memory for the group as a whole: the checks of Table 20.1 on pages, in order; the first failure
raises its fault in every lane of E. -/
def State.pagesOr (s : State) (acc : Nat) (vas : List Quad) (k : State → Did) : Did :=
  match s.badPage acc vas with
  | none => k s
  | some va =>
    match s.checkMany va acc with
    | .ok _ => k s
    | .stall asks => .stall (s.owe asks)
    | .fault code => .did s (s.grp.faultAll code va) false
    | .park code => .did s ((lanesOf s.grp.e).map fun l => ⟨l, code, va, true⟩) false

/-- What the home's agents of pages still wait for before the group can know the pages' attributes (R163). -/
def State.pageNeeds (s : State) (asid acc : Nat) (vas : List Quad) : List Owed :=
  vas.flatMap fun va => match s.pageFor asid va acc with
    | .page .. => []
    | _ => [.l2Miss asid va acc]

/-- The addresses of `n` lines. -/
def linesAt (va : Quad) (n : Nat) : List Quad := (List.range n).map fun k => va + BitVec.ofNat 64 (512 * k)

/-- The addresses of a range of lines that `lock` counts: those on pages with NC = 0. -/
def State.lockLines (s : State) (asid : Nat) (va : Quad) (n : Nat) : List Quad :=
  (linesAt va n).filter fun a => match s.pageFor asid a 0 with
    | .page _ attr => !attr.nc
    | _ => false

/-- A whole line is brought to its home, if room and translations let it. -/
def State.bringLine (s : State) (asid : Nat) (va : Quad) : State :=
  (List.range 16).foldl (fun s k => s.bring asid (va + BitVec.ofNat 64 (32 * k)) 0) s

/-- A line that its home holds wholly is locked for a context slot. -/
def State.lockLine (s : State) (asid slot : Nat) (va : Quad) : State :=
  match s.line? asid va with
  | some l => if l.valid == allLanes then s.setLine asid va { l with locked := some slot } else s
  | none => s

/-- The home holds a line locked. -/
def State.isLocked (s : State) (asid : Nat) (va : Quad) : Bool := (s.line? asid va).any (·.locked.isSome)

/-- The blocks of a line that its home still has to fill, or what a read at the home waits for. -/
def State.wholeLineAsks (s : State) (asid : Nat) (va : Quad) : List Owed :=
  (List.range 16).flatMap fun k => s.homeAsks asid (va + BitVec.ofNat 64 (32 * k)) 0

/-- R150, R353, `lock`. -/
def execLock (fin : Bool) (d a b : BitVec 6) (s : State) : Out :=
  issue { infoS fin [d, a, b] with waits := true } (fun s =>
    let g := s.grp
    let va := g.readS a.toNat
    let n := (g.readS b.toNat).toNat
    let status := fun (s : State) (k : Quad) => Did.did (s.updGrp fun g => g.addPending (.scalar d.toNat k)) [] false
    if g.oz then status s 1
    else if va.toNat % 512 != 0 then .did s (g.faultAll fAlign va) false
    else if n = 0 then status s 0
    else if 2 ^ 20 < n then status s 1
    else s.pagesOr 0 (pagesOf va (512 * n)) fun s =>
      let asid := s.asidOf g
      let slot := s.ctxOf g
      let lines := s.lockLines asid va n
      let needs := s.pageNeeds asid 0 (pagesOf va (512 * n))
      let new := lines.filter fun x => !s.isLocked asid x
      let place := fun (x : Quad) => (homeSlice asid (lineOf x), homeSet asid (lineOf x))
      let lockedIn := fun (p : Nat × Nat) => (s.l2.filter fun e =>
        e.2.locked.isSome && homeSlice (e.1 / 2 ^ 55) (e.1 % 2 ^ 55) == p.1 && homeSet (e.1 / 2 ^ 55) (e.1 % 2 ^ 55) == p.2).length
      if !needs.isEmpty then .stall (s.owe needs)
      else if s.lockqOf g < (s.ctx slot).lockUsed + new.length then status s 1
      else if new.any fun x => 12 < lockedIn (place x) + (new.filter fun y => place y == place x).length then status s 2
      else
        let asks := lines.flatMap fun x => s.wholeLineAsks asid x
        if !asks.isEmpty then .stall (s.owe asks)
        else
          -- all the lines or none: while one finds no room at its home the word waits
          let t := new.foldl (fun s x => (s.bringLine asid x).lockLine asid slot x) s
          if new.all fun x => t.isLocked asid x then status (t.updCtx slot fun c => { c with lockUsed := c.lockUsed + new.length }) 0
          else .stall ((new.foldl (fun s x => s.bringLine asid x) s).owe ((new.filter fun x => !t.isLocked asid x).flatMap fun x => s.missAsks asid x 0))) s

/-- One line is unlocked. -/
def State.unlockLine (s : State) (asid : Nat) (va : Quad) : State :=
  match s.line? asid va with
  | some l =>
    match l.locked with
    | some slot => (s.setLine asid va { l with locked := none }).updCtx slot fun c => { c with lockUsed := c.lockUsed - 1 }
    | none => s
  | none => s

/-- R150, R353, `unlock`. -/
def execUnlock (fin : Bool) (a b : BitVec 6) (s : State) : Out :=
  issue { infoS fin [a, b] with waits := true } (fun s =>
    let g := s.grp
    let va := g.readS a.toNat
    let n := (g.readS b.toNat).toNat
    if g.oz then .did s [] false
    else if va.toNat % 512 != 0 then .did s (g.faultAll fAlign va) false
    else s.pagesOr 0 (pagesOf va (512 * n)) fun s =>
      .did ((linesAt va n).foldl (fun s x => s.unlockLine (s.asidOf g) x) s) [] false) s

/-! ### Conversions (R139, R140, R354) -/

/-- R139, R140: a team takes the n highest-numbered cache ways of its core: what they hold is invalidated, and each is zeroed.  The status of
Table 7.1. -/
def State.takeWays (s : State) (t n : Nat) : Nat × State :=
  let core := (s.team t).core
  let free := s.cacheWays core
  if free.length < n then (1, s)
  else (0, (s.convertWays core (free.take n)).updTeam t fun tm => { tm with ways := tm.ways ++ free.take n })

/-- R139: a team returns the n ways that it converted most recently. -/
def State.returnWays (s : State) (t n : Nat) : Nat × State :=
  let tm := s.team t
  let keep := tm.ways.length - n
  if tm.ways.length < n then (1, s)
  else if (s.extents t).any fun e => keep * 32768 < e.2 then (2, s)
  else (0, s.updTeam t fun tm => { tm with
    ways := tm.ways.take keep
    sp := tm.sp.filter fun e => e.1 < keep * 32768
    spSeed := tm.spSeed.filter fun e => e.1 < keep * 128
    spPoison := tm.spPoison.filter fun w => w < keep * 32768 })

/-- A conversion word: its status is long-latency; the Ozyth core has no ways (R354). -/
def convertWord (fin : Bool) (d : BitVec 6) (f : State → Nat × State) : State → Out :=
  issueOk { fin, sn := [d.toNat], waits := true } fun s =>
    let r := if s.grp.oz then (1, s) else f s
    r.2.updGrp fun g => g.addPending (.scalar d.toNat (BitVec.ofNat 64 r.1))

/-- R354, `spcvt`. -/
def execSpcvt (fin : Bool) (d : BitVec 6) (n : BitVec 4) (s : State) : Out :=
  convertWord fin d (fun s => s.takeWays s.grp.team (n.toNat + 1)) s

/-- R354, `l1cvt`. -/
def execL1cvt (fin : Bool) (d : BitVec 6) (n : BitVec 4) (s : State) : Out :=
  convertWord fin d (fun s => s.returnWays s.grp.team (n.toNat + 1)) s

end Sys2Proof.Machine
end

