-- ==== Sys2Proof/Machine/Rounds.lean ====
section
/-! DEFINITION. Round words and counters: major 0x15 (R245 to R253, R355). -/

namespace Sys2Proof.Machine

/-- The counter that a round word names (R355). -/
def counterOf (g : Group) (a : BitVec 6) : Nat := ((g.readS a.toNat).extractLsb' 0 12).toNat

/-- The value of a counter at its memory processor (R245). -/
def State.roundVal (s : State) (c : Nat) : Word := s.rounds.getD c 0

/-- R246: install a counter's value in a core's round table, in place of the least recently used entry. -/
def State.installRound (s : State) (core c : Nat) : State :=
  s.updCore core fun k => { k with rtab := (c, s.roundVal c) :: (k.rtab.filter fun e => e.1 != c).take 255 }

/-- ROUND_INSTALL (R246). -/
def execRoundInstall (core c : Nat) (s : State) : Out :=
  .next (if (s.roundValue core c).isSome then s else s.installRound core c)

/-- R252, `rget`. -/
def execRget (fin : Bool) (d a : BitVec 6) (s : State) : Out :=
  issue { infoS fin [d, a] with waits := true } (fun s =>
    let c := counterOf s.grp a
    match s.roundValue s.grp.core c with
    | none => .stall (s.owe [.roundInstall s.grp.core c])
    | some v => .did ((s.useRound s.grp.core c).updGrp fun g => g.writeS d.toNat (v.setWidth 64)) [] false) s

/-- R252, `racq`: it returns only when the core's table holds a value at least as large, so it waits for the pushes on their way. -/
def execRacq (fin : Bool) (d a : BitVec 6) (s : State) : Out :=
  issue { infoS fin [d, a] with waits := true } (fun s =>
    let c := counterOf s.grp a
    match s.roundValue s.grp.core c with
    | none => .stall (s.owe [.roundInstall s.grp.core c])
    | some _ =>
      if s.pushes.any fun p => p.core == s.grp.core && p.counter == c then .stall (s.owe [.roundPush s.grp.core])
      else .did (((s.useRound s.grp.core c).acquire 5).updGrp fun g =>
        g.addPending (.scalar d.toNat ((s.roundVal c).setWidth 64))) [] false) s

/-- R251, `rbump`: once for the group; its release, the increment and the pushes follow. -/
def execRbump (fin : Bool) (d a : BitVec 6) (s : State) : Out :=
  issueOk { infoS fin [d, a] with waits := true } (fun s =>
    let c := counterOf s.grp a
    let n := s.fresh
    let asks := (s.cumulative s.grp 5).getD []
    ((s.bumpFresh.owe (asks ++ [.roundIncrement s.cur])).updGrp fun g => { g with
      pend := g.pend ++ [⟨.scalar d.toNat (BitVec.ofNat 64 c), false, false, false, [], bumpTag + 2 * n⟩] })) s

/-! ### Delivery to stalled loads (R250) -/

/-- The bytes of a stalled lane's load, from the copy that its core now holds. -/
def State.lateLoad (s : State) (core asid : Nat) (va : Quad) (size : Nat) : Option (List Byte × Bool) :=
  match (s.core (s.copyCore core (lineOf va))).l1.get? (lineKey asid (lineOf va)) with
  | some l => if hasSector l.valid (lineOff va) then some (readLine l.data l.poison s.eccSize (lineOff va) size) else none
  | none => none

/-- A stalled result completes with the delivered copy, when its line has come. -/
def State.finishLoad (s : State) (core asid : Nat) (p : Pending) : Pending :=
  match p.res with
  | .load r l va size sext =>
    match s.lateLoad core asid va size with
    | some (bs, bad) => { p with res := .lanes r [(l, if bad then Config.undefLane s.free r l else widen sext bs)], ready := true, poisoned := if bad then [(l, va)] else [] }
    | none => p
  | _ => p

/-- A stalled load of a bounded read, which a bump has still to serve. -/
def Pending.isLoad (p : Pending) : Bool :=
  match p.res with
  | .load .. => true
  | _ => false

/-- A load with `.acq` whose values have all come acquires (R182, R250). -/
def State.lateAcquire (s : State) (gid : Nat) : State :=
  match (s.group gid).acq with
  | some sc => if (s.group gid).pend.any Pending.isLoad then s else (s.acquire sc).updGroup gid fun g => { g with acq := none }
  | none => s

/-- The loads of a group that wait for a counter complete: it observes the writes that they read (R181). -/
def State.lateLoads (s : State) (gid core c : Nat) : State :=
  let asid := s.asidOf (s.group gid)
  let due := (s.group gid).pend.filter fun p => p.tag == stallTag c && !p.ready
  let seen := due.flatMap fun p => match p.res with
    | .load _ _ va _ _ => s.storesAt asid va
    | _ => []
  (s.bumpFree.updGroup gid fun g => (g.mapPend fun p => if p.tag == stallTag c && !p.ready then s.finishLoad core asid p else p).observe seen).lateAcquire gid

/-- The loads of every group of a core that wait for a counter complete. -/
def State.finishLoads (s : State) (core c : Nat) : State :=
  ((s.groups.filter fun e => e.2.core == core && e.2.pend.any fun p => p.tag == stallTag c && !p.ready).map (·.1)).foldl
    (fun s gid => s.lateLoads gid core c) s

/-- R250: after a bump's pushes, every home sends the wanted lines of the counter, whose copies take the bump's value as fill round. -/
def State.deliverWanted (s : State) (c : Nat) (v : Word) : State :=
  let wanted := s.l2.filter fun e => e.2.round == some c && !e.2.wanted.isEmpty
  let s := wanted.foldl (fun s e =>
    let asid := e.1 / 2 ^ 55
    let va := BitVec.ofNat 64 (e.1 % 2 ^ 55 * 512)
    let s := e.2.wanted.foldl (fun s core =>
      (List.range 16).foldl (fun s k => if e.2.valid.getLsbD k then
        s.fillL1 core asid (va + BitVec.ofNat 64 (32 * k)) (some (c, v)) else s) s) s
    match s.line? asid va with
    | some l => s.setLine asid va { l with wanted := [] }
    | none => s) s
  (s.cores.map (·.1)).foldl (fun s core => s.finishLoads core c) s

/-- R251 step 4: when every push has been applied the result is ready, and the wanted lines go out; a group that has exited no longer waits for it. -/
def State.bumpDone (s : State) (gid tag c : Nat) (v : Word) : State :=
  if s.pushes.any fun p => p.tag == tag then s
  else ((s.updGroup gid fun g => g.mapPend fun p => if p.tag == tag then { p with ready := true } else p).deliverWanted c v).groupGone gid

/-- R251 steps 1 to 3 for the oldest `rbump` of a group, when its release is performed: increment, and push the value to every round
table that holds the counter.  The tag's low bit says that the increment is done; a later `rbump` is a release that waits for that one. -/
def State.bump (s : State) (gid : Nat) : State :=
  match (s.group gid).pend.find? fun p => bumpTag ≤ p.tag && !p.ready with
  | none => s
  | some p =>
    if p.tag % 2 == 1 then s else
    match s.cumulative (s.group gid) 5, p.res with
    | none, .scalar d cv =>
      let c := cv.toNat
      let v := s.roundVal c + 1
      let tag := p.tag + 1
      let cores := (s.cores.filter fun e => e.2.rtab.any fun r => r.1 == c).map (·.1)
      let s := { s with
        rounds := s.rounds.set c v
        pushes := s.pushes ++ cores.map fun k => (⟨k, c, v, tag, gid⟩ : Push) }
      let s := s.updGroup gid fun g => g.mapPend fun q => if q.tag == p.tag then { q with tag, res := .scalar d (v.setWidth 64) } else q
      (s.owe (cores.map Owed.roundPush)).bumpDone gid tag c v
    | some asks, _ => s.owe asks
    | none, _ => s

/-- ROUND_INCREMENT (R251). -/
def execRoundIncrement (gid : Nat) (s : State) : Out := .next (s.bump gid)

/-- The value that an entry takes when a push arrives.  An entry installed behind the push on the counter's path already holds a later one, and
never decreases (R246); the count wraps (R245). -/
def laterRound (held pushed : Word) : Word := if (pushed - held).toNat < 2 ^ 31 then pushed else held

/-- ROUND_PUSH: the oldest push on its way to a core updates an entry that holds the counter, or is dropped (R246). -/
def execRoundPush (core : Nat) (s : State) : Out :=
  .next (match s.pushes.find? fun p => p.core == core with
    | none => s
    | some p =>
      let s := s.updCore core fun k => { k with rtab := k.rtab.map fun e => if e.1 == p.counter then (e.1, laterRound e.2 p.val) else e }
      let s := { s with pushes := s.pushes.filter fun q => !(q.core == core && q.tag == p.tag) }
      let s := if s.pushes.any fun q => q.core == core then s.owe [.roundPush core] else s
      s.bumpDone p.gid p.tag p.counter p.val)

end Sys2Proof.Machine
end

