-- ==== Sys2Proof/Machine/Coherence.lean ====
section
/-! DEFINITION. Coherence: what the homes, the L1s, the atomic buffers and the banks do on their own (R40 to R46, R137, R151 to R155,
R163, R405, R406). -/

namespace Sys2Proof.Machine

/-! ### Updates from a home to a core (R152) -/

/-- Take the first element that satisfies a test out of a list. -/
def takeFirst {α : Type} (p : α → Bool) : List α → Option (α × List α)
  | [] => none
  | x :: xs => if p x then some (x, xs) else (takeFirst p xs).map fun r => (r.1, x :: r.2)

/-- WRITE_UPDATE (R152): the oldest update on the path from a home slice to a core. -/
def execWriteUpdate (slice core : Nat) (s : State) : Out :=
  let mine := fun (u : Update) => homeSlice u.asid u.line == slice && u.core == core
  .next (match takeFirst mine s.updates with
    | none => s
    | some (u, rest) =>
      let s := ({ s with updates := rest } : State).applyUpdate u
      if s.updates.any mine then s.owe [.writeUpdate slice core] else s)

/-- The row request whose words a store number carries. -/
def State.reqOfStore (s : State) (n : Nat) : Option (Nat × Nat) :=
  s.dram.findSome? fun e => (e.2.reqs.find? fun r => r.applied && r.store == n).map fun r => (e.1, r.id)

/-- A port carries traffic: it neither retrains nor is down (R22), and the package is not catching up with the domain's time (R17). -/
def State.carries (s : State) (port : Nat) : Bool :=
  let p := s.ports.getD port Port.init
  !p.retrain && !p.down && !s.pkg.sync

/-- STORE_ACK: another package acknowledges a write to a line of its own (R149, R189), or the home a write of this package's (R152 step 5),
which is performed at package scope; the last acknowledgement of an application's words is its completion (R46). -/
def execStoreAck (n : Nat) (s : State) : Out :=
  .next (match s.stores.get? n with
    | none => s
    | some st =>
      if st.peer.isSome then
        if s.carries (homeDie st.asid (st.va / 512)) then
          ({ s with stores := s.stores.set n { st with peer := none } } : State).settleStore n
        else s
      else if st.acks = 0 && !st.bank then
        let done := (s.reqOfStore n).toList.map fun r => Owed.rowRequestComplete r.1 r.2
        (s.storeDone n).owe done
      else s)

/-! ### Fills (R163) -/

/-- L2_MISS: the home makes room for the line, its agent translates, and the grain block is filled (R137, R151, R163). -/
def execL2Miss (asid : Nat) (miss : Miss) (s : State) : Out := .next (s.fillHome asid miss.va miss.acc)

/-! ### Merges (R155) -/

/-- An entry leaves a core's atomic buffer. -/
def State.dropEntry (s : State) (core : Nat) (e : AtomEntry) : State :=
  s.updCore core fun c => { c with abuf := c.abuf.filter fun x => x != e }

/-- An entry is to be merged as soon as its place is ready. -/
def State.markDue (s : State) (core : Nat) (e : AtomEntry) : State :=
  s.updCore core fun c => { c with abuf := c.abuf.map fun x => if x == e then { x with due := true } else x }

/-- An entry of a core's atomic buffer is merged at its place as one atomic; the releases of every group that contributed wait for
its acknowledgement (R187).  While its page or its place is not ready it stays in the buffer, due to be merged; an entry whose page does not
translate any more is dropped (DESIGN CHOICE, log entry 38). -/
def State.mergeEntry (s : State) (core : Nat) (e : AtomEntry) : State :=
  let va := BitVec.ofNat 64 e.va
  match s.translate e.asid va 1 with
  | .asks s => s.markDue core e
  | .fails s => s.dropEntry core e
  | .page s attr =>
    match s.placeRaw e.asid attr va with
    | .asks l => (s.owe l).markDue core e
    | p => ((s.dropEntry core e).atomAt core e.gids true e.asid attr va p e.op e.uns e.val 0).2.countCm core 0

/-- ATOMIC_MERGE (R155): an entry of a core's atomic buffer is merged at its place as one atomic. -/
def execAtomicMerge (core asid : Nat) (va : Quad) (s : State) : Out :=
  .next (match (s.core core).abuf.find? fun e => e.asid == asid && e.va == va.toNat with
    | none => s
    | some e => s.mergeEntry core e)

/-- What a due entry waits for is brought about, so far as this package can, and the entry is tried again. -/
def State.retryMerge (s : State) (core : Nat) (e : AtomEntry) : State :=
  let va := BitVec.ofNat 64 e.va
  match s.translate e.asid va 1 with
  | .page s attr =>
    match s.placeRaw e.asid attr va with
    | .asks _ => s.fillHome e.asid va 1
    | _ => s.mergeEntry core e
  | .asks t => t
  | .fails _ => s.mergeEntry core e

/-- ATOMIC_MERGE at an eviction (R154): CM_ABUF counts it as an eviction too, once, unless the entry was to be merged already. -/
def State.evictEntry (s : State) (core asid : Nat) (va : Quad) : State :=
  match (s.core core).abuf.find? fun e => e.asid == asid && e.va == va.toNat with
  | none => s
  | some e =>
    if e.due then s.mergeEntry core e else (s.mergeEntry core e).countCm core 1

/-! ### Banks (R40, R44 to R46, R405) -/

/-- A bank performs a queued access: the row is activated on demand, the access is stamped, and the acknowledgement leaves (R45). -/
def State.performBank (s : State) (b : BankAccess) : State :=
  let s := (s.touchMsc b.pa b.bytes.length).bankTouch b.pa
  let s := { s with
    mem := s.mem.putBytes b.pa b.bytes
    poison := newPoison s.poison s.eccSize b.pa b.bytes.length (b.poison.map (b.pa + ·))
    bankMsgs := s.bankMsgs ++ [(⟨b.asid, b.va, b.pa, b.bytes, b.poison, b.store, false⟩ : BankMsg)] }
  s.owe [.bankStoreAck b.asid (BitVec.ofNat 64 b.va)]

/-- BANK_ACCESS (R45): the oldest access queued at the bank of an address. -/
def execBankAccess (pa : Nat) (s : State) : Out :=
  .next (match takeFirst (fun (b : BankAccess) => sameBank b.pa pa) s.bankq with
    | none => s
    | some (b, rest) =>
      let s := ({ s with bankq := rest } : State).performBank b
      if rest.any fun b => sameBank b.pa pa then s.owe [.bankAccess pa] else s)

/-- ROW_CLOSE (R405): a demand-opened row closes once no access to it is queued. -/
def execRowClose (pa : Nat) (s : State) : Out :=
  .next (if isHbm pa && !(s.bankq.any fun b => b.pa / 1024 == pa / 1024) then
    s.updStack (stackOf pa) fun st =>
      if st.openRow.get? (32 * pcOf pa + bankOf pa) = some (rowIndex pa) then
        { st with openRow := st.openRow.del (32 * pcOf pa + bankOf pa) } else st
    else s)

/-- Two messages share the ordered path from one bank to one home slice (R40). -/
def BankMsg.samePath (m n : BankMsg) : Bool := sameBank m.pa n.pa && homeSlice m.asid (m.va / 512) == homeSlice n.asid (n.va / 512)

/-- The event that delivers a message. -/
def BankMsg.ask (m : BankMsg) : Owed :=
  if m.comb then .combUpdate m.asid (BitVec.ofNat 64 m.va) else .bankStoreAck m.asid (BitVec.ofNat 64 m.va)

/-- The oldest message of the path on which a line has one, if it is of the kind asked for, and the messages that stay (R40). -/
def State.nextMsg (s : State) (asid : Nat) (va : Quad) (comb : Bool) : Option (BankMsg × List BankMsg) :=
  match s.bankMsgs.find? fun m => m.asid == asid && m.va / 512 == lineOf va with
  | none => none
  | some m =>
    match takeFirst (fun x => x.samePath m) s.bankMsgs with
    | some (x, rest) => if x.comb == comb then some (x, rest) else none
    | none => none

/-- A message has left its path: the one behind it is delivered next. -/
def State.afterMsg (s : State) (m : BankMsg) : State :=
  match s.bankMsgs.find? fun x => x.samePath m with
  | some x => s.owe [x.ask]
  | none => s

/-- The home applies an acknowledged store, or an application's words, to the sectors of a line that it holds, and forwards them (R40, R46).  The
bank has the values already, so that the line's dirtiness is as it was. -/
def State.applyWords (s : State) (asid : Nat) (va : Quad) (bytes : List Byte) (pz : List Nat) (n : Nat) : State :=
  match s.line? asid va with
  | some l =>
    if hasSector l.valid (lineOff va) then
      (s.setLine asid va { l with
        data := l.data.putBytes (lineOff va) bytes
        poison := newPoison l.poison s.eccSize (lineOff va) bytes.length (pz.map (lineOff va + ·)) }).forward asid va bytes (ozCore + 1) n
    else s
  | none => s

/-- BANK_STORE_ACK (R40): the bank has acknowledged a write-through store, and the home applies it to its own copy. -/
def execBankStoreAck (asid : Nat) (va : Quad) (s : State) : Out :=
  .next (match s.nextMsg asid va false with
    | none => s
    | some (m, rest) =>
      let mva := BitVec.ofNat 64 m.va
      let s := { s with bankMsgs := rest, stores := s.stores.modify m.store fun st => { st with bank := false, home := true } }
      let s := match s.line? m.asid mva with
        | some l => s.setLine m.asid mva { l with bankOut := l.bankOut - 1 }
        | none => s
      ((s.applyWords m.asid mva m.bytes m.poison m.store).settleStore m.store).afterMsg m)

/-- COMB_UPDATE (R46): a line's new words after an application reach its home slice, which updates its copy and forwards them. -/
def execCombUpdate (asid : Nat) (va : Quad) (s : State) : Out :=
  .next (match s.nextMsg asid va true with
    | none => s
    | some (m, rest) =>
      let s := (List.range 16).foldl (fun (s : State) k =>
        s.applyWords m.asid (BitVec.ofNat 64 (m.va + 32 * k)) ((m.bytes.drop (32 * k)).take 32)
          ((m.poison.filter fun w => 32 * k ≤ w && w < 32 * k + 32).map (· - 32 * k)) m.store) { s with bankMsgs := rest }
      let s := { s with stores := s.stores.modify m.store fun st => { st with acks := st.acks - 1 } }
      (s.settleStore m.store).afterMsg m)

/-- A write to STK_NBR: setting TEST seeds every bank's generator from SEED (R43); a write of 1 while TEST is 1 seeds them afresh (DESIGN
CHOICE, log entry 39). -/
def execStkNbrWrite (stack : Nat) (v : Quad) (s : State) : Out :=
  .next (if stack < 24 then s.updStack stack fun st => { st with
    nbrTest := v.getLsbD 0
    nbrSeed := v.extractLsb' 32 32
    xs := if v.getLsbD 0 then [] else st.xs } else s)

end Sys2Proof.Machine
end

