-- ==== Sys2Proof/Machine/HostQueues.lean ====
section
/-! DEFINITION. Event queues of the host: how a record is posted, held, and later posted (R82, R83). -/

namespace Sys2Proof.Machine

/-- An event queue by number. -/
def State.evq (s : State) (n : Nat) : Evq := s.host.evqs.getD n Evq.init

/-- Replace an event queue. -/
def State.setEvq (s : State) (n : Nat) (q : Evq) : State :=
  { s with host := { s.host with evqs := s.host.evqs.set n q } }

/-- The lowest-numbered enabled queue that takes a kind (R82). -/
def State.queueFor (s : State) (kind : Nat) : Option Nat :=
  (List.range 8).find? fun n => (s.evq n).enable && (s.evq n).kinds.getLsbD kind

/-- Unread records of a queue. -/
def Evq.unread (q : Evq) : Nat := (q.wp - q.rp).toNat

/-- A queue has no free slot. -/
def Evq.isFull (q : Evq) : Bool := 2 ^ q.log2 ≤ q.unread

/-- A Bool as a bit at a place. -/
def bitAt (b : Bool) (n : Nat) : Nat := if b then 2 ^ n else 0

/-- Exactly n bytes of a list, with 0 after its end. -/
def padTo (n : Nat) (l : List Byte) : List Byte := l.take n ++ List.replicate (n - l.length) 0

/-- The 16 bytes of a stamp (R4): the time, then the source. -/
def stampBytes (t : Nat × Nat) : List Byte := leBytes 8 t.1 ++ leBytes 8 t.2

/-- The 64 bytes of a record (Table 4.5). -/
def recordBytes (q : Evq) (e : HostEvent) : List Byte :=
  leBytes 4 q.seq.toNat ++ [BitVec.ofNat 8 e.kind, BitVec.ofNat 8 e.die, 0, 0] ++ stampBytes e.stamp ++ padTo 32 e.payload ++
    leBytes 8 0

/-- Write a record to its queue, and send the queue's interrupt vector unless it is 0 (R82). -/
def State.postTo (s : State) (n : Nat) (e : HostEvent) : State :=
  let q := s.evq n
  let slot := (q.base.extractLsb' 12 52).toNat * 4096 + q.wp.toNat % 2 ^ q.log2 * 64
  let s := { s with hostMem := s.hostMem.putBytes slot (recordBytes q e) }
  let s := s.setEvq n { q with wp := q.wp + 1, seq := q.seq + 1 }
  { s with host := { s.host with
      vectors := if q.vec = 0 then s.host.vectors else s.host.vectors ++ [q.vec]
      posted := if e.ask = .none then s.host.posted else s.host.posted ++ [⟨n, q.seq, e.ask⟩] } }

/-- Whether an event must stay behind one that is already held: one of its kind, or one bound for the same queue (R82). -/
def State.behindHeld (s : State) (e : HostEvent) : Bool :=
  s.host.held.any fun h => h.kind == e.kind || ((s.queueFor h.kind).isSome && s.queueFor h.kind == s.queueFor e.kind)

/-- EVENT_POST (R82): the event is posted to its queue, or held; it is held while the link is down (R67). -/
def State.postEvent (s : State) (e : HostEvent) : State :=
  match s.queueFor e.kind with
  | none => { s with host := { s.host with held := s.host.held ++ [e], noq := true } }
  | some n =>
    if !s.pkg.linked then { s with host := { s.host with held := s.host.held ++ [e] } }
    else if (s.evq n).isFull then
      let s := s.setEvq n { s.evq n with full := true }
      { s with host := { s.host with held := s.host.held ++ [e] } }
    else if s.behindHeld e then { s with host := { s.host with held := s.host.held ++ [e] } }
    else s.postTo n e

/-- An event of a die's unit, stamped there (R82, R83). -/
def State.raise (s : State) (kind die unit : Nat) (payload : List Byte) (ask : Ask) : State :=
  let src := s.source die unit
  let t := s.stampTime src
  (s.stamp src).postEvent ⟨kind, die, (t, src), payload, ask⟩

/-- The first held event that can be posted: its queue is enabled and has room, and no earlier held event of its queue or kind is in
its way. -/
def State.postable (s : State) : List HostEvent → List HostEvent → Option (HostEvent × Nat × List HostEvent)
  | _, [] => none
  | before, e :: rest =>
    match s.queueFor e.kind with
    | none => s.postable (before ++ [e]) rest
    | some n =>
      if !(s.evq n).isFull && !(before.any fun h => h.kind == e.kind || s.queueFor h.kind == some n) then
        some (e, n, before ++ rest)
      else s.postable (before ++ [e]) rest

/-- R82: NOQ says whether an event is held for want of a queue that takes its kind. -/
def State.showNoq (s : State) : State :=
  { s with host := { s.host with noq := s.host.held.any fun h => (s.queueFor h.kind).isNone } }

/-- HELD_EVENT_POST (R67, R82).  A queue's FULL clears when no event is held for it any more, and NOQ when every held event has a queue (DESIGN CHOICE,
log entry 39). -/
def execHeldEventPost (s : State) : Out :=
  .next (if !s.pkg.linked then s else match s.postable [] s.host.held with
    | none => s
    | some (e, n, rest) =>
      let s := ({ s with host := { s.host with held := rest } } : State).showNoq.postTo n e
      s.setEvq n { s.evq n with full := rest.any fun h => s.queueFor h.kind == some n })

/-- Withdraw the records, posted or held, whose subject satisfies a test (R84). -/
def State.withdraw (s : State) (p : Ask → Bool) : State :=
  { s with host := { s.host with
      posted := s.host.posted.filter fun r => !p r.ask
      held := s.host.held.filter fun e => e.ask == .none || !p e.ask } }

end Sys2Proof.Machine
end

