-- ==== Sys2Proof/Machine/Queues.lean ====
section
/-! DEFINITION. Queue registers: major 0x1C and the pop (R224, R307 to R311, R395). -/

namespace Sys2Proof.Machine

/-- A queue register of a group. -/
def Group.queue (g : Group) (n : Nat) : QReg := g.q.getD n ⟨none, [], []⟩

/-- Push a record: a full queue register has its stream hold it back, in order (R224). -/
def QReg.push (q : QReg) (r : Quad) : QReg :=
  if q.recs.length < 16 && q.held.isEmpty then { q with recs := q.recs ++ [r] } else { q with held := q.held ++ [r] }

/-- Remove the oldest record; the stream then pushes the oldest that it holds back (R308). -/
def QReg.pop (q : QReg) : QReg :=
  match q.held with
  | [] => { q with recs := q.recs.drop 1 }
  | h :: hs => { q with recs := q.recs.drop 1 ++ [h], held := hs }

/-- The queue register of a group that a stream is bound to. -/
def Group.boundTo (g : Group) (stream : Nat) : Option Nat := (g.q.find? fun e => e.2.stream == some stream).map (·.1)

/-- A stream pushes a record to a group; with no queue register bound it is discarded (R310).  The records of a team that is saved
are kept for it (R311). -/
def State.pushRecord (s : State) (gid stream : Nat) (r : Quad) : State :=
  match (s.group gid).boundTo stream with
  | none => s
  | some n => s.updGroup gid fun g => { g with q := g.q.set n ((g.queue n).push r) }

/-- R395, R310: random numbers are made into the free space of the bound queue register. -/
def State.fillRandom (s : State) (n : Nat) : State :=
  let q := s.grp.queue n
  if q.stream = some 5 then
    let k := 16 - q.recs.length
    ({ s with free := s.free + k }).updGrp fun g =>
      { g with q := g.q.set n { q with recs := q.recs ++ (List.range k).map fun i => Config.freeQuad (s.free + i) } }
  else s

/-- R310, `qbind`. -/
def execQbind (fin : Bool) (q : BitVec 3) (stream : BitVec 4) (s : State) : Out :=
  issue { fin, waits := true } (fun s =>
    let g := s.grp
    let old := (g.queue q.toNat).stream
    if 5 < stream.toNat then .did s (g.faultAll fIllegal 0) false
    else if old = some stream.toNat then .did s [] false
    else if old.isSome || (g.boundTo stream.toNat).isSome then .did s (g.faultAll fIllegal 0) false
    else .did ((s.updGrp fun g => { g with q := g.q.set q.toNat ⟨some stream.toNat, [], []⟩ }).fillRandom q.toNat) [] false) s

/-- R310, `qfree`. -/
def execQfree (fin : Bool) (q : BitVec 3) (s : State) : Out :=
  issueOk { fin, waits := true } (fun s => s.updGrp fun g => { g with q := g.q.del q.toNat }) s

/-- R307, `qtry`. -/
def execQtry (fin : Bool) (d : BitVec 6) (q : BitVec 3) (s : State) : Out :=
  scalarWord (infoS fin [d]) d (fun g => if (g.queue q.toNat).recs.isEmpty then 0 else 1) s

/-- R307, `qpeek`. -/
def execQpeek (fin : Bool) (d : BitVec 6) (q : BitVec 3) (s : State) : Out :=
  scalarWord (infoS fin [d]) d (fun g => (g.queue q.toNat).recs.headD 0) s

/-- The pop itself (R308): an acquire of the record's class. -/
def State.popQueue (s : State) (d q : Nat) : State :=
  let r := s.grp.queue q
  let s := s.updGrp fun g => { g with q := g.q.set q r.pop }
  let s := (if r.stream = some 3 then s.acquireClass 4 else s).fillRandom q
  s.updGrp fun g => g.addPending (.scalar d (r.recs.headD 0))

/-- R308, `mov sD, qN`. -/
def execMovQ (fin : Bool) (x : BitVec 6) (y : BitVec 3) (s : State) : Out :=
  issue { fin, sn := [x.toNat] } (fun s =>
    let q := s.grp.queue y.toNat
    if q.stream.isNone then .did s (s.grp.faultAll fIllegal 0) false
    else if q.recs.isEmpty || s.grp.fence.isSome then .stall (s.blockAt (.pop x.toNat y.toNat) fin)
    else .did (s.popQueue x.toNat y.toNat) [] false) s

/-- QUEUE_POP_RETURN (R308): a record is there and every earlier fence has completed; a group that is to stop at the pop for good takes none (R240). -/
def execQueuePopReturn (gid : Nat) (s : State) : Out :=
  .next (match (s.group gid).block with
    | .pop d q =>
      if ((s.group gid).queue q).recs.isEmpty || (s.group gid).fence.isSome || (s.group gid).leaves then s else s.resumeWord gid (·.popQueue d q) (fun _ => [])
    | _ => s)

end Sys2Proof.Machine
end

