-- ==== Sys2Proof/Machine/Saves.lean ====
section
/-! DEFINITION. Save areas: the bytes of Tables 8.6, 8.7, 12.4 and 18.8, and when they are written (R106, R172, R173, R223, R311). -/

namespace Sys2Proof.Machine

/-! ### Tiles -/

/-- The key of element (i, j) of a tile of a partition. -/
def tileKey (part tile i j : Nat) : Nat := ((part * 512 + tile) * 32 + i) * 32 + j

/-- An element of a tile. -/
def Team.tile (t : Team) (part tile i j : Nat) : Nat := (t.tiles.getD (tileKey part tile i j) 0).toNat

/-- A tile of a partition as bytes, row-major (Table 8.6). -/
def Team.tileBytes (t : Team) (part tile : Nat) : List Byte :=
  (List.range 1024).flatMap fun k => leBytes 4 (t.tile part tile (k / 32) (k % 32))

/-! ### Group records (Table 8.7) -/

/-- A queue register's slot (R311, Table 18.8). -/
def QReg.saved (q : QReg) : List Byte :=
  padTo 136 (leBytes 8 (bitAt q.stream.isSome 0 + q.stream.getD 0 * 2 ^ 1 + q.recs.length * 2 ^ 5 + bitAt (!q.held.isEmpty) 10) ++
    q.recs.flatMap fun r => leBytes 8 r.toNat)

/-- The first 16 bytes: what the group is, and the states of its lanes. -/
def Group.savedLanes (g : Group) : List Byte :=
  leBytes 8 (g.num + g.role * 2 ^ 6 + g.budget / 8 * 2 ^ 8 + bitAt g.stopped 12 + (~~~g.exited).toNat * 2 ^ 16 +
    g.parked.toNat * 2 ^ 32 + g.joined.toNat * 2 ^ 48) ++
  leBytes 8 (g.inTrap.toNat + (maskOf (g.svc.map (·.1))).toNat * 2 ^ 16 +
    ((List.range 8).map fun n => g.g.getD n 2 * 2 ^ (32 + 2 * n)).sum)

/-- The group record; `counts` holds the unissued commands of each class.  (In part DEDUCED, log entry 26.) -/
def Group.saved (g : Group) (counts : List Nat) : List Byte :=
  let quads := fun (f : Nat → Quad) (n : Nat) => (List.range n).flatMap fun k => leBytes 8 (f k).toNat
  padTo 0x2800 (g.savedLanes ++ stampBytes (g.stop.getD (0, 0)) ++ leBytes 8 g.trapBase.toNat ++
    padTo 8 (counts.map fun n => BitVec.ofNat 8 n) ++ leBytes 16 (g.freed.map fun e => 2 ^ e.1).sum ++
    ((List.range 8).flatMap fun n => leBytes 2 (g.pred n).toNat) ++ leBytes 8 g.rngKey.toNat ++ leBytes 8 g.rngCtr.toNat ++
    padTo 32 [] ++ quads g.pc 16 ++ quads g.readS 64 ++ quads (fun l => g.epc.getD l 0) 16 ++ quads (fun l => g.taddr.getD l 0) 16 ++
    ((List.range 16).flatMap fun l => leBytes 4 (g.cause.getD l 0).toNat) ++
    ((List.range 8).flatMap fun n => (g.queue n).saved) ++
    (List.range g.budget).flatMap fun n => (List.range 16).flatMap fun l => leBytes 4 (g.readV n l).toNat)

/-! ### The area of a team (Table 8.6) -/

/-- A task-table entry (Table 12.4).  Its operands are the values of its parameter block in order, in which vector operands are register numbers;
the manual does not say how they lie, and what is left of the entry is undefined (DESIGN CHOICE, log entry 26). -/
def Cmd.saved (c : Cmd) (num seed : Nat) : List Byte :=
  let words := (c.block.take 7).flatMap fun q => leBytes 8 q.toNat
  [BitVec.ofNat 8 (c.cls + c.op * 2 ^ 3), BitVec.ofNat 8 num, BitVec.ofNat 8 (c.in0.getD 0), BitVec.ofNat 8 (c.in1.getD 0),
    BitVec.ofNat 8 (c.out.getD 0), BitVec.ofNat 8 (bitAt c.in0.isSome 0 + bitAt c.in1.isSome 1 + bitAt c.out.isSome 2)] ++
  leBytes 2 c.tag.toNat ++ words ++ (List.range (56 - words.length)).map fun k => Config.undefByte seed k

/-- A buffer-table entry; `rank` is the rank of its holder. -/
def Buf.saved (b : Buf) (rank : Nat) : List Byte :=
  leBytes 8 (bitAt b.live 0 + b.gen * 2 ^ 4 + b.off / 256 * 2 ^ 8 + (b.size / 256 - 1) * 2 ^ 20 + rank * 2 ^ 32)

/-- The commands of a team that have not left the task table, in issue order. -/
def State.unissued (s : State) (t : Nat) : List Cmd :=
  (s.core (s.team t).core).tasks.filterMap fun n =>
    match s.cmds.get? n with
    | some c => if c.team == t && c.st == .waiting then some c else none
    | none => none

/-- The first 0x2000 bytes of an area.  (In part DEDUCED, log entry 26.) -/
def State.savedHeader (s : State) (t : Nat) (close : Nat × Nat) : List Byte :=
  let tm := s.team t
  let gr := s.grid tm.grid
  let cmds := s.unissued t
  let outs := cmds.filterMap (·.out)
  let spw := recField gr.record 34 1
  let stopped := (s.core tm.core).dbgTeamStop && tm.groups.any fun g => (s.group g).stopped
  padTo 0x2000 (leBytes 8 (gr.num + gr.ctx * 2 ^ 32 + tm.sib * 2 ^ 40) ++ leBytes 8 tm.num ++
    leBytes 8 (tm.groups.length + leNat ((gr.record.drop 32).take 2) * 2 ^ 7 + spw * 2 ^ 17 + cmds.length * 2 ^ 22 + bitAt stopped 29) ++
    leBytes 8 tm.trig.toNat ++ leBytes 8 tm.exit.toNat ++ padTo 8 [] ++
    padTo 32 (tm.work.flatMap fun n => leBytes 8 n) ++ stampBytes close ++
    leBytes 32 ((List.range 256).map fun k => if outs.contains k then 0 else 2 ^ k).sum ++ padTo 128 [] ++
    padTo 4096 ((cmds.zipIdx).flatMap fun e => e.1.saved (s.group e.1.gid).num (s.free + e.2)) ++
    (List.range 256).flatMap fun i => match tm.keptBufs.get? i with
      | some b => b.saved (s.team b.holder).rank
      | none => padTo 8 [])

/-- Bytes of a save area are written, and the poison of what they cover is gone (R169). -/
def State.putSaved (s : State) (a : Nat) (bs : List Byte) : State :=
  { s with mem := s.mem.lay a bs, poison := clearPoison s.poison s.eccSize a bs.length }

/-- The package physical address of a team's area: a place in the save pool (R172). -/
def State.areaOf (s : State) (t : Nat) : Nat :=
  (s.pkg.saveBase.extractLsb' 21 24).toNat * 2 ^ 21 + (s.team t).saveBase * 2 ^ 16

/-- The record of a group is written into its team's area. -/
def State.saveGroup (s : State) (gid : Nat) : State :=
  let g := s.group gid
  let cmds := (s.unissued g.team).filter (·.gid == gid)
  s.putSaved (s.areaOf g.team + 0x2000 + 0x2800 * g.num) (g.saved ((List.range 5).map fun k => (cmds.filter (·.cls == k)).length))

/-- The whole area is written (R106); `close` is the stamp of the save's close.  It has room for SPW scratchpad ways (R172); what a
team has converted beyond them the package keeps.  (In part DEDUCED, log entry 26.) -/
def State.writeArea (s : State) (t : Nat) (close : Nat × Nat) : State :=
  let tm := s.team t
  let acc := leNat (((s.grid tm.grid).record.drop 32).take 2)
  let base := s.areaOf t
  let accOff := base + 0x2000 + (tm.groups.length * 0x2800 + 0xFFF) / 0x1000 * 0x1000
  let s := { s.putSaved base (s.savedHeader t close) with free := s.free + 64 }
  let s := tm.groups.foldl State.saveGroup s
  let s := (List.range (4 * acc)).foldl (fun s k => s.putSaved (accOff + 0x1000 * k) (tm.tileBytes (k / acc) (k % acc))) s
  (List.range (min tm.ways.length (recField (s.grid tm.grid).record 34 1))).foldl (fun s w => s.putSaved (accOff + 0x4000 * acc + 0x8000 * w) (tm.spBytes (0x8000 * w) 0x8000)) s

/-- R173: a service that completes while its team is SAVED clears its lanes' bits in the record, which shows what a fault has made of the lanes too. -/
def State.resave (s : State) (gid : Nat) : State :=
  let g := s.group gid
  let base := s.areaOf g.team + 0x2000 + 0x2800 * g.num
  let quads := fun (f : Nat → Quad) => (List.range 16).flatMap fun l => leBytes 8 (f l).toNat
  if (s.team g.team).st == .saved then
    ((((s.putSaved base g.savedLanes).putSaved (base + 0x80) (quads g.pc)).putSaved (base + 0x300) (quads fun l => g.epc.getD l 0)).putSaved
      (base + 0x380) (quads fun l => g.taddr.getD l 0)).putSaved (base + 0x400)
        ((List.range 16).flatMap fun l => leBytes 4 (g.cause.getD l 0).toNat)
  else s

/-- A group that is to be saved and has come to its run boundary takes the stamp of its stop (Table 8.7). -/
def State.stampStop (s : State) (gid : Nat) : State :=
  let g := s.group gid
  if g.saving && !g.runOpen && g.fence.isNone && g.stop.isNone then
    let src := s.groupSource g
    (s.stamp src).updGroup gid fun x => { x with stop := some (s.stampTime src, src) }
  else s

/-- A group that stopped at a run boundary is the last to stop (R133, R135). -/
def State.showStop (s : State) (gid : Nat) : State :=
  match (s.group gid).stopNote with
  | some cause => (s.updGroup gid fun g => { g with stopNote := none }).noteStop (s.group gid) cause
  | none => s

/-- A group that is to stop, and waits at a word that counts as a run boundary, stops there (R309, R348). -/
def State.stopsWaiting (s : State) (gid : Nat) : Bool := s.stopsAt gid && ((s.group gid).saving || (s.group gid).stopDue)

/-- R250: a stalled load that reads at the home: its group is being saved, or the bump that it waited for is over and its line had left the home. -/
def State.refetches (s : State) (g : Group) (p : Pending) : Bool :=
  !p.ready && match p.res with
    | .load _ _ va _ _ => g.saving || !(s.line? (s.asidOf g) va).any fun l => l.wanted.contains g.core
    | _ => false

/-- A stalled load of a group that is a refetch reads at the home: it observes the writes that it reads (R181). -/
def State.refetchOne (s : State) (gid : Nat) (p : Pending) : State :=
  let g := s.group gid
  let asid := s.asidOf g
  match s.refetches g p, p.res with
  | true, .load r l va size sext =>
    match s.readHome g.core asid va size 0 true ((s.roundValue g.core (p.tag - 1)).map fun t => (p.tag - 1, t)) with
    | .bytes s bs bad =>
      let new : Pending := { p with
        res := .lanes r [(l, if bad then Config.undefLane s.free r l else widen sext bs)], ready := true
        poisoned := if bad then [(l, va)] else [] }
      (s.bumpFree.updGroup gid fun g => (g.mapPend fun q => if q == p then new else q).observe (s.storesAt asid va)).lateAcquire gid
    | .asks as => s.owe as
    | .stalled s _ => s
  | _, _ => s

/-- The stalled loads of a group that are refetches read at the home. -/
def State.refetch (s : State) (gid : Nat) : State := (s.group gid).pend.foldl (fun s p => s.refetchOne gid p) s

/-- The stops that the step has brought about. -/
def State.settleStops (s : State) : State :=
  (s.groups.filter fun e => (!e.2.oz && (e.2.saving || e.2.stopDue || e.2.stopNote.isSome)) || e.2.pend.any (s.refetches e.2)).foldl (fun s e =>
    let s := if s.stopsWaiting e.1 then s.unblock e.1 else s
    let s := if e.2.pend.any (s.refetches e.2) then s.refetch e.1 else s
    ((s.stopDone e.1).stampStop e.1).showStop e.1) s

end Sys2Proof.Machine
end

