-- ==== Sys2Proof/Machine/Agents.lean ====
section
/-! DEFINITION. Agents: translation requests, attributes, light-fault service, and the writes of device agents (R161 to R167, R425). -/

namespace Sys2Proof.Machine

/-! ### Leaves at the memory side -/

/-- The domain physical address of the leaf that a walk reaches. -/
def State.leafFrom (s : State) (va : Quad) : List Nat → Nat → Option Nat
  | [], _ => none
  | sh :: rest, t =>
    let a := t + 8 * (va.toNat / 2 ^ sh % (if sh = 16 then 32 else 512))
    let e := s.physQuad a
    if !e.getLsbD 0 then none
    else if e.getLsbD 1 then some a
    else s.leafFrom va rest ((e.extractLsb' 12 39).toNat * 4096)

/-- The leaf of an address, valid or not reached. -/
def State.leafOf (s : State) (asid : Nat) (va : Quad) : Option Nat :=
  match s.slotOfAsid asid with
  | none => none
  | some slot => s.leafFrom va [39, 30, 21, 16] (s.ctx slot).root

/-- Write a 64-bit word at the memory side of the package that owns it. -/
def State.physPutQuad (s : State) (dpa : Nat) (v : Quad) : State :=
  if s.isMine dpa then { s with mem := s.mem.putNat (dpaLocal dpa) 8 v.toNat }
  else { s with peerMem := s.peerMem.putNat dpa 8 v.toNat }

/-- D of the page of an address, in every TLB and page-attribute cache. -/
def State.markD (s : State) (asid : Nat) (va : Quad) (d : Bool) : State :=
  let inTlb := fun (p : PageEntry) => if p.asid == asid && p.va == pageBase p.attr.big va.toNat then { p with attr := { p.attr with d } } else p
  let inPac := fun (p : PacEntry) => if p.asid == asid && p.va == pageBase p.big va.toNat then { p with d } else p
  { s with
    tlb := s.tlb.map fun e => (e.1, e.2.map inTlb)
    cores := s.cores.map fun e => (e.1, { e.2 with pac := e.2.pac.map inPac }) }

/-- R167 step 2: D is set in the leaf and in every loaded entry of its page. -/
def State.setDirty (s : State) (asid : Nat) (va : Quad) : State :=
  match s.leafOf asid va with
  | some a => (s.physPutQuad a (s.physQuad a ||| 0x10)).markD asid va true
  | none => s

/-! ### Parked lanes (R129, R167, R173) -/

/-- Whether an address lies on the page of another: a 64 KiB page, or the 2 MiB page of `big`. -/
def samePage (big : Bool) (a b : Quad) : Bool := pageBase big a.toNat == pageBase big b.toNat

/-- The lanes of a group parked with a code on the page of an address. -/
def Group.parkedOn (g : Group) (code : Nat) (big : Bool) (va : Quad) : List Nat :=
  (g.svc.filter fun e => e.2.1 == code && samePage big e.2.2 va).map (·.1)

/-- Lanes return to the waiting state. -/
def Group.unpark (g : Group) (ls : List Nat) : Group :=
  { g with parked := g.parked &&& ~~~maskOf ls, svc := g.svc.filter fun e => !ls.contains e.1 }

/-- Parked lanes of a group take a fault instead of their service. -/
def State.faultParked (s : State) (gid code : Nat) (ls : List Nat) : State :=
  { (ls.foldl (fun s l =>
      let addr := ((s.grp.svc.get? l).map (·.2)).getD 0
      (s.updGrp fun g => g.unpark [l]).deliver l code addr) { s with cur := gid }) with cur := s.cur }

/-- The groups of an address space. -/
def State.groupsOf (s : State) (asid : Nat) : List Nat :=
  (s.groups.filter fun e => s.spaceOf e.2 == some asid).map (·.1)

/-- Every lane parked with a code on a page returns to waiting, or takes a fault. -/
def State.endParks (s : State) (asid code : Nat) (big : Bool) (va : Quad) (fault : Option Nat) : State :=
  (s.groupsOf asid).foldl (fun s gid =>
    let ls := (s.group gid).parkedOn code big va
    if ls.isEmpty then s
    else match fault with
      | none => (s.updGroup gid fun g => g.unpark ls).resave gid
      | some c => (s.faultParked gid c ls).resave gid) s

/-! ### Translation requests (R163, R165) -/

/-- R163: the agent of an address's home posts a kind-1 record and waits; `agent`: a home or a device agent waits, besides parked lanes. -/
def State.postWalk (s : State) (asid : Nat) (va : Quad) (acc : Nat) (agent : Bool) : State :=
  let die := homeDie asid (lineOf va)
  let s := s.clearFail asid va
  { (s.raise 1 die (0x1008 + agentOf va) (leBytes 8 va.toNat ++ leBytes 2 asid ++ leBytes 1 acc) (.walk die asid va acc)) with
    hostWalks := s.hostWalks ++ [⟨die, asid, va, acc, agent, none⟩] }

/-- TRANSLATION_REQUEST: the agent hits, has the memory processor walk, or posts a kind-1 record and waits. -/
def execTranslationRequest (die asid : Nat) (va : Quad) (acc core : Nat) (s : State) : Out :=
  .next (if s.pkg.memDown then s
    else if (findPage (s.tlbOf die va) asid va).isSome then s.owe [.attributeReturn core asid va]
    else if s.walkPending asid va then s
    else if s.hostWalksOn then s.postWalk asid va acc false
    else
      match s.walk asid va with
      | .ok attr => (s.loadTlb die asid va attr).owe [.attributeReturn core asid va]
      | .error _ => s)

/-- ATTRIBUTE_RETURN: the page's attributes enter the core's page-attribute cache (R165). -/
def execAttributeReturn (core asid : Nat) (va : Quad) (s : State) : Out :=
  .next (match findPage (s.tlbOf (homeDie asid (lineOf va)) va) asid va with
    | none => s
    | some attr =>
      if (findPac (s.core core).pac asid va).isSome || s.pkg.memDown then s
      else s.loadPac core (pacOf asid va attr))

/-- A lane of an address space is parked with a translation fault on the page of an address. -/
def State.parkedWalk (s : State) (asid : Nat) (va : Quad) : Bool :=
  (s.groupsOf asid).any fun gid => !((s.group gid).parkedOn fTranslation false va).isEmpty

/-- The record is posted that a home's miss, or lanes with a translation fault, wait for, unless a walk of the page waits already (R163, R168).
Lanes are delivered their fault when DUTY[1] has been cleared meanwhile. -/
def State.callWalk (s : State) (asid : Nat) (va : Quad) (acc : Nat) : State :=
  let miss := (findPage (s.tlbOf (homeDie asid (lineOf va)) va) asid va).isNone
  if s.walkPending asid va then s
  else if !s.hostWalksOn then s.endParks asid fTranslation false va (some fTranslation)
  else if s.parkedWalk asid va || miss then s.postWalk asid va acc (!s.parkedWalk asid va)
  else s

/-- R83, Table 8.4: the answer to a kind-1 record.  A leaf that is one, and passes the checks of R162, is loaded and the lanes go on; otherwise
they take the fault that the check names.  (In part DEDUCED, log entry 12.) -/
def State.answerWalk (s : State) (die asid : Nat) (va : Quad) (payload : List Byte) : State :=
  let mine := fun (w : HostWalk) => w.asid == asid && samePage false w.va va
  let agent := s.hostWalks.any fun w => mine w && w.agent
  let done := ({ s with hostWalks := s.hostWalks.filter fun w => !mine w } : State).dropPac asid va
  let fails := fun (code : Nat) =>
    ({ done with hostWalks := done.hostWalks ++ if agent then [⟨die, asid, va, 0, true, some code⟩] else [] } : State).endParks
      asid fTranslation false va (some code)
  let big := payload.getD 1 0 != 0
  let e : Quad := BitVec.ofNat 64 (leNat ((payload.drop 8).take 8))
  if payload.getD 0 0 != 0 || !e.getLsbD 0 then fails fTranslation
  else if !e.getLsbD 1 then fails fWalk
  else
    match s.leafCheck asid va e big with
    | .ok attr => (done.loadTlb die asid va attr).endParks asid fTranslation big va none
    | .error code => fails code

/-! ### Light faults (R167) -/

/-- The page of an address is a 2 MiB page, as the reverse map has it. -/
def State.isBig (s : State) (asid : Nat) (va : Quad) : Bool :=
  ((s.rmap.find? fun r => r.asid == asid && r.va == pageBase r.attr.big va.toNat).map (·.attr.big)).getD false

/-- R167 step 3, V = 0: the parks become translation faults, which the host services while DUTY[1] = 1 (R168). -/
def State.lightLost (s : State) (asid : Nat) (big : Bool) (va : Quad) : State :=
  if s.hostWalksOn then
    let ls := fun (g : Group) => g.parkedOn fLight big va
    ({ s with groups := s.groups.map fun e =>
        (e.1, if s.spaceOf e.2 == some asid then
          { e.2 with svc := e.2.svc.map fun x => if (ls e.2).contains x.1 then (x.1, (fTranslation, x.2.2)) else x } else e.2) } : State).callWalk
      asid va 1
  else s.endParks asid fLight big va (some fTranslation)

/-- Steps 1 to 3 of R167 on the page of an address; `mark` says that the device sets D, as it does when it serves alone. -/
def State.serveLight (s : State) (asid : Nat) (va : Quad) (mark : Bool) : State :=
  let big := s.isBig asid va
  match s.leafOf asid va with
  | none => s.lightLost asid big va
  | some a =>
    let e := s.physQuad a
    if !e.getLsbD 2 then s.endParks asid fLight big va (some fWriteProt)
    else if mark then (s.setDirty asid va).endParks asid fLight big va none
    else (s.markD asid va (e.getLsbD 4)).endParks asid fLight big va none

/-- A service in progress is of the page of an address. -/
def LightSvc.covers (l : LightSvc) (asid : Nat) (va : Quad) : Bool := l.asid == asid && samePage l.big (BitVec.ofNat 64 l.va) va

/-- A light-fault service of the page waits for the host. -/
def State.lightAsked (s : State) (asid : Nat) (va : Quad) : Bool := s.lightSvcs.any fun l => l.covers asid va && !l.denied

/-- LIGHT_FAULT_SERVICE: the memory processor serves, or the device posts a kind-0 record and waits (R167); a service in progress covers every
fault on its page. -/
def execLightFaultService (asid : Nat) (va : Quad) (s : State) : Out :=
  .next (if s.lightAsked asid va then s
    else if s.pkg.duty.getLsbD 0 then
      { (s.raise 0 (homeDie asid (lineOf va)) 0x1000 (leBytes 8 va.toNat ++ leBytes 2 asid) (.light asid va)) with
        lightSvcs := s.lightSvcs ++ [⟨asid, va.toNat, s.isBig asid va, false, false⟩] }
    else s.serveLight asid va true)

/-- R167: the answer to a kind-0 record.  (In part DEDUCED, log entry 12.) -/
def State.answerLight (s : State) (asid : Nat) (va : Quad) (payload : List Byte) : State :=
  let refused := payload.getD 0 0 != 0
  let s := { s with lightSvcs := (s.lightSvcs.filter fun (l : LightSvc) => !l.covers asid va || l.denied || (refused && l.ring)).map fun (l : LightSvc) => { l with denied := l.denied || l.covers asid va } }
  if refused then s.endParks asid fLight (s.isBig asid va) va (some fWriteProt) else s.serveLight asid va false

/-! ### Device agents (R425) -/

/-- The translation of an access by a device agent: the home agent's TLB, or a walk, which it loads; or the fault that the host's answer gave (R168).
While the host walks, what `agentWait` has not brought into the TLB has faulted. -/
def State.agentPage (s : State) (asid : Nat) (va : Quad) : Except Nat (State × PageAttr) :=
  let die := homeDie asid (lineOf va)
  match findPage (s.tlbOf die va) asid va with
  | some attr => .ok (s, attr)
  | none =>
    match s.walkFault asid va with
    | some code => .error code
    | none =>
      if s.hostWalksOn then .error fTranslation
      else
        match s.walk asid va with
        | .ok attr => .ok (s.loadTlb die asid va attr, attr)
        | .error code => .error code

/-- The buffered atomics of a line, with their cores. -/
def State.bufferedOn (s : State) (asid : Nat) (va : Quad) : List (Nat × AtomEntry) :=
  s.cores.flatMap fun e => (e.2.abuf.filter fun a => a.asid == asid && a.va / 512 == lineOf va).map fun a => (e.1, a)

/-- What a bank still has of a line is performed there and comes to the home. -/
def State.settleBank (s : State) (asid : Nat) (va : Quad) : State :=
  let run := fun (s : State) (o : Owed) => match o with
    | .bankAccess pa => (match execBankAccess pa s with | .next t => t | _ => s)
    | .combUpdate a v => (match execCombUpdate a v s with | .next t => t | _ => s)
    | .bankStoreAck a v => (match execBankStoreAck a v s with | .next t => t | _ => s)
    | _ => s
  (List.range (2 * s.bankq.length + s.bankMsgs.length)).foldl (fun s _ =>
    match s.bankAsks asid va with
    | [] => s
    | .bankAccess pa :: _ => run s (.bankAccess pa)
    | _ => match s.bankMsgs.find? fun m => m.asid == asid && m.va / 512 == lineOf va with
      | some m => match s.bankMsgs.find? fun x => x.samePath m with
        | some x => run s x.ask
        | none => s
      | none => s) s

/-- The translation of a page waits for the host: its walk is posted, or the host has to be asked (R25, R163). -/
def State.walkDue (s : State) (asid : Nat) (va : Quad) : Bool :=
  (findPage (s.tlbOf (homeDie asid (lineOf va)) va) asid va).isNone && !s.walkFailed asid va && (s.walkPending asid va || s.hostWalksOn)

/-- What a device agent waits for before it touches an address: memories that answer (R65), a walk of its page by the host (R163, R425), the domain's
time for a page of another package (R17), what banks have of the line (R40), and the merges of its line (R155).  None when it may go on. -/
def State.agentWait (s : State) (asid : Nat) (va : Quad) (acc : Nat) : Option State :=
  if s.pkg.memDown then some s
  else if s.walkDue asid va then some (if s.walkPending asid va then s else s.postWalk asid va acc true)
  else
    match s.agentPage asid va with
    | .error _ => none
    | .ok (_, attr) =>
      if s.heldPeer attr then some s
      else if !(s.bankAsks asid va).isEmpty then some (s.settleBank asid va)
      else
        match s.bufferedOn asid va with
        | [] => none
        | (core, e) :: _ => some (s.retryMerge core e)

/-- What a device agent waits for before an operation on several addresses of an address space. -/
def State.agentWaits (s : State) (asid : Nat) (acc : Nat) (vas : List Quad) : Option State := vas.findSome? fun va => s.agentWait asid va acc

/-- The page of an address lies in another package, whose memory is not accessed yet (R17). -/
def State.agentHeld (s : State) (asid : Nat) (va : Quad) : Bool :=
  match s.agentPage asid va with
  | .ok (_, attr) => s.heldPeer attr
  | .error _ => false

/-- The events that an engine's access to an address waits for before its page is at hand (R163), its package may be reached (R17) and the line's buffered
atomics are merged (R155). -/
def State.agentAsks (s : State) (asid : Nat) (va : Quad) (acc : Nat) : List Owed :=
  if s.walkDue asid va then [.walkPost asid va acc]
  else if s.agentHeld asid va then [.l2Miss asid va acc]
  else s.mergesDue asid va

/-- A device agent's access to a line that its home does not hold whole is an access at the bank: what the activation applies comes first, and the access
is stamped (R45, R54). -/
def State.agentTouch (s : State) (asid : Nat) (va : Quad) : State :=
  match s.agentPage asid va with
  | .error _ => s
  | .ok (s, attr) =>
    let pa := pageAddr attr va
    if !s.isMine pa || (s.line? asid va).any fun l => l.valid == allLanes then s
    else (((s.touchMsc (dpaLocal pa) 1).bankOpen (dpaLocal pa)).settleBank asid va).bankStamp (dpaLocal pa)

/-- An operation that needs addresses of an address space translated, which comes when nothing of theirs is waited for. -/
def State.asWalker (s : State) (asid : Nat) (acc : Nat) (vas : List Quad) (f : State → State) : State :=
  match s.agentWaits asid acc vas with
  | some t => t
  | none => vas.foldl (fun s va => s.clearFail asid va) (f s)

/-- A device agent's operation on addresses of an address space: it accesses them. -/
def State.asAgent (s : State) (asid : Nat) (acc : Nat) (vas : List Quad) (f : State → State) : State :=
  s.asWalker asid acc vas fun s => f (vas.foldl (fun s va => s.agentTouch asid va) s)

/-- One address on each line of `n` bytes from an address. -/
def linesFrom (va : Quad) (n : Nat) : List Quad :=
  (List.range ((va.toNat % 512 + n + 511) / 512)).map fun k => if k = 0 then va else BitVec.ofNat 64 ((va.toNat / 512 + k) * 512)

/-- A device agent reads `n` bytes of one sector: the home's copy, or memory. -/
def State.agentRead (s : State) (asid : Nat) (va : Quad) (n : Nat) : Except Nat (List Byte) :=
  match s.agentPage asid va with
  | .error code => .error code
  | .ok (s, attr) =>
    let pa := pageAddr attr va
    match s.line? asid va with
    | some l =>
      if hasSector l.valid (lineOff va) then .ok (l.data.bytes (lineOff va) n)
      else .ok (if s.isMine pa then s.mem.bytes (dpaLocal pa) n else s.peerMem.bytes pa n)
    | none => .ok (if s.isMine pa then s.mem.bytes (dpaLocal pa) n else s.peerMem.bytes pa n)

/-- The little-endian value that a device agent reads. -/
def State.agentNat (s : State) (asid : Nat) (va : Quad) (n : Nat) : Except Nat Nat :=
  (s.agentRead asid va n).map leNat

/-- A write within one sector, performed at package scope in one step: the home's copy and every core's, or memory.  What is on its way to the
home or to sharers of the line arrives first, and what the activation for it applies (R39, R179).  (In part DEDUCED, log entry 38.) -/
def State.writeThrough (s : State) (asid : Nat) (attr : PageAttr) (va : Quad) (bytes : List Byte) : State :=
  let pa := pageAddr attr va
  let s := s.settleBank asid va
  let kept := (s.line? asid va).any fun l => hasSector l.valid (lineOff va) && !l.comb
  let s := if s.isMine pa && !kept then ((s.bankOpen (dpaLocal pa)).settleBank asid va).bankStamp (dpaLocal pa) else s
  let s := s.drainLine asid (lineOf va)
  let s : State := match (s.line? asid va).filter fun l => hasSector l.valid (lineOff va) with
    | some l =>
      let s : State := s.writeHome asid va bytes []
      let s : State := if l.comb then s.setLine asid va { (s.line? asid va).getD l with dirty := l.dirty } else s
      if l.round.isSome then s
      else (s.cores.foldl (fun (s : State) c => s.putL1 c.1 asid va bytes []) s).rollLine (fun _ => true) (lineKey asid (lineOf va))
    | none => s
  if !s.isMine pa then s.peerPut pa bytes []
  else if kept then s
  else { s with mem := s.mem.putBytes (dpaLocal pa) bytes, poison := clearPoison s.poison s.eccSize (dpaLocal pa) bytes.length }

/-- R425: a device agent writes within one sector.  D is set in hardware when the leaf has V = 1 and W = 1; a write that faults or meets W = 0
is not performed.  (In part DEDUCED, log entry 38.) -/
def State.agentWrite (s : State) (asid : Nat) (va : Quad) (bytes : List Byte) : Except Nat State :=
  match s.agentPage asid va with
  | .error code => .error code
  | .ok (s, attr) =>
    if !attr.w then .error fWriteProt
    else if attr.d then .ok (s.writeThrough asid attr va bytes)
    else
      match s.leafOf asid va with
      | none => .error fTranslation
      | some a => if (s.physQuad a).getLsbD 2 then .ok ((s.setDirty asid va).writeThrough asid attr va bytes) else .error fWriteProt

/-- A write whose agent has no rule of its own: dropped when it fails (R425).  (In part DEDUCED, log entry 15.) -/
def State.agentPut (s : State) (asid : Nat) (va : Quad) (n v : Nat) : State :=
  match s.agentWrite asid va (leBytes n v) with
  | .ok s => s
  | .error _ => s

/-- Bytes written sector by sector, each dropped when it fails.  (In part DEDUCED, log entry 38.) -/
def State.agentPutBytes (s : State) (asid : Nat) (va : Quad) (bytes : List Byte) : State :=
  (List.range ((va.toNat % 32 + bytes.length + 31) / 32)).foldl (fun s k =>
    let first := if k = 0 then 0 else 32 * k - va.toNat % 32
    let last := 32 * (k + 1) - va.toNat % 32
    match s.agentWrite asid (va + BitVec.ofNat 64 first) ((bytes.take last).drop first) with
    | .ok s => s
    | .error _ => s) s

end Sys2Proof.Machine
end

