-- ==== Sys2Proof/Machine/Handles.lean ====
section
/-! DEFINITION. KV cache handles and the prefix index: major 0x18, FUNC 2 and 3 (R227 to R234, R236, R370, R371, R410, R411). -/

namespace Sys2Proof.Machine

/-! ### Handles and the handle table (Tables 12.6, 12.9) -/

/-- TENANT of a handle. -/
def kvTenant (h : Quad) : Nat := (h.extractLsb' 52 12).toNat
/-- GEN. -/
def kvGen (h : Quad) : Nat := (h.extractLsb' 42 10).toNat
/-- INDEX. -/
def kvIndex (h : Quad) : Nat := (h.extractLsb' 20 22).toNat
/-- BOUND. -/
def kvBound (h : Quad) : Nat := (h.extractLsb' 0 20).toNat

/-- A handle of its fields. -/
def kvHandle (tenant gen index bound : Nat) : Quad :=
  BitVec.ofNat 64 (tenant * 2 ^ 52 + gen % 1024 * 2 ^ 42 + index * 2 ^ 20 + bound)

/-- An entry of the handle table. -/
structure HEntry where
  /-- LIVE. -/
  live : Bool
  /-- GEN. -/
  gen : Nat
  /-- TENANT. -/
  tenant : Nat
  /-- D128. -/
  d128 : Bool
  /-- Context slot. -/
  ctx : Nat
  /-- LEN. -/
  len : Nat
  /-- NPAGE. -/
  npage : Nat
  /-- LIST. -/
  list : Quad
  deriving DecidableEq, Repr

/-- The physical address of an entry. -/
def State.hAddr (s : State) (i : Nat) : Nat := (s.pkg.kvTbl.extractLsb' 12 33).toNat * 4096 + 32 * i

/-- Read an entry. -/
def State.hEntry (s : State) (i : Nat) : HEntry :=
  let a := s.hAddr i
  let w := s.mem.quad a
  { live := w.getLsbD 0
    gen := (w.extractLsb' 1 10).toNat
    tenant := (w.extractLsb' 11 12).toNat
    d128 := w.getLsbD 23
    ctx := (w.extractLsb' 24 8).toNat
    len := s.mem.nat (a + 8) 4 % 2 ^ 20
    npage := s.mem.nat (a + 12) 4 % 2 ^ 16
    list := s.mem.quad (a + 16) }

/-- Write an entry. -/
def State.setHEntry (s : State) (i : Nat) (e : HEntry) : State :=
  let a := s.hAddr i
  let w := e.live.toNat + e.gen % 1024 * 2 + e.tenant * 2 ^ 11 + e.d128.toNat * 2 ^ 23 + e.ctx * 2 ^ 24
  { s with mem := (((s.mem.putNat a 8 w).putNat (a + 8) 4 e.len).putNat (a + 12) 4 e.npage).putNat (a + 16) 8 e.list.toNat }

/-- P: positions of a page (R228). -/
def HEntry.perPage (e : HEntry) : Nat := if e.d128 then 128 else 256

/-- Pages for a number of positions. -/
def HEntry.pagesFor (e : HEntry) (n : Nat) : Nat := (n + e.perPage - 1) / e.perPage

/-- R229: the check of a handle for a tenant. -/
def State.handleOk (s : State) (tn : Nat) (h : Quad) : Bool :=
  s.pkg.kvTbl.getLsbD 0 && kvIndex h != 0 &&
    (let e := s.hEntry (kvIndex h)
     e.live && e.gen == kvGen h && e.tenant == kvTenant h && e.tenant == tn)

/-- The lowest free entry from an index upwards. -/
def State.freeEntryFrom (s : State) : Nat → Nat → Option Nat
  | 0, _ => none
  | n + 1, i => if (s.hEntry i).live then s.freeEntryFrom n (i + 1) else some i

/-- R370: the lowest free entry above 0. -/
def State.freeEntry (s : State) : Option Nat :=
  if s.pkg.kvTbl.getLsbD 0 then s.freeEntryFrom (2 ^ 22 - 1) 1 else none

/-! ### The arena (R230, R231, R411) -/

/-- An arena header (Table 12.7). -/
structure Arena where
  /-- Virtual address of the header. -/
  addr : Quad
  /-- PAGES. -/
  pages : Quad
  /-- N. -/
  n : Nat
  /-- REFC. -/
  refc : Quad
  /-- FREE. -/
  free : Quad
  /-- TOP. -/
  top : Nat
  deriving DecidableEq, Repr

/-- The arena of a context slot; none when KVA is not valid or its header cannot be read.  (In part DEDUCED, log entry 13.) -/
def State.arena (s : State) (slot : Nat) : Option Arena :=
  let c := s.ctx slot
  let a := c.kva &&& 0xFFFFFFFFFFFFFFC0
  if !c.kva.getLsbD 0 then none
  else
    match s.agentRead c.asid a 32, s.agentNat c.asid (a + 32) 4 with
    | .ok bs, .ok top => some {
        addr := a
        pages := BitVec.ofNat 64 (leNat (bs.take 8))
        n := leNat ((bs.drop 8).take 4)
        refc := BitVec.ofNat 64 (leNat ((bs.drop 16).take 8))
        free := BitVec.ofNat 64 (leNat ((bs.drop 24).take 8))
        top }
    | _, _ => none

/-- The pages that a list names, in order; an entry that cannot be read names none. -/
def State.listPages (s : State) (asid : Nat) (list : Quad) (n : Nat) : List Nat :=
  (List.range n).filterMap fun i => (s.agentNat asid (list + BitVec.ofNat 64 (4 * i)) 4).toOption

/-- An audit event on the count of a page (R231): cause 0 saturation, 1 underflow. -/
def State.audit (s : State) (slot page cause : Nat) : State :=
  if s.pkg.duty.getLsbD 6 then
    s.raise 6 0 0x1000 (leBytes 4 page ++ [BitVec.ofNat 8 slot, BitVec.ofNat 8 cause]) (.audit slot page)
  else
    let (a, b) := s.kvAudit
    { s with kvAudit := if cause = 0 then (a + 1, b) else (a, b + 1) }

/-- A count goes up (R231). -/
def State.incPage (s : State) (slot : Nat) (a : Arena) (page : Nat) : State :=
  let asid := (s.ctx slot).asid
  let at_ := a.refc + BitVec.ofNat 64 (2 * page)
  match s.agentNat asid at_ 2 with
  | .error _ => s
  | .ok v =>
    if v = 0xFFFF then s
    else if v = 0xFFFE then (s.agentPut asid at_ 2 0xFFFF).audit slot page 0
    else s.agentPut asid at_ 2 (v + 1)

/-- A page goes onto the free stack (R411). -/
def State.pushPage (s : State) (slot page : Nat) : State :=
  let asid := (s.ctx slot).asid
  match s.arena slot with
  | none => s
  | some a =>
    (s.agentPut asid (a.free + BitVec.ofNat 64 (4 * a.top)) 4 page).agentPut asid (a.addr + 32) 4 (a.top + 1)

/-- The commands that passed R229 on a handle that names a page, and have not completed. -/
def State.pageUsers (s : State) (slot page : Nat) : List Nat :=
  (s.cmds.filter fun e => e.2.cls == 2 && e.2.st != .done && s.ctxOf (s.group e.2.gid) == slot &&
    (e.2.pages.contains page ||
      (let h := e.2.block.getD 0 0
       let x := s.hEntry (kvIndex h)
       s.handleOk (s.tenantOf (s.group e.2.gid)) h && (s.listPages (s.ctx slot).asid x.list x.npage).contains page))).map (·.1)

/-- A count goes down; at 0 the page goes onto FREE, or waits for the commands that may read it (R231). -/
def State.decPage (s : State) (slot : Nat) (a : Arena) (page : Nat) : State :=
  let asid := (s.ctx slot).asid
  let at_ := a.refc + BitVec.ofNat 64 (2 * page)
  match s.agentNat asid at_ 2 with
  | .error _ => s
  | .ok v =>
    if v = 0xFFFF then s
    else if v = 0 then (s.agentPut asid at_ 2 0xFFFF).audit slot page 1
    else
      let users := if v = 1 then s.pageUsers slot page else []
      let s := s.agentPut asid at_ 2 (v - 1)
      if v ≠ 1 then s
      else if users.isEmpty then s.pushPage slot page
      else { s with freedPages := s.freedPages ++ [⟨slot, page, users⟩] }

/-- What a push onto the free stack touches. -/
def State.pushNeeds (s : State) (slot : Nat) : List Quad :=
  match s.arena slot with
  | none => if (s.ctx slot).kva.getLsbD 0 then linesFrom ((s.ctx slot).kva &&& 0xFFFFFFFFFFFFFFC0) 36 else []
  | some a => linesFrom a.addr 36 ++ [a.free + BitVec.ofNat 64 (4 * a.top)]

/-- DEFERRED_PAGE_FREE (R231): a page whose users have completed goes onto FREE. -/
def execDeferredPageFree (slot page : Nat) (s : State) : Out :=
  .next (match s.freedPages.find? fun f => f.ctx == slot && f.page == page with
    | none => s
    | some f =>
      if f.waits.all fun c => ((s.cmds.get? c).map (·.st == .done)).getD true then
        s.asAgent (s.ctx slot).asid 1 (s.pushNeeds slot) fun s => ({ s with freedPages := s.freedPages.filter (· != f) } : State).pushPage slot page
      else s)

/-! ### Private handles (R236) -/

/-- The grid and sibling that a group's new handles are private to. -/
def State.siblingOf (s : State) (gid : Nat) : Option (Nat × Nat) :=
  let t := s.team (s.group gid).team
  if (s.grid t.grid).ballot.isSome then some (t.grid, t.sib) else none

/-- The first free private-handle slot of a grid's ballot. -/
def Ballot.freeSlot (b : Ballot) : Option Nat := b.slots.freeKey 56

/-- Record a handle in a private-handle slot, and in the record. -/
def State.recordPrivate (s : State) (grid sib r : Nat) (h : Quad) : State :=
  let g := s.grid grid
  match g.ballot with
  | none => s
  | some b =>
    let v := 2 ^ 63 + sib * 2 ^ 52 + h.toNat / 2 ^ 20 % 2 ^ 32 * 2 ^ 20
    (s.updGrid grid fun g => { g with ballot := some { b with slots := b.slots.set r (sib, h) } }).agentPut
      (s.ctx g.ctx).asid (b.addr + BitVec.ofNat 64 (0xE40 + 8 * r)) 8 v

/-- Clear a private-handle slot. -/
def State.clearSlot (s : State) (grid r : Nat) : State :=
  let g := s.grid grid
  match g.ballot with
  | none => s
  | some b =>
    (s.updGrid grid fun g => { g with ballot := some { b with slots := b.slots.del r } }).agentPut
      (s.ctx g.ctx).asid (b.addr + BitVec.ofNat 64 (0xE40 + 8 * r)) 8 0

/-- Whether two handles name one entry of one generation. -/
def sameHandle (a b : Quad) : Bool := a.extractLsb' 20 32 == b.extractLsb' 20 32

/-- The release of a private handle clears its slot. -/
def State.clearPrivate (s : State) (h : Quad) : State :=
  (s.grids.flatMap fun e => match e.2.ballot with
    | some b => (b.slots.filter fun x => sameHandle x.2.2 h).map fun x => (e.1, x.1)
    | none => []).foldl (fun s (x : Nat × Nat) => s.clearSlot x.1 x.2) s

/-! ### The operations at the slice (R230, R370) -/

/-- What a slice answers: a value for sD, or a fault with its address. -/
inductive Answer where
  /-- A value. -/
  | val (s : State) (v : Quad)
  /-- A fault in every lane of E. -/
  | fault (code : Nat) (addr : Quad)

/-- R370: the check of a new list's first page as a write. -/
def State.listFault (s : State) (asid : Nat) (list : Quad) : Option Nat :=
  match s.agentPage asid list with
  | .error code => some code
  | .ok (_, attr) => if attr.w then none else some fWriteProt

/-- Take a new entry (`hdl.mk`, and the first part of `hdl.ref`). -/
def State.takeEntry (s : State) (gid slot : Nat) (d128 : Bool) (len npage : Nat) (list : Quad) : Answer :=
  match s.freeEntry with
  | none => .val s 0
  | some i =>
    match s.listFault (s.ctx slot).asid list with
    | some code => .fault code list
    | none =>
      let tenant := s.tenantOf (s.group gid)
      let e := s.hEntry i
      let h := kvHandle tenant e.gen i 0xFFFFF
      let s' := s.setHEntry i { e with live := true, tenant, d128, ctx := slot, len, npage, list }
      match s.siblingOf gid with
      | none => .val s' h
      | some (grid, sib) =>
        match ((s.grid grid).ballot.map Ballot.freeSlot).getD none with
        | none => .fault fHandle 0
        | some r => .val (s'.recordPrivate grid sib r h) h

/-- The status word of R370. -/
def statusWord (code len : Nat) : Quad := BitVec.ofNat 64 (code + len * 2 ^ 32)

/-- `hdl.mk`.  (In part DEDUCED, log entry 13.) -/
def State.hdlMk (s : State) (gid slot : Nat) (x : Quad) : Answer :=
  match s.arena slot with
  | none => .val s 0
  | some _ => s.takeEntry gid slot (x.getLsbD 0) 0 0 (x &&& 0xFFFFFFFFFFC0)

/-- Pop pages from FREE and append them to a list: one page per unit of the first argument. -/
def State.popPages (s : State) (slot : Nat) (list : Quad) : Nat → Nat → State
  | 0, _ => s
  | k + 1, i =>
    match s.arena slot with
    | none => s
    | some a =>
      let asid := (s.ctx slot).asid
      let page := (s.agentNat asid (a.free + BitVec.ofNat 64 (4 * (a.top - 1))) 4).toOption.getD 0
      let s := s.agentPut asid (a.addr + 32) 4 (a.top - 1)
      let s := s.agentPut asid (list + BitVec.ofNat 64 (4 * i)) 4 page
      (s.incPage slot a page).popPages slot list k (i + 1)

/-- `hdl.ext`. -/
def State.hdlExt (s : State) (slot : Nat) (h : Quad) (n : Nat) : Answer :=
  let i := kvIndex h
  let e := s.hEntry i
  match s.arena slot with
  | none => .val s (statusWord 3 e.len)
  | some a =>
    let new := e.len + n
    let need := e.pagesFor new - e.npage
    if kvBound h < new then .val s (statusWord 2 e.len)
    else if a.top < need then .val s (statusWord 1 e.len)
    else .val ((s.popPages slot e.list need e.npage).setHEntry i { e with len := new, npage := e.npage + need }) (statusWord 0 new)

/-- `hdl.trunc`. -/
def State.hdlTrunc (s : State) (slot : Nat) (h : Quad) (new : Nat) : Answer :=
  let i := kvIndex h
  let e := s.hEntry i
  match s.arena slot with
  | none => .val s (statusWord 3 e.len)
  | some a =>
    if kvBound h < new || e.len < new then .val s (statusWord 2 e.len)
    else
      let keep := e.pagesFor new
      let gone := (s.listPages (s.ctx slot).asid e.list e.npage).drop keep
      .val ((gone.foldl (fun s p => s.decPage slot a p) s).setHEntry i { e with len := new, npage := min keep e.npage })
        (statusWord 0 new)

/-- `hdl.ref`: a new entry with a copy of the list at a new address, and every page counted once more.  (In part DEDUCED, log entry 13.) -/
def State.hdlRef (s : State) (gid slot : Nat) (h list : Quad) : Answer :=
  let e := s.hEntry (kvIndex h)
  let asid := (s.ctx slot).asid
  match s.arena slot with
  | none => .val s 0
  | some a =>
    let ps := s.listPages asid e.list e.npage
    match s.takeEntry gid slot e.d128 e.len e.npage list with
    | .fault code addr => .fault code addr
    | .val s v =>
      if v = 0 then .val s 0
      else
        let s := ps.zipIdx.foldl (fun s (x : Nat × Nat) => s.agentPut asid (list + BitVec.ofNat 64 (4 * x.2)) 4 x.1) s
        .val (ps.foldl (fun s p => s.incPage slot a p) s) v

/-- The release of an entry whose list names these pages (R230). -/
def State.relEntry (s : State) (slot : Nat) (a : Arena) (h : Quad) (ps : List Nat) : State :=
  let i := kvIndex h
  let s := ps.foldl (fun s p => s.decPage slot a p) s
  let e := s.hEntry i
  (s.setHEntry i { e with live := false, gen := (e.gen + 1) % 1024 }).clearPrivate h

/-- `hdl.rel`. -/
def State.hdlRel (s : State) (slot : Nat) (h : Quad) : Answer :=
  let e := s.hEntry (kvIndex h)
  match s.arena slot with
  | none => .val s (statusWord 3 e.len)
  | some a => .val (s.relEntry slot a h (s.listPages (s.ctx slot).asid e.list e.npage)) (statusWord 0 e.len)

/-! ### The prefix table (R232, R233) -/

/-- The set of a key of a tenant. -/
def State.pfxSet (s : State) (key tenant : Nat) : Nat :=
  (key % 2 ^ 64 ^^^ tenant) % ((s.pkg.pfxTbl.extractLsb' 48 16).toNat * 256)

/-- The physical address of entry k of a set. -/
def State.pfxAddr (s : State) (set k : Nat) : Nat := (s.pkg.pfxTbl.extractLsb' 12 33).toNat * 4096 + set * 256 + 32 * k

/-- An entry counts as present: it is valid, and its handle passes R229 for its tenant's context. -/
def State.pfxPresent (s : State) (tn a : Nat) : Bool :=
  let t := s.mem.quad (a + 24)
  t.getLsbD 12 && s.handleOk tn (s.mem.quad (a + 16))

/-- The handle of a present entry of a key. -/
def State.pfxLookup (s : State) (tn key : Nat) : Option Quad :=
  let set := s.pfxSet key tn
  (List.range 8).findSome? fun k =>
    let a := s.pfxAddr set k
    if s.mem.nat a 16 == key && ((s.mem.quad (a + 24)).extractLsb' 0 12).toNat == tn && s.pfxPresent tn a then
      some (s.mem.quad (a + 16))
    else none

/-- Whether an entry of a set is absent for every tenant: invalid, or of a handle that the handle table no longer knows. -/
def State.pfxVacant (s : State) (a : Nat) : Bool :=
  let t := s.mem.quad (a + 24)
  let h := s.mem.quad (a + 16)
  let e := s.hEntry (kvIndex h)
  !(t.getLsbD 12 && s.pkg.kvTbl.getLsbD 0 && kvIndex h != 0 && e.live && e.gen == kvGen h && e.tenant == kvTenant h &&
    e.tenant == (t.extractLsb' 0 12).toNat)

/-- Insert a handle under a key; none when the set is full. -/
def State.pfxInsert (s : State) (tn key : Nat) (h : Quad) : Option State :=
  let set := s.pfxSet key tn
  ((List.range 8).find? fun k => s.pfxVacant (s.pfxAddr set k)).map fun k =>
    let a := s.pfxAddr set k
    { s with
      mem := ((s.mem.putNat a 16 key).putNat (a + 16) 8 h.toNat).putNat (a + 24) 8 (tn + 4096)
      pfxStat := (s.pfxStat.1 + 1, s.pfxStat.2) }

/-- R233: the loser's part, on its behalf: a reference to the winner's handle at the list address of its own, which is released. -/
def State.pfxLose (s : State) (gid slot : Nat) (w h : Quad) : Answer :=
  let eh := s.hEntry (kvIndex h)
  let mine := s.listPages (s.ctx slot).asid eh.list eh.npage
  let s := { s with pfxStat := (s.pfxStat.1, s.pfxStat.2 + 1) }
  let tn := s.tenantOf (s.group gid)
  let live := s.handleOk tn h
  match (if s.handleOk tn w then s.hdlRef gid slot w eh.list else .val s 0) with
  | .fault code addr => .fault code addr
  | .val s v =>
    match s.arena slot with
    | some a => .val (if live then s.relEntry slot a h mine else s) v
    | none => .val s v

/-- The decision of an insertion by the slice (R233). -/
def State.pfxDecide (s : State) (i : Insertion) : Answer :=
  let slot := s.ctxOf (s.group i.gid)
  let tn := s.tenantOf (s.group i.gid)
  match s.pfxLookup tn i.key with
  | some w => s.pfxLose i.gid slot w i.h
  | none =>
    match s.pfxInsert tn i.key i.h with
    | some s => .val s i.h
    | none => .val s 0

/-! ### The words (R370, R371) -/

/-- A group that is to be saved, or to exit, stops at the word that follows (R370). -/
def State.stopNext (s : State) (gid : Nat) : State :=
  let g := s.group gid
  if g.runOpen && g.block == .none && (g.saving || g.leaves) then s.updGroup gid Group.endRun else s

/-- A group that waits for a slice gets its answer. -/
def State.answerSlice (s : State) (gid d : Nat) (a : Answer) : State :=
  (match a with
  | .val s v => s.resumeWord gid (fun s => s.updGrp fun g => g.writeS d v) (fun _ => [])
  | .fault code addr => s.resumeWord gid id (fun s => s.grp.faultAll code addr)).stopNext gid

/-- A handle word or `pfx.find`: the block is checked, and the group waits at the word for the slice. -/
def sliceWord (fin : Bool) (d p : BitVec 6) (n op : Nat) (bad : Group → List Quad → Option (Nat × Quad)) : State → Out :=
  issue { fin, sn := d.toNat :: blockRegs p n, oz := false, waits := true } fun s =>
    let g := s.grp
    let blk := blockOf g p n
    match bad g blk with
    | some (code, addr) => .did s (g.faultAll code addr) false
    | none =>
      -- `hdl.ref` takes its list address from sD on entry
      let blk := if op = 3 then blk ++ [g.readS d.toNat] else blk
      .stall (({ s with sliceq := s.sliceq ++ [s.cur] }.blockAt (.slice op d.toNat blk) fin).owe [.handleSlice s.cur])

/-- R370, `hdl.mk`. -/
def execHdlMk (fin : Bool) (d p : BitVec 6) (s : State) : Out :=
  sliceWord fin d p 1 0 (fun _ b =>
    if (b.getD 0 0).extractLsb' 1 5 != 0 || (b.getD 0 0).extractLsb' 48 16 != 0 then some (fIllegal, 0) else none) s

/-- R370, `hdl.ext`. -/
def execHdlExt (fin : Bool) (d p : BitVec 6) (s : State) : Out :=
  sliceWord fin d p 2 1 (fun _ b => if (b.getD 1 0).extractLsb' 20 44 != 0 then some (fIllegal, 0) else none) s

/-- R370, `hdl.trunc`. -/
def execHdlTrunc (fin : Bool) (d p : BitVec 6) (s : State) : Out :=
  sliceWord fin d p 2 2 (fun _ b => if (b.getD 1 0).extractLsb' 20 44 != 0 then some (fIllegal, 0) else none) s

/-- R370, `hdl.ref`. -/
def execHdlRef (fin : Bool) (d p : BitVec 6) (s : State) : Out :=
  sliceWord fin d p 1 3 (fun g _ =>
    if d = 0 then some (fIllegal, 0)
    else if (g.readS d.toNat).toNat % 64 != 0 then some (fAlign, g.readS d.toNat) else none) s

/-- R370, `hdl.rel`. -/
def execHdlRel (fin : Bool) (d p : BitVec 6) (s : State) : Out := sliceWord fin d p 1 4 (fun _ _ => none) s

/-- R371, `pfx.find`. -/
def execPfxFind (fin : Bool) (d p : BitVec 6) (s : State) : Out := sliceWord fin d p 2 5 (fun _ _ => none) s

/-- The key of a prefix word's block. -/
def pfxKey (b : List Quad) : Nat := (b.getD 0 0).toNat + (b.getD 1 0).toNat * 2 ^ 64

/-- R233, R371, `pfx.ins`: the handle is checked at issue, and the insertion goes to its slice with the partition's stamp. -/
def execPfxIns (fin : Bool) (d p : BitVec 6) (s : State) : Out :=
  issue { fin, sn := d.toNat :: blockRegs p 3, oz := false, waits := true } (fun s =>
    let g := s.grp
    let b := blockOf g p 3
    let h := b.getD 2 0
    if !s.handleOk (s.tenantOf g) h then .did s (g.faultAll fHandle 0) false
    else if !s.pkg.pfxTbl.getLsbD 0 then .did (s.updGrp fun g => g.writeS d.toNat 0) [] false
    else
      let src := s.groupSource g
      let t := s.stampTime src
      let die := s.pfxSet (pfxKey b) (s.tenantOf g) % 24
      let s := { s.stamp src with insertions := s.insertions ++ [(⟨s.cur, d.toNat, pfxKey b, h, (t, src), die, false⟩ : Insertion)] }
      .stall (s.blockAt (.slice 6 d.toNat b) fin)) s

/-! ### What a slice reads and writes of virtual memory (R425) -/

/-- The addresses of an arena that an operation touches which reads or writes page lists of so many pages, and takes `ext` pages from FREE: its
header, its free stack, and the counts of the pages. -/
def State.arenaNeeds (s : State) (slot : Nat) (lists : List (Quad × Nat)) (ext : Nat) : List Quad :=
  let c := s.ctx slot
  if !c.kva.getLsbD 0 then []
  else
    linesFrom (c.kva &&& 0xFFFFFFFFFFFFFFC0) 36 ++
      (match s.arena slot with
       | none => []
       | some a =>
         let n := (lists.map (·.2)).sum
         let popped := (List.range ext).filterMap fun k => (s.agentNat c.asid (a.free + BitVec.ofNat 64 (4 * (a.top - 1 - k))) 4).toOption
         let pages := lists.flatMap fun l => s.listPages c.asid l.1 l.2
         linesFrom (a.free + BitVec.ofNat 64 (4 * (a.top - ext))) (4 * (ext + n + 1)) ++ (lists.flatMap fun l => linesFrom l.1 (4 * l.2)) ++
           (popped ++ pages).map fun p => a.refc + BitVec.ofNat 64 (2 * p))

/-- The private-handle slots of the ballots that an operation on handles of a group touches (R236). -/
def State.ballotNeeds (s : State) (gid : Nat) (hs : List Quad) : List Quad :=
  let mine := (s.siblingOf gid).map (·.1)
  s.grids.flatMap fun e => match e.2.ballot with
    | some b => if mine == some e.1 || b.slots.any fun x => hs.any (sameHandle x.2.2) then linesFrom (b.addr + 0xE40) 448 else []
    | none => []

/-- What an operation on handles touches. -/
def State.handleNeeds (s : State) (gid slot : Nat) (hs : List Quad) (ext : Nat) : List Quad :=
  s.arenaNeeds slot (hs.map fun h => ((s.hEntry (kvIndex h)).list, (s.hEntry (kvIndex h)).npage + ext)) ext ++ s.ballotNeeds gid hs

/-- What a queued operation touches. -/
def State.sliceNeeds (s : State) (gid op : Nat) (b : List Quad) : List Quad :=
  let slot := s.ctxOf (s.group gid)
  let h := b.getD 0 0
  let e := s.hEntry (kvIndex h)
  match op with
  | 0 => (h &&& 0xFFFFFFFFFFC0) :: s.handleNeeds gid slot [] 0
  | 1 => s.handleNeeds gid slot [h] (e.pagesFor (e.len + (b.getD 1 0).toNat) - e.npage)
  | 3 => linesFrom (b.getD 1 0) (4 * e.npage + 4) ++ s.handleNeeds gid slot [h] 0
  | 5 => []
  | _ => s.handleNeeds gid slot [h] 0

/-! ### The slices -/

/-- The die of the slice that a queued operation goes to. -/
def State.sliceDie (s : State) (gid : Nat) : Nat :=
  match (s.group gid).block with
  | .slice 0 _ _ => s.freeEntry.getD 0 % 24
  | .slice 5 _ b => s.pfxSet (pfxKey b) (s.tenantOf (s.group gid)) % 24
  | .slice _ _ b => kvIndex (b.getD 0 0) % 24
  | _ => 0

/-- The operation that a group waits for, at its slice. -/
def State.sliceAnswer (s : State) (gid op : Nat) (b : List Quad) : Answer :=
  let slot := s.ctxOf (s.group gid)
  let h := b.getD 0 0
  let tn := s.tenantOf (s.group gid)
  let checked := fun (a : Answer) => if s.handleOk tn h then a else .fault fHandle 0
  match op with
  | 0 => s.hdlMk gid slot h
  | 1 => checked (s.hdlExt slot h (b.getD 1 0).toNat)
  | 2 => checked (s.hdlTrunc slot h (b.getD 1 0).toNat)
  | 3 => if s.pkg.kvTbl.getLsbD 0 then checked (s.hdlRef gid slot h (b.getD 1 0)) else .val s 0
  | 4 => checked (s.hdlRel slot h)
  | _ => .val s (if s.pkg.pfxTbl.getLsbD 0 then (s.pfxLookup tn (pfxKey b)).getD 0 else 0)

/-- HANDLE_SLICE_OPERATION (R228, R370): the operation that a group waits for, when no operation that came earlier waits at the same
slice. -/
def execHandleSliceOperation (gid : Nat) (s : State) : Out :=
  .next (match (s.group gid).block with
    | .slice op d b =>
      let before := s.sliceq.takeWhile (· != gid)
      if !s.sliceq.contains gid || before.any fun x => s.sliceDie x == s.sliceDie gid then s
      else
        s.asAgent (s.ctx (s.ctxOf (s.group gid))).asid 1 (s.sliceNeeds gid op b) fun s =>
          let s := { s with sliceq := s.sliceq.filter (· != gid) }
          s.answerSlice gid d (s.sliceAnswer gid op b)
    | _ => s)

/-- An insertion is settled with an answer. -/
def State.settleInsertion (s : State) (i : Insertion) (a : State → Answer) : State :=
  let s := { s with insertions := s.insertions.filter (· != i) }
  s.answerSlice i.gid i.d (a s)

/-- The insertion of a slice that is next in stamp order (R5); one that waits for a host's answer holds up those after it (R233). -/
def State.nextInsertion (s : State) (die : Nat) : Option Insertion :=
  (s.insertions.filter fun i => i.die == die).foldl (fun m i => match m with
    | none => some i
    | some j =>
      if i.stamp.1 < j.stamp.1 || (i.stamp.1 == j.stamp.1 && i.stamp.2 < j.stamp.2) then some i else some j) none

/-- What the decision of an insertion touches: the lists of both handles, the loser's list address with the winner's pages, counts and free stack. -/
def State.insertNeeds (s : State) (gid : Nat) (h w : Quad) : List Quad :=
  let list := (s.hEntry (kvIndex h)).list
  linesFrom list (4 * (s.hEntry (kvIndex w)).npage + 4) ++ s.handleNeeds gid (s.ctxOf (s.group gid)) [h, w] 0

/-- PFX_INSERT_DECIDE (R233): the slice of a die decides its next insertion, or posts a kind-7 record for it; at entry step 2, and for a context that is
being killed, it decides itself (R84; the latter DEDUCED, log entry 30). -/
def execPfxInsertDecide (die : Nat) (s : State) : Out :=
  .next (match s.nextInsertion die with
    | none => s
    | some i =>
      if i.asked || s.pkg.now < i.stamp.1 + 1024 then s
      else if s.pkg.duty.getLsbD 7 && !(s.pkg.pwr == 3 && 1 ≤ s.pkg.step) && !(s.ctx (s.ctxOf (s.group i.gid))).killing then
        let s := { s with insertions := s.insertions.map fun j => if j == i then { j with asked := true } else j }
        let tenant := s.tenantOf (s.group i.gid)
        s.raise 7 die 0x1003 (leBytes 16 i.key ++ leBytes 8 i.h.toNat ++ leBytes 2 tenant) (.insertion i.gid)
      else
        let slot := s.ctxOf (s.group i.gid)
        s.asAgent (s.ctx slot).asid 1 (s.insertNeeds i.gid i.h ((s.pfxLookup (s.tenantOf (s.group i.gid)) i.key).getD 0)) fun s =>
          s.settleInsertion i fun s => s.pfxDecide i)

/-- The insertion of a group. -/
def State.insertionOf (s : State) (gid : Nat) : Option Insertion := s.insertions.find? fun i => i.gid == gid

/-- R233: the answer to a kind-7 record: 0 inserts, 1 loses to the handle given. -/
def State.answerInsertion (s : State) (gid : Nat) (payload : List Byte) : State :=
  match s.insertionOf gid with
  | none => s
  | some i =>
    let slot := s.ctxOf (s.group gid)
    s.settleInsertion i fun s =>
      if payload.getD 0 0 == 0 then
        match s.pfxInsert (s.tenantOf (s.group gid)) i.key i.h with
        | some s => .val s i.h
        | none => .val s 0
      else s.pfxLose gid slot (BitVec.ofNat 64 (leNat ((payload.drop 8).take 8))) i.h

/-- R231: the answer to a kind-6 record. -/
def State.answerAudit (s : State) (slot page : Nat) (payload : List Byte) : State :=
  match s.arena slot with
  | some a =>
    if payload.getD 0 0 == 1 then
      s.agentPut (s.ctx slot).asid (a.refc + BitVec.ofNat 64 (2 * page)) 2 (leNat ((payload.drop 8).take 2))
    else s
  | none => s

end Sys2Proof.Machine
end

