-- ==== Sys2Proof/Machine/Tasks.lean ====
section
/-! DEFINITION. The task table: how an engine command is checked and issued, leaves the table, completes and retires (R210, R217,
R221 to R223, R229, R242, R358). -/

namespace Sys2Proof.Machine

/-! ### The checks of R358 -/

/-- What a check finds. -/
inductive Verdict where
  /-- It passes. -/
  | pass
  /-- The group stalls at the word, and these events are owed. -/
  | stall (asks : List Owed)
  /-- Every lane of E takes a fault, or parks for its service. -/
  | fault (code : Nat) (addr : Quad) (serviced : Bool)
  deriving DecidableEq, Repr

/-- The first check of a list that does not pass, or else the pass. -/
def firstBad : List Verdict → Verdict
  | [] => .pass
  | .pass :: vs => firstBad vs
  | v :: _ => v

/-- A condition that raises a fault when it is false. -/
def require (b : Bool) (code : Nat) : Verdict := if b then .pass else .fault code 0 false

/-- The check of the page of an address (Table 20.1). -/
def State.pageVerdict (s : State) (acc : Nat) (va : Quad) : Verdict :=
  match s.checkMany va acc with
  | .ok _ => .pass
  | .stall asks => .stall asks
  | .fault code => .fault code va false
  | .park code => .fault code va true

/-- What a verdict makes of a word: it goes on, it stalls, or every lane of E takes the fault or parks. -/
def State.stopOn (s : State) (v : Verdict) (k : Unit → Did) : Did :=
  match v with
  | .pass => k ()
  | .stall asks => .stall (s.owe asks)
  | .fault code addr serviced => .did (s.clearFail (s.asidOf s.grp) addr) ((lanesOf s.grp.e).map fun l => ⟨l, code, addr, serviced⟩) false

/-- The page of an address that a row word names, with its physical address, which its home's agent has (R163). -/
def State.pageAt (s : State) (acc : Nat) (va : Quad) : Except Verdict PageAttr :=
  match s.pageVerdict acc va with
  | .pass =>
    let asid := s.asidOf s.grp
    if s.walkDue asid va then .error (.stall (if s.walkPending asid va then [] else [.walkPost asid va acc]))
    else
      match s.agentPage asid va with
      | .ok (_, attr) => .ok attr
      | .error code => .error (.fault code va false)
  | v => .error v

/-- The checks of a list of addresses, in order; an address on the page just checked is not checked again. -/
def State.pagesVerdict (s : State) (acc : Nat) : Option Nat → List Quad → Verdict
  | _, [] => .pass
  | last, va :: rest =>
    if last = some (va.toNat / 65536) then s.pagesVerdict acc last rest
    else
      match s.pageVerdict acc va with
      | .pass => s.pagesVerdict acc (some (va.toNat / 65536)) rest
      | v => v

/-- A range of a buffer that a command names: the ownership and buffer-bounds checks (R143). -/
def State.bufferVerdict (s : State) (h : Quad) (off extent : Nat) : Verdict :=
  match s.buffer s.grp.team h with
  | none => .fault fOwnership 0 false
  | some (_, _, b) => if b.size < off + extent then .fault fBounds 0 false else .pass

/-! ### Issue (R210, R221 to R223) -/

/-- A command that nothing has issued. -/
def Cmd.init : Cmd where
  cls := 0
  op := 0
  gid := 0
  team := 0
  core := 0
  asid := 0
  in0 := none
  in1 := none
  out := none
  tag := 0
  flag := 0
  block := []
  grant := 0
  tsr := none
  holds := []
  freeAfter := []
  operands := []
  fmts := []
  st := .waiting
  progress := 0
  status := 0
  after := []
  round := 0
  waits := []
  stores := []
  req := 0
  pages := []
  keys := []
  d128 := false
  began := 0

/-- A command by number. -/
def State.cmd (s : State) (id : Nat) : Cmd := s.cmds.getD id Cmd.init

/-- Change a command, if there is one. -/
def State.updCmd (s : State) (id : Nat) (f : Cmd → Cmd) : State := { s with cmds := s.cmds.modify id f }

/-- Whether a command has completed (a retired command has left the machine). -/
def State.cmdDone (s : State) (id : Nat) : Bool := ((s.cmds.get? id).map (·.st == .done)).getD true

/-- R222: the commands of a team that must complete before tokens are ready. -/
def State.tokenDeps (s : State) (team : Nat) (ins : List Nat) : List Nat :=
  (s.cmds.filter fun e => e.2.team == team && e.2.st != .done && ins.any fun t => e.2.out == some t).map (·.1)

/-- A new command enters the task table and the counters of its group. -/
def State.enter (s : State) (c : Cmd) : State :=
  let id := s.fresh
  let g := s.grp
  let c := { c with gid := s.cur, team := g.team, core := g.core, asid := s.asidOf g, after := s.tokenDeps g.team c.ins }
  let s := { s with cmds := s.cmds.set id c, fresh := id + 1 }
  (s.updCore g.core fun k => { k with tasks := k.tasks ++ [id] }).updGrp fun g =>
    { g with cmds := g.cmds.set c.cls (g.cmds.getD c.cls [] ++ [id]) }

/-- A register is freed in some lane: a command reads all 16 (R123, R210). -/
def Group.freedSome (g : Group) (r : Nat) : Bool := r < 120 && g.freed.getD r 0 != 0

/-- An engine-command word (R358): the checks and the stall for the vector registers that its block names (R122, R123; DEDUCED, log entry 34), its own
checks, the merge of its core's buffered atomics (its issue is a release at core scope, R155, R185),
the stall while the table is full, and the entry into the table. -/
def engineWord (fin : Bool) (p : BitVec 6) (n : Nat) (out : BitVec 8) (oz : Bool) (check : State → List Quad → Verdict)
    (make : State → List Quad → Cmd → Cmd) (s : State) : Out :=
  issue { fin, sn := blockRegs p n, hg := true, out := outOk s.grp out, oz, waits := true } (fun s =>
    let g := s.grp
    let b := blockOf g p n
    let c := make s b { Cmd.init with in0 := hgIn0 g, in1 := hgIn1 g, out := hgOut g out, block := b }
    if (s.modeOf g).getLsbD 10 && c.holds.any g.freedSome then .did s (g.faultAll fFreed 0) false
    else if g.uncommitted c.holds then .stall s
    else
    s.stopOn (check s b) fun _ =>
      let merges := s.mergesOf g.core
      if !merges.isEmpty then .stall (s.owe merges)
      else if 64 ≤ (s.core g.core).tasks.length then .stall s
      else .did (s.enter c) [] false) s

/-! ### Leaving the table (R217, R221, R229) -/

/-- The stack that a row request goes to, as its page translates now; none while it does not translate into this package's HBM. -/
def State.rowStack (s : State) (c : Cmd) : Option Nat :=
  match s.agentPage c.asid (c.block.getD 0 0) with
  | .ok (_, attr) =>
    let pa := pageAddr attr (c.block.getD 0 0)
    if s.isMine pa && isHbm (dpaLocal pa) then some (stackOf (dpaLocal pa)) else none
  | .error _ => none

/-- R39: a slot of the stack of a row request's address is free, besides those of the requests on their way to it.  While the row's page is in no stack
none is (DESIGN CHOICE, log entry 39). -/
def State.slotFree (s : State) (c : Cmd) : Bool :=
  match s.rowStack c with
  | none => false
  | some n =>
    (s.stack n).reqs.length + (s.cmds.filter fun e =>
      e.2.cls == 3 && e.2.op == 2 && e.2.st == .running && e.2.progress == 0 && s.rowStack e.2 == some n).length < 4096

/-- Whether the engine of a command can accept it: a partition runs one matrix or attention command at a time (R216), a core one
attention command; a row request is offered once the stores before it are performed (R376), and stays while its base die has no slot for it
(R39). -/
def State.engineAccepts (s : State) (c : Cmd) : Bool :=
  let part := (s.group c.gid).part
  match c.cls with
  | 1 => !(s.cmds.any fun e => e.2.core == c.core && e.2.st == .running && (e.2.cls == 1 || e.2.cls == 2) && (s.group e.2.gid).part == part)
  | 2 => !(s.cmds.any fun e => e.2.core == c.core && e.2.st == .running &&
      (e.2.cls == 2 || (e.2.cls == 1 && (s.group e.2.gid).part == part)))
  | 3 => (c.waits.all fun n => match s.stores.get? n with
      | some st => st.performedAt 5
      | none => true) && s.slotFree c
  | _ => true

/-- A command that stands in its core's table can leave it. -/
def State.canLeave (s : State) (id : Nat) : Bool :=
  let c := s.cmd id
  c.st == .waiting && (s.core c.core).tasks.contains id && c.after.all s.cmdDone && s.engineAccepts c

/-- The tile that a matrix or attention command names, with how many from there. -/
def Cmd.tiles (c : Cmd) : Nat × Nat :=
  let d := if c.d128 then 4 else 2
  match c.cls, c.op with
  | 2, 0 => (((c.block.getD 2 0).extractLsb' 32 9).toNat, d + 1)
  | 2, _ => (((c.block.getD 1 0).extractLsb' 0 9).toNat, d + 1)
  | _, _ => (((c.block.getD 0 0).extractLsb' 0 9).toNat, 1)

/-- R220: the commands that a drain waits for: those of its partition that run, and name its tile. -/
def State.tileUsers (s : State) (c : Cmd) : List Nat :=
  let t := c.tiles.1
  (s.cmds.filter fun e => e.2.core == c.core && e.2.team == c.team && e.2.st == .running && (e.2.cls == 1 || e.2.cls == 2) &&
    (s.group e.2.gid).part == (s.group c.gid).part &&
    (let u := e.2.tiles
     u.1 ≤ t && t < u.1 + u.2)).map (·.1)

/-- The registers that a command read are freed where a last-use bit waited for the read (R217). -/
def State.freeHeld (s : State) (c : Cmd) : State :=
  c.freeAfter.foldl (fun s e =>
    { ({ s with cur := c.gid } : State).freeReg e.1 e.2 0 with cur := s.cur }) s

/-- The pages that the handle of a command names now. -/
def State.handlePages (s : State) (slot : Nat) (h : Quad) : List Nat :=
  let e := s.hEntry (kvIndex h)
  s.listPages (s.ctx slot).asid e.list e.npage

/-- The order number of the next round command that leaves a task table (R382): above that of every one at an engine. -/
def State.leaveOrder (s : State) : Nat :=
  s.cmds.foldl (fun n e => if e.2.cls == 4 && e.2.st == .running then max n (e.2.round + 1) else n) 0

/-- The walk that the place of a row request waits for (R25, R163). -/
def State.rowWalk (s : State) (c : Cmd) : Bool := c.cls == 3 && c.op == 2 && c.st == .waiting && s.walkDue c.asid (c.block.getD 0 0)

/-- TASK_LEAVE (R221): a command leaves its task table, reads its vector operands and the format registers, and releases the registers
that it held; a handle that fails its second check completes the command with STATUS 3 (R229). -/
def execTaskLeave (id : Nat) (s : State) : Out :=
  .next (let c := s.cmd id
    let before := (s.core c.core).tasks.takeWhile (· != id)
    if s.rowWalk c then (s.agentWait c.asid (c.block.getD 0 0) 0).getD s
    else if !s.canLeave id || before.any s.canLeave then s
    else
      let g := s.group c.gid
      let slot := s.ctxOf g
      let s := s.updCore c.core fun k => { k with tasks := k.tasks.filter (· != id) }
      let bad := c.cls == 2 && !s.handleOk (s.tenantOf g) (c.block.getD 0 0)
      let ops := c.holds.flatMap fun r => (List.range 16).map fun l => (16 * r + l, g.readV r l)
      let pages := if c.cls = 2 && !bad then c.pages ++ s.handlePages slot (c.block.getD 0 0) else c.pages
      let waits := if c.cls = 0 && c.op = 7 then s.tileUsers c else []
      let s := s.updCmd id fun c => { c with
        st := .running
        operands := ops.foldl (fun t x => t.set x.1 x.2) []
        fmts := (s.team c.team).fmt
        status := if bad then 3 else 0
        progress := if bad then 1 else 0
        pages
        after := waits
        round := s.leaveOrder
        began := s.pkg.now }
      s.freeHeld c)

/-! ### Completion (R222, R224) -/

/-- Whether the work of a running command is over: its last chunk is written, and its writes are performed at package scope; its step
has run. -/
def State.cmdOver (s : State) (c : Cmd) (total : Nat) : Bool :=
  c.st == .running && total ≤ c.progress && c.stores.all fun n => match s.stores.get? n with
    | some st => st.performedAt 5
    | none => true

/-- Commands retire from the counters of a group in issue order (R222); a retired command leaves the machine, and so does one whose group has gone. -/
def State.retire (s : State) (gid cls : Nat) : State :=
  let l := (s.group gid).cmds.getD cls []
  let gone := if (s.groups.get? gid).isSome then l.takeWhile s.cmdDone
    else (s.cmds.filter fun e => e.2.gid == gid && e.2.st == .done).map (·.1)
  { (s.updGroup gid fun g => { g with cmds := g.cmds.set cls (l.drop gone.length) }) with
    cmds := s.cmds.filter fun e => !gone.contains e.1 }

/-- The unit whose stamp a completion carries (Table 1.2). -/
def Cmd.unit (c : Cmd) : Nat :=
  match c.cls with
  | 0 => c.core % 24 * 64 + 4
  | 2 => c.core % 24 * 64 + 5
  | 4 => 0x1001
  | _ => c.core % 24 * 64 + 6

/-- The work counters of a team (Table 8.6), each saturating. -/
def Team.addWork (t : Team) (k n : Nat) : Team :=
  { t with work := t.work.zipIdx.map fun x => if x.2 = k then min 0xFFFFFFFFFFFFFFFF (x.1 + n) else x.1 }

/-- A command completes: its record goes to a stream, its class retires, and the exit of its group may now be performed (R302). -/
def State.finishCmd (s : State) (id : Nat) (stream : Option Nat) (record : Quad) : State :=
  let c := s.cmd id
  let s := s.updTeam c.team fun t => t.addWork 3 (s.pkg.now - c.began)
  let s := s.updCmd id fun c => { c with st := .done }
  let s := match stream with
    | some k => s.pushRecord c.gid k record
    | none => s
  (s.retire c.gid c.cls).groupGone c.gid

/-- A command completes with a record made from the time of its own unit's stamp. -/
def State.completeCmd (s : State) (id : Nat) (stream : Option Nat) (record : Nat → Quad) : State :=
  let c := s.cmd id
  let src := s.source (c.core / 24) c.unit
  let t := s.stampTime src
  (if stream.isSome then s.stamp src else s).finishCmd id stream (record t)

/-- R242: whether a byte may be written for a command: always, but for a command whose cancelled group has stopped only in the sibling's private
pages. -/
def State.mayWrite (s : State) (c : Cmd) (va : Quad) : Bool :=
  let t := s.team c.team
  if !t.cancelled || (s.groups.get? c.gid).any (fun g => g.exited != allLanes) then true
  else
    let grid := s.grid t.grid
    let asid := (s.ctx grid.ctx).asid
    match s.arena grid.ctx, grid.ballot with
    | some a, some b =>
      if va.toNat < a.pages.toNat then false
      else
        let page := (va.toNat - a.pages.toNat) / 65536
        let named := (b.slots.filter fun x => x.2.1 == t.sib).flatMap fun x => s.handlePages grid.ctx x.2.2
        page < a.n && named.contains page &&
          (s.agentNat asid (a.refc + BitVec.ofNat 64 (2 * page)) 2).toOption == some (named.filter (· == page)).length
    | _, _ => false

/-! ### An engine's accesses to memory -/

/-- The pieces of a range that each lie in one sector. -/
def pieces (va : Quad) (n : Nat) : List (Quad × Nat) :=
  (List.range ((va.toNat % 32 + n + 31) / 32)).map fun k =>
    let first := if k = 0 then 0 else 32 * k - va.toNat % 32
    let last := min n (32 * (k + 1) - va.toNat % 32)
    (va + BitVec.ofNat 64 first, last - first)

/-- What an engine's read of a piece waits for. -/
def State.engineAsks (s : State) (asid : Nat) (va : Quad) : List Owed :=
  match s.agentAsks asid va 0 with
  | q :: qs => q :: qs
  | [] =>
    match s.agentPage asid va with
    | .error _ => []
    | .ok (s, attr) =>
      if attr.nc then
        let pa := pageAddr attr va
        if s.isMine pa && s.bankq.any fun b => b.pa / 1024 == dpaLocal pa / 1024 then [.bankAccess (dpaLocal pa)] else []
      else s.homeAsks asid va 0

/-- An engine reads a piece: at the home, or at the memory side.  A page that has gone since the command's checks gives undefined
bytes. -/
def State.enginePiece (s : State) (asid : Nat) (va : Quad) (n : Nat) : State × List Byte × Bool :=
  let undef := ((s.clearFail asid va).bumpFree, (List.range n).map (Config.undefByte s.free), false)
  match s.agentPage asid va with
  | .error _ => undef
  | .ok (s, attr) =>
    match (if attr.nc then s.readNc asid attr va n 0 false else s.readHome ozCore asid va n 0 false none) with
    | .bytes s bs p => (s, bs, p)
    | _ => undef

/-- An engine reads a range. -/
def State.engineRead (s : State) (asid : Nat) (va : Quad) (n : Nat) : State × List Byte × Bool :=
  (pieces va n).foldl (fun r x =>
    let (s, bs, p) := r.1.enginePiece asid x.1 x.2
    (s, r.2.1 ++ bs, r.2.2 || p)) (s, [], false)

/-- A word of the issuing group reads a range for the group as a whole: it observes the writes that it reads (R181). -/
def State.groupRead (s : State) (asid : Nat) (va : Quad) (n : Nat) : State × List Byte × Bool :=
  let r := s.engineRead asid va n
  (r.1.updGrp fun g => g.observe ((linesFrom va n).flatMap fun a => s.storesAt asid a), r.2)

/-- What an engine's write of a piece waits for. -/
def State.engineStoreAsks (s : State) (asid : Nat) (va : Quad) : List Owed :=
  match s.agentAsks asid va 1 with
  | q :: qs => q :: qs
  | [] =>
    match s.agentPage asid va with
    | .error _ => []
    | .ok (s, attr) => s.storeAsks asid attr va

/-- The newest store is one of a command's. -/
def State.claimStore (s : State) (id : Nat) : State := s.updCmd id fun c => { c with stores := c.stores ++ [s.fresh - 1] }

/-- An engine writes a piece for a command: the store is recorded with the command.  `pz`: the bytes of it that it read as poison (R169). -/
def State.engineStore (s : State) (id asid : Nat) (va : Quad) (bytes : List Byte) (pz : List Nat) : State :=
  let c := s.cmd id
  if !s.mayWrite c va then s
  else
    match s.agentPage asid va with
    | .error _ => s.clearFail asid va
    | .ok (s, attr) => (s.storeTo c.core noGid asid attr va bytes pz).claimStore id

end Sys2Proof.Machine
end

