-- ==== Sys2Proof/Machine/Collectives.lean ====
section
/-! DEFINITION. Collectives: major 0x1B and the events of the rings (R381 to R388, R418, R419).  What the other members of a ring send
comes from outside, as the arguments of the events. -/

namespace Sys2Proof.Machine

/-! ### Ring slots (R381) -/

/-- The die of a group. -/
def Group.die (g : Group) : Nat := g.core / 24

/-- The members in a membership table's bytes after its header (Table 22.4). -/
def membersOf (bs : List Byte) (n : Nat) : List (Nat × Nat) :=
  (List.range n).map fun m =>
    let w := leNat ((bs.drop (8 * m)).take 8)
    (w % 64, w / 64 % 32)

/-- A membership table is valid for a die: N, no repeats, dies that exist, and the issuing die among them. -/
def tableValid (n : Nat) (ms : List (Nat × Nat)) (mine : Nat × Nat) : Bool :=
  2 ≤ n && n ≤ 64 && ms.eraseDups.length == ms.length && ms.all (fun m => m.2 < 24) && ms.contains mine

/-- A slot that a table has just been taken for. -/
def Seat.of (addr : Quad) (tmo gen : Nat) (members : List (Nat × Nat)) : Seat where
  addr
  tmo
  gen
  members
  next := 0
  disabled := false
  recovering := none
  probing := none
  returning := none
  reforming := none
  heard := 0

/-- The slot takes a table at a die (R381): what it holds at other dies stands. -/
def State.setRing (s : State) (slot ctx die : Nat) (seat : Seat) : State :=
  let old : Ring := match (s.rings.get? slot).filter fun r => r.ctx == ctx with
    | some r => r
    | none => ⟨ctx, [], []⟩
  { s with rings := s.rings.set slot { old with seats := old.seats.set die seat } }

/-- R381, `coll.ring`. -/
def execCollRing (fin : Bool) (d p : BitVec 6) (s : State) : Out :=
  issue { fin, sn := d.toNat :: blockRegs p 2, oz := false, waits := true } (fun s =>
    let g := s.grp
    let b := blockOf g p 2
    let va := b.getD 0 0
    let slot := ((b.getD 1 0).extractLsb' 0 6).toNat
    let asid := s.asidOf g
    if (b.getD 1 0).extractLsb' 6 58 != 0 then .did s (g.faultAll fIllegal 0) false
    else if va.toNat % 64 != 0 then .did s (g.faultAll fAlign va) false
    else s.stopOn (s.pageVerdict 0 va) fun _ =>
      match s.engineAsks asid va with
      | q :: qs => .stall (s.owe (q :: qs))
      | [] =>
        let w := leNat (s.engineRead asid va 8).2.1
        let n := w % 128
        let m := if 64 < n then 0 else n
        s.stopOn (s.pagesVerdict 0 none (pagesOf va (8 + 8 * m))) fun _ =>
          match (pieces va (8 + 8 * m)).flatMap fun x => s.engineAsks asid x.1 with
          | q :: qs => .stall (s.owe (q :: qs))
          | [] =>
            let (s', bs, _) := s.groupRead asid va (8 + 8 * m)
            let ms := membersOf (bs.drop 8) m
            let tmo := if w / 2 ^ 8 % 256 = 0 then 20 else w / 2 ^ 8 % 256
            let slotCtx := s.ctxOf g
            let other := match s.rings.get? slot with
              | some r => r.ctx != slotCtx && (s.ctx r.ctx).live
              | none => false
            let opened := match s.rings.get? slot with
              | some r => r.rounds.any fun x => x.die == g.die
              | none => false
            let status := if other then 1 else if !tableValid n ms (s.pkg.id, g.die) then 2 else if opened then 3 else 0
            let s' := if status = 0 then s'.setRing slot slotCtx g.die (.of va tmo (w / 2 ^ 16 % 65536) ms) else s'
            .did (s'.updGrp fun g => g.addPending (.scalar d.toNat (BitVec.ofNat 64 status))) [] false) s

/-! ### Round commands (R382, R383) -/

/-- SRC of a round block. -/
def rndSrc (b : List Quad) : Quad := b.getD 0 0
/-- DST. -/
def rndDst (b : List Quad) : Quad := b.getD 1 0
/-- COUNT. -/
def rndCount (b : List Quad) : Nat := ((b.getD 2 0).extractLsb' 0 28).toNat
/-- TYPE. -/
def rndType (b : List Quad) : Nat := ((b.getD 2 0).extractLsb' 32 2).toNat
/-- OP. -/
def rndOp (b : List Quad) : Nat := ((b.getD 2 0).extractLsb' 34 2).toNat
/-- ROOT. -/
def rndRoot (b : List Quad) : Nat := ((b.getD 2 0).extractLsb' 36 6).toNat
/-- RING. -/
def rndRing (b : List Quad) : Nat := ((b.getD 2 0).extractLsb' 42 6).toNat
/-- Bytes of an element. -/
def rndSize (b : List Quad) : Nat := if rndType b = 3 then 2 else 4

/-- The index of a die of this package on a ring. -/
def State.memberIndex (s : State) (r : Seat) (die : Nat) : Nat :=
  (r.members.findIdx? fun m => m == (s.pkg.id, die)).getD 0

/-- What a slot holds at a die. -/
def State.seat? (s : State) (slot die : Nat) : Option Seat := (s.rings.get? slot).bind fun r => r.seats.get? die

/-- What a slot holds at a die for a context. -/
def State.ringAt (s : State) (slot ctx die : Nat) : Option Seat :=
  match s.rings.get? slot with
  | some r => if r.ctx = ctx then r.seats.get? die else none
  | none => none

/-- First element of chunk c of COUNT elements on a ring of n (R383). -/
def chunkStart (c count n : Nat) : Nat := c * count / n

/-- Bytes that a round of a command writes at a member: FUNC 0 `ar`, 1 `ag`, 2 `rs`, 3 `bc`. -/
def dstBytes (op : Nat) (b : List Quad) (n m : Nat) : Nat :=
  let count := rndCount b
  rndSize b * (match op with
    | 1 => n * count
    | 2 => chunkStart (m + 1) count n - chunkStart m count n
    | _ => count)

/-- R382: the checks of a round command.  (In part DEDUCED, log entry 17.) -/
def State.roundCheck (s : State) (op : Nat) (b : List Quad) : Verdict :=
  let g := s.grp
  let b2 := b.getD 2 0
  let ring := s.ringAt (rndRing b) (s.ctxOf g) g.die
  let n := (ring.map (·.members.length)).getD 2
  let m := (ring.map fun r => s.memberIndex r g.die).getD 0
  let z := rndSize b
  let opUsed := op == 0 || op == 2
  firstBad [
    require (b2.extractLsb' 28 4 == 0 && b2.extractLsb' 48 16 == 0 && (b.getD 3 0).extractLsb' 16 48 == 0 && rndCount b != 0 &&
      (if opUsed then rndOp b != 3 else rndOp b == 0) && (if op = 3 then ring.isNone || rndRoot b < n else rndRoot b == 0) &&
      (rndSrc b).toNat % z == 0 && (rndDst b).toNat % z == 0) fIllegal,
    s.pagesVerdict 0 none (pagesOf (rndSrc b) (z * rndCount b)),
    s.pagesVerdict 1 none (pagesOf (rndDst b) (dstBytes op b n m))]

/-- A round command. -/
def roundWord (fin : Bool) (p : BitVec 6) (out : BitVec 8) (op : Nat) (s : State) : Out :=
  engineWord fin p 4 out false (fun s b => s.roundCheck op b) (fun _ b c => { c with
    cls := 4, op, tag := ((b.getD 3 0).extractLsb' 0 16).setWidth 32 }) s

/-- R382, `coll.ar`. -/
def execCollAr (fin : Bool) (p : BitVec 6) (out : BitVec 8) (s : State) : Out := roundWord fin p out 0 s

/-- R382, `coll.ag`. -/
def execCollAg (fin : Bool) (p : BitVec 6) (out : BitVec 8) (s : State) : Out := roundWord fin p out 1 s

/-- R382, `coll.rs`. -/
def execCollRs (fin : Bool) (p : BitVec 6) (out : BitVec 8) (s : State) : Out := roundWord fin p out 2 s

/-- R382, `coll.bc`. -/
def execCollBc (fin : Bool) (p : BitVec 6) (out : BitVec 8) (s : State) : Out := roundWord fin p out 3 s

/-! ### The end of a round (R384) -/

/-- The slot that a round command names, its context and its die. -/
def State.roundPlace (s : State) (c : Cmd) : Nat × Nat × Nat := (rndRing c.block, (s.slotOfAsid c.asid).getD (s.ctxOf (s.group c.gid)), c.core / 24)

/-- A round command completes: its record goes to stream 3 of its group. -/
def State.finishRound (s : State) (id status silent : Nat) : State :=
  let s := { s with rings := s.rings.map fun (e : Nat × Ring) =>
    (e.1, { e.2 with rounds := e.2.rounds.filter fun x => x.cmd != id }) }
  s.completeCmd id (some 3) fun t =>
    BitVec.ofNat 64 ((s.cmd id).tag.toNat % 65536 + status * 2 ^ 16 + silent * 2 ^ 24 + t % 2 ^ 32 * 2 ^ 32)

/-- Bytes written for a command where it may write (R242), performed at once. -/
def State.putFor (s : State) (c : Cmd) (va : Quad) (bs : List Byte) : State :=
  let asid := c.asid
  (pieces va bs.length).foldl (fun (s : State) x =>
    if s.mayWrite c x.1 then
      match s.agentWrite asid x.1 ((bs.drop (x.1 - va).toNat).take x.2) with
      | .ok s => s
      | .error _ => s
    else s) s

/-- Bytes that the manual calls unpredictable. -/
def State.scramble (s : State) (c : Cmd) (va : Quad) (n : Nat) : State :=
  let seed := s.free
  s.bumpFree.putFor c va ((List.range n).map (Config.undefByte seed))

/-- A round that has begun ends without its result: DST is unpredictable (R384). -/
def State.failRound (s : State) (id status silent : Nat) : State :=
  let c := s.cmd id
  let (slot, _, die) := s.roundPlace c
  let s := match s.seat? slot die with
    | some r => s.scramble c (rndDst c.block) (dstBytes c.op c.block r.members.length (s.memberIndex r die))
    | none => s
  s.finishRound id status silent

/-- Every open round of a slot at a die ends with a status and a member named. -/
def State.endRounds (s : State) (slot die status silent : Nat) : State :=
  match s.rings.get? slot with
  | none => s
  | some r => (r.rounds.filter fun x => x.die == die).foldl (fun (s : State) x => s.failRound x.cmd status silent) s

/-- Change a ring slot. -/
def State.updRing (s : State) (slot : Nat) (f : Ring → Ring) : State := { s with rings := s.rings.modify slot f }

/-- Change what a slot holds at a die. -/
def State.updSeat (s : State) (slot die : Nat) (f : Seat → Seat) : State := s.updRing slot fun r => { r with seats := r.seats.modify die f }

/-- Round commands that have left their table and wait at the engine of a die for a slot, in the order in which they left. -/
def State.waitingRounds (s : State) (slot die : Nat) : List Nat :=
  let opened := s.rings.flatMap fun e => e.2.rounds.map (·.cmd)
  let l := s.cmds.filter fun e => e.2.cls == 4 && e.2.st == .running && rndRing e.2.block == slot && e.2.core / 24 == die &&
    !opened.contains e.1
  (sortOn (fun e => e.2.round) l).map (·.1)

/-- R17: a ring with members in other packages does not move while the package catches up with the domain's time. -/
def State.ringHeld (s : State) (r : Seat) : Bool := s.pkg.sync && r.members.any fun m => m.1 != s.pkg.id

/-- COLL_ROUND_OPEN (R382, R385, R386): a command at the engine is numbered and its round opens; it waits while its member recovers, and
completes with STATUS 4 when its slot is not set or is disabled.  (In part DEDUCED, log entry 17.) -/
def execCollRoundOpen (id : Nat) (s : State) : Out :=
  .next (let c := s.cmd id
    let (slot, ctx, die) := s.roundPlace c
    if c.cls != 4 || (s.waitingRounds slot die).head? != some id then s
    else
      match s.ringAt slot ctx die with
      | none => s.finishRound id 4 127
      | some r =>
        if r.disabled then s.finishRound id 4 127
        else if r.recovering.isSome || s.ringHeld r then s
        else
          ((s.updRing slot fun x => { x with rounds := x.rounds ++ [⟨id, die, r.next, c.began⟩] }).updSeat slot die fun r =>
            { r with next := r.next + 1 }).updCmd id fun c => { c with round := r.next })

/-! ### The results (R383) -/

/-- An operation on two elements held as 32-bit patterns: FP32 for both floating types. -/
def reduceOp (typ op : Nat) (a x : Word) : Word :=
  match typ, op with
  | 0, 0 => a + x
  | 1, 0 => a + x
  | _, 0 => toWord (Fmt.fp32.fadd a.toNat x.toNat)
  | 0, 1 => if a.slt x then x else a
  | 0, _ => if x.slt a then x else a
  | 1, 1 => if a.ult x then x else a
  | 1, _ => if x.ult a then x else a
  | _, 1 => toWord (Fmt.fp32.minMax false a.toNat x.toNat)
  | _, _ => toWord (Fmt.fp32.minMax true a.toNat x.toNat)

/-- Element e of a member's SRC bytes, widened. -/
def srcElem (b : List Quad) (src : List Byte) (e : Nat) : Word :=
  let x := leNat ((src.drop (rndSize b * e)).take (rndSize b))
  if rndType b = 3 then toWord (x * 65536) else toWord x

/-- The bytes of a reduced element. -/
def elemOut (b : List Quad) (w : Word) : List Byte :=
  if rndType b = 3 then leBytes 2 (Fmt.bf16.rne (Fmt.fp32.decode w.toNat)) else leBytes 4 w.toNat

/-- The chunk of an element. -/
def chunkOf (count n e : Nat) : Nat := ((List.range n).find? fun c => chunkStart c count n ≤ e && e < chunkStart (c + 1) count n).getD 0

/-- R383: element e reduced over the members' sources, in the order of its chunk.  (In part DESIGN CHOICE, log entry 18.) -/
def reduceElem (b : List Quad) (srcs : List (List Byte)) (e : Nat) : Word :=
  let n := srcs.length
  let c := chunkOf (rndCount b) n e
  let x := fun (i : Nat) => srcElem b (srcs.getD ((c + i) % n) []) e
  (List.range (n - 1)).foldl (fun acc i => reduceOp (rndType b) (rndOp b) acc (x (i + 2))) (x 1)

/-- The bytes that a round writes to DST at member m.  (In part DESIGN CHOICE, log entry 18.) -/
def roundResult (op : Nat) (b : List Quad) (srcs : List (List Byte)) (m : Nat) : List Byte :=
  let n := srcs.length
  let count := rndCount b
  match op with
  | 0 => (List.range count).flatMap fun e => elemOut b (reduceElem b srcs e)
  | 1 => srcs.flatMap id
  | 2 =>
    let first := chunkStart m count n
    (List.range (chunkStart (m + 1) count n - first)).flatMap fun k => elemOut b (reduceElem b srcs (first + k))
  | _ => srcs.getD (rndRoot b) []

/-- The open rounds of a slot with a number, at this package's dies. -/
def Ring.numbered (r : Ring) (n : Nat) : List Round := r.rounds.filter fun x => x.num == n

/-- Whether a source and a destination overlap without being equal. -/
def partOverlap (b : List Quad) (dst : Nat) : Bool :=
  rndSrc b != rndDst b && (rndSrc b).toNat < (rndDst b).toNat + dst && (rndDst b).toNat < (rndSrc b).toNat + rndSize b * rndCount b

/-- What the sources and the destinations of rounds of a ring still wait for. -/
def State.roundAsks (s : State) (r : Seat) (xs : List Round) : List Owed :=
  xs.flatMap fun x =>
    let c := s.cmd x.cmd
    ((pieces (rndSrc c.block) (rndSize c.block * rndCount c.block)).flatMap fun y => s.engineAsks c.asid y.1) ++
      (linesFrom (rndDst c.block) (dstBytes c.op c.block r.members.length (s.memberIndex r x.die))).flatMap fun va => s.agentAsks c.asid va 1

/-- The source bytes of each member of a ring in a round: those that this package's members read, and those given for the others. -/
def State.readSources (s : State) (r : Seat) (xs : List Round) (given : List (List Byte)) : State × List (List Byte) :=
  r.members.zipIdx.foldl (fun (a : State × List (List Byte)) (m : (Nat × Nat) × Nat) =>
    match xs.find? fun x => m.1 == (a.1.pkg.id, x.die) with
    | some x =>
      let c := a.1.cmd x.cmd
      let (s, bs, _) := a.1.engineRead c.asid (rndSrc c.block) (rndSize c.block * rndCount c.block)
      (s, a.2 ++ [bs])
    | none => (a.1, a.2 ++ [given.getD m.2 []])) (s, [])

/-- The paired commands of this package agree, and so do the slots of their dies in N, GEN and members (R382). -/
def State.roundsAgree (s : State) (r : Ring) (xs : List Round) : Bool :=
  xs.all fun x => xs.all fun y =>
    let a := s.cmd x.cmd
    let b := s.cmd y.cmd
    let ring := fun (z : Round) => (r.seats.get? z.die).map fun m => (m.gen, m.members)
    a.op == b.op && (a.block.getD 2 0) == (b.block.getD 2 0) && ring x == ring y

/-- Every member of this package has joined the rounds with a number: those that the slot of each of their dies names. -/
def State.joined (s : State) (r : Ring) (xs : List Round) : Bool :=
  xs.all fun x => (((r.seats.get? x.die).map (·.members)).getD []).all fun m => m.1 != s.pkg.id || xs.any fun y => y.die == m.2

/-- One member's completion with STATUS 0. -/
def State.doneRound (s : State) (r : Seat) (srcs : List (List Byte)) (x : Round) : State :=
  let c := s.cmd x.cmd
  let bs := roundResult c.op c.block srcs (s.memberIndex r x.die)
  let s := if partOverlap c.block bs.length then s.scramble c (rndDst c.block) bs.length else s.putFor c (rndDst c.block) bs
  s.finishRound x.cmd 0 127

/-- COLL_ROUND_COMPLETE (R382 to R384): a round that every member has joined runs.  `agree` says that the members of other packages
have the same ring and the same command; `given` holds the source bytes of each member, by index, those of this package's members
apart.  (In part DESIGN CHOICE, log entry 18.) -/
def execCollRoundComplete (slot num : Nat) (agree : Bool) (given : List (List Byte)) (s : State) : Out :=
  .next (match s.rings.get? slot with
    | none => s
    | some r =>
      let xs := r.numbered num
      match xs.head?.bind fun x => r.seats.get? x.die with
      | none => s
      | some m =>
        if !s.joined r xs || s.ringHeld m then s
        else if !agree || !s.roundsAgree r xs then xs.foldl (fun (s : State) x => s.finishRound x.cmd 4 127) s
        else
          match s.roundAsks m xs with
          | [] =>
            let (s, srcs) := s.readSources m xs given
            xs.foldl (fun (s : State) x => s.doneRound m srcs x) s
          | asks => s.owe asks)

/-! ### Time-out and recovery (R385, R386, R418, R419) -/

/-- An abort goes around a ring from a die (R385, R387): it reaches the other members of this package, but for a silent one. -/
def State.sendAbort (s : State) (r : Seat) (slot die status silent : Nat) : State :=
  s.owe (r.members.zipIdx.filterMap fun m =>
    if m.1.1 == s.pkg.id && m.1.2 != die && m.2 != silent then some (.collAbort slot m.1.2 status silent) else none)

/-- R387, `coll.abort`. -/
def execCollAbort (fin : Bool) (a : BitVec 6) (s : State) : Out :=
  issueOk { fin, sn := [a.toNat], oz := false, waits := true } (fun s =>
    let g := s.grp
    let slot := ((g.readS a.toNat).extractLsb' 0 6).toNat
    match s.ringAt slot (s.ctxOf g) g.die with
    | none => s
    | some r => (s.endRounds slot g.die 2 127).sendAbort r slot g.die 2 127) s

/-- The upstream neighbour of a die's member on a ring. -/
def State.upstream (s : State) (r : Seat) (die : Nat) : Nat :=
  (s.memberIndex r die + r.members.length - 1) % r.members.length

/-- The upstream neighbour of a member is of this package and waits within a round: it sends step or wait flits (R385). -/
def State.upWaits (s : State) (slot die : Nat) : Bool :=
  match s.rings.get? slot with
  | none => false
  | some r => (r.seats.get? die).any fun m =>
    let up := m.members.getD (s.upstream m die) (0, 0)
    up.1 == s.pkg.id && r.rounds.any fun x => x.die == up.2

/-- The link over which a ring's flits come to a member die from a member of another package is down (R22). -/
def State.flitBarred (s : State) (die : Nat) (from_ : Nat × Nat) : Bool := from_.1 != s.pkg.id && (s.ports.getD die Port.init).down

/-- R385, R418: the upstream neighbour of a member die is silent while a round is open there: the link to it is down, or no flit of the ring has come
from it for TMO since the round opened.  (In part DEDUCED, log entry 17.) -/
def State.silentUp (s : State) (slot die : Nat) : Bool :=
  match s.rings.get? slot with
  | none => false
  | some r => (r.seats.get? die).any fun m => !s.upWaits slot die && r.rounds.any fun x => x.die == die &&
      (s.flitBarred die (m.members.getD (s.upstream m die) (0, 0)) || max x.since m.heard + 1000 * m.tmo ≤ s.pkg.now)

/-- COLL_TIMEOUT (R385, R386, R418): a member with a round open finds its upstream neighbour silent. -/
def execCollTimeout (slot die : Nat) (s : State) : Out :=
  .next (match s.seat? slot die with
    | none => s
    | some r =>
      if !s.silentUp slot die then s
      else
        let up := s.upstream r die
        let s := (s.endRounds slot die 1 up).sendAbort r slot die 1 up
        let s := s.updSeat slot die fun r => { r with recovering := some up }
        if s.pkg.duty.getLsbD 4 then
          let m := r.members.getD up (0, 0)
          s.raise 4 die 0x1001 (leBytes 8 r.addr.toNat ++
            [BitVec.ofNat 8 slot, BitVec.ofNat 8 m.1, BitVec.ofNat 8 m.2] ++ leBytes 2 r.gen) (.ring slot die)
        else s.updSeat slot die fun r => { r with probing := some (1, s.pkg.now) })

/-- COLL_ABORT_FLIT (R385, R387, R388): the open rounds of a member end with the flit's STATUS and SILENT; recovery follows a
time-out. -/
def execCollAbortFlit (slot die status silent : Nat) (s : State) : Out :=
  .next (match s.seat? slot die with
    | none => s
    | some _ =>
      let s := s.endRounds slot die status silent
      if status = 1 then s.updSeat slot die fun r => { r with recovering := some silent } else s)

/-- COLL_WAIT_FLIT (R385, R418): a step or wait flit comes to a member die from its upstream neighbour, which waits within a round.
(In part DEDUCED, log entry 18.) -/
def execCollWaitFlit (slot die : Nat) (s : State) : Out :=
  .next (match s.seat? slot die with
    | none => s
    | some m =>
      let up := m.members.getD (s.upstream m die) (0, 0)
      if (up.1 != s.pkg.id && !s.flitBarred die up) || s.upWaits slot die then s.updSeat slot die fun m => { m with heard := s.pkg.now } else s)

/-- COLL_PROBE (R386): the second probe, 5 µs after the first. -/
def execCollProbe (slot die : Nat) (s : State) : Out :=
  .next (match (s.seat? slot die).bind Seat.probing with
    | some (1, t) => if t + 5000 ≤ s.pkg.now then s.updSeat slot die fun r => { r with probing := some (2, s.pkg.now) } else s
    | _ => s)

/-- The member that a flit goes on to from a die's member, past a silent one. -/
def State.flitTo (s : State) (r : Seat) (die silent : Nat) : Nat × Nat :=
  let n := r.members.length
  let j := (s.memberIndex r die + 1) % n
  r.members.getD (if j == silent then (j + 1) % n else j) (0, 0)

/-- The member that a flit comes from to a die's member, past a silent one. -/
def State.flitFrom (s : State) (r : Seat) (die silent : Nat) : Nat × Nat :=
  let n := r.members.length
  let j := s.upstream r die
  r.members.getD (if j == silent then (j + n - 1) % n else j) (0, 0)

/-- A flit goes on around a ring from a member die: to another die of this package, or out of the package. -/
def State.passFlit (s : State) (r : Seat) (die silent : Nat) (flit : Nat → Owed) : State :=
  let m := s.flitTo r die silent
  if m.1 == s.pkg.id then s.owe [flit m.2] else s

/-- A member sends a re-form or a resume flit around the ring, and waits for its return (R386). -/
def State.sendRound (s : State) (slot die : Nat) (form : Bool) : State :=
  match s.seat? slot die with
  | none => s
  | some r =>
    let silent := r.recovering.getD 127
    (s.updSeat slot die fun r => { r with probing := none, returning := some (form, s.pkg.now) }).passFlit r die (if form then silent else 127) fun d =>
      if form then .collReform slot d r.gen silent else .collResume slot d

/-- COLL_PROBE_TIMEOUT (R386): a probe answered within 5 µs keeps the ring; two that are not answered re-form it.  A silent member of this package
answers.  (In part DEDUCED, log entry 17.) -/
def execCollProbeTimeout (slot die : Nat) (answered : Bool) (s : State) : Out :=
  .next (match s.seat? slot die with
    | none => s
    | some r =>
      match r.probing with
      | none => s
      | some (k, t) =>
        let answers := answered || r.recovering.any fun i => (r.members.getD i (0, 0)).1 == s.pkg.id
        if answers && s.pkg.now ≤ t + 5000 then s.sendRound slot die false
        else if !answers && k = 2 && t + 5000 ≤ s.pkg.now then s.sendRound slot die true
        else s)

/-- A member's recovery ends, at a flit of the ring. -/
def Seat.recovered (r : Seat) : Seat := { r with recovering := none, probing := none, returning := none, reforming := none }

/-- The bytes of a membership table with one entry more than the ring has, so that the place of the entry removed is cleared. -/
def Seat.tableBytes (r : Seat) (tmo : Nat) : List Byte :=
  leBytes 8 (r.members.length + tmo * 2 ^ 8 + r.gen * 2 ^ 16) ++
    (r.members.flatMap fun m => leBytes 8 (m.1 + m.2 * 64)) ++ leBytes 8 0

/-- R386: the silent entry leaves the table of a member, in its slot and in memory; a ring of one member is disabled. -/
def State.reform (s : State) (slot die silent : Nat) : State :=
  match s.rings.get? slot, s.seat? slot die with
  | some ring, some r =>
    let new : Seat := { r with
      members := r.members.eraseIdx silent, gen := (r.gen + 1) % 65536, next := 0, disabled := r.disabled || r.members.length ≤ 2 }
    let asid := (s.ctx ring.ctx).asid
    let old := (s.agentNat asid r.addr 8).toOption.getD 0
    (s.updSeat slot die fun _ => new).agentPutBytes asid r.addr (new.tableBytes (old / 2 ^ 8 % 256))
  | _, _ => s

/-- Rounds that wait at a disabled member complete with STATUS 4 (R386, R419).  (In part DEDUCED, log entry 17.) -/
def State.refuseWaiting (s : State) (slot die : Nat) : State :=
  (s.waitingRounds slot die).foldl (fun (s : State) id => s.finishRound id 4 127) s

/-- A re-form flit that has come to a member: the member rewrites its table, when its agent can, and its recovery ends; the flit goes on, but for one that
is back (R386). -/
def State.settleReform (s : State) (slot die : Nat) : State :=
  match s.rings.get? slot, s.seat? slot die with
  | some ring, some r =>
    match r.reforming with
    | none => s
    | some (gen, silent) =>
      let back := (r.returning.map (·.1)) == some true && r.recovering == some silent
      let pass := fun (s : State) =>
        let s := if r.gen = gen then s.reform slot die silent else s
        let s := s.updSeat slot die fun r => { r.recovered with heard := s.pkg.now }
        if back then s else s.passFlit r die silent fun d => .collReform slot d gen silent
      if r.gen = gen then s.asAgent (s.ctx ring.ctx).asid 1 (linesFrom r.addr 520) pass else pass s
  | _, _ => s

/-- A member has waited for the return of its re-form flit for 2 × TMO (R419). -/
def State.returnLate (s : State) (r : Seat) : Bool :=
  match r.returning with
  | some (true, t) => t + 2000 * r.tmo ≤ s.pkg.now
  | _ => false

/-- A flit of a recovery comes to a member die from the member before it, past a silent one: not over a link that is down, and not to a member whose ring
is disabled, or is about to be (R386, R419). -/
def State.takesFlit (s : State) (r : Seat) (die silent : Nat) : Bool :=
  !r.disabled && !s.returnLate r && !s.flitBarred die (s.flitFrom r die silent)

/-- A re-form flit reaches a member die. -/
def State.reformFlit (s : State) (slot die gen silent : Nat) : State :=
  match s.seat? slot die with
  | none => s
  | some r => if s.takesFlit r die silent then (s.updSeat slot die fun r => { r with reforming := some (gen, silent) }).settleReform slot die else s

/-- COLL_REFORM_FLIT (R386): a re-form flit of a generation comes from another package to a member. -/
def execCollReformFlit (slot die gen silent : Nat) (s : State) : Out :=
  .next (match s.seat? slot die with
    | none => s
    | some r => if (s.flitFrom r die silent).1 == s.pkg.id then s else s.reformFlit slot die gen silent)

/-- A resume flit reaches a member die, or comes back to the one that sent it. -/
def State.resumeFlit (s : State) (slot die : Nat) : State :=
  match s.seat? slot die with
  | none => s
  | some r =>
    if !s.takesFlit r die 127 then s
    else
      let s := s.updSeat slot die fun r => { r.recovered with heard := s.pkg.now }
      if (r.returning.map (·.1)) == some false then s else s.passFlit r die 127 fun d => .collResume slot d

/-- COLL_RESUME_FLIT (R386): a resume flit comes from another package to a member. -/
def execCollResumeFlit (slot die : Nat) (s : State) : Out :=
  .next (match s.seat? slot die with
    | none => s
    | some r => if (s.flitFrom r die 127).1 == s.pkg.id then s else s.resumeFlit slot die)

/-- The ring is disabled at a member. -/
def State.disableRing (s : State) (slot die : Nat) : State :=
  let s := s.updSeat slot die fun r => { r.recovered with disabled := true }
  match s.rings.get? slot with
  | none => s
  | some r =>
    let s := (r.rounds.filter fun x => x.die == die).foldl (fun (s : State) x => s.finishRound x.cmd 4 127) s
    s.refuseWaiting slot die

/-- REFORM_RETURN_TIMEOUT (R419): a member's re-form flit has not come back within 2 × TMO. -/
def execReformReturnTimeout (slot die : Nat) (s : State) : Out :=
  .next (match s.seat? slot die with
    | some r => if s.returnLate r then s.disableRing slot die else s
    | none => s)

/-- The member dies of this package on the ring that a die's slot holds. -/
def State.ownMembers (s : State) (slot die : Nat) : List Nat :=
  match s.seat? slot die with
  | some r => (r.members.filter fun m => m.1 == s.pkg.id).map (·.2)
  | none => []

/-- R386: the answer to a kind-4 record: 0 re-forms the ring, 1 keeps it, 2 disables it, at every member of this package.  (In part DESIGN CHOICE, log
entry 17.) -/
def State.answerRing (s : State) (slot die : Nat) (payload : List Byte) : State :=
  match payload.getD 0 0 with
  | 0 => s.sendRound slot die true
  | 1 => s.sendRound slot die false
  | _ => (s.ownMembers slot die).foldl (fun s d => s.disableRing slot d) s

/-- R388: at brown-out entry the package's open rounds end with STATUS 3. -/
def State.brownRounds (s : State) : State :=
  s.rings.foldl (fun (s : State) (e : Nat × Ring) =>
    e.2.rounds.foldl (fun (s : State) x =>
      let low := ((e.2.seats.get? x.die).bind fun r => r.members.findIdx? fun m => m.1 == s.pkg.id).getD 127
      s.failRound x.cmd 3 low) s) s

end Sys2Proof.Machine
end

