-- ==== Sys2Proof/Machine/Powers.lean ====
section
/-! DEFINITION. Powers and logarithms to base 2 rounded once, as the attention sequencer takes them (R225, R226).  An interval decides
the rounding; where it does not, an exact comparison of integer powers does, so that the result is the correctly rounded one. -/

namespace Sys2Proof

/-- Bits of the fixed-point numbers of the interval. -/
def powBits : Nat := 320

/-- The whole part of a square root. -/
def isqrt (n : Nat) : Nat := isqrtBits (Nat.log2 n / 2 + 1) n 0

/-- 2^(f / 2^q) for f < 2^q, between two fixed-point numbers: the product of the roots of 2 that the bits of f name, the highest first.
`lo` and `hi` bound the product so far, `rl` and `rh` the root of the bit before. -/
def exp2Interval (f : Nat) : Nat → (lo hi rl rh : Nat) → Nat × Nat
  | 0, lo, hi, _, _ => (lo, hi)
  | q + 1, lo, hi, rl, rh =>
    let rl := isqrt (rl * 2 ^ powBits)
    let rh := isqrt (rh * 2 ^ powBits) + 1
    if f / 2 ^ q % 2 = 1 then exp2Interval f q (lo * rl / 2 ^ powBits) (hi * rh / 2 ^ powBits + 1) rl rh
    else exp2Interval f q lo hi rl rh

/-- Whether 2^(n / 2^q) lies below b × 2^w. -/
def powBelow (n : Int) (q b : Nat) (w : Int) : Bool :=
  let e := n - w * 2 ^ q
  if 0 ≤ e then 2 ^ e.toNat < b ^ 2 ^ q else 1 < b ^ 2 ^ q * 2 ^ (-e).toNat

/-- The midpoint between a positive FP32 number and the next: a mantissa and its exponent. -/
def midAbove (c : Nat) : Nat × Int :=
  match Fmt.fp32.decode c with
  | .fin _ m e => (2 * m + 1, e - 1)
  | _ => (1, 128)

/-- 2^(n / 2^q) rounded by RoundNearestEven to FP32. -/
def exp2Round (n : Int) (q : Nat) : Nat :=
  let k := n / 2 ^ q
  let f := (n % 2 ^ q).toNat
  if 130 ≤ k then Fmt.fp32.infMag
  else if k < -160 then 0
  else if f = 0 then Fmt.fp32.rne (.fin false 1 k)
  else
    let r := exp2Interval f q (2 ^ powBits) (2 ^ powBits) (2 ^ (powBits + 1)) (2 ^ (powBits + 1))
    let a := Fmt.fp32.rne (.fin false r.1 (k - powBits))
    let b := Fmt.fp32.rne (.fin false r.2 (k - powBits))
    if a = b then a
    else
      let mid := midAbove a
      if powBelow n q mid.1 mid.2 then a else b

/-- Exp2 of R225: the exact power of 2 of an exact number, rounded; Exp2(−infinity) = 0. -/
def exp2Num : Num → Nat
  | .nan => Fmt.fp32.canonNaN
  | .inf neg => if neg then 0 else Fmt.fp32.infMag
  | .fin neg m e =>
    let n : Int := if neg then -(m : Int) else m
    if 0 ≤ e then exp2Round (n * 2 ^ e.toNat) 0 else exp2Round n (-e).toNat

/-- Bits of the logarithm that the interval finds. -/
def logBits : Nat := 320

/-- The first bits of log2 of a number in [1, 2) held between two fixed-point numbers of 800 bits, and how many were found. -/
def log2Interval : Nat → (lo hi acc n : Nat) → Nat × Nat
  | 0, _, _, acc, n => (acc, n)
  | k + 1, lo, hi, acc, n =>
    let lo := lo * lo / 2 ^ 800
    let hi := hi * hi / 2 ^ 800 + 1
    if 2 ^ 801 ≤ lo then log2Interval k (lo / 2) (hi / 2 + 1) (2 * acc + 1) (n + 1)
    else if hi < 2 ^ 801 then log2Interval k lo hi (2 * acc) (n + 1)
    else (acc, n)

/-- m + log2 l rounded by RoundNearestEven to FP32, for a positive finite l and a finite m (R226). -/
def addLog2Fin (neg : Bool) (mm : Nat) (me : Int) (lm : Nat) (le : Int) : Nat :=
  let t := Nat.log2 lm
  let whole : Int := le + t
  if lm = 2 ^ t then Fmt.fp32.rne ((Num.fin neg mm me).add (Num.ofInt whole 0 false))
  else
    let y := lm * 2 ^ (800 - t)
    let r := log2Interval logBits y y 0 0
    let lowBound := whole * 2 ^ r.2 + (r.1 : Int)
    let sum := fun (k : Int) => Fmt.fp32.rne ((Num.fin neg mm me).add (Num.ofInt k (-(r.2 : Int)) false))
    let a := sum lowBound
    let b := sum (lowBound + 1)
    if a = b then a
    else
      -- the boundary between the two roundings, and whether 2^(boundary − m) lies below l
      let pos := a < Fmt.fp32.signBit true
      let mid := if pos then midAbove a else midAbove (b % 2 ^ 31)
      let edge := (Num.fin (!pos) mid.1 mid.2).add (Num.fin neg mm me).neg
      match edge with
      | .fin en em ee =>
        let n : Int := if en then -(em : Int) else em
        let below := if 0 ≤ ee then powBelow (n * 2 ^ ee.toNat) 0 lm le else powBelow n (-ee).toNat lm le
        if below then b else a
      | _ => a

/-- m + log2 l of R226, for a positive finite l. -/
def addLog2 (m l : Nat) : Nat :=
  match Fmt.fp32.decode m, Fmt.fp32.decode l with
  | .fin neg mm me, .fin _ lm le => addLog2Fin neg mm me lm le
  | .inf neg, _ => Fmt.fp32.rne (.inf neg)
  | _, _ => Fmt.fp32.canonNaN

end Sys2Proof
end

