-- ==== Sys2Proof/Machine/Matrix.lean ====
section
/-! DEFINITION. Matrix and attention commands: major 0x16 FUNC 0 to 6 and major 0x18 FUNC 0 and 1 (R199, R202, R203, R211 to R217, R225,
R226, R358 to R363, R368, R369). -/

namespace Sys2Proof.Machine

/-! ### Shapes (R211, R212, R359, R361) -/

/-- ASRC of a request word. -/
def reqASrc (r : Quad) : Nat := (r.extractLsb' 0 2).toNat
/-- AREG. -/
def reqAReg (r : Quad) : Nat := (r.extractLsb' 2 4).toNat
/-- BSRC. -/
def reqBSrc (r : Quad) : Nat := (r.extractLsb' 6 2).toNat
/-- BREG. -/
def reqBReg (r : Quad) : Nat := (r.extractLsb' 8 4).toNat

/-- CONT of a grant word: 0 for 16 bits, 1 for 8, 2 for 4. -/
def grantCont (g : Quad) : Nat := (g.extractLsb' 4 2).toNat
/-- K. -/
def grantK (g : Quad) : Nat := (g.extractLsb' 6 8).toNat
/-- NSA. -/
def grantNsa (g : Quad) : Nat := (g.extractLsb' 14 2).toNat
/-- NSB. -/
def grantNsb (g : Quad) : Nat := (g.extractLsb' 16 2).toNat

/-- A format register of a team. -/
def Team.fmtReg (t : Team) (r : Nat) : Quad := t.fmt.getD r fmtReset

/-- The container code and SC16 of a source of a request. -/
def Team.source (t : Team) (src reg : Nat) : Nat × Bool :=
  if src = 2 then
    let f := Narrow.ofQuad (t.fmtReg reg)
    (if f.c = 8 then 1 else 2, f.sc16)
  else (0, false)

/-- Scale registers of an operand: none in 16-bit containers, one in 8-bit containers with blocks of 32, else two. -/
def scaleRegs (cont : Nat) (sc16 : Bool) : Nat :=
  match cont with
  | 0 => 0
  | 1 => if sc16 then 2 else 1
  | _ => 2

/-- R211: the grant word that answers a request. -/
def Team.decideShape (t : Team) (r : Quad) : Quad :=
  let a := t.source (reqASrc r) (reqAReg r)
  let b := t.source (reqBSrc r) (reqBReg r)
  if reqASrc r = 3 || reqBSrc r = 3 || r.extractLsb' 12 52 != 0 then 1 <<< 1
  else if a.1 ≠ b.1 then 2 <<< 1
  else if a.1 = 2 && (a.2 || b.2) then 3 <<< 1
  else
    let k := match a.1 with | 0 => 32 | 1 => 64 | _ => 128
    BitVec.ofNat 64 (1 + a.1 * 16 + k * 64 + scaleRegs a.1 a.2 * 2 ^ 14 + scaleRegs b.1 b.2 * 2 ^ 16)

/-- R359, `shape`. -/
def execShape (fin : Bool) (d a : BitVec 6) (s : State) : Out :=
  issueOk { fin, sn := [d.toNat, a.toNat], oz := false, waits := true } (fun s =>
    let r := s.grp.readS a.toNat
    let w := s.myTeam.decideShape r
    s.updGrp fun g => (if w.getLsbD 0 then { g with grant := w, grantReq := r } else g).writeS d.toNat w) s

/-- R198, R360, `fmtset`. -/
def execFmtset (fin : Bool) (n : BitVec 4) (a : BitVec 6) (s : State) : Out :=
  issue { fin, sn := [a.toNat], oz := false, waits := true } (fun s =>
    let x := s.grp.readS a.toNat
    if fmtValid x then .did (s.updTeam s.grp.team fun t => { t with fmt := t.fmt.set n.toNat x }) [] false
    else .did s (s.grp.faultAll fIllegal 0) false) s

/-- R212: the format registers that the grant names still have its container and block length. -/
def State.grantHolds (s : State) : Bool :=
  let g := s.grp
  let t := s.myTeam
  let one := fun (src reg ns : Nat) =>
    src != 2 ||
      (let x := t.source src reg
       x.1 == grantCont g.grant && (if x.1 = 1 then x.2 == (ns == 2) else !x.2))
  one (reqASrc g.grantReq) (reqAReg g.grantReq) (grantNsa g.grant) && one (reqBSrc g.grantReq) (reqBReg g.grantReq) (grantNsb g.grant)

/-! ### Fragments (R213, R214) -/

/-- Swz(o, 2^w). -/
def swz (o w : Nat) : Nat := o ^^^ (o / 2 ^ w % 2 ^ (w - 4) * 16)

/-- Byte o of a fragment that begins at a vector register and is held with span 2^w. -/
def fragByte (ops : Tbl Word) (vb w o : Nat) : Nat :=
  let p := swz o w
  ((ops.getD (16 * (vb + p / 64) + p % 64 / 4) 0).toNat / 2 ^ (8 * (p % 4))) % 256

/-- The code of element k of row i of a fragment with containers of c bits. -/
def fragCode (ops : Tbl Word) (vb w c i k : Nat) : Nat :=
  let o := 64 * i + k * c / 8
  match c with
  | 16 => fragByte ops vb w o + 256 * fragByte ops vb w (o + 1)
  | 8 => fragByte ops vb w o
  | _ => fragByte ops vb w o / 2 ^ (4 * (k % 2)) % 16

/-- R361: the number that a code stands for: BF16, FP16, or a narrow format with the fields of its register. -/
def elemValue (src : Nat) (reg : Quad) (code : Nat) : Num :=
  match src with
  | 0 => Fmt.bf16.decode code
  | 1 => Fmt.fp16.decode code
  | _ =>
    let f := Narrow.ofQuad reg
    f.decode (code % 2 ^ f.w)

/-- The bits of a container. -/
def contBits (cont : Nat) : Nat := match cont with | 0 => 16 | 1 => 8 | _ => 4

/-- Elements that one scale covers. -/
def blockLen (cont ns : Nat) : Nat := if cont = 1 && ns = 2 then 16 else 32

/-! ### The step of R203 -/

/-- The exact sum of a chunk's products; an exact zero is −0 only when every product is. -/
def chunkSum : List (Num × Num) → Num
  | [] => .fin false 0 0
  | [x] => x.1.mul x.2
  | x :: xs => (x.1.mul x.2).add (chunkSum xs)

/-- A chunk's sum scaled by 2^k, with the overflow of the scale product. -/
def scaledSum (sat : Bool) (k : Int) (v : Num) : Num :=
  match v with
  | .fin neg m e =>
    let big := match (Num.fin false m (e + k)).cmp (Num.fin false (2 ^ 25 - 1) 103) with | .lt => false | _ => true
    if big then (if sat then .fin neg (2 ^ 24 - 1) 104 else .inf neg) else .fin neg m (e + k)
  | v => v

/-- One chunk of R203 on an accumulator; the scale exponents are given, or none when a scale is NaN. -/
def accChunk (sat : Bool) (scale : Option Int) (acc : Nat) (xs : List (Num × Num)) : Nat :=
  let v := match scale with
    | none => Num.nan
    | some k => scaledSum sat k (chunkSum xs)
  Fmt.fp32.round 0 sat ((Fmt.fp32.decode acc).add v)

/-- The exponent of the product of two scale bytes (R202). -/
def scalePair (ea eb : Nat) : Option Int := if ea = 255 || eb = 255 then none else some ((ea : Int) - 127 + ((eb : Int) - 127))

/-- What a matrix step multiplies: the numbers and scales of its operands. -/
structure Operands where
  /-- Elements along K. -/
  k : Nat
  /-- Elements of a chunk. -/
  n : Nat
  /-- A(i, k). -/
  a : Nat → Nat → Num
  /-- B(k, j). -/
  b : Nat → Nat → Num
  /-- Scale of A at row i and element k. -/
  sa : Nat → Nat → Nat
  /-- Scale of B at column j and element k. -/
  sb : Nat → Nat → Nat

/-- R203: one element of the step. -/
def Operands.element (o : Operands) (sat : Bool) (acc i j : Nat) : Nat :=
  (List.range (o.k / o.n)).foldl (fun acc c =>
    accChunk sat (scalePair (o.sa i (c * o.n)) (o.sb j (c * o.n))) acc
      ((List.range o.n).map fun x => (o.a i (c * o.n + x), o.b (c * o.n + x) j))) acc

/-- The operands of an `mma` or `mmas` as the command recorded and read them. -/
def Cmd.operandsOf (c : Cmd) : Operands :=
  let cont := grantCont c.grant
  let bits := contBits cont
  let b0 := c.block.getD 0 0
  let b1 := c.block.getD 1 0
  let b2 := c.block.getD 2 0
  let va := (b0.extractLsb' 16 7).toNat
  let vb := (b0.extractLsb' 24 7).toNat
  let wa := (b1.extractLsb' 0 3).toNat + 4
  let wb := (b1.extractLsb' 3 3).toNat + 4
  let fa := c.fmts.getD (reqAReg c.req) fmtReset
  let fb := c.fmts.getD (reqBReg c.req) fmtReset
  let scale := fun (vs ns r k : Nat) =>
    if c.op = 3 && ns != 0 then
      let len := blockLen cont ns
      fragByte c.operands vs 4 (r * (grantK c.grant / len) + k / len)
    else 127
  { k := grantK c.grant
    n := 64 / bits
    a := fun i k => elemValue (reqASrc c.req) fa (fragCode c.operands va wa bits i k)
    b := fun k j => elemValue (reqBSrc c.req) fb (fragCode c.operands vb wb bits j k)
    sa := scale (b2.extractLsb' 0 7).toNat (grantNsa c.grant)
    sb := scale (b2.extractLsb' 8 7).toNat (grantNsb c.grant) }

/-! ### Tiles (R215) -/

/-- Write an element of a tile; elements that are +0 are not listed. -/
def Team.setTile (t : Team) (part tile i j v : Nat) : Team :=
  { t with tiles := if v = 0 then t.tiles.del (tileKey part tile i j) else t.tiles.set (tileKey part tile i j) (toWord v) }

/-- Every place of a tile, in row-major order. -/
def tilePlaces : List (Nat × Nat) := (List.range 32).flatMap fun i => (List.range 32).map fun j => (i, j)

/-- Write every element of a tile. -/
def Team.mapTile (t : Team) (part tile : Nat) (f : Nat → Nat → Nat → Nat) : Team :=
  tilePlaces.foldl (fun u x => u.setTile part tile x.1 x.2 (f (t.tile part tile x.1 x.2) x.1 x.2)) t

/-- ACC of the grid of a group: tiles declared per partition (Table 4.4). -/
def State.accOf (s : State) (g : Group) : Nat :=
  let r := (s.grid (s.team g.team).grid).record
  leNat ((r.drop 32).take 2)

/-! ### The words (R358, R362, R363) -/

/-- R358 step 2: registers below the budget. -/
def belowBudget (g : Group) (v n : Nat) : Bool := n = 0 || v + n ≤ g.budget

/-- R362: the checks of `mma` and `mmas`. -/
def State.mmaCheck (s : State) (scaled : Bool) (b : List Quad) : Verdict :=
  let g := s.grp
  let b0 := b.getD 0 0
  let b1 := b.getD 1 0
  let b2 := b.getD 2 0
  let va := (b0.extractLsb' 16 7).toNat
  let vb := (b0.extractLsb' 24 7).toNat
  let nsa := grantNsa g.grant
  let nsb := grantNsb g.grant
  let vsa := (b2.extractLsb' 0 7).toNat
  let vsb := (b2.extractLsb' 8 7).toNat
  firstBad [
    require (b0.extractLsb' 9 7 == 0 && !b0.getLsbD 23 && b0.extractLsb' 31 33 == 0 && va ≤ 88 && vb ≤ 88) fIllegal,
    require (b1.extractLsb' 7 9 == 0 && b1.extractLsb' 32 32 == 0) fIllegal,
    require (!scaled || (!b2.getLsbD 7 && b2.extractLsb' 15 49 == 0 && vsa + nsa ≤ 120 && vsb + nsb ≤ 120 && vsa < 120 && vsb < 120 &&
      (nsa != 0 || nsb != 0))) fIllegal,
    require s.grantHolds fIllegal,
    require (belowBudget g va 32 && belowBudget g vb 32 && (!scaled || (belowBudget g vsa nsa && belowBudget g vsb nsb))) fRegRange,
    require ((b0.extractLsb' 0 9).toNat < s.accOf g) fRegRange]

/-- The registers that a step reads. -/
def mmaHolds (g : Group) (scaled : Bool) (b : List Quad) : List Nat :=
  let b0 := b.getD 0 0
  let b2 := b.getD 2 0
  ((List.range 32).map fun k => (b0.extractLsb' 16 7).toNat + k) ++ ((List.range 32).map fun k => (b0.extractLsb' 24 7).toNat + k) ++
    (if scaled then ((List.range (grantNsa g.grant)).map fun k => (b2.extractLsb' 0 7).toNat + k) ++
      ((List.range (grantNsb g.grant)).map fun k => (b2.extractLsb' 8 7).toNat + k) else [])

/-- `mma` and `mmas`: op is their FUNC. -/
def mmaWord (fin : Bool) (p : BitVec 6) (out : BitVec 8) (scaled : Bool) (s : State) : Out :=
  engineWord fin p (if scaled then 3 else 2) out false (fun s b => s.mmaCheck scaled b) (fun s b c => { c with
    cls := 1
    op := if scaled then 3 else 2
    tag := ((b.getD 1 0).extractLsb' 16 16).setWidth 32
    grant := s.grp.grant
    req := s.grp.grantReq
    holds := mmaHolds s.grp scaled b }) s

/-- R362, `mma`. -/
def execMma (fin : Bool) (p : BitVec 6) (out : BitVec 8) (s : State) : Out := mmaWord fin p out false s

/-- R362, `mmas`. -/
def execMmas (fin : Bool) (p : BitVec 6) (out : BitVec 8) (s : State) : Out := mmaWord fin p out true s

/-- R363: the checks of `accz`. -/
def State.acczCheck (s : State) (b : List Quad) : Verdict :=
  let b0 := b.getD 0 0
  firstBad [
    require (b0.extractLsb' 9 7 == 0 && b0.extractLsb' 32 32 == 0) fIllegal,
    require ((b0.extractLsb' 0 9).toNat < s.accOf s.grp) fRegRange]

/-- R363, `accz`. -/
def execAccz (fin : Bool) (p : BitVec 6) (out : BitVec 8) (s : State) : Out :=
  engineWord fin p 1 out false (fun s b => s.acczCheck b) (fun _ b c =>
    { c with cls := 1, op := 4, tag := ((b.getD 0 0).extractLsb' 16 16).setWidth 32 }) s

/-- Table 21.3: the bytes of a buffer image. -/
def imageBytes (b : List Quad) : Nat := if ((b.getD 1 0).extractLsb' 0 2) = 0 then 4096 else 2048

/-- The span of a buffer image. -/
def imageSpan (b : List Quad) : Nat := ((b.getD 1 0).extractLsb' 2 3).toNat + 4

/-- A size rounded up to a span. -/
def roundUp (n s : Nat) : Nat := (n + s - 1) / s * s

/-- The offset of a buffer image. -/
def imageOff (b : List Quad) : Nat := ((b.getD 0 0).extractLsb' 32 16).toNat * 16

/-- R363: the checks of `accld` and `accst`. -/
def State.accMoveCheck (s : State) (b : List Quad) : Verdict :=
  let b0 := b.getD 0 0
  let b1 := b.getD 1 0
  firstBad [
    require (b0.extractLsb' 9 7 == 0 && (b1.extractLsb' 0 2).toNat < 2 && b1.extractLsb' 5 59 == 0) fIllegal,
    require ((b0.extractLsb' 0 9).toNat < s.accOf s.grp) fRegRange,
    s.bufferVerdict (b0.extractLsb' 16 16 |>.setWidth 64) (imageOff b) (roundUp (imageBytes b) (2 ^ imageSpan b))]

/-- `accld` and `accst`. -/
def accMove (fin : Bool) (p : BitVec 6) (out : BitVec 8) (op : Nat) (s : State) : Out :=
  engineWord fin p 2 out false (fun s b => s.accMoveCheck b) (fun _ b c =>
    { c with cls := 1, op, tag := ((b.getD 0 0).extractLsb' 48 16).setWidth 32 }) s

/-- R363, `accld`. -/
def execAccld (fin : Bool) (p : BitVec 6) (out : BitVec 8) (s : State) : Out := accMove fin p out 5 s

/-- R363, `accst`. -/
def execAccst (fin : Bool) (p : BitVec 6) (out : BitVec 8) (s : State) : Out := accMove fin p out 6 s

/-! ### Attention (R225, R226, R368, R369) -/

/-- The keys that an `attn` may read: how many of its 64 positions lie below L, the smaller of the handle's bound and LEN. -/
def State.attnKeys (s : State) (b : List Quad) : Nat :=
  let h := b.getD 0 0
  let p0 := ((b.getD 1 0).extractLsb' 32 20).toNat
  min 64 (min (kvBound h) (s.hEntry (kvIndex h)).len - p0)

/-- What the check of an `attn` waits for to read the part of a page list that its keys need (R163). -/
def State.listAsks (s : State) (slot : Nat) (b : List Quad) : List Owed :=
  let e := s.hEntry (kvIndex (b.getD 0 0))
  let p0 := ((b.getD 1 0).extractLsb' 32 20).toNat
  match (List.range (s.attnKeys b)).map fun j => (p0 + j) / e.perPage with
  | [] => []
  | q :: qs => (q :: qs).eraseDups.flatMap fun k => s.agentAsks (s.ctx slot).asid (e.list + BitVec.ofNat 64 (4 * k)) 0

/-- R228: the virtual address of a position, through its page of the list. -/
def State.posAddr (s : State) (slot : Nat) (h : Quad) (q : Nat) : Option Quad :=
  let e := s.hEntry (kvIndex h)
  let d := if e.d128 then 128 else 64
  match s.arena slot, s.agentNat (s.ctx slot).asid (e.list + BitVec.ofNat 64 (4 * (q / e.perPage))) 4 with
  | some a, .ok page => some (a.pages + BitVec.ofNat 64 (65536 * page + q % e.perPage * (4 * d)))
  | _, _ => none

/-- The addresses of the keys that an `attn` reads. -/
def State.keyAddrs (s : State) (slot : Nat) (b : List Quad) : List (Option Quad) :=
  (List.range (s.attnKeys b)).map fun j => s.posAddr slot (b.getD 0 0) (((b.getD 1 0).extractLsb' 32 20).toNat + j)

/-- R368: the checks of `attn`. -/
def State.attnCheck (s : State) (b : List Quad) : Verdict :=
  let g := s.grp
  let slot := s.ctxOf g
  let b1 := b.getD 1 0
  let b2 := b.getD 2 0
  let e := s.hEntry (kvIndex (b.getD 0 0))
  let d := if e.d128 then 128 else 64
  let ok := s.handleOk (s.tenantOf g) (b.getD 0 0)
  firstBad [
    require (b1.extractLsb' 52 12 == 0 && b2.extractLsb' 62 2 == 0 && (b.getD 3 0).extractLsb' 16 48 == 0) fIllegal,
    require ((b2.extractLsb' 32 9).toNat + (if ok then d / 32 else 0) < s.accOf g) fRegRange,
    s.bufferVerdict ((b1.extractLsb' 0 16).setWidth 64) ((b1.extractLsb' 16 16).toNat * 16) (if ok then 64 * d else 0),
    (if ok then (match s.listAsks slot b with
       | [] => s.pagesVerdict 0 none ((s.keyAddrs slot b).filterMap id)
       | q :: qs => .stall (q :: qs))
     else .pass),
    require ok fHandle]

/-- R368, `attn`. -/
def execAttn (fin : Bool) (p : BitVec 6) (init : Bool) (out : BitVec 8) (s : State) : Out :=
  engineWord fin p 4 out false (fun s b => s.attnCheck b) (fun s b c => { c with
    cls := 2
    op := 0
    flag := init.toNat
    tag := ((b.getD 3 0).extractLsb' 0 16).setWidth 32
    pages := s.handlePages (s.ctxOf s.grp) (b.getD 0 0)
    keys := s.keyAddrs (s.ctxOf s.grp) b
    d128 := (s.hEntry (kvIndex (b.getD 0 0))).d128 }) s

/-- R369: the checks of `attn.fin`. -/
def State.attnFinCheck (s : State) (b : List Quad) : Verdict :=
  let b1 := b.getD 1 0
  let ok := s.handleOk (s.tenantOf s.grp) (b.getD 0 0)
  let d := if (s.hEntry (kvIndex (b.getD 0 0))).d128 then 128 else 64
  firstBad [
    require (b1.extractLsb' 9 7 == 0 && b1.extractLsb' 32 32 == 0) fIllegal,
    require ((b1.extractLsb' 0 9).toNat + (if ok then d / 32 else 0) < s.accOf s.grp) fRegRange,
    require ok fHandle]

/-- R369, `attn.fin`. -/
def execAttnFin (fin : Bool) (p : BitVec 6) (out : BitVec 8) (s : State) : Out :=
  engineWord fin p 2 out false (fun s b => s.attnFinCheck b) (fun s b c => { c with
    cls := 2
    op := 1
    tag := ((b.getD 1 0).extractLsb' 16 16).setWidth 32
    pages := s.handlePages (s.ctxOf s.grp) (b.getD 0 0)
    d128 := (s.hEntry (kvIndex (b.getD 0 0))).d128 }) s

/-- What one `attn` works on: the numbers of its query rows, keys and values, and its parameters. -/
structure AttnArgs where
  /-- d. -/
  d : Nat
  /-- Keys below L. -/
  n : Nat
  /-- p0. -/
  p0 : Nat
  /-- q0 under the causal mask. -/
  q0 : Option Nat
  /-- σ. -/
  sigma : Num
  /-- Q(i, x). -/
  q : Nat → Nat → Num
  /-- K(j, x). -/
  k : Nat → Nat → Num
  /-- V(j, x). -/
  v : Nat → Nat → Num
  /-- MODE_SAT. -/
  sat : Bool

/-- The larger of two numbers that are no NaN. -/
def numMax (a b : Num) : Num := match a.cmp b with | .lt => b | _ => a

/-- Key j is valid for row i (R225).  (In part DEDUCED, log entry 14.) -/
def AttnArgs.valid (a : AttnArgs) (i j : Nat) : Bool :=
  j < a.n && (match a.q0 with
    | none => true
    | some q0 => a.p0 + j ≤ q0 + i)

/-- s(j) of row i.  (In part DEDUCED, log entry 14.) -/
def AttnArgs.score (a : AttnArgs) (i j : Nat) : Nat :=
  let dot := (List.range (a.d / 4)).foldl (fun acc c =>
    accChunk false (some 0) acc ((List.range 4).map fun x => (a.q i (4 * c + x), a.k j (4 * c + x)))) 0
  Fmt.fp32.rne (a.sigma.mul (Fmt.fp32.decode dot))

/-- The row of R225: the new m, l and outputs.  (In part DEDUCED, log entry 14.) -/
def AttnArgs.row (a : AttnArgs) (i m l : Nat) (o : Nat → Nat) : Nat × Nat × List Nat :=
  let nan := Fmt.fp32.canonNaN
  let ss := (List.range 64).map fun j => if a.valid i j then some (a.score i j) else none
  let bad := (Fmt.fp32.decode m).isNan || ss.any fun x => match x with
    | some y => (Fmt.fp32.decode y).isNan
    | none => false
  if bad then (nan, nan, List.replicate a.d nan)
  else
    let mx := ss.foldl (fun r x => match x with
      | some y => numMax r (Fmt.fp32.decode y)
      | none => r) (.inf true)
    let mn := numMax (Fmt.fp32.decode m) mx
    let low := mn == .inf true
    let alpha := if low then Fmt.fp32.rne (.fin false 1 0) else exp2Num ((Fmt.fp32.decode m).add mn.neg)
    let p := ss.map fun x => match x with
      | some y => if low then 0 else exp2Num ((Fmt.fp32.decode y).add mn.neg)
      | none => 0
    let l := p.foldl (fun l x => Fmt.fp32.fadd l x) (Fmt.fp32.fmul l alpha)
    let out := (List.range a.d).map fun c =>
      (List.range 16).foldl (fun acc ch =>
        accChunk a.sat (some 0) acc ((List.range 4).map fun x =>
          (Fmt.bf16.decode (Fmt.bf16.rne (Fmt.fp32.decode (p.getD (4 * ch + x) 0))), a.v (4 * ch + x) c)))
        (Fmt.fp32.round 0 a.sat ((Fmt.fp32.decode (o c)).mul (Fmt.fp32.decode alpha)))
    (if low then Fmt.fp32.rne (.inf true) else Fmt.fp32.rne mn, l, out)

/-- The 32 rows of an `attn` written into the tiles from `o`, with the statistics tile after them. -/
def AttnArgs.run (a : AttnArgs) (t : Team) (part o : Nat) : Team :=
  let st := o + a.d / 32
  (List.range 32).foldl (fun t i =>
    let r := a.row i (t.tile part st i 0) (t.tile part st i 1) fun c => t.tile part (o + c / 32) i (c % 32)
    let t := (t.setTile part st i 0 r.1).setTile part st i 1 r.2.1
    (List.range a.d).foldl (fun t c => t.setTile part (o + c / 32) i (c % 32) (r.2.2.getD c 0)) t) t

/-- `.init` (R368). -/
def attnInit (t : Team) (part o d : Nat) : Team :=
  let t := (List.range (d / 32 + 1)).foldl (fun t k => t.mapTile part (o + k) fun _ _ _ => 0) t
  (List.range 32).foldl (fun t i => t.setTile part (o + d / 32) i 0 (Fmt.fp32.rne (.inf true))) t

/-- A BF16 number in a list of bytes. -/
def bf16At (bs : List Byte) (k : Nat) : Num := Fmt.bf16.decode (leNat ((bs.drop (2 * k)).take 2))

/-- d of an attention command. -/
def Cmd.headDim (c : Cmd) : Nat := if c.d128 then 128 else 64

/-- What the keys and values of an `attn` still wait for.  (In part DEDUCED, log entry 15.) -/
def State.attnAsks (s : State) (asid : Nat) (c : Cmd) : List Owed :=
  c.keys.flatMap fun x => match x with
    | some va => (pieces va (4 * c.headDim)).flatMap fun y => s.engineAsks asid y.1
    | none => []

/-- The bytes of each key and value of an `attn`.  (In part DEDUCED, log entry 15.) -/
def State.readKeys (s : State) (asid : Nat) (c : Cmd) : State × List (List Byte) :=
  let n := 4 * c.headDim
  c.keys.foldl (fun (r : State × List (List Byte)) x => match x with
    | some va =>
      let (s, bs, _) := r.1.engineRead asid va n
      (s, r.2 ++ [bs])
    | none => (r.1.bumpFree, r.2 ++ [(List.range n).map (Config.undefByte r.1.free)])) (s, [])

/-- R226: one row of `attn.fin`: the new outputs and column 2, and whether it is empty; a row whose l or m is NaN is left. -/
def finRow (t : Team) (part o d i : Nat) : Team :=
  let st := o + d / 32
  let m := t.tile part st i 0
  let l := t.tile part st i 1
  match (Fmt.fp32.decode m).isNan, Fmt.fp32.decode l with
  | true, _ => t
  | _, .nan => t
  | _, .inf _ => t
  | _, .fin _ 0 _ =>
    let t := (List.range d).foldl (fun t c => t.setTile part (o + c / 32) i (c % 32) 0) t
    t.setTile part st i 2 (Fmt.fp32.rne (.inf true))
  | _, .fin true _ _ => t
  | _, .fin false lm le =>
    let t := (List.range d).foldl (fun t c =>
      t.setTile part (o + c / 32) i (c % 32) (match Fmt.fp32.decode (t.tile part (o + c / 32) i (c % 32)) with
        | .nan => Fmt.fp32.canonNaN
        | .inf n => Fmt.fp32.rne (.inf n)
        | .fin n om oe =>
          -- the quotient with a last bit that says whether anything was cut off
          let q := om * 2 ^ 60 / lm
          Fmt.fp32.rne (.fin n (2 * q + (if om * 2 ^ 60 % lm = 0 then 0 else 1)) (oe - le - 61)))) t
    t.setTile part st i 2 (addLog2 m l)

/-- The STATUS and the number of EMPTY rows of an `attn.fin`. -/
def finStatus (t : Team) (part o d : Nat) : Nat × Nat :=
  let st := o + d / 32
  let rows := (List.range 32).map fun i => (Fmt.fp32.decode (t.tile part st i 0), Fmt.fp32.decode (t.tile part st i 1))
  (if rows.any fun r => r.1.isNan || r.2.isNan then 1 else 0,
   (rows.filter fun r => !r.1.isNan && match r.2 with | .fin _ 0 _ => true | _ => false).length)

/-! ### Execution (R216) -/

/-- The buffer that a command of a team names, if it still holds it. -/
def State.cmdBuffer (s : State) (c : Cmd) (h : Quad) : Option Buf := (s.buffer c.team h).map fun x => x.2.2

/-- The effect of a matrix command on its team. -/
def State.matrixEffect (s : State) (c : Cmd) : State :=
  let part := (s.group c.gid).part
  let tile := ((c.block.getD 0 0).extractLsb' 0 9).toNat
  let sat := (s.grid (s.team c.team).grid).mode.getLsbD 21
  let h := ((c.block.getD 0 0).extractLsb' 16 16).setWidth 64
  match c.op with
  | 4 => s.updTeam c.team fun t => t.mapTile part tile fun _ _ _ => 0
  | 5 =>
    match s.cmdBuffer c h with
    | none => s
    | some b =>
      let src := s.team b.owner
      let wide := ((c.block.getD 1 0).extractLsb' 0 2) == 0
      let n := if wide then 4 else 2
      let at_ := fun (i j : Nat) => b.off + imageOff c.block + swz ((32 * i + j) * n) (imageSpan c.block)
      s.updTeam c.team fun t => t.mapTile part tile fun _ i j =>
        let x := leNat (src.spBytes (at_ i j) n)
        if wide then x else Fmt.fp32.rne (Fmt.bf16.decode x)
  | 6 =>
    match s.cmdBuffer c h with
    | none => s
    | some b =>
      let t := s.team c.team
      let wide := ((c.block.getD 1 0).extractLsb' 0 2) == 0
      let n := if wide then 4 else 2
      let at_ := fun (i j : Nat) => b.off + imageOff c.block + swz ((32 * i + j) * n) (imageSpan c.block)
      s.updTeam b.owner fun u => tilePlaces.foldl (fun u x =>
        let v := t.tile part tile x.1 x.2
        u.spWrite (at_ x.1 x.2) (leBytes n (if wide then v else Fmt.bf16.rne (Fmt.fp32.decode v)))) u
  | _ =>
    let o := c.operandsOf
    let ovw := (c.block.getD 1 0).getLsbD 6
    s.updTeam c.team fun t =>
      (t.mapTile part tile fun acc i j => o.element sat (if ovw then 0 else acc) i j).addWork 1 1

/-- The effect of an `attn` whose keys and values can be read. -/
def State.attnEffect (s : State) (c : Cmd) : State :=
  let g := s.group c.gid
  let b1 := c.block.getD 1 0
  let b2 := c.block.getD 2 0
  let d := c.headDim
  let o := (b2.extractLsb' 32 9).toNat
  let n := c.keys.length
  let (s, rows) := s.readKeys c.asid c
  let qbase := match s.cmdBuffer c ((b1.extractLsb' 0 16).setWidth 64) with
    | some b => (b.owner, b.off + (b1.extractLsb' 16 16).toNat * 16)
    | none => (c.team, 0)
  let qt := s.team qbase.1
  let a : AttnArgs := {
    d, n
    p0 := (b1.extractLsb' 32 20).toNat
    q0 := if b2.getLsbD 41 then some (b2.extractLsb' 42 20).toNat else none
    sigma := Fmt.fp32.decode (b2.extractLsb' 0 32).toNat
    q := fun i x => Fmt.bf16.decode (leNat (qt.spBytes (qbase.2 + (i * d + x) * 2) 2))
    k := fun j x => bf16At (rows.getD j []) x
    v := fun j x => if j < n then bf16At (rows.getD j []) (d + x) else .fin false 0 0
    sat := (s.grid (s.team c.team).grid).mode.getLsbD 21 }
  s.updTeam c.team fun t => a.run (if c.flag = 1 then attnInit t g.part o d else t) g.part o

/-- MATRIX_STEP_RUN (R216): a matrix or attention command that has left the task table runs on its partition's tiles.  (In part DESIGN CHOICE, log entry 19.) -/
def execMatrixStepRun (id : Nat) (s : State) : Out :=
  .next (let c := s.cmd id
    if c.st != .running || c.progress != 0 then s
    else if c.cls = 1 then (s.matrixEffect c).updCmd id fun c => { c with progress := 1 }
    else if c.cls = 2 then
      let g := s.group c.gid
      let d := c.headDim
      if c.op = 0 then
        match s.attnAsks c.asid c with
        | [] => (s.attnEffect c).updCmd id fun c => { c with progress := 1 }
        | asks => s.owe asks
      else
        let o := ((c.block.getD 1 0).extractLsb' 0 9).toNat
        let r := finStatus (s.team c.team) g.part o d
        (s.updTeam c.team fun t => (List.range 32).foldl (fun t i => finRow t g.part o d i) t).updCmd id fun c =>
          { c with progress := 1, status := r.1, flag := r.2 }
    else s)

end Sys2Proof.Machine
end

