-- ==== Sys2Proof/Machine/Copy.lean ====
section
/-! DEFINITION. Copies, drains and tensor shape records: major 0x16 FUNC 7 and major 0x17 (R146, R204, R206, R218 to R220, R364 to
R367). -/

namespace Sys2Proof.Machine

/-! ### Tensor shape records (R218, R365) -/

/-- The record in 64 bytes; none when it has a reserved value. -/
def tsrOf (bs : List Byte) : Option Tsr :=
  let at_ := fun (k n : Nat) => leNat ((bs.drop k).take n)
  let b8 := at_ 8 1
  let rank := b8 % 8
  let esz := b8 / 8 % 4
  let dims := (List.range 5).map fun k => at_ (12 + 4 * k) 4
  if rank < 1 || 5 < rank || at_ 9 3 != 0 || at_ 0 8 % 2 ^ esz != 0 then none
  else if dims.any fun d => d = 0 || 2 ^ 31 < d then none
  else if (dims.drop rank).any fun d => d != 1 then none
  else some {
    base := BitVec.ofNat 64 (at_ 0 8)
    rank, esz
    swz := b8 / 32
    dims
    strides := (List.range 4).map fun k => (BitVec.ofNat 64 (at_ (32 + 8 * k) 8)).toInt }

/-- R365, `tsr.set`: the record is read, and its slot waits for it; the run ends by waiting for the record. -/
def execTsrSet (fin : Bool) (slot : BitVec 4) (a : BitVec 6) (s : State) : Out :=
  issue { fin, sn := [a.toNat], oz := false, waits := true } (fun s =>
    let g := s.grp
    let va := g.readS a.toNat
    if va.toNat % 64 != 0 then .did s (g.faultAll fAlign va) false
    else
      s.stopOn (s.pageVerdict 0 va) fun _ =>
        let asid := s.asidOf g
        match (pieces va 64).flatMap fun x => s.engineAsks asid x.1 with
        | q :: qs => .stall (s.owe (q :: qs))
        | [] =>
          let (s, bs, _) := s.groupRead asid va 64
          .did (s.updGrp fun g' => g'.addPending (.record slot.toNat bs va g.e)) [] false) s

/-- A record read of the group that its slot still waits for (R365); a refused record leaves the slot as it is.  (In part DEDUCED, log entry 34.) -/
def Group.slotDue (g : Group) (slot : Nat) : Bool :=
  g.pend.any fun p => match p.res with
    | .record n bytes _ _ => n == slot && (tsrOf bytes).isSome
    | _ => false

/-- A named slot: it is awaited, was never loaded, or holds its record. -/
def State.slotVerdict (s : State) (slot : Nat) : Verdict :=
  if s.grp.slotDue slot then .stall []
  else require (s.myTeam.tsr.get? slot).isSome fIllegal

/-! ### Boxes (R218, R366) -/

/-- A box of a tensor: its sizes and its origin. -/
structure Box where
  /-- B0 to B4. -/
  size : List Nat
  /-- c0 to c4. -/
  org : List Int
  deriving DecidableEq, Repr

/-- A signed 32-bit field. -/
def field32 (x : Quad) (k : Nat) : Int := (x.extractLsb' k 32).toInt

/-- The box of a copy block (Table 21.5). -/
def boxOf (b : List Quad) : Box where
  size := (List.range 5).map fun k => ((b.getD 1 0).extractLsb' (8 * k) 8).toNat + 1
  org := [field32 (b.getD 2 0) 0, field32 (b.getD 2 0) 32, field32 (b.getD 3 0) 0, field32 (b.getD 3 0) 32,
    ((b.getD 1 0).extractLsb' 48 16 ++ (b.getD 0 0).extractLsb' 48 16 : BitVec 32).toInt]

/-- The box of a drain (R364). -/
def drainBox (b : List Quad) : Box where
  size := [32, 32, 1, 1, 1]
  org := [field32 (b.getD 1 0) 0, field32 (b.getD 1 0) 32, 0, 0, 0]

/-- Elements of a box. -/
def Box.count (b : Box) : Nat := b.size.foldl (· * ·) 1

/-- The coordinates in the box of its element number n, x0 fastest. -/
def Box.coords (b : Box) (n : Nat) : List Nat :=
  (b.size.foldl (fun (r : Nat × List Nat) z => (r.1 / z, r.2 ++ [r.1 % z])) (n, [])).2

/-- The address of an element of a box in range; none when it is out of range (R218). -/
def Box.addr (b : Box) (t : Tsr) (n : Nat) : Option Quad :=
  let cs := (b.org.zip (b.coords n)).map fun x => x.1 + (x.2 : Int)
  if (cs.zip t.dims).all fun x => 0 ≤ x.1 && x.1 < (x.2 : Int) then
    let strides : List Int := (2 ^ t.esz : Int) :: t.strides
    some (t.base + BitVec.ofInt 64 ((cs.zip strides).foldl (fun a x => a + x.1 * x.2) 0))
  else none

/-- The box of a command. -/
def Cmd.box (c : Cmd) : Box := if c.op = 7 then drainBox c.block else boxOf c.block

/-- Bytes of an element on the scratchpad side: those of the record, or 64 in the sidecar form (R367). -/
def elemBytes (t : Tsr) (b : List Quad) : Nat := if (b.getD 1 0).getLsbD 44 then 64 else 2 ^ t.esz

/-- The span of a record, as an exponent. -/
def Tsr.span (t : Tsr) : Nat := t.swz + 4

/-- The bytes that a box takes in its buffer: its size rounded up to the span. -/
def boxExtent (t : Tsr) (b : List Quad) : Nat := roundUp ((boxOf b).count * elemBytes t b) (2 ^ t.span)

/-- The addresses of the elements of a box in range, in box order. -/
def boxAddrs (x : Box) (t : Tsr) : List Quad := (List.range x.count).filterMap (x.addr t)

/-- The addresses to be checked for elements of n bytes: the first byte of each, and the first on a second page. -/
def checkAddrs (l : List Quad) (n : Nat) : List Quad := l.flatMap fun a =>
  let z := (a + BitVec.ofNat 64 (n - 1)).toNat / 65536
  if z = a.toNat / 65536 then [a] else [a, BitVec.ofNat 64 (z * 65536)]

/-- SYW of a copy block. -/
def sywOf (b : List Quad) : Nat := ((b.getD 0 0).extractLsb' 32 16).toNat

/-- R358, R366, R367: the checks of the copies. -/
def State.copyCheck (s : State) (op : Nat) (b : List Quad) : Verdict :=
  let b1 := b.getD 1 0
  let slot := (b1.extractLsb' 40 4).toNat
  let pf := op == 2
  let h := ((b.getD 0 0).extractLsb' 0 16).setWidth 64
  let scl := b1.getLsbD 44
  let t := (s.myTeam.tsr.get? slot).getD ⟨0, 1, 0, 0, [], []⟩
  let addrs := boxAddrs (boxOf b) t
  firstBad [
    require (b1.extractLsb' 45 3 == 0 && (!pf || (h == 0 && sywOf b == 0xFFFF && !scl))) fIllegal,
    s.slotVerdict slot,
    require ((((boxOf b).size).drop t.rank).all (· == 1)) fIllegal,
    (if pf then .pass else s.bufferVerdict h 0 (boxExtent t b)),
    (if pf || sywOf b == 0xFFFF then .pass
     else
       match s.bufferVerdict h (16 * sywOf b) 16 with
       | .pass => require (boxExtent t b ≤ 16 * sywOf b) fBounds
       | v => v),
    (if scl then
       match addrs.find? fun a => a.toNat % 512 != 0 with
       | none => s.pagesVerdict (if op = 1 then 1 else 0) none addrs
       | some a =>
         match s.pagesVerdict (if op = 1 then 1 else 0) none (addrs.takeWhile fun a => a.toNat % 512 == 0) with
         | .pass => .fault fAlign a false
         | v => v
     else s.pagesVerdict (if op = 1 then 1 else 0) none (checkAddrs addrs (2 ^ t.esz)))]

/-- A copy word. -/
def copyWord (fin : Bool) (p : BitVec 6) (out : BitVec 8) (op : Nat) (s : State) : Out :=
  engineWord fin p 4 out false (fun s b => s.copyCheck op b) (fun s b c => { c with
    cls := 0
    op
    tag := ((b.getD 0 0).extractLsb' 16 16).setWidth 32
    tsr := s.myTeam.tsr.get? ((b.getD 1 0).extractLsb' 40 4).toNat }) s

/-- R219, R366, `copy.in`. -/
def execCopyIn (fin : Bool) (p : BitVec 6) (out : BitVec 8) (s : State) : Out := copyWord fin p out 0 s

/-- R219, R366, `copy.out`. -/
def execCopyOut (fin : Bool) (p : BitVec 6) (out : BitVec 8) (s : State) : Out := copyWord fin p out 1 s

/-- R219, R366, `copy.pf`. -/
def execCopyPf (fin : Bool) (p : BitVec 6) (out : BitVec 8) (s : State) : Out := copyWord fin p out 2 s

/-- R364: the checks of `drain`. -/
def State.drainCheck (s : State) (b : List Quad) : Verdict :=
  let b0 := b.getD 0 0
  let slot := (b0.extractLsb' 9 4).toNat
  let mode := (b0.extractLsb' 13 2).toNat
  let t := (s.myTeam.tsr.get? slot).getD ⟨0, 1, 0, 0, [], []⟩
  firstBad [
    require (!b0.getLsbD 15 && b0.extractLsb' 32 32 == 0) fIllegal,
    s.slotVerdict slot,
    require (2 ≤ t.rank && t.esz == (if mode = 0 || mode = 3 then 2 else 1)) fIllegal,
    require ((b0.extractLsb' 0 9).toNat < s.accOf s.grp) fRegRange,
    s.pagesVerdict 1 none (checkAddrs (boxAddrs (drainBox b) t) (2 ^ t.esz))]

/-- R220, R364, `drain`. -/
def execDrain (fin : Bool) (p : BitVec 6) (z : Bool) (out : BitVec 8) (s : State) : Out :=
  engineWord fin p 2 out false (fun s b => s.drainCheck b) (fun s b c => { c with
    cls := 0
    op := 7
    flag := z.toNat
    tag := ((b.getD 0 0).extractLsb' 16 16).setWidth 32
    tsr := s.myTeam.tsr.get? ((b.getD 0 0).extractLsb' 9 4).toNat }) s

/-! ### Chunks (R146, R219) -/

/-- Elements of a chunk: at most 512 bytes. -/
def Cmd.chunk (c : Cmd) (t : Tsr) : Nat := 512 / (if c.op = 7 then 2 ^ t.esz else elemBytes t c.block)

/-- The numbers of the elements of the next chunk. -/
def Cmd.nextChunk (c : Cmd) (t : Tsr) : List Nat :=
  (List.range (min (c.chunk t) (c.box.count - c.progress))).map (c.progress + ·)

/-- The place in its buffer of byte k of an element (R218). -/
def bufPlace (t : Tsr) (n e k : Nat) : Nat := swz (e * n + k) t.span

/-- Bytes by place, of one chunk, each with whether it is poisoned; a later one takes the place of an earlier (R219). -/
def layBytes (m : Tbl (Byte × Bool)) (a : Nat) (bs : List (Byte × Bool)) : Tbl (Byte × Bool) :=
  bs.zipIdx.foldl (fun m x => m.set (a + x.2) x.1) m

/-- The runs of bytes at neighbouring places that each lie in one block of `cut` bytes: what a chunk writes as one access (R338). -/
def runsOf (cut : Nat) (m : Tbl (Byte × Bool)) : List (Nat × List (Byte × Bool)) :=
  m.foldr (fun e rs => match rs with
    | (a, bs) :: rest => if a = e.1 + 1 && a % cut != 0 then (e.1, e.2 :: bs) :: rest else (e.1, [e.2]) :: rs
    | [] => [(e.1, [e.2])]) []

/-- The places of the poisoned bytes of a run. -/
def poisonIn (bs : List (Byte × Bool)) : List Nat := (bs.zipIdx.filter fun x => x.1.2).map (·.2)

/-- A run within one 8-byte word is written to a scratchpad space, with its poison (R169). -/
def Team.spPut (u : Team) (a : Nat) (bs : List (Byte × Bool)) : Team :=
  let u := u.spWrite a (bs.map (·.1))
  if bs.any (·.2) && !u.spPoison.contains (a / 8 * 8) then { u with spPoison := u.spPoison ++ [a / 8 * 8] } else u

/-- Whether a copy block asks for the sidecar form. -/
def Cmd.scl (c : Cmd) : Bool := c.op != 7 && (c.block.getD 1 0).getLsbD 44

/-- The 64 bytes of the sidecar sector of the line of an address: zeros where the line has none (R205, R367). -/
def State.sidecarAt (s : State) (asid : Nat) (va : Quad) : List (Byte × Bool) :=
  let l := s.line? asid va
  let bs := ((l.bind (·.sidecar)).map (·.1)).getD []
  let pz := (l.map (·.poison)).getD []
  (List.range 64).map fun k => (bs.getD k 0, pz.any fun w => 512 ≤ w && w ≤ 512 + k && 512 + k < w + s.eccSize)

/-- The home's sidecar of a line takes scale bytes, with their poison. -/
def State.putSidecar (s : State) (asid : Nat) (va : Quad) (new : List Byte) (pz : List Nat) : State :=
  match s.line? asid va with
  | some l => s.setLine asid va { l with sidecar := some (new, true), poison := newPoison l.poison s.eccSize 512 new.length pz }
  | none => s

/-- R206: the scale bytes of a line's sidecar are written by a command, and go to the line's other copies as a store's words do; a line with no
sidecar drops them.  Updates on their way to the core's copy come before them. -/
def State.writeSidecar (s : State) (id asid : Nat) (attr : PageAttr) (va : Quad) (bs : List (Byte × Bool)) : State :=
  match s.line? asid va, ((s.line? asid va).bind (·.sidecar)).map (·.1.length) with
  | some l, some n =>
    let bs := bs.take n
    let new := bs.map (·.1)
    let pz := (poisonIn bs).map (512 + ·)
    let core := s.copyCore (s.cmd id).core (lineOf va)
    let key := lineKey asid (lineOf va)
    let st := { storeRec noGid core asid attr va 0 with pa := l.pa }
    let s := (s.newStore st).drainPath (homeSlice asid (lineOf va)) core
    let num := s.fresh - 1
    let s := match ((s.core core).l1.get? key).bind fun x => x.put s.eccSize 512 new pz with
      | some x => s.updCore core fun k => { k with l1 := k.l1.set key x }
      | none => s
    let s := s.putSidecar asid va new pz
    ((s.forwardAt asid va 512 new core num).settleStore num).claimStore id
  | _, _ => s

/-- What the next chunk of a copy still waits for. -/
def State.chunkAsks (s : State) (c : Cmd) (t : Tsr) (asid : Nat) : List Owed :=
  let n := 2 ^ t.esz
  (c.nextChunk t).flatMap fun e =>
    match c.box.addr t e with
    | none => []
    | some va =>
      if c.scl then s.engineAsks asid va
      else if c.op = 0 then (pieces va n).flatMap fun x => s.engineAsks asid x.1
      else if c.op = 7 && ((c.block.getD 0 0).extractLsb' 13 2).toNat = 3 then
        match s.agentAsks asid va 1 with
        | q :: qs => q :: qs
        | [] =>
          match s.agentPage asid va with
          | .ok (s, attr) =>
            (match s.placeOf asid attr va with
             | .asks l => l
             | _ => [])
          | .error _ => []
      else if c.op = 2 then
        match s.agentPage asid va with
        | .ok (_, attr) => if attr.nc then [] else (pieces va n).flatMap fun x => s.engineAsks asid x.1
        | .error _ => s.agentAsks asid va 0
      else (pieces va n).flatMap fun x => s.engineStoreAsks asid x.1

/-- The bytes of an element of a `copy.in`: zeros when it is out of range. -/
def State.inBytes (s : State) (asid : Nat) (c : Cmd) (t : Tsr) (e : Nat) : State × List (Byte × Bool) :=
  let n := elemBytes t c.block
  match c.box.addr t e with
  | none => (s, List.replicate n (0, false))
  | some va =>
    if c.scl then
      let s := match s.agentPage asid va with
        | .ok (s, attr) => if attr.nc then s else s.bring asid va 0
        | .error _ => s
      (s, s.sidecarAt asid va)
    else
      let (s, bs, p) := s.engineRead asid va n
      (s, bs.map (·, p))

/-- The bytes of an element in its buffer. -/
def outBytes (u : Team) (base : Nat) (t : Tsr) (n e : Nat) : List (Byte × Bool) :=
  (List.range n).map fun k =>
    let a := base + bufPlace t n e k
    (u.spByte a, u.spPoisoned a 1)

/-- A chunk that has met poison marks its command (R169, R219). -/
def State.markStatus (s : State) (id : Nat) (bad : Bool) : State := if bad then s.updCmd id fun c => { c with status := 1 } else s

/-- A chunk of a `copy.in` is written to its buffer, and poison with it. -/
def State.inChunk (s : State) (id asid : Nat) (t : Tsr) (b : Buf) : State :=
  let c := s.cmd id
  let n := elemBytes t c.block
  let (s, m) := (c.nextChunk t).foldl (fun (r : State × Tbl (Byte × Bool)) e =>
    let (s, bs) := r.1.inBytes asid c t e
    (s, (List.range ((n + 15) / 16)).foldl (fun m k => layBytes m (b.off + bufPlace t n e (16 * k)) ((bs.drop (16 * k)).take 16)) r.2)) (s, [])
  (s.updTeam b.owner fun u => (runsOf 8 m).foldl (fun u r => u.spPut r.1 r.2) u).markStatus id (m.any (·.2.2))

/-- The bytes that a chunk writes to memory, by address, from those of each element in range; every run within a sector is one access. -/
def State.putChunk (s : State) (id asid : Nat) (t : Tsr) (bytes : Nat → List (Byte × Bool)) : State :=
  let c := s.cmd id
  let m := (c.nextChunk t).foldl (fun m e => match c.box.addr t e with
    | some va => layBytes m va.toNat (bytes e)
    | none => m) []
  ((runsOf 32 m).foldl (fun s r => s.engineStore id asid (BitVec.ofNat 64 r.1) (r.2.map (·.1)) (poisonIn r.2)) s).markStatus id (m.any (·.2.2))

/-- A chunk of a `copy.out` is written to memory, or to the sidecars of its lines. -/
def State.outChunk (s : State) (id asid : Nat) (t : Tsr) (b : Buf) : State :=
  let c := s.cmd id
  let bytes := outBytes (s.team b.owner) b.off t (elemBytes t c.block)
  if c.scl then
    (c.nextChunk t).foldl (fun s e => match c.box.addr t e with
      | none => s
      | some va =>
        let s := s.markStatus id ((bytes e).any (·.2))
        if !s.mayWrite c va then s
        else match s.agentPage asid va with
          | .ok (s, attr) => if attr.nc then s else (s.bring asid va 1).writeSidecar id asid attr va (bytes e)
          | .error _ => s) s
  else s.putChunk id asid t bytes

/-- The bytes of an element of a drained tile in the form of a mode (R220). -/
def drainBytes (c : Cmd) (e : Nat) : List Byte :=
  let x := (c.operands.getD e 0).toNat
  match ((c.block.getD 0 0).extractLsb' 13 2).toNat with
  | 1 => leBytes 2 (Fmt.bf16.rne (Fmt.fp32.decode x))
  | 2 => leBytes 2 (Fmt.fp16.rne (Fmt.fp32.decode x))
  | _ => leBytes 4 x

/-- One element of a drain that adds, if it is in range (R220). -/
def State.drainAdd (s : State) (id asid : Nat) (t : Tsr) (e : Nat) : State :=
  let c := s.cmd id
  match c.box.addr t e with
  | none => s
  | some va =>
    if !s.mayWrite c va then s
    else
      match s.agentPage asid va with
      | .error _ => s
      | .ok (s, attr) =>
        ((s.atomAt c.core [noGid] false asid attr va (s.placeOf asid attr va) 1 false (c.operands.getD e 0) 0).2).claimStore id

/-- A chunk of a drain is written. -/
def State.drainChunk (s : State) (id asid : Nat) (t : Tsr) : State :=
  let c := s.cmd id
  if ((c.block.getD 0 0).extractLsb' 13 2).toNat = 3 then (c.nextChunk t).foldl (fun s e => s.drainAdd id asid t e) s
  else s.putChunk id asid t fun e => (drainBytes c e).map (·, false)

/-- A chunk of a `copy.pf`: the grain blocks of its elements are at their homes. -/
def State.fillChunk (s : State) (id asid : Nat) (t : Tsr) : State :=
  let c := s.cmd id
  (c.nextChunk t).foldl (fun s e => match c.box.addr t e with
    | none => s
    | some va =>
      match s.agentPage asid va with
      | .ok (s, attr) => if attr.nc then s else (pieces va (2 ^ t.esz)).foldl (fun s x => s.bring asid x.1 0) s
      | .error _ => s) s

/-- R220: a drain reads its whole tile before its first chunk, and `.z` then clears it. -/
def State.readTile (s : State) (id : Nat) : State :=
  let c := s.cmd id
  let part := (s.group c.gid).part
  let tile := ((c.block.getD 0 0).extractLsb' 0 9).toNat
  let t := s.team c.team
  let s := s.updCmd id fun c => { c with operands := tilePlaces.map fun x => (x.1 * 32 + x.2, toWord (t.tile part tile x.1 x.2)) }
  if c.flag = 1 then s.updTeam c.team fun t => t.mapTile part tile fun _ _ _ => 0 else s

/-- The bytes of a chunk that count: every byte of a `copy.in`, those in range of the others (Table 12.3). -/
def Cmd.countBytes (c : Cmd) (t : Tsr) : Nat :=
  let l := c.nextChunk t
  let n := if c.op = 7 then 2 ^ t.esz else elemBytes t c.block
  (if c.op = 0 then l else l.filter fun e => (c.box.addr t e).isSome).length * n

/-- A chunk of a command is written and counted. -/
def State.writeChunk (s : State) (id asid : Nat) (t : Tsr) : State :=
  let c := s.cmd id
  let l := c.nextChunk t
  let bytes := c.countBytes t
  let buf := s.cmdBuffer c (((c.block.getD 0 0).extractLsb' 0 16).setWidth 64)
  let s := match c.op, buf with
    | 0, some b => s.inChunk id asid t b
    | 1, some b => s.outChunk id asid t b
    | 2, _ => s.fillChunk id asid t
    | 7, _ => (if c.progress = 0 then s.readTile id else s).drainChunk id asid t
    | _, _ => s
  let s := match c.op, buf with
    | 2, _ => s
    | 7, _ => s
    | _, some b =>
      if sywOf c.block = 0xFFFF then s
      else s.updTeam b.owner fun u => u.sywCount (b.off + 16 * sywOf c.block) bytes
    | _, none => s
  (s.updTeam c.team fun u => if c.op = 2 then u else u.addWork 2 bytes).updCmd id fun c => { c with progress := c.progress + l.length }

/-- COPY_CHUNK_WRITE (R146, R219): the next chunk of a running copy or drain.  (In part DESIGN CHOICE, log entry 19.) -/
def execCopyChunkWrite (id : Nat) (s : State) : Out :=
  .next (let c := s.cmd id
    match c.tsr with
    | none => s
    | some t =>
      if c.st != .running || c.cls != 0 || c.box.count ≤ c.progress then s
      else if c.op = 7 && c.progress = 0 && !(c.after.all s.cmdDone) then s
      else
        let asid := c.asid
        match s.chunkAsks c t asid with
        | [] => s.writeChunk id asid t
        | asks => s.owe asks)

/-- ENGINE_COMMAND_COMPLETE (R222, R224): a copy or drain whose last chunk is performed, a matrix or attention command that has run.  (In part DESIGN CHOICE, log entry 19.) -/
def execEngineCommandComplete (id : Nat) (s : State) : Out :=
  .next (let c := s.cmd id
    let record := fun (t : Nat) => BitVec.ofNat 64 (c.tag.toNat % 65536 + c.status * 65536 + t % 2 ^ 40 * 2 ^ 24)
    match c.cls, c.op with
    | 0, _ => if s.cmdOver c c.box.count then s.completeCmd id (some 0) record else s
    | 1, _ => if s.cmdOver c 1 then s.completeCmd id none (fun _ => 0) else s
    | 2, 1 =>
      if s.cmdOver c 1 then s.completeCmd id (some 1) fun t =>
        BitVec.ofNat 64 (c.tag.toNat % 65536 + c.status * 65536 + c.flag * 2 ^ 24 + t % 2 ^ 32 * 2 ^ 32)
      else s
    | 2, _ => if s.cmdOver c 1 then s.completeCmd id none (fun _ => 0) else s
    | _, _ => s)

/-- Tiles of a partition whose elements are undefined from here on. -/
def Team.loseTiles (u : Team) (part tile n seed : Nat) : Team :=
  (List.range n).foldl (fun u k => u.mapTile part (tile + k) fun _ i j => (Config.undefLane seed (tile + k) (32 * i + j)).toNat) u

/-- The bytes of a buffer that a command was to write are undefined from here on. -/
def State.loseBuffer (s : State) (c : Cmd) (off n : Nat) : State :=
  match s.cmdBuffer c (((c.block.getD 0 0).extractLsb' (if c.cls = 0 then 0 else 16) 16).setWidth 64) with
  | some b => (s.bumpFree).updTeam b.owner fun u => u.spWrite (b.off + off) ((List.range n).map (Config.undefByte s.free))
  | none => s

/-- What a command that is cut off was still to write to memory is undefined from here on. -/
def State.loseRest (s : State) (id asid : Nat) (t : Tsr) : State :=
  let c := s.cmd id
  let n := if c.op = 7 then 2 ^ t.esz else elemBytes t c.block
  (List.range (c.box.count - c.progress)).foldl (fun s k => match c.box.addr t (c.progress + k) with
    | none => s
    | some va =>
      let bs := (List.range n).map (Config.undefByte s.free)
      if !s.mayWrite c va then s
      else if c.scl then
        match s.agentPage asid va with
        | .ok (t, attr) => t.bumpFree.writeSidecar id asid attr va (bs.map (·, false))
        | .error _ => s
      else s.bumpFree.agentPutBytes asid va bs) s

/-- ENTRY_COMMAND_TERMINATE (R64): a copy, matrix or attention command that still runs is terminated with status brown-out; the bytes that it was to write
are unpredictable from here on.  A row request stays with its base die (R65), and a round is aborted in step 4.  (The record of an `attn.fin` carries STATUS 2 as that of a copy does: DEDUCED, log entry 19.) -/
def State.terminateCmd (s : State) (id : Nat) : State :=
  let c := s.cmd id
  let part := (s.group c.gid).part
  if c.st != .running || 3 ≤ c.cls then s
  else
    let s := match c.cls, c.op, c.tsr with
      | 0, 0, some t => s.loseBuffer c 0 (boxExtent t c.block)
      | 0, 1, some t => s.loseRest id c.asid t
      | 0, 7, some t => s.loseRest id c.asid t
      | 1, 6, _ => s.loseBuffer c (imageOff c.block) (roundUp (imageBytes c.block) (2 ^ imageSpan c.block))
      | 1, _, _ => s.bumpFree.updTeam c.team fun u => u.loseTiles part c.tiles.1 c.tiles.2 s.free
      | 2, _, _ => s.bumpFree.updTeam c.team fun u => u.loseTiles part c.tiles.1 c.tiles.2 s.free
      | _, _, _ => s
    match c.cls, c.op with
    | 0, _ => s.completeCmd id (some 0) fun t => BitVec.ofNat 64 (c.tag.toNat % 65536 + 2 * 65536 + t % 2 ^ 40 * 2 ^ 24)
    | 2, 1 => s.completeCmd id (some 1) fun t => BitVec.ofNat 64 (c.tag.toNat % 65536 + 2 * 65536 + t % 2 ^ 32 * 2 ^ 32)
    | _, _ => s.completeCmd id none fun _ => 0

end Sys2Proof.Machine
end

