-- ==== Sys2Proof/Machine/Execution.lean ====
section
/-! DEFINITION. Execution: when a group is ready, how results commit, how a join completes, breakpoints and steps, and the active
and pending sets of a partition (R101 to R104, R116, R120 to R123, R132 to R136, R169). -/

namespace Sys2Proof.Machine

/-! ### Ready groups (R101) -/

/-- A stop takes effect at the run boundary at which the group stands: of its team, for a pre-emption, a termination or a cancellation (R106, R132,
R171, R240). -/
def Group.stopsHere (g : Group) : Bool := !g.runOpen && (g.stopDue || g.saving || g.ending || (g.cancel && !g.deferred))

/-- R101: a group is blocked at a word that waits for something outside it.  A stall at a prefix-index slice is none (R104, R370). -/
def Block.waits : Block → Bool
  | .none => false
  | .slice .. => false
  | _ => true

/-- R101: what keeps a group from issuing lies outside its run: it has not exited, it waits for no result at a run end, it is not
blocked at a word, and it is not stopped.  (In part DEDUCED, log entry 11.) -/
def Group.ready (g : Group) : Bool :=
  g.eligible != 0 && !g.runEndWaits && !g.block.waits && !g.stopped && !g.stopsHere && !g.gone

/-- The groups of a partition. -/
def State.partition (s : State) (core part : Nat) : List (Nat × Group) :=
  s.groups.filter fun e => !e.2.oz && e.2.core == core && e.2.part == part && !e.2.gone &&
    ((s.team e.2.team).st == .resident || (s.team e.2.team).st == .saving)

/-- A pending group of a partition that is ready, the longest first (R103). -/
def State.waiting (s : State) (core part : Nat) : Option Nat :=
  ((s.partition core part).filter fun e => e.2.slot.isNone && e.2.ready).foldl (fun (b : Option (Nat × Nat)) e =>
    match b with
    | some (_, t) => if e.2.readySince < t then some (e.1, e.2.readySince) else b
    | none => some (e.1, e.2.readySince)) none |>.map (·.1)

/-- The lowest free active slot of a partition. -/
def State.freeSlot (s : State) (core part : Nat) : Option Nat :=
  (List.range 8).find? fun k => !((s.partition core part).any fun e => e.2.slot == some k)

/-- R104: the active ready group that has issued the most words of its current run; ties go to the lower slot.  (In part DEDUCED, log entry 11.) -/
def State.victim (s : State) (core part : Nat) : Option Nat :=
  ((s.partition core part).filter fun e => e.2.slot.isSome && e.2.ready).foldl (fun (b : Option (Nat × Group)) e =>
    match b with
    | some (_, h) =>
      if h.runLen < e.2.runLen || (h.runLen == e.2.runLen && e.2.slot.getD 8 < h.slot.getD 8) then some e else b
    | none => some e) none |>.map (·.1)

/-- The group of a list that has gone longest since its last issue; ties go to the lower slot (R102). -/
def oldest (l : List (Nat × Group)) : Option Nat :=
  (l.foldl (fun (b : Option (Nat × Group)) e => match b with
    | some h => if e.2.lastIssue < h.2.lastIssue || (e.2.lastIssue == h.2.lastIssue && e.2.slot.getD 8 < h.2.slot.getD 8) then some e else b
    | none => some e) none).map (·.1)

/-- R104, R131: the active group that makes room for a ready pending one when no active group is ready, so that there is no victim: one that
stands at a run boundary, or else one that waits at a word which counts as a run boundary for a stop (R309, R348).  (In part DEDUCED, log
entry 11.) -/
def State.makesRoom (s : State) (core part : Nat) : Option Nat :=
  let active := (s.partition core part).filter fun e => e.2.slot.isSome && !e.2.mayReopen && !e.2.stepping
  if active.any fun e => e.2.ready then none
  else match active.find? fun e => !e.2.runOpen with
    | some e => some e.1
    | none => oldest (active.filter fun e => e.2.block.waits)

/-- R104: a pending group is ready, and no active slot is free.  (In part DEDUCED, log entry 11.) -/
def State.swapOwed (s : State) (core part : Nat) : Bool := (s.freeSlot core part).isNone && (s.waiting core part).isSome

/-- GROUP_ACTIVATE (R103): the pending group that has been ready longest enters the lowest free active slot of its partition. -/
def execGroupActivate (gid : Nat) (s : State) : Out :=
  let g := s.group gid
  .next (if g.slot.isNone && s.waiting g.core g.part == some gid then
      match s.freeSlot g.core g.part with
      | some k => s.updGroup gid fun g => { g with slot := some k }
      | none => s
    else s)

/-- The group moves to the pending set (R103). -/
def State.toPending (s : State) (gid : Nat) : State :=
  s.updGroup gid fun g => { g with slot := none, chosen := false, spent := false, readySince := 0 }

/-- R103: the order in which pending groups became ready. -/
def State.settleOrder (s : State) : State :=
  if s.groups.any fun e => e.2.slot.isNone && !e.2.oz && !e.2.gone && (e.2.ready != (e.2.readySince != 0)) then
    { s with
      fresh := s.fresh + 1
      groups := s.groups.map fun (e : Nat × Group) =>
        (e.1, if e.2.slot.isNone && !e.2.oz && !e.2.gone then
          { e.2 with readySince := if e.2.ready then (if e.2.readySince = 0 then s.fresh else e.2.readySince) else 0 } else e.2) }
  else s

/-- A group makes room: its run is over, at its last word or at the word at which it waits, so that no temporary leaves the active set (R104, R121). -/
def State.giveRoom (s : State) (gid : Nat) : State :=
  (if (s.group gid).runOpen then s.updGroup gid Group.endRun else s).toPending gid

/-- A group is the victim of a swap, before or after the end of its run. -/
def Group.leaving (g : Group) : Bool := g.chosen || g.spent

/-- A swap lets its victim go: it is owed no more, or the victim has come to wait at a word inside its run and is not ready any more. -/
def State.letsGo (s : State) (g : Group) : Bool :=
  g.leaving && (!s.swapOwed g.core g.part || (!g.spent && g.block.waits))

/-- R104: a swap that becomes owed chooses its victim, and lets it go when it is owed no more.  Where no active group is ready, one makes
room. -/
def State.settleSwaps (s : State) : State :=
  let s := if s.groups.any fun e => s.letsGo e.2 then
      { s with groups := s.groups.map fun (e : Nat × Group) =>
          (e.1, if s.letsGo e.2 then { e.2 with chosen := false, spent := false } else e.2) }
    else s
  (s.groups.filter fun e => e.2.slot.isNone && e.2.ready && !e.2.oz).foldl (fun s e =>
    if s.swapOwed e.2.core e.2.part && !((s.partition e.2.core e.2.part).any fun x => x.2.leaving) then
      match s.victim e.2.core e.2.part with
      | some v => s.updGroup v fun g => { g with chosen := true }
      | none => match s.makesRoom e.2.core e.2.part with
        | some v => s.giveRoom v
        | none => s
    else s) s

/-- A group that waits for results at a run end leaves the active set (R103), once no rollback can put it back into the run (R184). -/
def Group.parks (g : Group) : Bool := !g.oz && !g.gone && g.slot.isSome && !g.runOpen && g.runEndWaits && !g.mayReopen

/-- R103: groups at a run end move to the pending set. -/
def State.settleParks (s : State) : State := (s.groups.filter fun e => e.2.parks).foldl (fun s e => s.toPending e.1) s

/-- R103, R104: what the step has changed of the pending sets. -/
def State.settleReady (s : State) : State := s.settleParks.settleOrder.settleSwaps

/-- GROUP_SWAP (R104): the victim, whose run has ended, moves to the pending set, and the waiting group takes its slot. -/
def execGroupSwap (gid victim : Nat) (s : State) : Out :=
  let g := s.group gid
  let v := s.group victim
  .next (if g.slot.isNone && g.ready && v.slot.isSome && v.spent && !v.runOpen && !v.mayReopen && s.waiting g.core g.part == some gid && !g.oz && !v.oz && g.core == v.core &&
      g.part == v.part && (s.freeSlot g.core g.part).isNone then
      (s.toPending victim).updGroup gid fun g => { g with slot := v.slot }
    else s)

/-! ### Results (R120 to R123, R169) -/

/-- A record read whose slot may take it inside the run (R365). -/
def Pending.inRun (p : Pending) : Bool :=
  match p.res with
  | .record _ bytes _ _ => (tsrOf bytes).isSome
  | _ => false

/-- A result that may commit: it has returned, its run has ended, and no older result of its register waits.  A record goes to its slot
without waiting for the run's end.  (In part DEDUCED, log entry 34.) -/
def Group.canCommit (g : Group) (idx : Nat) : Bool :=
  match g.pend[idx]? with
  | some p => p.ready && (p.ended || p.inRun) && !((g.pend.take idx).any fun q => q.res.key.isSome && q.res.key == p.res.key)
  | none => false

/-- A result may commit now: none of the group's commands still holds the register that it would write (R217). -/
def State.canCommit (s : State) (gid idx : Nat) : Bool :=
  (s.group gid).canCommit idx && !(((s.group gid).pend[idx]?).bind (·.res.key)).any fun k =>
    s.cmds.any fun e => e.2.gid == gid && e.2.st == .waiting && e.2.holds.contains k

/-- A result is written.  Lanes that read poison owe the poison fault at the word they would issue next; a
refused record leaves its lanes owing the illegal-instruction fault (R365).  (In part DEDUCED, log entry 34.) -/
def State.commit (s : State) (gid idx : Nat) : State :=
  match (s.group gid).pend[idx]? with
  | none => s
  | some p =>
    let s := s.updGroup gid fun g => { g with pend := g.pend.eraseIdx idx }
    let s := match p.res with
      | .lanes r vals => s.updGroup gid fun g => vals.foldl (fun (g : Group) (x : Nat × Word) =>
          g.writeV r x.1 x.2) g
      | .scalar r v => s.updGroup gid fun g => g.writeS r v
      | .load .. => s
      | .record slot bytes addr lanes =>
        let team := (s.group gid).team
        match tsrOf bytes with
        | some r => s.updTeam team fun t => { t with tsr := t.tsr.set slot r }
        | none => s.updGroup gid fun g => { g with owed := (lanesOf lanes).foldl (fun t l => t.set l (fIllegal, addr)) g.owed }
    s.updGroup gid fun g => { g with owed := p.poisoned.foldl (fun (t : Tbl (Nat × Quad)) (x : Nat × Quad) => t.set x.1 (fPoison, x.2)) g.owed }

/-- RESULT_COMMIT (R122). -/
def execResultCommit (gid idx : Nat) (s : State) : Out :=
  .next (if s.canCommit gid idx then s.commit gid idx else s)

/-- JOIN_COMPLETE (R116, R117). -/
def execJoinComplete (gid : Nat) (s : State) : Out :=
  .next (if (s.group gid).runOpen then s else s.asGroup gid State.settleJoin)

/-! ### Breakpoints and steps (R132 to R136) -/

/-- A run that would open at A meets an enabled breakpoint of its core (R132); not one that a step opens (R133), and not the one that a resume lets go on
(log entry 31). -/
def State.bpHit (s : State) (g : Group) (a : Quad) : Bool :=
  let c := s.core g.core
  !g.oz && !g.stepping && g.skipBp != some a && s.asidOf g == c.dbgAsid && c.dbgBp.any fun b => b.2.getLsbD 0 && b.2.extractLsb' 2 62 == a.extractLsb' 2 62

/-- BREAKPOINT_MATCH (R132): the group stops before the run opens, and after an incomplete fence (R184). -/
def execBreakpointMatch (gid : Nat) (s : State) : Out :=
  let g := s.group gid
  .next (if !g.runOpen && g.ready && g.fence.isNone && s.bpHit g g.minPc then
      ((s.asGroup gid State.teamStop).updGroup gid fun g => { g with stopped := true, matched := true, skipBp := some g.minPc }).noteStop g 2
    else s)

/-- The group at a position of a partition (R136). -/
def State.atPos (s : State) (core part pos : Nat) : Option Nat :=
  ((s.partition core part).find? fun e => e.2.pos == pos).map (·.1)

/-- The group at the position that DBG_CTL names (R136). -/
def State.debugged (s : State) (core : Nat) : Option Nat := s.atPos core (s.core core).dbgPart (s.core core).dbgSlot

/-- DBG_STAT (Table 6.5): STOPPED reads 1 while the group that stopped last is stopped. -/
def State.dbgStatus (s : State) (core : Nat) : Quad :=
  let (part, pos, cause) := (s.core core).dbgStat
  let stopped := (s.atPos core part pos).elim false fun gid => (s.group gid).stopped
  BitVec.ofNat 64 ((if stopped then 1 else 0) + part * 2 + pos * 2 ^ 3 + cause * 2 ^ 8)

/-- DBG_STEP (R133): the stopped group executes one issue, whose run no breakpoint stops. -/
def execDbgStep (core : Nat) (s : State) : Out :=
  .next (match s.debugged core with
    | some gid => s.updGroup gid fun g =>
        if g.stopped then { g with stopped := false, stepping := true, skipBp := none, matched := false } else g
    | none => s)

/-- DBG_RESUME (R133): the group runs on; the run at the address whose match stopped it is not stopped again.  (In part DEDUCED, log entry 31.) -/
def execDbgResume (core : Nat) (s : State) : Out :=
  .next (match s.debugged core with
    | some gid => s.updGroup gid fun g => 
        if g.stopped then { g with stopped := false, stepping := false, skipBp := if g.matched then g.skipBp else none, matched := false } else g
    | none => s)

/-- DBG_WHO (Table 6.5). -/
def State.dbgWho (s : State) (core : Nat) : Quad :=
  match s.debugged core with
  | some gid =>
    let g := s.group gid
    let gr := s.grid (s.team g.team).grid
    BitVec.ofNat 64 (1 + 2 * g.num + 2 ^ 7 * gr.ctx + 2 ^ 15 * gr.num)
  | none => 0

end Sys2Proof.Machine
end

