-- ==== Sys2Proof/Machine/Siblings.lean ====
section
/-! DEFINITION. Sibling sets and the quorum unit: major 0x1A and the events of ballots (R109, R110, R235 to R244, R379, R380, R414). -/

namespace Sys2Proof.Machine

/-! ### The launch record (Table 4.4) -/

/-- TEAMS. -/
def Grid.teams (g : Grid) : Nat := recField g.record 16 4
/-- GROUPS. -/
def Grid.groupsOf (g : Grid) : Nat := recField g.record 20 1
/-- CLUSTER. -/
def Grid.cluster (g : Grid) : Nat := recField g.record 21 1
/-- Priority. -/
def Grid.priority (g : Grid) : Nat := recField g.record 22 1 % 4
/-- NSIB; 1 for a grid without a ballot, whose teams form one set. -/
def Grid.nsib (g : Grid) : Nat := max 1 (recField g.record 80 1)

/-- Clusters of a sibling; a team launched with CLUSTER = 1 counts as one. -/
def Grid.clusters (g : Grid) : Nat := g.teams / max 1 g.cluster

/-- The placements of a grid, in the order of R93 and R109: each is one cluster of one sibling. -/
def Grid.placements (g : Grid) : Nat := g.clusters * g.nsib

/-- The home quorum unit's die (R109). -/
def Grid.home (g : Grid) : Nat := g.num % 24

/-! ### The ballot record (R235) -/

/-- Write bytes of a grid's ballot record.  Once a program has stored to it, what is written there is unpredictable: free values (R235). -/
def State.ballotPut (s : State) (grid off : Nat) (bs : List Byte) : State :=
  match (s.grid grid).ballot with
  | some b =>
    let put := fun (s : State) (bs : List Byte) => s.agentPutBytes (s.ctx (s.grid grid).ctx).asid (b.addr + BitVec.ofNat 64 off) bs
    if b.spoiled then put s.bumpFree ((List.range bs.length).map (Config.undefByte s.free)) else put s bs
  | none => s

/-- The header's first 8 bytes. -/
def Ballot.header (b : Ballot) : List Byte :=
  leBytes 8 (0x4C42535A + b.n * 2 ^ 32 + b.q * 2 ^ 40 + b.outcome * 2 ^ 48 + b.completer * 2 ^ 56)

/-- A sibling of the ballot. -/
def Ballot.sib (b : Ballot) (k : Nat) : Sib := b.sibs.getD k ⟨0, false, false, 0, false, false, false⟩

/-- Change a sibling of the ballot. -/
def Ballot.setSib (b : Ballot) (k : Nat) (f : Sib → Sib) : Ballot := { b with sibs := b.sibs.modify k f }

/-- The byte that holds a sibling's nibble. -/
def Ballot.nibbles (b : Ballot) (k : Nat) : Byte :=
  let n := fun (k : Nat) => (b.sib k).status + (if (b.sib k).held then 8 else 0)
  let lo := k / 2 * 2
  BitVec.ofNat 8 (n lo + 16 * n (lo + 1))

/-- Change a grid's ballot. -/
def State.updBallot (s : State) (grid : Nat) (f : Ballot → Ballot) : State :=
  s.updGrid grid fun g => { g with ballot := g.ballot.map f }

/-- Change a sibling, and write its nibble. -/
def State.setSib (s : State) (grid k : Nat) (f : Sib → Sib) : State :=
  let s := s.updBallot grid fun b => b.setSib k f
  match (s.grid grid).ballot with
  | some b => s.ballotPut grid (0x20 + k / 2) [b.nibbles k]
  | none => s

/-- Write the header. -/
def State.putHeader (s : State) (grid : Nat) : State :=
  match (s.grid grid).ballot with
  | some b => s.ballotPut grid 0 b.header
  | none => s

/-- R235: the record at acceptance. -/
def State.openBallot (s : State) (grid : Nat) : State :=
  match (s.grid grid).ballot with
  | some b => s.ballotPut grid 0 (b.header ++ List.replicate 4088 0)
  | none => s

/-! ### Teams of a sibling -/

/-- The teams of a sibling that have been placed.  (In part DEDUCED, log entry 21.) -/
def State.sibTeams (s : State) (grid k : Nat) : List Nat :=
  (s.teams.filter fun e => e.2.grid == grid && e.2.sib == k).map (·.1)

/-- Every team of a sibling has exited: those placed have, and the others never will be placed (R110) or there are none.  (In part DEDUCED, log entry 21.) -/
def State.sibExited (s : State) (grid k : Nat) : Bool :=
  let g := s.grid grid
  let cancelled := match g.ballot with
    | some b => 2 ≤ (b.sib k).status && (b.sib k).status ≤ 3
    | none => false
  ((s.sibTeams grid k).all fun t => (s.team t).st == .exited) && (cancelled || (g.clusters - 1) * g.nsib + k < g.placed)

/-- The counters of a sibling: issue slots, matrix steps, bytes moved ÷ 64, engine time, each saturating (Table 13.2). -/
def State.sibCounters (s : State) (grid k : Nat) : List Byte :=
  let sum := fun (i : Nat) => ((s.sibTeams grid k).map fun t => (s.team t).work.getD i 0).foldl (· + ·) 0
  (leBytes 4 (min 0xFFFFFFFF (sum 0)) ++ leBytes 4 (min 0xFFFFFFFF (sum 1))) ++
    (leBytes 4 (min 0xFFFFFFFF (sum 2 / 64)) ++ leBytes 4 (min 0xFFFFFFFF (sum 3)))

/-- The counters are written. -/
def State.writeCounters (s : State) (grid k : Nat) : State :=
  (s.ballotPut grid (0x40 + 56 * k + 0x28) (s.sibCounters grid k)).updBallot grid fun b =>
    b.setSib k fun x => { x with written := true }

/-! ### Outcomes (R238, R239, R243) -/

/-- R239: the record of the ballot's end goes to every group of the set that has the stream bound. -/
def State.pushBallot (s : State) (grid : Nat) : State :=
  match (s.grid grid).ballot with
  | none => s
  | some b =>
    let r := BitVec.ofNat 64 (b.outcome + b.completer * 256 + b.qstamp.1 % 2 ^ 40 * 2 ^ 24)
    ((s.groups.filter fun e => !e.2.oz && (s.team e.2.team).grid == grid).map (·.1)).foldl (fun s gid => s.pushRecord gid 2 r) s

/-- A saved team exits without being placed again, whatever holds it has, and its saved commands are dropped (R110, R240, R241). -/
def State.exitSaved (s : State) (t : Nat) : State :=
  ({ s.dropUnissued t with groups := (s.dropUnissued t).groups.map fun (e : Nat × Group) =>
      if e.2.team == t then (e.1, { e.2 with exited := allLanes, gone := true, slot := none, q := [], pend := [] }) else e } : State).teamExit t

/-- A sibling's cancellation begins; a hold that is open defers it in its group, but not in a team that is saved (R240, R241).  A team whose groups have
all gone exits (R107). -/
def State.cancelSib (s : State) (grid k : Nat) (holds : Bool) : State :=
  let ts := s.sibTeams grid k
  let held := holds && s.groups.any fun e => ts.contains e.2.team && (s.team e.2.team).st != .saved && e.2.hold && !e.2.gone
  let s := s.setSib grid k fun x => { x with status := 2, held := held }
  let s := { s with
    teams := s.teams.map fun (e : Nat × Team) => if ts.contains e.1 then (e.1, { e.2 with cancelled := true }) else e
    groups := s.groups.map fun (e : Nat × Group) =>
      if ts.contains e.2.team then (e.1, { e.2 with cancel := true, deferred := holds && e.2.hold }) else e }
  ts.foldl (fun s t => if (s.team t).st == .saved then s.exitSaved t else s.teamGone t) s

/-- The siblings that the decision cancels: those running, but for one that has exited and whose post is still to be decided (R240). -/
def State.runningSibs (s : State) (grid : Nat) : List Nat :=
  match (s.grid grid).ballot with
  | none => []
  | some b => (List.range b.n).filter fun k => (b.sib k).status == 0 && !s.sibExited grid k

/-- The decision of R238. -/
def State.decideBallot (s : State) (grid : Nat) : State :=
  match (s.grid grid).ballot with
  | none => s
  | some b =>
    let s := (s.updBallot grid fun b => { b with outcome := 1, asked := false, decided := s.pkg.now }).putHeader grid
    let s := (s.ballotPut grid 8 (leBytes 8 b.whash.toNat)).ballotPut grid 0x10 (stampBytes b.qstamp)
    ((s.runningSibs grid).foldl (fun s k => s.cancelSib grid k true) s).pushBallot grid

/-- R243: no quorum. -/
def State.noQuorum (s : State) (grid : Nat) : State :=
  ((s.updBallot grid fun b => { b with outcome := 2, completer := 0, qstamp := (0, 0), whash := 0, asked := false }).putHeader grid).pushBallot grid

/-- A ballot takes note of the teams that have exited: siblings that exited without posting, their counters, and the end without a
quorum (R240, R242, R243). -/
def State.settleBallot (s : State) (grid : Nat) : State :=
  match (s.grid grid).ballot with
  | none => s
  | some b0 =>
    let s := (List.range b0.n).foldl (fun (s : State) k =>
      match (s.grid grid).ballot with
      | none => s
      | some b =>
        if (b.sib k).status == 0 && s.sibExited grid k && !(b.posts.any fun p => p.sib == k) then
          s.setSib grid k fun x => { x with status := 4 }
        else s) s
    let s := (List.range b0.n).foldl (fun (s : State) k =>
      match (s.grid grid).ballot with
      | none => s
      | some b =>
        if ((b.sib k).status == 1 || (b.sib k).status == 4) && !(b.sib k).written && s.sibExited grid k then s.writeCounters grid k
        else s) s
    match (s.grid grid).ballot with
    | none => s
    | some b =>
      if b.outcome == 0 && !b.asked && b.sibs.all fun x => x.status == 1 || x.status == 4 then s.noQuorum grid else s

/-- The lines of a grid's ballot record. -/
def State.ballotLines (s : State) (grid : Nat) : List Quad :=
  match (s.grid grid).ballot with
  | some b => linesFrom b.addr 4096
  | none => []

/-- An operation of the quorum unit on a grid's ballot record, a device agent's (R425). -/
def State.onBallot (s : State) (grid : Nat) (f : State → State) : State :=
  s.asAgent (s.ctx (s.grid grid).ctx).asid 1 (s.ballotLines grid) f

/-- R235: the bytes of a record that a program has stored to take free values. -/
def State.settleSpoil (s : State) (grid : Nat) : State :=
  if (s.grid grid).ballot.any (·.spoilDue) then
    (s.ballotPut grid 0 (List.replicate 4096 0)).updBallot grid fun b => { b with spoilDue := false }
  else s

/-- R242: a pending row request of a cancelled group that has stopped changes only a private row. -/
def State.settleRows (s : State) : State :=
  if s.teams.any (·.2.cancelled) then
    let look := fun (r : RowReq) => { r with lost := r.lost || (!r.applied && !s.mayWrite (s.cmd r.cmd) (BitVec.ofNat 64 r.va)) }
    { s with dram := s.dram.map fun (e : Nat × Stack) => (e.1, { e.2 with reqs := e.2.reqs.map look }) }
  else s

/-- Every ballot takes note of what has exited, where there is something to note. -/
def State.settleBallots (s : State) : State :=
  ((s.grids.map (·.1)).foldl (fun s grid =>
    let t := (s.settleSpoil grid).settleBallot grid
    if (t.grid grid).ballot == (s.grid grid).ballot then s else s.onBallot grid fun s => (s.settleSpoil grid).settleBallot grid) s).settleRows

/-! ### Decisions on posts (R238, R244) -/

/-- The post of a list that is first in stamp order (R5). -/
def firstPost (ps : List Post) : Option Post :=
  ps.foldl (fun m p => match m with
    | none => some p
    | some q => if p.time < q.time || (p.time == q.time && p.src < q.src) then some p else some q) none

/-- The post of a ballot that is next in stamp order. -/
def Ballot.nextPost (b : Ballot) : Option Post := firstPost b.posts

/-- The post that the quorum unit of a die decides next: the first in stamp order over the grids whose home it is (R109, R238). -/
def State.unitPost (s : State) (die : Nat) : Option Post :=
  firstPost ((s.grids.filter fun e => e.2.num % 24 == die).filterMap fun e => e.2.ballot.bind Ballot.nextPost)

/-- HASH and PSTAMP of a sibling's entry. -/
def State.putPost (s : State) (grid : Nat) (p : Post) : State :=
  (s.ballotPut grid (0x40 + 56 * p.sib) (leBytes 8 p.hash.toNat)).ballotPut grid (0x48 + 56 * p.sib) (stampBytes (p.time, p.src))

/-- A post is decided. -/
def State.decidePost (s : State) (grid : Nat) (b : Ballot) (p : Post) : State :=
  let s := s.updBallot grid fun b => { b with posts := b.posts.filter (· != p) }
  let x := b.sib p.sib
  if x.posted then s
  else if b.outcome != 0 || b.asked then
    (s.setSib grid p.sib fun x => { x with posted := true, hash := p.hash }).putPost grid p
  else
    let s := (s.setSib grid p.sib fun x => { x with posted := true, hash := p.hash, status := 1 }).putPost grid p
    let votes := (b.sibs.filter fun y => y.status == 1 && y.hash == p.hash).length + 1
    if votes < b.q then s
    else
      let s := s.updBallot grid fun b => { b with whash := p.hash, qstamp := (p.time, p.src), completer := p.sib }
      if s.pkg.duty.getLsbD 3 then
        (s.updBallot grid fun b => { b with asked := true }).raise 3 (s.grid grid).home 0x1002
          (leBytes 8 b.addr.toNat ++ leBytes 8 p.hash.toNat ++ [0, BitVec.ofNat 8 p.sib]) (.decision grid)
      else s.decideBallot grid

/-- POST_DECIDE (R238): the quorum unit decides the next post of a ballot, at its time plus 1,024, when none at the unit is earlier. -/
def execPostDecide (grid : Nat) (s : State) : Out :=
  .next (match (s.grid grid).ballot with
    | none => s
    | some b =>
      match b.nextPost with
      | none => s
      | some p => if s.pkg.now < p.time + 1024 || s.unitPost (s.grid grid).home != some p then s else s.onBallot grid fun s => (s.decidePost grid b p).settleBallot grid)

/-- R244: the answer to a decision's record. -/
def State.answerDecision (s : State) (grid : Nat) (payload : List Byte) : State :=
  match (s.grid grid).ballot with
  | none => s
  | some b => if !b.asked then s else if payload.getD 0 0 == 1 then s.noQuorum grid else (s.decideBallot grid).settleBallot grid

/-! ### Cancellation (R240 to R242) -/

/-- A group of a cancelled sibling stops for good: its commands that have not left the table are dropped, and it exits. -/
def State.cancelStop (s : State) (gid : Nat) : State := (s.dropWhere fun c => c.gid == gid).endGroup gid

/-- A group is to stop at its next cancellation point. -/
def State.cancelDue (s : State) (gid : Nat) : Bool :=
  let g := s.group gid
  (s.team g.team).cancelled && !g.deferred && !g.oz && !g.gone && g.exited != allLanes

/-- A group stands at a cancellation point: a run boundary, or a word that it waits at, with no fence incomplete (R184, R240). -/
def State.atCancelPoint (s : State) (gid : Nat) : Bool :=
  let g := s.group gid
  s.stopsAt gid || (!g.runOpen && g.block == .none && g.fence.isNone)

/-- SIBLING_CANCEL_STOP (R240): a group at a run boundary, or blocked at a word, stops, and the word does not complete; one that waits for a slice's
answer does not stop (R370). -/
def execSiblingCancelStop (gid : Nat) (s : State) : Out :=
  .next (if s.cancelDue gid && s.atCancelPoint gid then (s.cancelStop gid).settleBallots else s)

/-- HOLD_TIMEOUT (R241): 100,000 ticks after the decision no hold defers any more. -/
def execHoldTimeout (grid : Nat) (s : State) : Out :=
  .next (match (s.grid grid).ballot with
    | none => s
    | some b =>
      if b.outcome == 1 && b.decided + 100000 ≤ s.pkg.now then
        { s with groups := s.groups.map fun (e : Nat × Group) =>
            if (s.team e.2.team).grid == grid && !e.2.oz then (e.1, { e.2 with deferred := false }) else e }
      else s)

/-- R242 step 1: a private handle is released; one that fails its checks, or whose context has no arena, only leaves its slot. -/
def State.releasePrivate (s : State) (grid r : Nat) (h : Quad) : State :=
  let slot := (s.grid grid).ctx
  match s.arena slot with
  | some a =>
    if s.handleOk (s.grid grid).tenant h then (s.relEntry slot a h (s.handlePages slot h)).clearSlot grid r else s.clearSlot grid r
  | none => s.clearSlot grid r

/-- R242: the release of a cancelled sibling, once the question of R244 is settled.  (In part DEDUCED, log entry 35.) -/
def State.releaseSib (s : State) (grid k : Nat) (host : Bool) : State :=
  match (s.grid grid).ballot with
  | none => s
  | some b =>
    let mine := b.slots.filter fun x => x.2.1 == k
    let s := mine.foldl (fun (s : State) x => if host then s.clearSlot grid x.1 else s.releasePrivate grid x.1 x.2.2) s
    let s := s.writeCounters grid k
    let src := s.source (s.grid grid).home 0x1002
    let t := s.stampTime src
    let s := (s.stamp src).ballotPut grid (0x40 + 56 * k + 0x18) (stampBytes (t, src))
    s.setSib grid k fun x => { x with status := 3, asked := false, hostReleased := host }

/-- What the release of a sibling touches: its ballot record, and the page lists, counts and free stack of its private handles. -/
def State.releaseNeeds (s : State) (grid k : Nat) : List Quad :=
  match (s.grid grid).ballot with
  | some b =>
    s.ballotLines grid ++ s.arenaNeeds (s.grid grid).ctx ((b.slots.filter fun x => x.2.1 == k).map fun x =>
      ((s.hEntry (kvIndex x.2.2)).list, (s.hEntry (kvIndex x.2.2)).npage)) 0
  | none => []

/-- SIBLING_RELEASE (R242, R244; the unit asks no more once the context is killed, R84): a cancelled sibling whose teams have exited, and whose commands have completed, gives
its handles back.  (In part DEDUCED, log entry 35.) -/
def execSiblingRelease (grid k : Nat) (s : State) : Out :=
  .next (match (s.grid grid).ballot with
    | none => s
    | some b =>
      let ts := s.sibTeams grid k
      if b.n ≤ k || (b.sib k).status != 2 || (b.sib k).asked || !s.sibExited grid k || s.cmds.any (fun e => ts.contains e.2.team && e.2.st != .done)
      then s
      else if s.pkg.duty.getLsbD 3 && !(s.ctx (s.grid grid).ctx).killing then
        (s.updBallot grid fun b => b.setSib k fun x => { x with asked := true }).raise 3 (s.grid grid).home 0x1002
          (leBytes 8 b.addr.toNat ++ leBytes 8 b.whash.toNat ++ [1, BitVec.ofNat 8 k]) (.release grid k)
      else s.asAgent (s.ctx (s.grid grid).ctx).asid 1 (s.releaseNeeds grid k) fun s => s.releaseSib grid k false)

/-- R244: the answer to a release's record. -/
def State.answerRelease (s : State) (grid k : Nat) (payload : List Byte) : State :=
  match (s.grid grid).ballot with
  | some b => if (b.sib k).asked then s.releaseSib grid k (payload.getD 0 0 == 1) else s
  | none => s

/-- R243: a ballot of a killed context ends with OUTCOME 3, and its running siblings are cancelled, whatever holds they have. -/
def State.killBallot (s : State) (grid : Nat) : State :=
  match (s.grid grid).ballot with
  | none => s
  | some b =>
    if b.outcome != 0 then
      { s with groups := s.groups.map fun (e : Nat × Group) =>
          if (s.team e.2.team).grid == grid && !e.2.oz then (e.1, { e.2 with deferred := false }) else e }
    else
      let s := (s.updBallot grid fun b => { b with outcome := 3, asked := false, completer := 0, decided := s.pkg.now }).putHeader grid
      (s.runningSibs grid).foldl (fun s k => s.cancelSib grid k false) s

/-! ### The words (R379, R380) -/

/-- R237, `sib.post`: a release at package scope, and one post with the partition's stamp. -/
def execSibPost (fin : Bool) (a : BitVec 6) (s : State) : Out :=
  issue { fin, sn := [a.toNat], oz := false, waits := true } (fun s =>
    let g := s.grp
    let t := s.myTeam
    if (s.grid t.grid).ballot.isNone then .did s (g.faultAll fIllegal 0) false
    else
      match s.releaseAsks g 5 with
      | some asks => .stall (s.owe asks)
      | none =>
        let src := s.groupSource g
        let p : Post := ⟨t.sib, g.readS a.toNat, s.stampTime src, src⟩
        .did ((s.stamp src).updBallot t.grid fun b => { b with posts := b.posts ++ [p] }) [] false) s

/-- R241, `sib.hold`. -/
def execSibHold (fin : Bool) (s : State) : Out :=
  issueOk { fin, oz := false, waits := true } (fun s =>
    if s.myGrid.ballot.isSome then s.updGrp fun g => { g with hold := true } else s) s

/-- R241, `sib.free`. -/
def execSibFree (fin : Bool) (s : State) : Out :=
  issueOk { fin, oz := false, waits := true } (fun s => s.updGrp fun g => { g with hold := false, deferred := false }) s

/-- R380: the word of `sib.stat`. -/
def Ballot.statWord (b : Ballot) (k : Nat) (hold : Bool) : Quad :=
  BitVec.ofNat 64 (b.outcome + (b.sib k).status * 2 ^ 8 + hold.toNat * 2 ^ 11 + k * 2 ^ 16 +
    (if b.outcome = 0 then 0 else b.completer) * 2 ^ 24)

/-- R380, `sib.stat`. -/
def execSibStat (fin : Bool) (d : BitVec 6) (s : State) : Out :=
  issue { fin, sn := [d.toNat], oz := false, waits := true } (fun s =>
    match s.myGrid.ballot with
    | none => .did s (s.grp.faultAll fIllegal 0) false
    | some b => .did (s.updGrp fun g => g.addPending (.scalar d.toNat (b.statWord s.myTeam.sib g.hold))) [] false) s

/-- R240, R379, `sib.cp`: a cancellation point before the word. -/
def execSibCp (fin : Bool) (s : State) : Out :=
  if s.cancelDue s.cur && s.grp.fence.isNone then .next (s.cancelStop s.cur) else issueOk { fin, oz := false, waits := true } id s

end Sys2Proof.Machine
end

