-- ==== Sys2Proof/Machine/Grids.lean ====
section
/-! DEFINITION. Grids: acceptance, readiness and completion of grids, the placement of teams, reservation, pre-emption, saves and
restoration (chapter 5, R171 to R174, R235). -/

namespace Sys2Proof.Machine

/-! ### Launch records (R81, R90, Table 4.4) -/

/-- A list with its positions. -/
def numbered {α : Type} (l : List α) : List (Nat × α) := (List.range l.length).zip l

/-- Roles 0 to 3 of a record. -/
def roleFields (r : List Byte) : List Nat := (List.range 4).map fun k => recField r (24 + 2 * k) 2

/-- A ROLE field within its limits. -/
def roleOk (x : Nat) : Bool := 1 ≤ x % 128 && x % 128 ≤ 64 && x / 128 % 2 == 0 && 1 ≤ x / 256 && x < 4096

/-- The limits of Table 4.4 that the record alone shows, and TEAMS × NSIB ≤ 2³¹ (R90). -/
def recordOk (r : List Byte) : Bool :=
  let f := recField r
  let n := f 23 1
  let live := (roleFields r).take n
  f 0 8 % 4 == 0 && 1 ≤ f 16 4 && f 16 4 ≤ 2 ^ 31 && 1 ≤ f 21 1 && f 21 1 ≤ 12 && f 16 4 % f 21 1 == 0 && 1 ≤ f 20 1 && f 20 1 ≤ 64 &&
    f 22 1 < 8 && 1 ≤ n && n ≤ 4 && live.all roleOk && ((roleFields r).drop n).all (· == 0) &&
    live.foldl (fun a x => a + x % 128) 0 == f 20 1 && f 32 2 ≤ 512 && f 34 1 ≤ 16 && f 35 1 == 0 && 1 ≤ f 36 4 && f 56 8 % 8 == 0 &&
    (if f 72 8 == 0 then f 80 1 == 0 && f 81 1 == 0
     else f 72 8 % 4096 == 0 && 2 ≤ f 80 1 && f 80 1 ≤ 64 && f 81 1 ≤ f 80 1 && f 16 4 * f 80 1 ≤ 2 ^ 31) && f 82 46 == 0

/-- R235: BALLOT lies in a writable mapping of the context. -/
def State.ballotOk (s : State) (asid : Nat) (r : List Byte) : Bool :=
  recField r 72 8 == 0 ||
    (match s.agentPage asid (BitVec.ofNat 64 (recField r 72 8)) with
     | .ok (_, attr) => attr.w
     | .error _ => false)

/-- An unfinished grid of a context by its number (R92). -/
def State.gridNamed (s : State) (ctx num : Nat) : Option Nat :=
  (s.grids.find? fun e => e.2.ctx == ctx && e.2.num == num).map (·.1)

/-- R90: the grid table is full. -/
def State.gridsFull (s : State) : Bool := 4096 ≤ s.grids.length

/-- Table 5.2: the status of a record, which has been read, for a context.  (In part DEDUCED, log entry 30.) -/
def State.launchStatus (s : State) (ctx : Nat) (r : List Byte) : Nat :=
  if s.gridsFull then 1
  else if !recordOk r || !s.ballotOk (s.ctx ctx).asid r then 2
  else if (s.gridNamed ctx (recField r 36 4)).isSome then 3
  else if (s.ctx ctx).killing then 4
  else 0

/-- The ballot that a record asks for (R235): Q is resolved from QUORUM. -/
def ballotFor (r : List Byte) : Option Ballot :=
  if recField r 72 8 == 0 then none
  else
    let n := recField r 80 1
    some {
      n := n, q := if recField r 81 1 == 0 then n / 2 + 1 else recField r 81 1, outcome := 0, whash := 0, qstamp := (0, 0)
      completer := 0, decided := 0, asked := false, sibs := List.replicate n ⟨0, false, false, 0, false, false, false⟩, slots := []
      posts := [], addr := BitVec.ofNat 64 (recField r 72 8), spoiled := false, spoilDue := false }

/-- GRID_ACCEPT (R90 to R92, R235): a good record becomes a grid, and its ballot record is initialised.  (In part DEDUCED, log entry 30.) -/
def State.acceptGrid (s : State) (ctx : Nat) (r : List Byte) : State :=
  let id := s.fresh
  let preds := ((List.range 4).map fun k => recField r (40 + 4 * k) 4).filterMap fun p => if p = 0 then none else s.gridNamed ctx p
  let wait := preds.filter fun p => (s.grid p).st != .triggered && (s.grid p).st != .done
  let g : Grid := {
    ctx, num := recField r 36 4, st := if wait.isEmpty && preds.isEmpty then .ready else .waiting, record := r.take 128
    mode := s.pkg.mode, tenant := (s.ctx ctx).tenant, lockq := (s.ctx ctx).lockq, since := s.pkg.now, order := id, placed := 0, reserving := false, preds := preds.eraseDups, ballot := ballotFor r }
  ({ s with grids := s.grids.set id g, fresh := id + 1 } : State).openBallot id

/-! ### Readiness and completion (R91, R98) -/

/-- The teams of a grid that have been placed. -/
def State.gridTeams (s : State) (grid : Nat) : List Nat := (s.teams.filter fun e => e.2.grid == grid).map (·.1)

/-- A store or a list of them is performed at a scope. -/
def State.performed (s : State) (scope : Nat) (ns : List Nat) : Bool :=
  ns.all fun n => match s.stores.get? n with
    | some st => st.performedAt scope
    | none => true

/-- Every release of a team by `trig` or exit has been performed (R98). -/
def State.released (s : State) (t : Nat) : Bool :=
  (s.team t).groups.all fun gid =>
    let g := s.group gid
    if g.exited == allLanes then g.gone && !(s.cores.any fun e => e.2.abuf.any fun a => a.gids.contains gid) && s.performed 5 (g.stores ++ g.observed) else g.triggered && s.performed 5 g.trigStores

/-- The next cluster to place: the clusters of a sibling that is cancelled are never placed (R110, R240).  (In part DEDUCED, log entry 21.) -/
def Grid.nextCluster (g : Grid) : Nat :=
  ((List.range g.placements).find? fun n => g.placed ≤ n && !(match g.ballot with
    | some b => 2 ≤ (b.sib (n % g.nsib)).status && (b.sib (n % g.nsib)).status ≤ 3
    | none => false)).getD g.placements

/-- Every team of a grid has executed `trig` or exited, and none is still to be placed (R98, R99). -/
def State.allTriggered (s : State) (grid : Nat) : Bool :=
  (s.grid grid).placements ≤ (s.grid grid).nextCluster &&
  (s.gridTeams grid).all fun t => (s.team t).groups.all fun gid =>
    (s.group gid).triggered || (s.group gid).exited == allLanes

/-- R91: a running grid whose teams have all triggered or exited is TRIGGERED.  A READY grid of a context that is being killed has teams that exit
without a place (Table 5.4): it passes through RUNNING in the same step.  (In part DEDUCED, log entry 30.) -/
def State.settleGrid (s : State) (grid : Nat) : State :=
  let g := s.grid grid
  if (g.st == .running || (g.st == .ready && (s.ctx g.ctx).killing)) && s.allTriggered grid then
    s.updGrid grid fun g => { g with st := .triggered }
  else s

/-- Every running grid. -/
def State.settleGrids (s : State) : State := (s.grids.map (·.1)).foldl State.settleGrid s

/-- A waiting grid's predecessors have triggered and their releases are performed, or they are gone (R91, R98). -/
def State.canReady (s : State) (grid : Nat) : Bool :=
  (s.grid grid).st == .waiting && (s.grids.get? grid).isSome && (s.grid grid).preds.all fun p =>
    match s.grids.get? p with
    | none => true
    | some g => (g.st == .triggered || g.st == .done) && (s.gridTeams p).all s.released

/-- GRID_READY (R91, R98). -/
def execGridReady (grid : Nat) (s : State) : Out :=
  .next (if s.canReady grid then s.updGrid grid fun g => { g with st := .ready, since := s.pkg.now } else s)

/-- The merges of buffered atomics that groups of a team have contributed to. -/
def State.teamMerges (s : State) (t : Nat) : List Owed :=
  (s.core (s.team t).core).abuf.filterMap fun a =>
    if a.gids.any (s.team t).groups.contains then some (.atomicMerge (s.team t).core a.asid (BitVec.ofNat 64 a.va)) else none

/-- R91: the grid's teams have exited, its engine commands have completed, every write of its groups is performed, and its ballot is
settled: every cancelled sibling is released, and every counter is written (R414). -/
def State.canDone (s : State) (grid : Nat) : Bool :=
  let ts := s.gridTeams grid
  (s.grid grid).st == .triggered && ts.all (fun t => (s.team t).st == .exited) &&
    !(s.cmds.any fun e => ts.contains e.2.team && e.2.cls != 3 && e.2.st != .done) && ts.all (fun t => (s.teamMerges t).isEmpty) &&
    (ts.all fun t => (s.team t).groups.all fun gid => s.performed 6 ((s.group gid).stores ++ (s.group gid).observed)) &&
    (match (s.grid grid).ballot with
     | some b => b.outcome != 0 && b.posts.isEmpty && !b.asked && b.sibs.all fun x => !x.asked && x.status != 2 && x.written
     | none => true)

/-- The grid is freed, with its teams and its groups. -/
def State.freeGrid (s : State) (grid : Nat) : State :=
  let ts := s.gridTeams grid
  { s with
    grids := s.grids.del grid
    teams := s.teams.filter fun e => e.2.grid != grid
    groups := s.groups.filter fun e => e.2.oz || !ts.contains e.2.team }

/-- GRID_DONE (R91): DONE_VAL is written by a device agent, and the grid is freed; a write that fails is recorded in CTX_FAULT. -/
def execGridDone (grid : Nat) (s : State) : Out :=
  .next (if s.canDone grid then
      let g := s.grid grid
      let va := BitVec.ofNat 64 (recField g.record 56 8)
      if va = 0 then s.freeGrid grid
      else s.asAgent (s.ctx g.ctx).asid 1 [va] fun s =>
        (match s.agentWrite (s.ctx g.ctx).asid va (leBytes 8 (recField g.record 64 8)) with
          | .ok s => s
          | .error code => s.recordFault g.ctx code va 0 g.num (s.source 0 0x1012)).freeGrid grid
    else s)

/-! ### Save areas (R172) -/

/-- The size of a team's save area in 64 KiB units. -/
def saveSize (groups acc spw : Nat) : Nat :=
  (0x2000 + (groups * 0x2800 + 0xFFF) / 0x1000 * 0x1000 + acc * 0x4000 + spw * 0x8000 + 0xFFFF) / 0x10000

/-- 64 KiB units of the save pool. -/
def State.poolUnits (s : State) : Nat := (s.pkg.saveLen.extractLsb' 0 24).toNat * 32

/-- Save areas in use: base and units, counted in units from the pool's base. -/
def State.areas (s : State) : List (Nat × Nat) :=
  (s.teams.filter fun e => e.2.saveUnits != 0).map fun e => (e.2.saveBase, e.2.saveUnits)

/-- R172: the lowest free run of `n` units, given the areas in use. -/
def findRun (used : List (Nat × Nat)) (units n : Nat) : Option Nat :=
  let free := fun b => b + n ≤ units && used.all fun a => a.1 + a.2 ≤ b || b + n ≤ a.1
  ((0 :: used.map fun a => a.1 + a.2).filter free).foldl (fun (m : Option Nat) b => some (match m with | some x => min x b | none => b)) none

/-- SAVE_FREE (Table 8.8). -/
def State.saveFree (s : State) : Nat := s.poolUnits - s.areas.foldl (fun n a => n + a.2) 0

/-! ### Placement (R93 to R97, R99, R108, R109) -/

/-- Budgets of the groups of a team, in order (R95): role, number within the role, budget. -/
def groupRoles (r : List Byte) : List (Nat × Nat × Nat) :=
  (numbered ((roleFields r).take (recField r 23 1))).flatMap fun e =>
    (List.range (e.2 % 128)).map fun k => (e.1, k, 8 * (e.2 / 256 % 16))

/-- Teams resident on a core. -/
def State.residents (s : State) (core : Nat) : List Nat :=
  (s.teams.filter fun e => e.2.core == core && (e.2.st == .resident || e.2.st == .saving)).map (·.1)

/-- The launch record of a team. -/
def State.recordOf (s : State) (t : Nat) : List Byte := (s.grid (s.team t).grid).record

/-- What a team of a record takes of a partition: groups and registers (Table 5.3). -/
def partitionUse (r : List Byte) (p : Nat) : Nat × Nat :=
  (numbered (groupRoles r)).foldl (fun n e => if e.1 % 4 = p then (n.1 + 1, n.2 + e.2.2.2) else n) (0, 0)

/-- R95: a team of a record fits on a core beside its residents, leaving the teams of `gone` out. -/
def State.fits (s : State) (core : Nat) (r : List Byte) (ways : Nat) (gone : List Nat) : Bool :=
  let ts := (s.residents core).filter fun t => !gone.contains t
  let sum := fun (f : Nat → Nat) => ts.foldl (fun n t => n + f t) 0
  (List.range 4).all (fun p =>
    sum (fun t => (partitionUse (s.recordOf t) p).1) + (partitionUse r p).1 ≤ 32 &&
    sum (fun t => (partitionUse (s.recordOf t) p).2) + (partitionUse r p).2 ≤ 4096) &&
  sum (fun t => recField (s.recordOf t) 32 2) + recField r 32 2 ≤ 512 &&
  sum (fun t => (s.team t).ways.length) + ways ≤ 16 &&
  ts.all fun t => (s.team t).waitOut.isNone

/-- R96: every team of a grid's next cluster fits on consecutive cores of one die from `core` on. -/
def State.clusterFits (s : State) (grid core : Nat) (gone : List Nat) : Bool :=
  let g := s.grid grid
  let n := g.cluster
  core < 576 && core % 24 + n ≤ 24 &&
    (List.range n).all fun k => s.fits (core + k) g.record (recField g.record 34 1) gone

/-- The save areas of a cluster can be allocated (R172). -/
def State.areasFit (s : State) (grid : Nat) : Bool :=
  let r := (s.grid grid).record
  let n := saveSize (recField r 20 1) (recField r 32 2) (recField r 34 1)
  ((List.range (s.grid grid).cluster).foldl (fun (u : Option (List (Nat × Nat))) _ =>
    match u with
    | none => none
    | some l => (findRun l s.poolUnits n).map fun b => (b, n) :: l) (some s.areas)).isSome

/-- A grid has teams to place: none of its saved teams waits (R108). -/
def State.hasUnplaced (s : State) (grid : Nat) : Bool :=
  let g := s.grid grid
  (g.st == .ready || g.st == .running) && g.nextCluster < g.placements

/-- Saved teams of a grid that wait to be placed again. -/
def State.savedTeams (s : State) (grid : Nat) : List Nat :=
  (s.gridTeams grid).filter fun t => (s.team t).st == .saved

/-- R93: whether a grid comes before another in the order of placement. -/
def Grid.before (a b : Grid) : Bool := b.priority < a.priority || (a.priority == b.priority && a.order < b.order)

/-- R94: the grid that reserves, if there is one. -/
def State.reserver (s : State) : Option Nat :=
  (s.grids.filter fun e => e.2.reserving).foldl (fun (b : Option (Nat × Grid)) e =>
    match b with
    | some h => if e.2.before h.2 then some e else b
    | none => some e) none |>.map (·.1)

/-- R174: a saved team fits on a core, beside its residents but those of `gone`, when the buffer entries at its indexes are free there. -/
def State.fitsSaved (s : State) (t core : Nat) (gone : List Nat) : Bool :=
  s.fits core (s.recordOf t) (s.team t).ways.length gone &&
    (s.team t).keptBufs.all fun e => match (s.core core).bufs.get? e.1 with
      | some b => !b.live || gone.contains b.owner
      | none => true

/-- The saved teams that are placed again with a team: those of its cluster (R108). -/
def State.savedMates (s : State) (t : Nat) : List Nat := (s.peers t).filter fun u => (s.team u).st == .saved

/-- The core that a team of a saved cluster comes to when its first team `t` comes to `core`. -/
def State.mateCore (s : State) (t core u : Nat) : Nat := core + ((s.team u).rank - (s.team t).rank)

/-- R96, R108: a saved team, or a saved cluster whole from its first saved team on, fits from a core on, on one die. -/
def State.savedFits (s : State) (t core : Nat) (gone : List Nat) : Bool :=
  let ts := s.savedMates t
  (s.team t).st == .saved && core < 576 && (s.peers t).all (fun u => (s.team u).st == .saved || (s.team u).st == .exited) &&
    ts.all fun u => (s.team t).rank ≤ (s.team u).rank && s.mateCore t core u / 24 == core / 24 && s.fitsSaved u (s.mateCore t core u) gone

/-- A grid waits for a place: it has teams that are saved, or that have not been placed. -/
def State.wants (s : State) (grid : Nat) : Bool := s.hasUnplaced grid || !(s.savedTeams grid).isEmpty

/-- The saved team that a grid places next: the first in its order of placement (R93, R108, R109). -/
def State.nextSaved (s : State) (grid : Nat) : Option Nat :=
  (s.savedTeams grid).foldl (fun b t => match b with
    | some u => if (s.team t).order < (s.team u).order then some t else b
    | none => some t) none

/-- What a grid has to place next fits from a core on: a saved team comes before every unplaced one (R108). -/
def State.fitsNext (s : State) (grid core : Nat) (gone : List Nat) : Bool :=
  match s.nextSaved grid with
  | none => s.hasUnplaced grid && s.areasFit grid && s.clusterFits grid core gone
  | some t => s.savedFits t core gone

/-- What a grid has to place next fits somewhere on a die. -/
def State.fitsOnDie (s : State) (grid die : Nat) : Bool := (List.range 24).any fun c => s.fitsNext grid (24 * die + c) []

/-- The order of R93 and a reservation let a grid place now on a die: no earlier grid's next team fits there, and no earlier grid
reserves. -/
def State.turnOf (s : State) (grid die : Nat) : Bool :=
  let g := s.grid grid
  (match s.reserver with
   | some r => r == grid || !(s.grid r).before g
   | none => true) &&
  !(s.grids.any fun e => e.1 != grid && e.2.before g && s.wants e.1 && s.fitsOnDie e.1 die)

/-- A cluster may be placed on the cores from `core` on. -/
def State.mayPlace (s : State) (grid core : Nat) : Bool :=
  s.pkg.running && s.hasUnplaced grid && (s.savedTeams grid).isEmpty && s.clusterFits grid core [] && s.areasFit grid &&
    s.turnOf grid (core / 24)

/-- R136: the lowest free position of a partition. -/
def State.freePos (s : State) (core part : Nat) : Nat :=
  ((List.range 32).find? fun k => !((s.partition core part).any fun e => e.2.pos == k)).getD 0

/-- R97: one group of a team starts. -/
def State.startGroup (s : State) (t num role roleGrp budget : Nat) : State :=
  let tm := s.team t
  let r := s.recordOf t
  let gid := s.fresh
  let entry := BitVec.ofNat 64 (recField r 0 8)
  let g : Group := { Group.init with
    team := t, num, role, roleGrp, budget, core := tm.core, part := num % 4, pos := s.freePos tm.core (num % 4)
    pcs := (List.range 16).map fun l => (l, entry), arrived := allLanes, seed := s.free
    s := Tbl.set [] 1 (BitVec.ofNat 64 (recField r 8 8)) }
  let s := { s with groups := s.groups.set gid g, fresh := gid + 1, free := s.free + 1 }
  s.updTeam t fun tm => { tm with groups := tm.groups ++ [gid] }

/-- One team is placed on a core and starts. -/
def State.startTeam (s : State) (grid core num sib rank cluster : Nat) : State :=
  let r := (s.grid grid).record
  let t := s.fresh
  let units := saveSize (recField r 20 1) (recField r 32 2) (recField r 34 1)
  let tm : Team := { Team.init with
    grid, num, sib, rank, cluster := if cluster = 0 then (if (s.grid grid).cluster = 1 then 0 else t) else cluster, core
    st := .resident, ways := (s.cacheWays core).take (recField r 34 1)
    saveBase := (findRun s.areas s.poolUnits units).getD 0, saveUnits := units, order := t }
  let s := ({ s with teams := s.teams.set t tm, fresh := t + 1 } : State).convertWays core tm.ways
  (numbered (groupRoles r)).foldl (fun s (e : Nat × Nat × Nat × Nat) => s.startGroup t e.1 e.2.1 e.2.2.1 e.2.2.2) s

/-- The next cluster of a grid is placed: the siblings of one cluster number follow each other (R109).  The grid takes its copies of MODE and of its
context's tenant and quota with its first team (R24, R79). -/
def State.placeCluster (s : State) (grid core : Nat) : State :=
  let g := s.grid grid
  let n := g.nextCluster
  let k := n / g.nsib
  let sib := n % g.nsib
  let first := s.fresh
  let s := s.updGrid grid fun g => { g with
    mode := if g.placed = 0 then s.pkg.mode else g.mode
    tenant := if g.placed = 0 then (s.ctx g.ctx).tenant else g.tenant
    lockq := if g.placed = 0 then (s.ctx g.ctx).lockq else g.lockq
    placed := n + 1, st := .running, reserving := false, since := s.pkg.now }
  let s := (List.range g.cluster).foldl (fun s r =>
    s.startTeam grid (core + r) (k * g.cluster + r) sib r (if r = 0 then 0 else first)) s
  (s.regroupL1 first).acquire 5

/-- TEAM_PLACE (R93 to R97, R417): the next cluster comes to the lowest core, on the lowest die, where it fits, when it may be placed there. -/
def execTeamPlace (grid core : Nat) (s : State) : Out :=
  .next (if s.mayPlace grid core && (List.range core).all fun c => !s.clusterFits grid c [] then s.placeCluster grid core else s)

/-- RESERVE_TIMEOUT (R94): a grid whose next team has found no core for 1 ms reserves. -/
def execReserveTimeout (grid : Nat) (s : State) : Out :=
  .next (if s.wants grid && (s.grid grid).since + 1000000 ≤ s.pkg.now && !((List.range 24).any fun d => s.fitsOnDie grid d) then
      s.updGrid grid fun g => { g with reserving := true }
    else s)

/-! ### Pre-emption (R105 to R107, R110) -/

/-- A full save of a team begins: each group stops at its next run boundary (R106), and a group that waits at a word stops there
(R348); what the core buffers is merged (R155). -/
def State.startSave (s : State) (t : Nat) : State :=
  if (s.team t).st == .resident then
    let s := s.updTeam t fun tm => { tm with st := .saving, waitOut := none }
    ((s.team t).groups.foldl (fun s gid => (s.updGroup gid fun g => { g with saving := true, stop := none }).unblock gid) s).owe
      (s.mergesOf (s.team t).core)
  else s

/-- A team is chosen: it is saved, or waited for (R106). -/
def State.preempt (s : State) (t : Nat) : State :=
  if (s.grid (s.team t).grid).mode.getLsbD 11 then
    s.updTeam t fun tm => if tm.st == .resident then { tm with waitOut := some s.pkg.now } else tm
  else s.startSave t

/-- R105: resident teams of a die in the order in which they are taken: lowest priority first, then latest acceptance.  One that is waited for has been
taken (R106). -/
def State.victims (s : State) (die prio : Nat) : List Nat :=
  let ts := (s.teams.filter fun e => e.2.core / 24 == die && e.2.st == .resident && e.2.waitOut.isNone && (s.grid e.2.grid).priority < prio).map (·.1)
  let key := fun t => (s.grid (s.team t).grid).priority * 2 ^ 64 + (2 ^ 64 - 1 - (s.grid (s.team t).grid).order)
  sortOn key ts

/-- The fewest of the victims, in their order, whose going lets the grid's next cluster fit on the cores. -/
def State.takeVictims (s : State) (grid core : Nat) : List Nat → List Nat → Option (List Nat)
  | [], acc => if s.fitsNext grid core acc then some acc else none
  | v :: vs, acc => if s.fitsNext grid core acc then some acc else s.takeVictims grid core vs (acc ++ s.peers v)

/-- The teams of a die that have been taken: they are being saved, or are waited for. -/
def State.taken (s : State) (die : Nat) : List Nat :=
  (s.teams.filter fun e => e.2.core / 24 == die && (e.2.st == .saving || (e.2.st == .resident && e.2.waitOut.isSome))).map (·.1)

/-- The victims that let a grid's next cluster fit: the fewest on one core, the core of the first victim where enough can be taken; for a cluster of n
teams, on n neighbouring cores.  What has been taken already counts.  (In part DEDUCED, log entry 30.) -/
def State.chooseVictims (s : State) (grid die : Nat) : Option (List Nat) :=
  let vs := s.victims die 3
  let n := (s.grid grid).cluster
  let bases := (vs.flatMap fun v => (List.range n).map fun k => (s.team v).core - k).eraseDups.filter fun b => b / 24 == die
  bases.findSome? fun b => s.takeVictims grid b (vs.filter fun t => b ≤ (s.team t).core && (s.team t).core < b + n) (s.taken die)

/-- PREEMPT_TIMEOUT (R105): a priority-3 team that has found no core of a die for 50 µs takes victims, unless it fits once those taken have gone. -/
def execPreemptTimeout (grid die : Nat) (s : State) : Out :=
  .next (if s.pkg.running && (s.grid grid).priority == 3 && s.wants grid && (s.grid grid).since + 50000 ≤ s.pkg.now && !s.fitsOnDie grid die &&
      !((List.range 24).any fun c => s.fitsNext grid (24 * die + c) (s.taken die)) then
      match s.chooseVictims grid die with
      | some ts => (ts.eraseDups.filter fun t => !(s.taken die).contains t).foldl State.preempt s
      | none => s
    else s)

/-- The ticks that a team is waited for: (PRE_BOUND + 1) × 16 µs of its grid's copy of MODE (Table 1.5, R106). -/
def State.preBound (s : State) (t : Nat) : Nat :=
  (((s.grid (s.team t).grid).mode.extractLsb' 12 4).toNat + 1) * 16000

/-- PRE_BOUND_EXPIRY (R106): the bound of a team that is waited for expires, and its save begins. -/
def execPreBoundExpiry (team : Nat) (s : State) : Out :=
  .next (match (s.team team).waitOut with
    | some t => if t + s.preBound team ≤ s.pkg.now then s.startSave team else s
    | none => s)

/-- Every group of a team stands at a run boundary with no result outstanding and no fence incomplete (R134, R173, R184). -/
def State.atBoundary (s : State) (t : Nat) : Bool :=
  (s.team t).groups.all fun gid =>
    let g := s.group gid
    g.exited == allLanes || (!g.runOpen && g.pend.isEmpty && g.block == .none && g.fence.isNone)

/-- A save may close but for the merges that it waits for (R155): the groups have stopped, and the commands that left the task table have completed
(R106). -/
def State.nearClose (s : State) (t : Nat) : Bool :=
  (s.team t).st == .saving && s.atBoundary t && !(s.cmds.any fun e => e.2.team == t && e.2.st == .running && (e.2.cls < 3 || s.pkg.pwr != 3))

/-- A save may close. -/
def State.canClose (s : State) (t : Nat) : Bool := s.nearClose t && (s.teamMerges t).isEmpty

/-- SAVE_CLOSE (R106, R107, R173, R174): the team leaves its core.  Its buffers, its commands and its groups' registers go with it.  A team whose sibling
is cancelled, or whose context is killed, exits at once, whatever holds it has (R110, R241).  (In part DEDUCED, log entry 20.) -/
def execSaveClose (team : Nat) (s : State) : Out :=
  .next (if s.canClose team then
      let tm := s.team team
      let src := s.source (tm.core / 24) (tm.core % 24 * 64 + 6)
      let c := s.core tm.core
      let mine := (s.cmds.filter fun e => e.2.team == team).map (·.1)
      let close := (s.stampTime src, src)
      let s := (s.stamp src).updTeam team fun tm => { tm with
        st := .saved, keptBufs := c.bufs.filter fun e => e.2.live && e.2.owner == team }
      let s := s.writeArea team close
      let s := (s.updGrid tm.grid fun g => { g with since := s.pkg.now }).regroupL1 team
      let s := s.updCore tm.core fun c => { c with
        tasks := c.tasks.filter fun i => !mine.contains i
        bufs := c.bufs.map fun (e : Nat × Buf) => (e.1, if e.2.live && e.2.owner == team then { e.2 with live := false } else e.2) }
      let s := { s with groups := s.groups.map fun (e : Nat × Group) =>
          (e.1, if e.2.team == team && !e.2.oz then { e.2 with slot := none } else e.2) }
      if s.mayExit team then s.exitSaved team else s
    else if s.nearClose team then
      let core := (s.team team).core
      match (s.core core).abuf.find? fun a => a.gids.any (s.team team).groups.contains with
      | some e => s.retryMerge core e
      | none => s
    else s)

/-- R136: the positions that groups take on a core: the lowest free one of the partition of each, one after the other. -/
def State.positions (s : State) (core : Nat) (gids : List Nat) : List (Nat × Nat) :=
  gids.foldl (fun acc gid =>
    let p := (s.group gid).part
    let used := ((s.partition core p).map (·.2.pos)) ++ (acc.filter fun x => (s.group x.1).part == p).map (·.2)
    acc ++ [(gid, ((List.range 32).find? fun k => !used.contains k).getD 0)]) []

/-- The caches of a core, and its round table, are cold (R108, R246). -/
def State.coldCore (s : State) (core : Nat) : State := s.updCore core fun c => { c with l1 := [], icache := [], pac := [], rtab := [] }

/-- The team is restored on a core, with cold caches (R108, R136, R174): its saved commands stand ahead of its new ones.  A team whose groups have all
exited is EXITED at once (Table 5.4). -/
def State.restoreTeam (s : State) (t core : Nat) : State :=
  let tm := s.team t
  let ways := (s.cacheWays core).take tm.ways.length
  let mine := ((s.cmds.filter fun e => e.2.team == t && e.2.st == .waiting).map (·.1))
  let places := s.positions core (tm.groups.filter fun gid => !(s.group gid).gone)
  let s := (s.updTeam t fun tm => { tm with st := .resident, core, ways, keptBufs := [], byEntry := false }).coldCore core
  let s := s.updGrid tm.grid fun g => { g with reserving := false, since := s.pkg.now }
  let s := s.updCore core fun c => { c with
    tasks := c.tasks ++ mine
    bufs := tm.keptBufs.foldl (fun (b : Tbl Buf) (e : Nat × Buf) => b.set e.1 e.2) c.bufs }
  let s := { s with cmds := s.cmds.map fun (e : Nat × Cmd) => (e.1, if e.2.team == t then { e.2 with core } else e.2) }
  ((places.foldl (fun s x =>
    ({ s with fresh := s.fresh + 1 } : State).updGroup x.1 fun g => { g with
      core, pos := x.2, saving := false, stop := none, slot := none, readySince := 0 }) s).regroupL1 t).teamGone t

/-- A saved team, or a saved cluster whole, may be placed again from a core on (R93, R94, R108). -/
def State.mayReplace (s : State) (team core : Nat) : Bool :=
  s.pkg.running && s.nextSaved (s.team team).grid == some team && s.savedFits team core [] && s.turnOf (s.team team).grid (core / 24)

/-- TEAM_REPLACE (R93, R94, R108, R417): the next saved team of a grid, or a saved cluster whole, is placed again when it is its grid's turn, on the lowest
core where it fits. -/
def execTeamReplace (team core : Nat) (s : State) : Out :=
  .next (if s.mayReplace team core && (List.range core).all fun c => !s.savedFits team c [] then
      (s.savedMates team).foldl (fun s t => s.restoreTeam t (s.mateCore team core t)) s
    else s)

end Sys2Proof.Machine
end

