-- ==== Sys2Proof/Machine/Links.lean ====
section
/-! DEFINITION. Links and time: the flits of a port, retry and retraining, time flits, domain membership, and the time counter
(R15 to R22). -/

namespace Sys2Proof.Machine

/-- A link port. -/
def State.port (s : State) (n : Nat) : Port := s.ports.getD n Port.init

/-- A port that has begun to retrain keeps the time at which it did (R22). -/
def Port.timed (p before : Port) (t : Nat) : Port := if p.retrain && !before.retrain then { p with since := t } else p

/-- Change a link port. -/
def State.updPort (s : State) (n : Nat) (f : Port → Port) : State := { s with ports := s.ports.set n ((f (s.port n)).timed (s.port n) s.pkg.clock) }

/-! ### Flits (R19, Table 1.3) -/

/-- One bit of the division by the ECMA-182 polynomial. -/
def crcBit (c : Quad) : Quad := if c.getLsbD 63 then (c <<< 1) ^^^ 0x42F0E1EBA9EA3693 else c <<< 1

/-- R19: CRC-64/ECMA-182 of a list of bytes.  (In part PRESUMED, log entry 22.) -/
def crc64 (bs : List Byte) : Quad :=
  bs.foldl (fun (c : Quad) (b : Byte) => (List.range 8).foldl (fun c _ => crcBit c) (c ^^^ (BitVec.setWidth 64 b <<< (56 : Nat)))) 0

/-- A field of a header. -/
def hdr (h : Quad) (lo n : Nat) : Nat := (h.extractLsb' lo n).toNat

/-- Table 1.3: the header of a flit that is sent. -/
def Flit.header (f : Flit) : Quad :=
  BitVec.ofNat 64 (f.rseq % 4096 * 2 ^ 20 + f.stop.toNat * 2 ^ 32 + f.typ % 4 * 2 ^ 36 + f.vc % 4 * 2 ^ 38 + f.ack % 4096 * 2 ^ 40 +
    f.seq % 4096 * 2 ^ 52)

/-- R19: the 272 bytes of a flit: header, 256 bytes of payload, CRC.  (In part DESIGN CHOICE, log entry 22.) -/
def Flit.bytes (f : Flit) : List Byte :=
  let body := leBytes 8 f.header.toNat ++ (f.payload ++ List.replicate 256 0).take 256
  body ++ leBytes 8 (crc64 body).toNat

/-- R19: the CRC of 272 received bytes matches. -/
def flitGood (bs : List Byte) : Bool := bs.length == 272 && leNat (bs.drop 264) == (crc64 (bs.take 264)).toNat

/-- The header of received bytes. -/
def flitHeader (bs : List Byte) : Quad := BitVec.ofNat 64 (leNat (bs.take 8))

/-- The payload of received bytes. -/
def flitPayload (bs : List Byte) : List Byte := (bs.drop 8).take 256

/-- R22: a flit with a good CRC whose reserved field is not 0, or whose RSEQ is not 0 while it is no RETRY flit. -/
def headerBad (h : Quad) : Bool := hdr h 0 20 != 0 || (hdr h 20 12 != 0 && hdr h 36 2 != 2)

/-! ### The transmitter (R20, R21) -/

/-- A port can send and receive. -/
def Port.open_ (p : Port) : Bool := p.up && !p.retrain

/-- A flit leaves with the ACK and the STOP levels of this side (Table 1.3). -/
def Port.put (p : Port) (typ vc seq rseq : Nat) (payload : List Byte) : Port :=
  { p with sent := p.sent ++ [(⟨typ, vc, seq, (p.expect + 4095) % 4096, p.stops, rseq, payload⟩ : Flit)] }

/-- A DATA flit of the replay buffer is sent, for the first time or again. -/
def Port.putData (p : Port) (d : Nat × Nat × List Byte) : Port := p.put 0 d.2.1 d.1 0 d.2.2

/-- R20, R21: a new DATA flit, which a STOP level or a full replay buffer holds back. -/
def Port.sendData (p : Port) (vc : Nat) (payload : List Byte) : Port :=
  if !p.open_ || p.stop.getLsbD vc || 512 ≤ p.replay.length then p
  else
    let d := (p.nextSeq, vc, payload)
    { p.putData d with nextSeq := (p.nextSeq + 1) % 4096, replay := p.replay ++ [d] }

/-- R20: an IDLE flit, whose SEQ is not used, goes out whatever the STOP levels say. -/
def Port.sendIdle (p : Port) : Port := if p.open_ then p.put 1 3 0 0 [] else p

/-- R21: DATA flits that an ACK covers leave the replay buffer; the STOP levels are those of the last header (R20). -/
def Port.heard (p : Port) (h : Quad) : Port :=
  let ack := hdr h 40 12
  { p with
    acked := ack
    stop := h.extractLsb' 32 4
    replay := if p.replay.any (·.1 == ack) then (p.replay.dropWhile fun d => d.1 != ack).drop 1 else p.replay }

/-! ### The receiver (R20 to R22) -/

/-- Flits of a virtual channel in the receive buffer. -/
def Port.used (p : Port) (vc : Nat) : Nat := (p.inbox.filter fun f => f.1 == vc).length

/-- R20: the STOP level of a channel, set when 48 or fewer of its 128 slots are free and cleared when 80 or more are. -/
def Port.level (p : Port) (vc : Nat) : Bool :=
  if 80 ≤ p.used vc then true else if p.used vc ≤ 48 then false else p.stops.getLsbD vc

/-- R20: the STOP levels follow the receive buffer. -/
def Port.levels (p : Port) : Port :=
  { p with stops := BitVec.ofNat 4 ((List.range 4).foldl (fun n vc => if p.level vc then n + 2 ^ vc else n) 0) }

/-- R20: the units of the package take the oldest `n` flits of a channel out of the receive buffer. -/
def Port.drain (p : Port) (vc n : Nat) : Port :=
  { p with inbox := (p.inbox.foldl (fun (a : Nat × List (Nat × List Byte)) (f : Nat × List Byte) =>
      if f.1 == vc && 0 < a.1 then (a.1 - 1, a.2) else (a.1, a.2 ++ [f])) (n, [])).2 : Port }.levels

/-- R22: the link retrains; the replay buffer is kept, and UP still reads 1.  (In part DESIGN CHOICE, log entry 22.) -/
def Port.retrainNow (p : Port) : Port := if p.up then { p with retrain := true, unanswered := 0 } else p

/-- R21: a RETRY flit, on the management channel, asks for every flit from the next expected one on; eight without a delivery retrain
the link (R22).  (In part DEDUCED and DESIGN CHOICE, log entry 22.) -/
def Port.askRetry (p : Port) : Port :=
  let p := { p with discard := true, retries := p.retries + 1, unanswered := p.unanswered + 1 }.put 2 3 0 p.expect []
  if 8 ≤ p.unanswered then p.retrainNow else p

/-- R21, R22: what every received flit of a type goes through: CRC, header, ACK and STOP; `k` is what that type does with a good one. -/
def Port.receive (p : Port) (typ : Nat) (bs : List Byte) (k : Port → Port) : Port :=
  if !p.open_ then p
  else if !flitGood bs then p.askRetry
  else
    let h := flitHeader bs
    if headerBad h then p.retrainNow
    else if hdr h 36 2 != typ then p
    else k (p.heard h)

/-- R21: a good DATA flit is delivered in order, or discarded.  Its ACK and STOP are taken even then, and SEQ counts DATA flits alone.
(In part DESIGN CHOICE, log entry 22.) -/
def Port.deliver (p : Port) (h : Quad) (payload : List Byte) : Port :=
  if hdr h 52 12 == p.expect then
    { p with
      expect := (p.expect + 1) % 4096, discard := false, unanswered := 0, inbox := p.inbox ++ [(hdr h 38 2, payload)] }.levels
  else if p.discard then p else p.askRetry

/-- DATA_FLIT (R21, R22). -/
def Port.dataFlit (p : Port) (bs : List Byte) : Port := p.receive 0 bs fun p => p.deliver (flitHeader bs) (flitPayload bs)

/-- DATA_FLIT. -/
def execDataFlit (port : Nat) (head body tail : List Byte) (s : State) : Out := .next (s.updPort port fun p => p.dataFlit (head ++ body ++ tail))

/-- IDLE_FLIT (R20). -/
def execIdleFlit (port : Nat) (bs : List Byte) (s : State) : Out := .next (s.updPort port fun p => p.receive 1 bs id)

/-- R21: the transmitter resends from a sequence number, in order. -/
def Port.resend (p : Port) (seq : Nat) : Port := (p.replay.dropWhile fun d => d.1 != seq).foldl Port.putData p

/-- RETRY_FLIT (R21): the transmitter resends from RSEQ. -/
def execRetryFlit (port : Nat) (bs : List Byte) (s : State) : Out :=
  .next (s.updPort port fun p => p.receive 2 bs fun p => p.resend (hdr (flitHeader bs) 20 12))

/-! ### Training (R22) -/

/-- LINK_TRAINING: a port trains with a link partner for the first time; a port that is DOWN stays down until package reset.  (In part DESIGN CHOICE, log entry 22.) -/
def execLinkTraining (port : Nat) (s : State) : Out :=
  .next (s.updPort port fun p => if p.up || p.down then p else { p with up := true })

/-- LANE_LOCK_LOSS. -/
def execLaneLockLoss (port : Nat) (s : State) : Out := .next (s.updPort port Port.retrainNow)

/-- RETRAIN_DONE (R22): within 50 µs transmission resumes from the oldest flit that no ACK covers. -/
def execRetrainDone (port : Nat) (s : State) : Out :=
  .next (if s.pkg.clock ≤ (s.port port).since + 50000 then
      s.updPort port fun p => if p.retrain then p.replay.foldl Port.putData { p with retrain := false } else p
    else s)

/-- A retraining has lasted longer than 50 µs (R22). -/
def State.retrainOver (s : State) (port : Nat) : Bool := (s.port port).retrain && (s.port port).since + 50000 < s.pkg.clock

/-- RETRAIN_TIMEOUT (R22): a link whose retraining has not finished within 50 µs is down. -/
def execRetrainTimeout (port : Nat) (s : State) : Out :=
  .next (if s.retrainOver port then s.updPort port fun p => { p with up := false, retrain := false, down := true } else s)

/-- LINK_STAT (Table 1.4). -/
def Port.stat (p : Port) : Quad :=
  BitVec.ofNat 64 ((if p.up then 1 else 0) + (if p.retrain then 2 else 0) + (if p.down then 4 else 0) + 2 ^ 16 * p.retries.toNat)

/-! ### Time (R15 to R18) -/

/-- The counter runs: entry step 8 has not stopped it (R64), or resumption step 2 has started it again (R68). -/
def Pkg.counting (p : Pkg) : Bool := !(p.pwr == 3 && 8 ≤ p.step) && p.pwr != 4 && !(p.pwr == 5 && p.back < 2)

/-- R15, R16: ticks by which the counter slews in `n` ticks, at most one tick in 64, toward the master.  (In part DEDUCED, log entry 23.) -/
def Pkg.slews (p : Pkg) (n : Nat) : Nat := min p.offset.natAbs ((p.sinceSlew + n) / 64)

/-- R16: this package is the domain time master. -/
def Pkg.isMaster (p : Pkg) : Bool := p.joined && p.master == p.id

/-- The lowest of a package's own number and those of the others. -/
def lowest (id : Nat) (live : List Nat) : Nat := live.foldl min id

/-- R16: the lowest live package is the master.  One whose offset has still to come within 8 ticks after a join leaves the others theirs; one that
becomes the master follows no other any more.  (In part DEDUCED, log entry 23.) -/
def Pkg.elect (p : Pkg) : Pkg :=
  let m := match p.joining, p.live with
    | true, x :: xs => lowest x xs
    | _, _ => lowest p.id p.live
  if m == p.id then { p with master := m, offset := 0, sync := false, still := false, rejoin := false, joining := false }
  else { p with master := m }

/-- R17: a package whose offset has come within 8 ticks has joined. -/
def Pkg.settled (p : Pkg) : Pkg := if p.joining && !p.sync then { p with joining := false }.elect else p

/-- R15, R17: `n` ticks pass on a counter that runs.  One that was ahead at a domain join stands still until it agrees; any other advances,
and slews.  SYNC clears once the offset is within 8 ticks.  (In part DEDUCED, log entry 23.) -/
def Pkg.tick (p : Pkg) (n : Nat) : Pkg :=
  Pkg.settled (if p.still then
    let held := min n p.offset.toNat
    let off := p.offset - held
    { p with now := p.now + (n - held), offset := off, still := 0 < off, sync := p.sync && 8 < off.natAbs }
  else
    let k := p.slews n
    let off := if p.offset ≤ 0 then p.offset + k else p.offset - k
    { p with
      now := if p.offset ≤ 0 then p.now + n + k else p.now + (n - k)
      offset := off
      sync := if k = 0 then p.sync else p.sync && (p.rejoin || 8 < off.natAbs)
      sinceSlew := min 63 (p.sinceSlew + n - 64 * k) })

/-- R15, R18: `n` ticks pass; the wall clock and the pin's time keep counting in brown-out.  The time for which the pin has been low counts in every
state (DESIGN CHOICE, log entry 27). -/
def Pkg.advance (p : Pkg) (n : Nat) : Pkg :=
  let p := { p with clock := p.clock + n, wall := p.wall + n, lowFor := if p.warn then 0 else p.lowFor + n }
  if p.counting then p.tick n else p

/-- Time passes. -/
def State.advance (s : State) (n : Nat) : State := { s with pkg := s.pkg.advance n }

/-- R17: a counter meets the master's: one more than 8 ticks behind steps forward in one move, and one that far ahead stands still until
the two agree. -/
def Pkg.align (p : Pkg) (t : Nat) : Pkg :=
  let off : Int := (p.now : Int) - t
  let p := { p with rejoin := false }
  Pkg.settled (if off.natAbs ≤ 8 then { p with offset := off, sync := false, still := false }
  else if off < 0 then { p with now := t, offset := 0, sync := true, still := false }
  else { p with offset := off, sync := true, still := true })

/-- R16: the counter is compared with the master's time `t`.  An offset of more than 8 ticks sets SYNC, since the bound of R7 holds while
SYNC is clear.  (In part DEDUCED, log entry 23.) -/
def Pkg.compare (p : Pkg) (t : Nat) : Pkg :=
  if p.rejoin then p.align t
  else
    let off : Int := (p.now : Int) - t
    Pkg.settled { p with offset := off, sync := 8 < off.natAbs, still := p.still && 0 < off }

/-- The time that a TIME flit carries, in the first 8 bytes of its payload.  (In part DESIGN CHOICE, log entry 22.) -/
def flitTime (bs : List Byte) : Nat := leNat ((flitPayload bs).take 8)

/-- TIME_FLIT (R16, R17): the master's time, with the measured link delay, is compared with the counter.  (In part DEDUCED, log entry 23.) -/
def execTimeFlit (port : Nat) (flit : TimedFlit) (s : State) : Out :=
  let bs := flit.bytes
  let h := flitHeader bs
  let taken := (s.port port).open_ && flitGood bs && !headerBad h && hdr h 36 2 == 3 && s.pkg.joined && !s.pkg.isMaster && s.pkg.counting
  let s := s.updPort port fun p => p.receive 3 bs id
  .next (if taken then { s with pkg := { s.pkg with heardAt := s.pkg.clock }.compare (flitTime bs + flit.delay) } else s)

/-- TIME_FLIT_SEND (R16): the master sends a time flit on each Iseth link.  (In part DESIGN CHOICE, log entry 22.) -/
def execTimeFlitSend (s : State) : Out :=
  .next (if s.pkg.isMaster then
      (List.range 24).foldl (fun s n => s.updPort n fun p => if p.open_ then p.put 3 3 0 0 (leBytes 8 s.pkg.now) else p) s
    else s)

/-- R16: the live packages of the domain are those given, and what follows for the master. -/
def Pkg.setLive (p : Pkg) (live : List Nat) : Pkg :=
  { p with joined := true, live := live.filter (· != p.id), heardAt := p.clock }.elect

/-- R16: no time flit has come from the current master for 10 µs. -/
def Pkg.masterSilent (p : Pkg) : Bool := p.joined && !p.isMaster && p.counting && p.heardAt + 10000 ≤ p.clock

/-- MASTER_TIMEOUT (R16): a master that has been silent for 10 µs is replaced by the next-lowest live package; the offset from it is measured by its
first time flit.  (In part DEDUCED, log entry 23.) -/
def execMasterTimeout (s : State) : Out :=
  .next (if s.pkg.masterSilent then
      { s with pkg := { s.pkg with offset := 0, still := false }.setLive (s.pkg.live.filter (· != s.pkg.master)) }
    else s)

/-- DOMAIN_JOIN (R16, R17): this package joins, `t` being the time of the master that it finds and `live` the packages of the domain; once it has
joined, another package does.  A counter that stands in brown-out is aligned when it runs again (R68).  (In part DEDUCED, log entry 23.) -/
def Pkg.join (p : Pkg) (t : Nat) (live : List Nat) : Pkg :=
  let q := { p with joining := !p.joined || p.joining }.setLive live
  if q.isMaster then q
  else if !q.counting then { q with joining := true, rejoin := true, sync := true }
  else if p.joined then q.compare t
  else q.align t

/-- DOMAIN_JOIN. -/
def execDomainJoin (t : Nat) (live : List Nat) (s : State) : Out := .next { s with pkg := s.pkg.join t live }

/-- TIME_STAT (Table 1.4). -/
def Pkg.timeStat (p : Pkg) : Quad :=
  let off := if 127 < p.offset then 127 else if p.offset < -127 then -127 else p.offset
  BitVec.ofNat 64 ((if p.sync then 1 else 0) + (if p.isMaster then 2 else 0)) ||| ((BitVec.ofInt 8 off).setWidth 64 <<< 8)

end Sys2Proof.Machine
end

