-- ==== Sys2Proof/Machine/Rows.lean ====
section
/-! DEFINITION. Rows, regions and the sweep: major 0x19 and the events of the stacks (R30 to R42, R47 to R53, R373 to R378, R405 to R407). -/

namespace Sys2Proof.Machine

/-! ### Region descriptors (R34, R49) -/

/-- A region descriptor (Table 2.4). -/
structure Desc where
  /-- VBASE. -/
  vbase : Nat
  /-- LEN. -/
  len : Nat
  /-- K0. -/
  k0 : Word
  /-- K1. -/
  k1 : Word
  /-- FUNC. -/
  func : Nat
  /-- TYPE. -/
  typ : Nat
  /-- SAT. -/
  sat : Bool
  /-- PASSES. -/
  passes : Nat
  deriving DecidableEq, Repr

/-- The descriptor in 32 bytes; none for status 3 (R34, R49). -/
def descOf (bs : List Byte) : Option Desc :=
  let at_ := fun (k n : Nat) => leNat ((bs.drop k).take n)
  let w := at_ 24 8
  let d : Desc := {
    vbase := at_ 0 8
    len := at_ 8 8
    k0 := BitVec.ofNat 32 (at_ 16 4)
    k1 := BitVec.ofNat 32 (at_ 20 4)
    func := w % 8
    typ := w / 8 % 4
    sat := w / 32 % 2 == 1
    passes := w / 64 % 65536 }
  if d.vbase % 1024 != 0 || d.len = 0 || d.len % 1024 != 0 || d.passes = 0 || w / 2 ^ 22 != 0 || combRefused d.func d.typ d.k0 d.k1 then none
  else some d

/-- The addresses of a region's pages, one on each 64 KiB page, in ascending order. -/
def Desc.pages (d : Desc) : List Quad := pagesOf (BitVec.ofNat 64 d.vbase) d.len

/-! ### Pieces and registration (R35 to R37, R47) -/

/-- A physically contiguous piece of a region within one stack, in 1 KiB units. -/
structure Piece where
  /-- Stack. -/
  stack : Nat
  /-- First unit. -/
  pbase : Nat
  /-- Units. -/
  plen : Nat
  /-- Virtual address of its first byte. -/
  vbase : Nat
  deriving DecidableEq, Repr

/-- A further run of units joins the last piece, or begins one of its own. -/
def addPiece (ps : List Piece) (va pa units : Nat) : List Piece :=
  let new : Piece := ⟨stackOf pa, pa % 2 ^ 36 / 1024, units, va⟩
  match ps.getLast? with
  | some p =>
    if p.stack = new.stack && p.pbase + p.plen = new.pbase && p.vbase + 1024 * p.plen = va then
      ps.dropLast ++ [{ p with plen := p.plen + units }]
    else ps ++ [new]
  | none => [new]

/-- The pieces of a region, from the domain physical address of each of its pages. -/
def Desc.pieces (d : Desc) (addr : Quad → Nat) : List Piece :=
  d.pages.foldl (fun ps va =>
    let stop := min (d.vbase + d.len) ((va.toNat / 65536 + 1) * 65536)
    addPiece ps va.toNat (dpaLocal (addr va)) ((stop - va.toNat) / 1024)) []

/-- R47: a page has more than one virtual mapping. -/
def State.manyMaps (s : State) (pa : Nat) : Bool :=
  1 < (s.rmap.filter fun e => overlaps pa 1 e.attr.pa (pageSize e.attr.big)).length

/-- R37: a piece covers a row of a registered entry. -/
def State.clashes (s : State) (p : Piece) : Bool :=
  (s.stack p.stack).regions.any fun e => overlaps e.2.pbase e.2.plen p.pbase p.plen

/-- Take the lowest free entry of its stack for each piece (DESIGN CHOICE, log entry 39: R35 says only that one is taken); none when a stack has too
few. -/
def State.placePieces (s : State) : List Piece → List (Piece × Nat) → Option (List (Piece × Nat))
  | [], acc => some acc
  | p :: ps, acc =>
    let used := fun (i : Nat) => acc.any fun x => x.1.stack == p.stack && x.2 == i
    match (List.range 256).find? fun i => ((s.stack p.stack).regions.get? i).isNone && !used i with
    | some i => s.placePieces ps (acc ++ [(p, i)])
    | none => none

/-- Change every line that an address space holds of a range of virtual addresses. -/
def State.mapLines (s : State) (asid va len : Nat) (f : L2Line → L2Line) : State :=
  { s with l2 := s.l2.map fun e =>
      if e.1 / 2 ^ 55 == asid && va < (e.1 % 2 ^ 55 + 1) * 512 && e.1 % 2 ^ 55 * 512 < va + len then (e.1, f e.2) else e }

/-- Write back every dirty line that an address space holds of a range. -/
def State.writeBackRange (s : State) (asid va len : Nat) : State :=
  (s.l2.filter fun e => e.1 / 2 ^ 55 == asid && va < (e.1 % 2 ^ 55 + 1) * 512 && e.1 % 2 ^ 55 * 512 < va + len).foldl
    (fun s e => s.writeBack asid (BitVec.ofNat 64 (e.1 % 2 ^ 55 * 512))) s

/-- The result word of R50.  (In part DEDUCED, log entry 16.) -/
def resultWord (status stack idx : Nat) : Quad := BitVec.ofNat 64 (if status = 0 then stack + 32 * idx else status * 2 ^ 16)

/-- R35, steps 3 to 5, and the checks of statuses 5, 2 and 1: a region whose pages have passed their checks is registered. -/
def State.register (s : State) (asid : Nat) (gid : Option Nat) (d : Desc) (addr : Quad → Nat) : Quad × State :=
  let ps := d.pieces addr
  if d.pages.any fun va => s.manyMaps (addr va) then (resultWord 5 0 0, s)
  else if ps.any s.clashes then (resultWord 2 0 0, s)
  else
    match s.placePieces ps [] with
    | none => (resultWord 1 0 0, s)
    | some placed =>
      let first := match placed with
        | (p, i) :: _ => (p.stack, i)
        | [] => (0, 0)
      let s := (s.writeBackRange asid d.vbase d.len).mapLines asid d.vbase d.len fun l => { l with comb := true }
      let s := placed.zipIdx.foldl (fun (s : State) (x : (Piece × Nat) × Nat) =>
        let (p, i) := x.1
        s.updStack p.stack fun st => { st with regions := st.regions.set i {
          func := d.func, typ := d.typ, sat := d.sat, drain := false, passes := d.passes, left := d.passes
          next := (placed[x.2 + 1]?).map fun y => (y.1.stack, y.2)
          first, k0 := d.k0, k1 := d.k1, pbase := p.pbase, plen := p.plen, vbase := p.vbase, asid
          p0 := (List.range 64).map fun c => (c, st.pass.getD c 0 + 1)
          crossed := 0, gid, dereg := [] } }) s
      (resultWord 0 first.1 first.2, s)

/-! ### Deregistration (R38, R407) -/

/-- The entries of a region: stack and index of each. -/
def State.regionParts (s : State) (first : Nat × Nat) : List (Nat × Nat) :=
  s.dram.flatMap fun e => (e.2.regions.filter fun r => r.2.first == first).map fun r => (e.1, r.1)

/-- Every entry of a region satisfies a test. -/
def State.allParts (s : State) (first : Nat × Nat) (p : Region → Bool) : Bool :=
  s.dram.all fun e => e.2.regions.all fun r => r.2.first != first || p r.2

/-- Lines that no region and no pending request covers any more lose their marks (R38). -/
def State.unmark (s : State) : State :=
  { s with l2 := s.l2.map fun e => (e.1, { e.2 with comb := e.2.comb && s.isComb e.2.pa }) }

/-- A row-class record (Table 2.7). -/
def rowRecord (tag status time : Nat) : Quad := BitVec.ofNat 64 (tag % 65536 + status * 2 ^ 16 + time % 2 ^ 40 * 2 ^ 24)

/-- The passes of a region have all been made: its LEFT is 0 (R36). -/
def State.regionEnded (s : State) (first : Nat × Nat) : Bool := s.allParts first fun r => r.passes != 65535 && r.left == 0

/-- A region's deregistration completes (R38): its entries are free, its marks removed, its completion posted: to each group that asked for it, and where
its LEFT has come to 0 to the group that registered it (R407). -/
def State.deregDone (s : State) (first : Nat × Nat) : State :=
  match (s.stack first.1).regions.get? first.2 with
  | none => s
  | some r =>
    let ended := s.regionEnded first
    let src := s.source first.1 0x1006
    let t := s.stampTime src
    let s := s.stamp src
    let s := { s with dram := s.dram.map fun (e : Nat × Stack) =>
      (e.1, { e.2 with regions := e.2.regions.filter fun x => x.2.first != first }) }
    let s := s.unmark
    let s := match ended, r.gid with
      | true, some gid => s.pushRecord gid 4 (rowRecord 0xFFFF 0 t)
      | _, _ => s
    r.dereg.foldl (fun s c => s.finishCmd c (some 4) (rowRecord 0xFFFF 0 t)) s

/-- A region drains (R38).  (In part DEDUCED, log entry 16.) -/
def State.drainRegion (s : State) (first : Nat × Nat) (cmd : Option Nat) : State :=
  { s with dram := s.dram.map fun (e : Nat × Stack) =>
      (e.1, { e.2 with regions := e.2.regions.map fun (r : Nat × Region) =>
        if r.2.first == first then
          (r.1, { r.2 with drain := true, crossed := if r.2.drain then r.2.crossed else 0, dereg := r.2.dereg ++ cmd.toList })
        else r }) }

/-- A page move under way from the frame of an address (R60). -/
def State.migratingAt (s : State) (pa : Nat) : Option Migr :=
  s.migrs.find? fun m => overlaps pa 1 m.src (pageSize m.big)

/-- The comb works (R64 step 6, R65, R68 step 4): in RUN, in entry up to the end of step 6, and again from resumption step 4 on. -/
def State.sweeping (s : State) : Bool :=
  s.pkg.memInit && (s.pkg.pwr == 2 || (s.pkg.pwr == 3 && s.pkg.step < 6) || (s.pkg.pwr == 5 && 4 ≤ s.pkg.back))

/-- An unmap of a range is in progress: a PURGE of it (R42, R57). -/
def State.unmapping (s : State) (asid va n : Nat) : Bool :=
  s.host.rings.any fun r => match r.2.phase with
    | .purge a base len => a == asid && overlaps va n base.toNat len
    | _ => false

/-! ### The words (R373 to R378) -/

/-- The check of a page that a row word names: a page that is not of this package's HBM raises the row-region fault (R51). -/
def State.rowVerdict (s : State) (acc : Nat) (va : Quad) : Verdict :=
  match s.pageAt acc va with
  | .ok attr => if s.isMine attr.pa && isHbm (dpaLocal attr.pa) then .pass else .fault fRowRegion va false
  | .error v => v

/-- The domain physical address of an address that has passed its check. -/
def State.checkedAddr (s : State) (va : Quad) : Nat :=
  match s.pageAt 0 va with
  | .ok attr => pageAddr attr va
  | .error _ => 0

/-- The translations of the pages of a region are in the TLBs of their homes' agents, and in the reverse map (R163, R164). -/
def State.bringPages (s : State) (asid : Nat) (vas : List Quad) : State :=
  vas.foldl (fun s va => match s.agentPage asid va with
    | .ok (t, _) => t
    | .error _ => s) s

/-- R374, `sweep.reg`.  The words of the descriptor are used as they are read, poisoned or not (DESIGN CHOICE, log entry 39). -/
def execSweepReg (fin : Bool) (d a : BitVec 6) (s : State) : Out :=
  issue { infoS fin [d, a] with waits := true } (fun s =>
    let g := s.grp
    let va := g.readS a.toNat
    let asid := s.asidOf g
    if va.toNat % 32 != 0 then .did s (g.faultAll fAlign va) false
    else s.stopOn (s.pageVerdict 0 va) fun _ =>
      match s.engineAsks asid va with
      | q :: qs => .stall (s.owe (q :: qs))
      | [] =>
        let (s', bs, _) := s.groupRead asid va 32
        match descOf bs with
        | none => .did (s'.updGrp fun g => g.addPending (.scalar d.toNat (resultWord 3 0 0))) [] false
        | some desc =>
          s.stopOn (firstBad (desc.pages.map (s.rowVerdict 1))) fun _ =>
            match desc.pages.findSome? fun va => s.migratingAt (dpaLocal (s.checkedAddr va)) with
            | some m => .stall (s.owe [.migration m.src])
            | none =>
            let s' := s'.bringPages asid desc.pages
            let r := s'.register asid (some s.cur) desc s'.checkedAddr
            .did (r.2.updGrp fun g => g.addPending (.scalar d.toNat r.1)) [] false) s

/-- A row-class command that never stands in a task table (R374). -/
def State.rowCommand (s : State) : Nat × State :=
  let id := s.fresh
  let s := s.enter { Cmd.init with cls := 3, op := 1 }
  (id, (s.updCore s.grp.core fun k => { k with tasks := k.tasks.filter (· != id) }).updCmd id fun c =>
    { c with st := .running, began := s.pkg.now })

/-- R38, R374, `sweep.dereg`.  (In part DEDUCED, log entry 16.) -/
def execSweepDereg (fin : Bool) (d a : BitVec 6) (s : State) : Out :=
  issueOk { infoS fin [d, a] with waits := true } (fun s =>
    let g := s.grp
    let x := g.readS a.toNat
    let st := (x.extractLsb' 0 5).toNat
    let i := (x.extractLsb' 5 8).toNat
    let ok := x.extractLsb' 13 51 == 0 && st < 24 && (s.ctx (s.ctxOf g)).live && (match (s.stack st).regions.get? i with
      | some r => r.first == (st, i) && s.spaceOf g == some r.asid
      | none => false)
    let (id, s) := s.rowCommand
    if ok then (s.drainRegion (st, i) (some id)).updGrp fun g => g.addPending (.scalar d.toNat (resultWord 0 0 0))
    else
      let src := s.source (if st < 24 then st else 0) 0x1006
      let t := s.stampTime src
      ((s.stamp src).finishCmd id (some 4) (rowRecord 0xFFFF 3 t)).updGrp fun g =>
        g.addPending (.scalar d.toNat (resultWord 3 0 0))) s

/-- R375: the checks of `rowreq`. -/
def State.rowreqCheck (s : State) (b : List Quad) : Verdict :=
  let b1 := b.getD 1 0
  firstBad [
    require (b1.extractLsb' 6 10 == 0 && b1.extractLsb' 32 32 == 0 && b1.extractLsb' 16 16 != 0xFFFF &&
      (b.getD 2 0).extractLsb' 32 32 == 0 && (b.getD 3 0).extractLsb' 32 32 == 0) fIllegal,
    s.rowVerdict 1 (b.getD 0 0)]

/-- R375, R376, `rowreq`. -/
def execRowreq (fin : Bool) (p : BitVec 6) (urg : BitVec 2) (out : BitVec 8) (s : State) : Out :=
  engineWord fin p 4 out true (fun s b => s.rowreqCheck b) (fun s b c => { c with
    cls := 3
    op := 2
    flag := urg.toNat
    tag := ((b.getD 1 0).extractLsb' 16 16).setWidth 32
    waits := s.grp.stores ++ s.grp.observed }) s

/-- The STK_POS word of a pseudo-channel (Table 2.5). -/
def Stack.posWord (st : Stack) (c : Nat) : Quad :=
  BitVec.ofNat 64 (st.nextRow.getD c 0 % 32768 + st.hot.toNat * 32768 + st.pass.getD c 0 % 2 ^ 48 * 65536)

/-- R377, `sweep.pos`. -/
def execSweepPos (fin : Bool) (d a : BitVec 6) (s : State) : Out :=
  issue { infoS fin [d, a] with waits := true } (fun s =>
    let g := s.grp
    let va := g.readS a.toNat
    s.stopOn (s.rowVerdict 0 va) fun _ =>
      let pa := dpaLocal (s.checkedAddr va)
      .did (s.updGrp fun g => g.addPending (.scalar d.toNat ((s.stack (stackOf pa)).posWord (pcOf pa)))) [] false) s

/-- R48: a row has had its sweep restore in a pass or later. -/
def State.swept (s : State) (row n : Nat) : Bool :=
  let st := s.stack (stackOf row)
  let c := pcOf row
  let pass := st.pass.getD c 0
  if rowIndex row < st.nextRow.getD c 0 then n ≤ pass else n < pass

/-- The words of every application to a row that has been made have reached the homes and the sharers of its lines (R46, R48). -/
def State.rowSeen (s : State) (row : Nat) : Bool :=
  !(s.stores.any fun e => e.2.core == ozCore + 1 && s.isMine e.2.pa && dpaLocal e.2.pa == row)

/-- R48: a `sweep.wait` returns: the row has had its restore, and what was applied up to it is observed. -/
def State.sweepSeen (s : State) (row n : Nat) : Bool := s.swept row n && s.rowSeen row

/-- R378, `sweep.wait`. -/
def execSweepWait (fin : Bool) (a b : BitVec 6) (s : State) : Out :=
  issue { infoS fin [a, b] with waits := true } (fun s =>
    let g := s.grp
    let va := g.readS a.toNat
    s.stopOn (s.rowVerdict 0 va) fun _ =>
      let row := dpaLocal (s.checkedAddr va) / 1024 * 1024
      let n := ((g.readS b.toNat).extractLsb' 0 48).toNat
      if s.sweepSeen row n then .did (s.acquire 5) [] false else .stall (s.blockAt (.sweepWait row n) fin)) s

/-- SWEEP_WAIT_RETURN (R48, R378). -/
def execSweepWaitReturn (gid : Nat) (s : State) : Out :=
  .next (match (s.group gid).block with
    | .sweepWait row n => if s.sweepSeen row n then s.resumeWord gid (·.acquire 5) (fun _ => []) else s
    | _ => s)

/-! ### Requests at the base die (R39 to R42) -/

/-- A row-class command completes with a status, at its own stamp (R46). -/
def State.rowDone (s : State) (id status time : Nat) : State :=
  s.finishCmd id (some 4) (rowRecord (s.cmd id).tag.toNat status time)

/-- A base die takes a request into a slot: the row's dirty lines are written back, and its lines marked comb-target (R39).  One of a cancelled sibling
changes only a private row (R242). -/
def State.takeReq (s : State) (id : Nat) (c : Cmd) (pa : Nat) : State :=
  let b1 := c.block.getD 1 0
  let row := (c.block.getD 0 0).toNat / 1024 * 1024
  let s := (s.writeBackRange c.asid row 1024).mapLines c.asid row 1024 fun l => { l with comb := true }
  (s.updStack (stackOf pa) fun st => { st with reqs := st.reqs ++ [{
    id, cmd := id, gid := c.gid, asid := c.asid, va := row, pa := pa / 1024 * 1024
    func := (b1.extractLsb' 0 3).toNat, typ := (b1.extractLsb' 3 2).toNat, sat := b1.getLsbD 5
    k0 := (c.block.getD 2 0).extractLsb' 0 32, k1 := (c.block.getD 3 0).extractLsb' 0 32
    tag := c.tag.toNat, urg := c.flag, applied := false, store := 0, time := 0, lost := !s.mayWrite c (c.block.getD 0 0) }] }).updCmd id fun c => { c with progress := 1 }

/-- A base die accepts a request, or refuses it with status 3 or 5 (R39, R51).  A request whose page translates no more, or lies in no stack by then,
waits for a page of HBM (DESIGN CHOICE, log entry 39). -/
def State.acceptRow (s : State) (id : Nat) : State :=
  let c := s.cmd id
  let b1 := c.block.getD 1 0
  let va := c.block.getD 0 0
  s.asWalker c.asid 1 [va] fun s =>
    match s.agentPage c.asid va with
    | .error _ => s
    | .ok (s, attr) =>
      let pa := dpaLocal (pageAddr attr va)
      let src := s.source (stackOf pa) 0x1006
      let t := s.stampTime src
      if !s.isMine (pageAddr attr va) || !isHbm pa || (s.migratingAt pa).isSome then s
      else if combRefused (b1.extractLsb' 0 3).toNat (b1.extractLsb' 3 2).toNat ((c.block.getD 2 0).extractLsb' 0 32)
        ((c.block.getD 3 0).extractLsb' 0 32) then (s.stamp src).rowDone id 3 t
      else if s.manyMaps (pageAddr attr va) then (s.stamp src).rowDone id 5 t
      else if 4096 ≤ (s.stack (stackOf pa)).reqs.length then s
      else s.takeReq id c pa

/-- ROW_REQUEST_ACCEPT (R39): a row request that has left its task table is accepted into a slot, or refused. -/
def execRowRequestAccept (id : Nat) (s : State) : Out :=
  .next (let c := s.cmd id
    if c.st == .running && c.cls == 3 && c.op == 2 && c.progress == 0 then s.acceptRow id else s)

/-- The accesses queued to a row are performed (R405). -/
def State.drainRow (s : State) (row : Nat) : State :=
  let mine := fun (b : BankAccess) => b.pa / 1024 == row / 1024
  (s.bankq.filter mine).foldl State.performBank { s with bankq := s.bankq.filter fun b => !mine b }

/-- The bank of a row closes. -/
def State.closeRow (s : State) (row : Nat) : State :=
  s.updStack (stackOf row) fun st => { st with openRow := st.openRow.del (32 * pcOf row + bankOf row) }

/-- The base die hurries a request: one with `.hurry` (R39), and a plain one of a page that is being unmapped (R42). -/
def State.hurried (s : State) (r : RowReq) : Bool :=
  !r.applied && s.sweeping && (r.urg == 2 || (r.urg == 0 && s.unmapping r.asid r.va 1024))

/-- HURRY_ACTIVATION (R39, R42): the base die activates the row of a request that it hurries, and closes it (R405). -/
def execHurryActivation (stack id : Nat) (s : State) : Out :=
  .next (match (s.stack stack).reqs.find? fun r => r.id == id with
    | none => s
    | some r =>
      if !s.hurried r then s
      else (((s.drainRow r.pa).closeRow r.pa).activate r.pa).closeRow r.pa)

/-- ROW_REQUEST_COMPLETE (R42, R46, R406): the last sharer has applied the words, and the slot is freed.  The record carries a stamp of the memory
processor's unit when a home holds a line of the row at that moment, and else the bank's stamp of the application (DESIGN CHOICE, log entry 39). -/
def execRowRequestComplete (stack id : Nat) (s : State) : Out :=
  .next (match (s.stack stack).reqs.find? fun r => r.id == id with
    | none => s
    | some r =>
      if !r.applied || r.store = 0 || (s.stores.get? r.store).isSome then s
      else
        let src := s.source stack 0x1006
        let held := (s.line? r.asid (BitVec.ofNat 64 r.va)).isSome || (s.line? r.asid (BitVec.ofNat 64 (r.va + 512))).isSome
        let t := if held then s.stampTime src else r.time
        let s := if held then s.stamp src else s
        ((s.updStack stack fun st => { st with reqs := st.reqs.filter fun x => x.id != id }).unmark).rowDone id 0 t)

/-! ### The sweep (R30, R31, R36) -/

/-- SWEEP_STEP (R31, R405): a pseudo-channel of a stack restores its next row index in all 32 banks. -/
def execSweepStep (stack pc : Nat) (s : State) : Out :=
  .next (let i := (s.stack stack).nextRow.getD pc 0
    if 24 ≤ stack || 64 ≤ pc || 32768 ≤ i || !s.sweeping then s
    else
      let pass := (s.stack stack).pass.getD pc 0
      let s := (List.range 32).foldl (fun (s : State) b =>
        let row := rowAddr stack pc b i
        ((s.drainRow row).closeRow row).sweepRow row pass) s
      s.updStack stack fun st => { st with nextRow := st.nextRow.set pc (i + 1) })

/-- Pseudo-channels in which an entry has rows. -/
def Region.channels (r : Region) : List Nat := (List.range 64).filter fun c =>
  (List.range (min r.plen 64)).any fun k => (r.pbase + k) % 64 == c

/-- LEFT of an entry, from the passes that every one of its pseudo-channels has completed (R36). -/
def Region.leftNow (r : Region) (pass : Tbl Nat) : Nat :=
  if r.passes = 65535 then r.left
  else
    let done := r.channels.foldl (fun m c => min m (pass.getD c 0 - r.p0.getD c 0)) r.passes
    r.passes - done

/-- The regions of a list of entries, by first entry, each once. -/
def firsts (t : Tbl Region) : List (Nat × Nat) := (t.map (·.2.first)).eraseDups

/-- PASS_BOUNDARY (R30, R31, R36, R38): a pseudo-channel of a stack crosses its pass boundary.  A region whose LEFT comes to 0 is deregistered at this
same boundary, since every row of it has had its passes: DRAIN is not set, and no further boundary is waited for (DESIGN CHOICE, log entry 16). -/
def State.passBoundary (s : State) (stack pc : Nat) : State :=
  let sweep := (s.pkg.mode.extractLsb' 2 2).toNat
  let s := s.updStack stack fun st =>
    let hot := if pc = 0 then (if 85 < st.temp then true else if st.temp ≤ 80 then false else st.hot) else st.hot
    let pass := st.pass.set pc ((st.pass.getD pc 0 + 1) % 2 ^ 48)
    { st with
      hot, pass
      nextRow := st.nextRow.set pc 0
      period := st.period.set pc (sweep, hot)
      regions := st.regions.map fun (e : Nat × Region) =>
        (e.1, { e.2 with
          left := e.2.leftNow pass
          crossed := if e.2.drain then e.2.crossed ||| BitVec.ofNat 64 (2 ^ pc) else e.2.crossed }) }
  (firsts (s.stack stack).regions).foldl (fun (s : State) f =>
    if s.allParts f (fun r => r.drain && r.crossed == BitVec.ofNat 64 (2 ^ 64 - 1)) || s.regionEnded f then
      s.deregDone f
    else s) s

end Sys2Proof.Machine
end

