-- ==== Sys2Proof/Machine/Migration.lean ====
section
/-! DEFINITION. Migration: which pages a scan moves, and how a page moves (R55 to R61, R207), and the pass boundary that starts a
scan (R31, R58). -/

namespace Sys2Proof.Machine

/-! ### Eligible pages (R57, R207) -/

/-- A range lies in a registered region or under a pending row request. -/
def State.inRegion (s : State) (pa n : Nat) : Bool :=
  isHbm pa && (let st := s.stack (stackOf pa)
    (st.regions.any fun e => overlaps (pa % 2 ^ 36) n (e.2.pbase * 1024) (e.2.plen * 1024)) ||
      st.reqs.any fun r => overlaps pa n r.pa 1024)

/-- A range meets a valid address-range format register, or its scale region. -/
def State.inFormatRange (s : State) (pa n : Nat) : Bool :=
  s.arf.any fun e =>
    let (base, len, fmt, scale) := e.2
    let bytes := (len.extractLsb' 0 29).toNat * 65536
    let elems := if fmt.getLsbD 0 then bytes * 2 else bytes
    base.getLsbD 0 && (overlaps pa n ((base.extractLsb' 16 29).toNat * 65536) bytes ||
      overlaps pa n ((scale.extractLsb' 6 39).toNat * 64) (elems / if fmt.getLsbD 1 then 16 else 32))

/-- The mappings of this package's frames that meet a range. -/
def State.mapsOf (s : State) (pa n : Nat) : List PageEntry :=
  s.rmap.filter fun r => s.isMine r.attr.pa && overlaps (dpaLocal r.attr.pa) (pageSize r.attr.big) pa n

/-- R57: nothing bars the migration of a page, whichever of its mappings shows it.  A page that is part of a larger page of another mapping does not
move by itself (DESIGN CHOICE, log entry 25). -/
def State.eligible (s : State) (e : PageEntry) : Bool :=
  let pa := dpaLocal e.attr.pa
  let n := pageSize e.attr.big
  s.isMine e.attr.pa && !s.inRegion pa n && !s.inFormatRange pa n &&
    (s.mapsOf pa n).all (fun r => !r.attr.nomig && !s.unmapping r.asid r.va (pageSize r.attr.big) && pageSize r.attr.big ≤ n) &&
    !(s.migrs.any fun m => overlaps pa n m.src (pageSize m.big) || overlaps pa n m.dst (pageSize m.big))

/-- The heat of a page (R57): the counters of its units. -/
def State.heat (s : State) (pa : Nat) (big : Bool) : Nat :=
  (List.range (pageSize big / 65536)).foldl (fun h k => h + s.mem.nat (s.heatAddr (pa + 65536 * k)) 4) 0

/-! ### The scan (R58, R61, Table 3.1) -/

/-- The die that a frame belongs to: that of its stack, or R12. -/
def dieOf (pa : Nat) : Nat := if isHbm pa then stackOf pa else frameDie pa

/-- The 64 KiB units of a page. -/
def pageUnits (pa : Nat) (big : Bool) : List Nat := (List.range (pageSize big / 65536)).map fun k => pa + 65536 * k

/-- A page's frames, all in a list of free ones. -/
def isFreeIn (free : List Nat) (pa : Nat) (big : Bool) : Bool :=
  (isHbm pa || isLp6 pa) && pa % pageSize big == 0 && (pageUnits pa big).all free.contains

/-- A free frame of a die, in its stack or in the capacity tier. -/
def freeFrame (free : List Nat) (die : Nat) (hbm big : Bool) : Option Nat :=
  free.find? fun pa => isHbm pa == hbm && dieOf pa == die && isFreeIn free pa big

/-- The frames of a page are taken. -/
def takeFrame (free : List Nat) (pa : Nat) (big : Bool) : List Nat := free.filter fun f => !(pageUnits pa big).contains f

/-- Thresholds and limit of Table 3.1: promotion, demotion, pages. -/
def migLimits (mode : Nat) : Nat × Nat × Nat := if mode = 1 then (4096, 16, 64) else (256, 256, 1024)

/-- A move begins (R59), or its record is posted (R61, Table 3.3).  (In part DESIGN CHOICE, log entry 25.) -/
def State.choose (s : State) (m : Migr) : State :=
  if s.pkg.duty.getLsbD 2 then
    let flags := (if m.demote then 1 else 0) + if m.big then 2 else 0
    let payload := leBytes 8 m.src ++ leBytes 8 m.dst ++ leBytes 4 (min (s.heat m.src m.big) 0xFFFFFFFF) ++ leBytes 2 m.asid ++
      leBytes 1 flags ++ leBytes 1 m.die ++ leBytes 8 s.migSeq
    ({ s with migSeq := s.migSeq + 1 } : State).raise 2 m.die 0x1000 payload (.migrate m)
  else { s with freeFrames := takeFrame s.freeFrames m.dst m.big, migrs := s.migrs ++ [m] }

/-- The hottest of a list of pages. -/
def hottest (l : List (Nat × PageEntry)) : Option (Nat × PageEntry) :=
  l.foldl (fun b e => match b with
    | some h => if h.1 < e.1 then some e else b
    | none => some e) none

/-- The coldest of a list of pages. -/
def coldest (l : List (Nat × PageEntry)) : Option (Nat × PageEntry) :=
  l.foldl (fun b e => match b with
    | some h => if e.1 < h.1 then some e else b
    | none => some e) none

/-- A page move of a die. -/
def moveOf (die : Nat) (e : PageEntry) (dst : Nat) (demote : Bool) : Migr :=
  ⟨die, e.asid, e.va, dpaLocal e.attr.pa, dst, e.attr.big, demote⟩

/-- A page that several mappings of a list show stands for the first of them. -/
def firstShown : List PageEntry → List PageEntry
  | [] => []
  | e :: es => e :: (firstShown es).filter fun r => r.attr.pa != e.attr.pa

/-- The pages of a die's stack that may be demoted, each once, with their heat; `busy`: frames that the scan has chosen already. -/
def State.coldPages (s : State) (die cold : Nat) (busy : List Nat) : List (Nat × PageEntry) :=
  ((firstShown (s.rmap.filter fun r => s.eligible r && isHbm (dpaLocal r.attr.pa) && dieOf (dpaLocal r.attr.pa) == die &&
      !busy.contains (dpaLocal r.attr.pa))).map fun r => (s.heat (dpaLocal r.attr.pa) r.attr.big, r)).filter fun c =>
    c.1 ≤ cold * (pageSize c.2.attr.big / 65536)

/-- The decisions of a scan (R58): `todo` holds the pages that qualify for promotion, with their heat; `free` the frames that are free, or will be
when a chosen demotion has made them so; `left` is what the limit leaves, in 64 KiB pages.  `fuel` bounds the recursion by the number of pages.  The
scan ends at the first page that the limit does not hold, and of equally hot or cold pages the first of the reverse map goes first (DESIGN CHOICE,
log entry 25). -/
def State.promote (s : State) (die cold : Nat) : (fuel : Nat) → (todo : List (Nat × PageEntry)) → (free busy : List Nat) → (left : Nat) → State
  | 0, _, _, _, _ => s
  | fuel + 1, todo, free, busy, left =>
    match hottest todo with
    | none => s
    | some (h, e) =>
      let rest := todo.erase (h, e)
      let n := pageSize e.attr.big / 65536
      if left < n then s
      else
        match freeFrame free die true e.attr.big with
        | some dst => State.promote (s.choose (moveOf die e dst false)) die cold fuel rest (takeFrame free dst e.attr.big) busy (left - n)
        | none =>
          -- the coldest page of the stack makes room
          match coldest (s.coldPages die cold busy) with
          | none => State.promote s die cold fuel rest free busy left
          | some (_, r) =>
            match freeFrame free die false r.attr.big with
            | none => State.promote s die cold fuel rest free busy left
            | some dst =>
              let k := pageSize r.attr.big / 65536
              let src := dpaLocal r.attr.pa
              let free := takeFrame free dst r.attr.big ++ pageUnits src r.attr.big
              match freeFrame free die true e.attr.big with
              | some g =>
                if left < k + n then s
                else State.promote ((s.choose (moveOf die r dst true)).choose (moveOf die e g false)) die cold fuel rest
                  (takeFrame free g e.attr.big) (src :: busy) (left - k - n)
              | none =>
                if left < k then s
                else State.promote (s.choose (moveOf die r dst true)) die cold fuel rest free (src :: busy) (left - k)

/-- R58, R61: the scan of a die, given the frames that are free.  Records of the last scan that await their answers are dropped, at a pass boundary at which
MODE_MIG is 0 too.  (In part DESIGN CHOICE, log entry 25.) -/
def State.scan (s : State) (die : Nat) (free : List Nat) : State :=
  let mode := (s.pkg.mode.extractLsb' 5 2).toNat
  let s := s.withdraw fun a => match a with
    | .migrate m => m.die == die
    | _ => false
  if mode == 0 then s
  else
    let (hot, cold, limit) := migLimits mode
    let free := free.filter fun f => !(s.migrs.any fun m => (pageUnits m.dst m.big).contains f)
    let s := { s with freeFrames := free }
    let pages := firstShown (s.rmap.filter fun e => s.eligible e && isLp6 (dpaLocal e.attr.pa) && dieOf (dpaLocal e.attr.pa) == die)
    let todo := (pages.map fun e => (s.heat (dpaLocal e.attr.pa) e.attr.big, e)).filter fun p =>
      hot * (pageSize p.2.attr.big / 65536) ≤ p.1
    s.promote die cold todo.length todo free [] limit

/-- PASS_BOUNDARY (R30, R31, R36, R38, R58): the step for row 0 of a new pass; pseudo-channel 0 starts the die's scan.  (In part DESIGN CHOICE, log entry 25.) -/
def execPassBoundary (stack pc : Nat) (free : List Nat) (s : State) : Out :=
  .next (if stack < 24 && pc < 64 && (s.stack stack).nextRow.getD pc 0 = 32768 && s.sweeping then
      let s := s.passBoundary stack pc
      if pc = 0 && !(s.pkg.pwr == 3 && 3 ≤ s.pkg.step) then s.scan stack free else s
    else s)

/-! ### The move (R59, R60) -/

/-- An address of the frame left becomes the same place of the frame taken. -/
def Migr.moved (m : Migr) (pa : Nat) : Nat := if m.src ≤ pa && pa < m.src + pageSize m.big then pa - m.src + m.dst else pa

/-- The attributes of a page after the move. -/
def Migr.attr (m : Migr) (a : PageAttr) : PageAttr := { a with pa := a.pa / 2 ^ 45 * 2 ^ 45 + m.moved (dpaLocal a.pa) }

/-- The rows of a range of a stack that hold errors are restored by the accesses that a copy makes there (R44). -/
def State.scrubRange (s : State) (pa n : Nat) : State :=
  if isHbm pa then (((s.eccErr.filter fun e => pa ≤ e.1 && e.1 < pa + n).map fun e => e.1 / 1024 * 1024).eraseDups).foldl State.scrubRow s else s

/-- R59: the bytes, with their poison, are copied to the frame taken, whose words are all written; the leaves that name the frame are rewritten; the
translation leaves every TLB, and later requests go to the new frame. -/
def State.migrate (s : State) (m : Migr) : State :=
  let n := pageSize m.big
  let s := (s.scrubRange m.src n).scrubRange m.dst n
  let inSrc := fun pa => m.src ≤ pa && pa < m.src + n
  let mine := fun (a : PageAttr) => s.isMine a.pa && inSrc (dpaLocal a.pa)
  let maps := s.rmap.filter fun e => mine e.attr
  let mem := s.mem.copyFrom s.mem m.src m.dst n
  let poison := (s.poison.filter fun w => !(m.dst ≤ w && w < m.dst + n)) ++ movePoison s.poison m.src n m.dst
  let s := { s with mem, poison }
  let s := maps.foldl (fun s e =>
    match s.leafOf e.asid (BitVec.ofNat 64 e.va) with
    | some a =>
      s.physPutQuad a (s.physQuad a &&& ~~~(0x7FFFFFFFFF000 : Quad) ||| BitVec.ofNat 64 (m.attr e.attr).pa)
    | none => s) s
  { s with
    l2 := s.l2.map fun (e : Nat × L2Line) => (e.1, if s.isMine e.2.pa then { e.2 with pa := e.2.pa / 2 ^ 45 * 2 ^ 45 + m.moved (dpaLocal e.2.pa) } else e.2)
    tlb := s.tlb.map fun e => (e.1, e.2.filter fun p => !mine p.attr)
    rmap := s.rmap.map fun (p : PageEntry) => if mine p.attr then { p with attr := m.attr p.attr } else p
    bankq := s.bankq.map fun (b : BankAccess) => { b with pa := m.moved b.pa }
    msc := s.msc.filter fun b => !inSrc (128 * b)
    migrs := s.migrs.filter (· != m)
    freeFrames := (s.freeFrames ++ pageUnits m.src m.big).filter fun f =>
      !((s.migrs.filter (· != m)).any fun o => (pageUnits o.dst o.big).contains f)
    migStat := s.migStat.set m.die (let c := s.migStat.getD m.die (0, 0); if m.demote then (c.1, c.2 + 1) else (c.1 + 1, c.2)) }

/-- A move may take its steps: no other move leaves the frame that it takes. -/
def State.canMigrate (s : State) (m : Migr) : Bool :=
  !(s.migrs.any fun o => overlaps o.src (pageSize o.big) m.dst (pageSize m.big))

/-- MIGRATION (R59): the page of a frame moves. -/
def execMigration (src : Nat) (s : State) : Out :=
  .next (match s.migrs.find? fun m => m.src == src with
    | some m => if s.canMigrate m then s.migrate m else s
    | none => s)

/-- Brown-out entry aborts every move that has not reached step 4 (R60): the frames taken are free again, but for those that another page has not
left. -/
def State.abortMoves (s : State) : State :=
  s.migrs.foldl (fun (t : State) m => { t with
    migrs := t.migrs.filter (· != m)
    freeFrames := t.freeFrames ++ (pageUnits m.dst m.big).filter fun f => !(s.migrs.any fun o => (pageUnits o.src o.big).contains f)
    migAbort := t.migAbort.set m.die (t.migAbort.getD m.die 0 + 1) }) s

/-- The frames that are free, with those that moves under way leave to no other move. -/
def State.soonFree (s : State) : List Nat :=
  s.freeFrames ++ (s.migrs.flatMap fun m => pageUnits m.src m.big).filter fun f =>
    !(s.migrs.any fun o => (pageUnits o.dst o.big).contains f)

/-- R61, R83: the answer to a kind-2 record.  The page must still be where the record says, and nothing bar its move (R57); a frame that the host
names must be free and of the record's die.  An answer is carried out though MODE_MIG has been written to 0 meanwhile (DESIGN CHOICE, log entry 25). -/
def State.answerMove (s : State) (m : Migr) (payload : List Byte) : State :=
  let here := s.rmap.any fun r => r.asid == m.asid && r.va == m.va && dpaLocal r.attr.pa == m.src && r.attr.big == m.big && s.eligible r
  let go := fun (dst : Nat) (free : List Nat) =>
    if here && isFreeIn free dst m.big && dieOf dst == m.die then
      { s with freeFrames := takeFrame s.freeFrames dst m.big, migrs := s.migrs ++ [{ m with dst }] }
    else s
  match (payload.getD 0 0).toNat with
  | 1 => go (leNat ((payload.drop 8).take 8)) s.freeFrames
  | 2 => go m.dst s.soonFree
  | _ => s

end Sys2Proof.Machine
end

