-- ==== Sys2Proof/Machine/Power.lean ====
section
/-! DEFINITION. Power: package reset, memory initialisation, operating modes, power states, brown-out entry and resumption (R23 to R26,
R56, R62 to R69), and the thermal and Ozyth events (R399 to R401, R422). -/

namespace Sys2Proof.Machine

/-! ### Reset and memory initialisation (R62, R86, R399) -/

/-- PACKAGE_RESET (R62): every register takes its reset value, and the package leaves OFF for INIT.  Memory, the pin, the fused minimum
versions and what the outside will do stay.  (In part DEDUCED, log entry 29.) -/
def State.packageReset (s : State) : State :=
  { State.reset with
    pkg := { Pkg.init with pwr := 1, warn := s.pkg.warn }
    mem := s.mem, poison := s.poison, eccErr := s.eccErr, peerMem := s.peerMem, peerPoison := s.peerPoison, hostMem := s.hostMem, agenda := s.agenda
    free := s.free, fresh := s.fresh
    host := { HostIf.init with staging := s.host.staging, fw := { Firmware.init with min := s.host.fw.min } } }

/-- PACKAGE_RESET.  (In part DEDUCED, log entry 29.) -/
def execPackageReset (s : State) : Out := .next s.packageReset

/-- The base of a stack's heat table, in bytes of package memory (R55). -/
def State.heatBase (s : State) (d : Nat) : Nat := d * 2 ^ 36 + s.migHeat.getD d 0xEFF00 * 2 ^ 16

/-- R56: the region entry of a heat table: ASID 0, SHRK by 1, INT32, without saturation, unbounded.  (In part DEDUCED, log entry 28.) -/
def State.heatRegion (s : State) (d : Nat) : Region where
  func := 6
  typ := 0
  sat := false
  drain := false
  passes := 65535
  left := 65535
  next := none
  first := (d, 0)
  k0 := 1
  k1 := 0
  pbase := s.migHeat.getD d 0xEFF00 * 64
  plen := heatSize / 1024
  vbase := s.heatBase d
  asid := 0
  p0 := (List.range 64).map fun c => (c, 1)
  crossed := 0
  gid := none
  dereg := []

/-- R399: the Ozyth core starts its image. -/
def State.startOzyth (s : State) : State :=
  let g : Group := { Group.init with
    oz := true, core := ozCore, exited := 0xFFFE, pcs := [(0, 0x0000E00000000000)], arrived := 1, seed := s.free }
  { s with
    groups := s.groups.set ozGid g
    oz := { Ozyth.init with running := true, loaded := s.oz.loaded, ipend := if s.pkg.warn then 8 else 0 }
    cores := s.cores.del ozCore
    free := s.free + 1 }

/-- R410: the handle table and the prefix table are zero. -/
def State.zeroTables (s : State) : Memory :=
  let m := if s.pkg.kvTbl.getLsbD 0 then s.mem.clear ((s.pkg.kvTbl.extractLsb' 12 33).toNat * 4096) (2 ^ 27) else s.mem
  if s.pkg.pfxTbl.getLsbD 0 then
    m.clear ((s.pkg.pfxTbl.extractLsb' 12 33).toNat * 4096) ((s.pkg.pfxTbl.extractLsb' 48 16).toNat * 65536)
  else m

/-- A kind-8 record (Table 3.8). -/
def State.brownPayload (s : State) (typ step : Nat) : List Byte :=
  leBytes 1 typ ++ leBytes 1 s.pkg.cause ++ leBytes 1 step ++ leBytes 5 0 ++ leBytes 8 s.pkg.wall

/-- Brown-out entry is triggered (R62, R66).  The records of kind 8 carry stamps of the host command processor (DESIGN CHOICE, log entry 20). -/
def State.beginEntry (s : State) (cause : Nat) : State :=
  let s := { s with pkg := { s.pkg with pwr := 3, step := 0, cause, vetoWait := s.pkg.duty.getLsbD 8, trigAt := s.pkg.clock, stepAt := s.pkg.clock } }
  if s.pkg.duty.getLsbD 8 then s.raise 8 0 0x1012 (s.brownPayload 0 0) .brown else s

/-- Table 3.4: the package comes to RUN, which it leaves at once for ENTER while PWR_WARN is asserted. -/
def State.toRun (s : State) : State :=
  let s := { s with pkg := { s.pkg with pwr := 2 } }
  if s.pkg.warn then s.beginEntry 0 else s

/-- MEMORY_INITIALISATION_DONE (R55, R56, R62, R399, R410).  (In part DEDUCED, log entry 28.) -/
def State.memoryReady (s : State) : State :=
  let s := { s with
    mem := s.zeroTables
    pkg := { s.pkg with pwr := 2, eccStrong := s.pkg.mode.getLsbD 4, memInit := true }
    host := { s.host with fw := { s.host.fw with initBusy := false } } }
  let s := (List.range 24).foldl (fun (s : State) d =>
    ({ s with mem := s.mem.clear (s.heatBase d) heatSize } : State).updStack d fun st =>
      { st with regions := st.regions.set 0 (s.heatRegion d) }) s
  s.startOzyth.toRun

/-- MEMORY_INITIALISATION_DONE. -/
def execMemoryInitialisationDone (s : State) : Out :=
  .next (if s.pkg.pwr == 1 && s.host.fw.initBusy then s.memoryReady else s)

/-! ### MODE and DUTY (R23 to R26) -/

/-- A context slot is live (R24). -/
def State.anyLive (s : State) : Bool := s.ctxs.any fun e => e.2.live

/-- R24: a write that sets a defined field to a reserved value. -/
def modeReserved (v : Quad) : Bool :=
  v.extractLsb' 0 2 == 3 || v.extractLsb' 5 2 == 3 || 5 ≤ (v.extractLsb' 7 3).toNat

/-- The defined fields of MODE. -/
def modeFields : Quad := 0x80000000003FFFFF

/-- The power states in which MODE and DUTY are fixed (R26). -/
def Pkg.fixed (p : Pkg) : Bool := 3 ≤ p.pwr

/-- MODE_WRITE (R24, R26). -/
def State.writeMode (s : State) (v : Quad) : State :=
  let old := s.pkg.mode
  let ecc := v.getLsbD 4 != old.getLsbD 4
  if s.pkg.fixed || modeReserved v || (ecc && (old.getLsbD 63 || s.anyLive)) then
    { s with pkg := { s.pkg with reject := true } }
  else
    let new := (v &&& modeFields) ||| (old &&& 0x8000000000000000)
    { s with pkg := { s.pkg with
        mode := new, clkBusy := s.pkg.clkBusy || new.extractLsb' 0 2 != old.extractLsb' 0 2 } }

/-- MODE_WRITE. -/
def execModeWrite (v : Quad) (s : State) : Out := .next (s.writeMode v)

/-- CLK_STABLE (R24). -/
def execClkStable (s : State) : Out := .next { s with pkg := { s.pkg with clkBusy := false } }

/-- DUTY_WRITE (R25, R26). -/
def State.writeDuty (s : State) (v : Quad) : State :=
  if s.pkg.fixed then { s with pkg := { s.pkg with reject := true } } else { s with pkg := { s.pkg with duty := v &&& 0x1FF } }

/-- DUTY_WRITE. -/
def execDutyWrite (v : Quad) (s : State) : Out := .next (s.writeDuty v)

/-! ### Thermal and Ozyth events (R399 to R401, R422) -/

/-- A source sets its bit of oz.ipend while the image runs (R399, R400). -/
def State.interrupt (s : State) (n : Nat) : State :=
  if s.oz.running then { s with oz := { s.oz with ipend := s.oz.ipend ||| BitVec.ofNat 64 (2 ^ n) } } else s

/-- The hottest die: the lowest-numbered of the hottest. -/
def hottestDie (temps : List Nat) : Nat × Nat :=
  (numbered temps).foldl (fun b e => if b.2 < e.2 then e else b) (0, temps.headD 0)

/-- THERM_SAMPLE (R401, R422): the 24 temperatures of a sample round.  The record is of the Ozyth core's unit, which die 0 alone has (Table 1.2). -/
def execThermSample (temps : List Nat) (s : State) : Out :=
  let temps := (temps.map (· % 256)).take 24
  let (die, hot) := hottestDie temps
  let prev := s.pkg.hottest.getD s.pkg.thermHi
  let s := { s with pkg := { s.pkg with therm := numbered temps, hottest := some hot } }
  let tell := fun (n : Nat) (s : State) =>
    if s.pkg.duty.getLsbD 5 then
      s.raise 5 0 0x1FF0 (leBytes 1 die ++ leBytes 1 hot ++ leBytes 1 (n - 1)) .thermal
    else s.interrupt n
  .next (if s.pkg.thermHi < hot && prev ≤ s.pkg.thermHi then tell 1 s
    else if hot < s.pkg.thermLo && s.pkg.thermLo ≤ prev then tell 2 s
    else s)

/-- THERM_CFG_WRITE (Table 22.9). -/
def State.writeThermCfg (s : State) (v : Quad) : State :=
  let hi := (v.extractLsb' 0 8).toNat
  let lo := (v.extractLsb' 8 8).toNat
  if hi ≤ lo then s else { s with pkg := { s.pkg with thermHi := hi, thermLo := lo } }

/-- THERM_CFG_WRITE. -/
def execThermCfgWrite (v : Quad) (s : State) : Out := .next (s.writeThermCfg v)

/-- THROTTLE_WRITE (R401). -/
def State.writeThrottle (s : State) (t : Nat) : State := { s with pkg := { s.pkg with throttle := t % 8 } }

/-- THROTTLE_WRITE. -/
def execThrottleWrite (v : Quad) (s : State) : Out := .next (s.writeThrottle v.toNat)

/-- OZ_TIMER (Table 22.8). -/
def execOzTimer (s : State) : Out :=
  .next (if s.oz.armed && s.oz.tcmp.toNat ≤ s.pkg.now then
      { s with oz := { s.oz with armed := false } }.interrupt 0
    else s)

/-- OZ_DOOR_WRITE (Table 22.9). -/
def execOzDoorWrite (s : State) : Out := .next (s.interrupt 4)

/-- The sources that are enabled and pending. -/
def Ozyth.enabled (o : Ozyth) : Quad := o.ien &&& o.ipend &&& 0x1F

/-- INTERRUPT_ENTRY (R400): before a run opens, the lowest enabled pending source is taken. -/
def State.takeInterrupt (s : State) : State :=
  let g := s.group ozGid
  let n := ((List.range 5).find? fun k => s.oz.enabled.getLsbD k).getD 0
  ({ s with oz := { s.oz with epc := g.pc 0, icause := n, inIrq := true, waiting := false } }).updGroup ozGid fun g =>
    { g with pcs := g.pcs.set 0 (s.oz.vbase + BitVec.ofNat 64 (0x40 * n)), arrived := 1 }

/-- An interrupt may be taken: before a run opens, and after an incomplete fence (R184). -/
def State.irqDue (s : State) : Bool :=
  s.oz.running && !s.oz.halted && !(s.group ozGid).runOpen && (s.group ozGid).fence.isNone && !s.oz.inIrq && s.oz.enabled != 0

/-- INTERRUPT_ENTRY. -/
def execInterruptEntry (s : State) : Out := .next (if s.irqDue then s.takeInterrupt else s)

/-! ### Brown-out (R62 to R69) -/

/-- PWR_WARN_ASSERT (R62, Table 22.8). -/
def execPwrWarnAssert (s : State) : Out :=
  let s := { s with pkg := { s.pkg with warn := true } }.interrupt 3
  .next (if s.pkg.pwr == 2 then s.beginEntry 0 else s)

/-- PWR_WARN_DEASSERT (R62). -/
def execPwrWarnDeassert (s : State) : Out := .next { s with pkg := { s.pkg with warn := false } }

/-- HOLD_EXPIRY (R62, R66): the pin has been low for HOLD ms. -/
def execHoldExpiry (s : State) : Out :=
  .next (if s.pkg.pwr == 4 && s.pkg.auto && !s.pkg.warn && s.pkg.hold * 1000000 ≤ s.pkg.lowFor && !s.pkg.duty.getLsbD 8 then
      { s with pkg := { s.pkg with pwr := 5, back := 0 } }
    else s)

/-- PWR_CMD_ENTER (R62). -/
def execPwrCmdEnter (s : State) : Out := .next (if s.pkg.pwr == 2 then s.beginEntry 1 else s)

/-- PWR_CMD_RESUME (R62). -/
def execPwrCmdResume (s : State) : Out := .next (if s.pkg.pwr == 4 then { s with pkg := { s.pkg with pwr := 5, back := 0 } } else s)

/-- The host has not answered an entry request within 200 µs of the trigger (R66, R67). -/
def Pkg.vetoOver (p : Pkg) : Bool := p.vetoWait && p.trigAt + 200000 ≤ p.clock

/-- ENTRY_VETO_TIMEOUT (R66, R67): 200 µs after the trigger entry proceeds as if the answer were 0, and the record awaits none any more. -/
def execEntryVetoTimeout (s : State) : Out :=
  .next (if s.pkg.vetoOver then
      { s with
        pkg := { s.pkg with vetoWait := false }
        host := { s.host with
          posted := s.host.posted.filter fun r => r.ask != .brown
          held := s.host.held.map fun e => if e.ask == .brown then { e with ask := .none } else e } }
    else s)

/-- R66, R83: the answer to the entry request.  A veto of a host-commanded entry returns to RUN; a pin cannot be vetoed, and after 200 µs nothing
can. -/
def State.answerBrown (s : State) (payload : List Byte) : State :=
  if !s.pkg.vetoWait then s
  else if payload.getD 0 0 == 1 && s.pkg.cause == 1 && !s.pkg.vetoOver then ({ s with pkg := { s.pkg with vetoWait := false } } : State).toRun
  else { s with pkg := { s.pkg with vetoWait := false } }

/-- R84: at entry step 2 the slices decide the insertions that wait for the host themselves, in stamp order: they are asked no more. -/
def State.unaskInsertions (s : State) : State :=
  ({ s with insertions := s.insertions.map fun (i : Insertion) => { i with asked := false } }).withdraw fun a =>
    match a with
    | .insertion _ => true
    | _ => false

/-- A mapping of pages that are pinned comb-target stays in the reverse map, so that a second one is refused (R47). -/
def State.pinnedMap (s : State) (e : PageEntry) : Bool := s.isMine e.attr.pa && s.inRegion (dpaLocal e.attr.pa) (pageSize e.attr.big)

/-- Step 5: every line is unlocked and written back, and every cache, TLB and copy is lost (R64, R65, R150). -/
def State.loseCaches (s : State) : State :=
  let s : State := { s with l2 := s.l2.map fun (e : Nat × L2Line) => (e.1, { e.2 with locked := none, wanted := [] }) }
  let s := s.l2.foldl (fun (s : State) e => s.dropLine (e.1 / 2 ^ 55) (BitVec.ofNat 64 (e.1 % 2 ^ 55 * 512))) s
  { s with
    l2 := [], tlb := [], rmap := s.rmap.filter s.pinnedMap, msc := [], updates := []
    ctxs := s.ctxs.map fun (e : Nat × Ctx) => (e.1, { e.2 with lockUsed := 0 })
    cores := s.cores.map fun (e : Nat × Core) =>
      (e.1, if e.1 = ozCore then { e.2 with l1 := [], pac := [], icache := [], rtab := [] }
        else { e.2 with l1 := [], pac := [], icache := [], rtab := [], bufs := e.2.bufs.filter fun b => !b.2.live }) }

/-- The merges that cores still owe (R155). -/
def State.allMerges (s : State) : List Owed := s.cores.flatMap fun e => s.mergesOf e.1

/-- The next of them is made. -/
def State.mergeNext (s : State) : State :=
  match s.cores.findSome? fun e => e.2.abuf.head?.map fun a => (e.1, a) with
  | some (core, a) => s.retryMerge core a
  | none => s

/-- The merges, accesses and messages that the machine owes are done before the caches go (R64). -/
def State.quiet (s : State) : Bool :=
  s.due.isEmpty && s.bankq.isEmpty && s.bankMsgs.isEmpty && s.cores.all fun e => e.2.abuf.isEmpty

/-- What a step of entry does, once it can end; none while it waits (Table 3.5).  (In part DEDUCED, log entry 27.) -/
def State.entryStep (s : State) (n : Nat) : Option State :=
  let teams := (s.teams.filter fun e => e.2.st == .resident || e.2.st == .saving).map (·.1)
  match n with
  | 1 => some (teams.foldl (fun s t =>
      (s.startSave t).updTeam t fun u => { u with byEntry := (s.team t).st == .resident }) s)
  | 2 => if teams.all s.atBoundary && s.insertions.all (fun i => !i.asked) then some (s.owe s.allMerges) else none
  | 3 =>
    let copies := s.host.rings.any fun r => match r.2.phase with
      | .copy .. => true
      | _ => false
    if !copies && !(s.cmds.any fun e => e.2.st == .running && e.2.cls != 3 && e.2.cls != 4) && teams.all (fun t => (s.team t).st == .saved) then
      some s.abortMoves
    else none
  | 4 => some s.brownRounds
  | 5 => if s.quiet then some ((s.grids.map (·.1)).foldl State.putHeader s).loseCaches else none
  | 8 => some { s with pkg := { s.pkg with boSaved := BitVec.ofNat 64 s.pkg.now, boWall := BitVec.ofNat 64 s.pkg.wall } }
  | 9 => some { s with pkg := { s.pkg with pwr := 4, boCount := s.pkg.boCount + 1 } }
  | _ => some s

/-- BROWN_OUT_ENTRY (R64): the next step of Table 3.5, when it can end; merges that step 5 waits for are made (R155).  In host-assisted mode its end is
posted (R66); a record that the link cannot carry any more is kept in the always-on island (R67).  (In part DEDUCED, log entry 27.) -/
def execBrownOutEntry (s : State) : Out :=
  .next (if s.pkg.pwr == 3 && !s.pkg.vetoWait then
      let n := s.pkg.step + 1
      let s := if n = 2 then s.unaskInsertions else s
      match s.entryStep n with
      | none => if n = 5 then s.mergeNext else s
      | some s =>
        let s := { s with pkg := { s.pkg with step := n, stepAt := s.pkg.clock } }
        if s.pkg.duty.getLsbD 8 then s.raise 8 0 0x1012 (s.brownPayload 1 n) .none else s
    else s)

/-- R68: the counter goes on from BO_SAVED + 1.  Where other packages of the domain live, the lowest of them has taken over meanwhile, and R17 applies at
its first time flit. -/
def Pkg.resume (p : Pkg) : Pkg :=
  let follows := p.joined && !p.live.isEmpty
  { p with
    now := p.boSaved.toNat + 1, timeGap := BitVec.ofNat 64 p.wall - p.boWall
    offset := 0, still := false, rejoin := follows, sync := follows, joining := follows, heardAt := p.clock }.elect

/-- What a step of resumption does (R68): every team that entry saved returns to its core. -/
def State.resumeStep (s : State) (n : Nat) : State :=
  match n with
  | 2 => { s with pkg := s.pkg.resume }
  | 6 => ((s.teams.filter fun e => e.2.st == .saved && e.2.byEntry).map (·.1)).foldl (fun s t => s.restoreTeam t (s.team t).core) s
  | _ => s

/-- RESUMPTION (R62, R67, R68): the next step of resumption; after the last, the package runs, or enters at once with PWR_WARN asserted.  (In part DEDUCED,
log entry 27.) -/
def execResumption (s : State) : Out :=
  .next (if s.pkg.pwr == 5 then
      let n := s.pkg.back + 1
      let s := s.resumeStep n
      let s := { s with pkg := { s.pkg with back := n } }
      if n < 6 then s
      else (if s.pkg.duty.getLsbD 8 then s.raise 8 0 0x1012 (s.brownPayload 2 0) .none else s).toRun
    else s)

end Sys2Proof.Machine
end

