-- ==== Sys2Proof/Machine/Shake.lean ====
section
/-! DEFINITION. SHAKE256, the function that the manual names for measurements and reports (R85, R88): the manual refers to it by name, and
its text is that of the public standard FIPS 202 (PRESUMED, log entry 8). -/

namespace Sys2Proof.Shake

/-- Lane i of the 25 lanes; lane x + 5 y stands at (x, y). -/
def lane (a : List Quad) (i : Nat) : Quad := a.getD i 0

/-- Rotation offsets of the 25 lanes. -/
def offsets : List Nat := [0, 1, 62, 28, 27, 36, 44, 6, 55, 20, 3, 10, 43, 25, 39, 41, 45, 15, 21, 8, 18, 2, 61, 56, 14]

/-- Round constants. -/
def constants : List Quad :=
  [0x0000000000000001, 0x0000000000008082, 0x800000000000808A, 0x8000000080008000, 0x000000000000808B, 0x0000000080000001,
   0x8000000080008081, 0x8000000000008009, 0x000000000000008A, 0x0000000000000088, 0x0000000080008009, 0x000000008000000A] ++
  [0x000000008000808B, 0x800000000000008B, 0x8000000000008089, 0x8000000000008003, 0x8000000000008002, 0x8000000000000080,
   0x000000000000800A, 0x800000008000000A, 0x8000000080008081, 0x8000000000008080, 0x0000000080000001, 0x8000000080008008]

/-- Columns mixed into their neighbours. -/
def theta (a : List Quad) : List Quad :=
  let c := (List.range 5).map fun x => lane a x ^^^ lane a (x + 5) ^^^ lane a (x + 10) ^^^ lane a (x + 15) ^^^ lane a (x + 20)
  (List.range 25).map fun i => lane a i ^^^ lane c ((i % 5 + 4) % 5) ^^^ (lane c ((i % 5 + 1) % 5)).rotateLeft 1

/-- Lanes rotated, and moved to their new places: (y, 2x + 3y) takes (x, y). -/
def rhoPi (a : List Quad) : List Quad :=
  let b := (List.range 25).map fun i => (lane a i).rotateLeft (offsets.getD i 0)
  (List.range 25).map fun i =>
    -- the lane that comes to (X, Y) stood at x = X + 3 Y, y = X
    lane b ((i % 5 + 3 * (i / 5)) % 5 + 5 * (i % 5))

/-- Rows combined. -/
def chi (a : List Quad) : List Quad :=
  (List.range 25).map fun i =>
    lane a i ^^^ (~~~(lane a ((i % 5 + 1) % 5 + 5 * (i / 5))) &&& lane a ((i % 5 + 2) % 5 + 5 * (i / 5)))

/-- The permutation: 24 rounds. -/
def permute (a : List Quad) : List Quad :=
  constants.foldl (fun (a : List Quad) k =>
    let b := chi (rhoPi (theta a))
    b.set 0 (lane b 0 ^^^ k)) a

/-- Eight bytes as a lane. -/
def laneOf : List Byte → Quad
  | [] => 0
  | b :: bs => b.setWidth 64 ||| (laneOf bs <<< 8)

/-- A block of 136 bytes added to the state. -/
def absorb (a : List Quad) (block : List Byte) : List Quad :=
  permute ((List.range 25).map fun i => if i < 17 then lane a i ^^^ laneOf ((block.drop (8 * i)).take 8) else lane a i)

/-- The bytes with the padding of SHAKE to whole blocks. -/
def pad (bs : List Byte) : List Byte :=
  let z := 135 - bs.length % 136
  if z = 0 then bs ++ [0x9F] else bs ++ [0x1F] ++ List.replicate (z - 1) 0 ++ [0x80]

/-- Every block in turn. -/
def absorbAll : Nat → List Quad → List Byte → List Quad
  | 0, a, _ => a
  | n + 1, a, bs => absorbAll n (absorb a (bs.take 136)) (bs.drop 136)

/-- The first 136 bytes of the state. -/
def squeeze (a : List Quad) : List Byte :=
  (List.range 136).map fun k => (lane a (k / 8)).extractLsb' (8 * (k % 8)) 8

/-- `n` output blocks. -/
def squeezeAll : Nat → List Quad → List Byte
  | 0, _ => []
  | n + 1, a => squeeze a ++ squeezeAll n (permute a)

end Sys2Proof.Shake

namespace Sys2Proof

/-- SHAKE256 of a list of bytes, `n` bytes long. -/
def shake256 (bs : List Byte) (n : Nat) : List Byte :=
  let p := Shake.pad bs
  (Shake.squeezeAll ((n + 135) / 136) (Shake.absorbAll (p.length / 136) (List.replicate 25 0) p)).take n

end Sys2Proof
end

