-- ==== Sys2Proof/Machine/System.lean ====
section
/-! DEFINITION. System words: major 0x1D (R125, R132, R170, R171, R389 to R397, R400). -/

namespace Sys2Proof.Machine

/-! ### Control words (R390) -/

/-- R390, `trap`. -/
def execTrap (fin : Bool) (i : BitVec 10) (s : State) : Out :=
  issue { fin, waits := true } (fun s => .did s (s.grp.faultAll fSoftware (i.setWidth 64)) true) s

/-- R170, R390, `eret`.  (In part DEDUCED, log entry 31.) -/
def execEret (fin : Bool) (s : State) : Out :=
  issue { fin, waits := true } (fun s =>
    let g := s.grp
    let bad := (lanesOf g.e).filter fun l => !g.inTrap.getLsbD l
    let good := (lanesOf g.e).filter fun l => g.inTrap.getLsbD l
    .did (s.setGrp { g with
      pcs := good.foldl (fun t l => t.set l (g.epc.getD l 0)) g.pcs
      arrived := g.arrived &&& ~~~maskOf good
      inTrap := g.inTrap &&& ~~~maskOf good }) (bad.map fun l => ⟨l, fIllegal, 0, false⟩) true) s

/-- The lanes of E move past a control word. -/
def Group.pass (g : Group) : Group :=
  { g with
    pcs := (lanesOf g.e).foldl (fun t l => t.set l (g.a + 4)) g.pcs
    arrived := g.arrived &&& ~~~g.e }

/-- Issue on the Ozyth core stops until package reset (R390). -/
def State.ozHalt (s : State) : State := { s with oz := { s.oz with halted := true } }

/-- R132, R390, `brk`. -/
def execBrk (fin : Bool) (s : State) : Out :=
  issue { fin, waits := true } (fun s =>
    let s := s.updGrp Group.pass
    if s.grp.oz then .did s.ozHalt [] true
    else .did ((s.teamStop.updGrp fun g => { g with stopped := true, matched := false }).noteStop s.grp 1) [] true) s

/-- R171, R390, `halt`: the team ends without a CTX_FAULT record; the group's last lane takes it out of its barriers, and its exit is performed when its
commands have completed (R302). -/
def execHalt (fin : Bool) (s : State) : Out :=
  match issue { fin, waits := true } (fun s =>
    let g := s.grp
    if g.oz then .did (s.updGrp Group.pass).ozHalt [] true
    else
      let s := (s.dropUnissued g.team).updTeam g.team fun t => { t with terminating := true }
      let s := { s with groups := s.groups.map fun (e : Nat × Group) =>
        (e.1, if e.2.team == g.team && !e.2.oz then { e.2 with ending := true } else e.2) }
      .did s.exitLanes [] true) s with
  | .next t => .next (t.groupExit t.cur)
  | .fault r => .fault r
  | .refused r => .refused r

/-- R103, R390, `yield`. -/
def execYield (fin : Bool) (s : State) : Out :=
  issue { fin, waits := true } (fun s =>
    let g := s.grp
    let s := s.updGrp Group.pass
    .did (if !g.oz && (s.waiting g.core g.part).isSome then s.toPending s.cur else s) [] true) s

/-- R400, `wfi`. -/
def execWfi (s : State) : Out :=
  issueOk { fin := true, grp := false, waits := true } (fun s => { s with oz := { s.oz with waiting := true } }) s

/-- R400, `iret`.  (In part DEDUCED, log entry 31.) -/
def execIret (s : State) : Out :=
  issue { fin := true, grp := false, waits := true } (fun s =>
    let g := s.grp
    if !s.oz.inIrq then .did s (g.faultAll fIllegal 0) true
    else .did ({ s with oz := { s.oz with inIrq := false } }.updGrp fun g => { g with
        pcs := (lanesOf g.e).foldl (fun t l => t.set l s.oz.epc) g.pcs
        arrived := g.arrived &&& ~~~g.e }) [] true) s

/-! ### Special registers (R391, R392, Tables 6.3, 8.5, 17.14, 22.7) -/

/-- A mask of lanes as a 64-bit value. -/
def maskQuad (m : Mask) : Quad := m.setWidth 64

/-- Bits [31:0] of a per-lane register. -/
def State.laneSpr (s : State) (spr : Nat) (l : Nat) : Word :=
  let g := s.grp
  match spr with
  | 0x000 => BitVec.ofNat 32 l
  | 0x001 => (g.pc l).setWidth 32
  | 0x002 => (g.epc.getD l 0).setWidth 32
  | 0x003 => (g.cause.getD l 0).setWidth 32
  | 0x004 => (g.taddr.getD l 0).setWidth 32
  | _ => if g.inTrap.getLsbD l then 1 else 0

/-- core.id (Table 22.7). -/
def State.coreId (s : State) (g : Group) : Nat :=
  if g.oz then 31 + s.pkg.id * 2 ^ 10
  else g.core % 24 + g.core / 24 * 2 ^ 5 + s.pkg.id * 2 ^ 10 + g.part * 2 ^ 16

/-- A group-uniform register, or a register of the Ozyth core. -/
def State.uniSpr (s : State) (spr : Nat) : Quad :=
  let g := s.grp
  let tm := s.myTeam
  match spr with
  | 0x100 => BitVec.ofNat 64 g.num
  | 0x101 => BitVec.ofNat 64 g.role
  | 0x102 => BitVec.ofNat 64 g.roleGrp
  | 0x103 => if g.oz then 0 else BitVec.ofNat 64 tm.num
  | 0x104 => maskQuad (~~~g.exited)
  | 0x105 => maskQuad g.e
  | 0x106 => maskQuad g.parked
  | 0x107 => maskQuad g.joined
  | 0x108 => g.trapBase
  | 0x109 => BitVec.ofNat 64 s.pkg.now
  | 0x10A => if g.oz then 0 else BitVec.ofNat 64 tm.sib
  | 0x10B => BitVec.ofNat 64 (s.groupSource g)
  | 0x10C => g.rngKey
  | 0x10D => g.rngCtr
  | 0x10E => if g.oz then 0 else BitVec.ofNat 64 s.myGrid.num
  | 0x10F => if g.oz then 0 else BitVec.ofNat 64 (s.ctxOf g)
  | 0x110 => if g.oz || s.myGrid.ballot.isNone then 0 else BitVec.ofNat 64 s.myGrid.nsib
  | 0x111 => BitVec.ofNat 64 (s.coreId g)
  | 0x300 => s.oz.vbase
  | 0x301 => s.oz.ien
  | 0x302 => s.oz.ipend
  | 0x303 => s.oz.epc
  | 0x304 => BitVec.ofNat 64 (s.oz.icause + if s.oz.inIrq then 256 else 0)
  | 0x305 => s.oz.ctx
  | _ => s.oz.tcmp

/-- R391, `sget`. -/
def execSget (fin kind : Bool) (d : BitVec 7) (spr : BitVec 10) (s : State) : Out :=
  if kind then
    issueOk { fin, sn := [d.toNat], grp := spr.toNat < 0x300 }
      (fun s => s.updGrp fun g => g.writeS d.toNat (s.uniSpr spr.toNat)) s
  else issueOk { fin, vw := [d.toNat] } (fun s => s.updGrp fun g => g.writeLanes d.toNat (s.laneSpr spr.toNat) (lanesOf g.e)) s

/-- The value that `sset tr.epc` writes in a lane (R391). -/
def epcOf (g : Group) (x : Word) : Quad := (g.a.extractLsb' 32 32 ++ x) &&& ~~~3

/-- `sset` of a group-uniform register or a register of the Ozyth core; none when the value breaks a write rule. -/
def State.setSpr (s : State) (spr : Nat) (x : Quad) : Option State :=
  let oz := fun (f : Ozyth → Ozyth) => some { s with oz := f s.oz }
  match spr with
  | 0x108 => if x.extractLsb' 0 12 != 0 then none else some (s.updGrp fun g => { g with trapBase := x })
  | 0x10C => some (s.updGrp fun g => { g with rngKey := x })
  | 0x10D => some (s.updGrp fun g => { g with rngCtr := x })
  | 0x300 => if x.extractLsb' 0 12 != 0 then none else oz fun o => { o with vbase := x }
  | 0x301 => oz fun o => { o with ien := x &&& 0x1F }
  | 0x302 => oz fun o => { o with ipend := o.ipend &&& ~~~x }
  | 0x303 => oz fun o => { o with epc := x &&& ~~~3 }
  | 0x305 => oz fun o => { o with ctx := x &&& 0x1FF }
  | 0x306 => oz fun o => { o with tcmp := x, armed := true }
  | _ => none

/-- R391, `sset`. -/
def execSset (fin kind : Bool) (a : BitVec 7) (spr : BitVec 10) (la : Bool) (s : State) : Out :=
  if kind then
    issue { fin, sn := [a.toNat], grp := spr.toNat < 0x300, waits := true } (fun s =>
      match s.setSpr spr.toNat (s.grp.readS a.toNat) with
      | some s' => .did s' [] false
      | none => .did s (s.grp.faultAll fIllegal 0) false) s
  else
    issue { fin, vr := [a.toNat], frees := freeIf la a.toNat, waits := true } (fun s =>
      if spr == 0x002 then
        .did (s.updGrp fun g => { g with
          epc := (lanesOf g.e).foldl (fun t l => t.set l (epcOf g (g.readV a.toNat l))) g.epc }) [] false
      else .did s (s.grp.faultAll fIllegal 0) false) s

/-! ### `tsrd`, `rng` (R393, R394) -/

/-- R393, `tsrd`. -/
def execTsrd (fin : Bool) (x : BitVec 6) (s : State) : Out :=
  issueOk { infoS fin [x] with waits := true } (fun s =>
    let src := s.groupSource s.grp
    (s.stamp src).updGrp fun g => g.writeS x.toNat (BitVec.ofNat 64 (s.stampTime src))) s

/-- R394: the word that `rng` draws for a lane. -/
def rngWord (key ctr : Quad) (l : Nat) : Word :=
  let x := (ctr * 16 + BitVec.ofNat 64 l) ^^^ key
  let x := (x ^^^ (x >>> 31)) * 0x9E6D55A3C1F42B87
  let x := (x ^^^ (x >>> 29)) * 0xD2B74407B1CE6E93
  let x := x ^^^ (x >>> 32)
  x.setWidth 32

/-- R394, `rng`. -/
def execRng (fin : Bool) (x : BitVec 7) (s : State) : Out :=
  issueOk { fin, vw := [x.toNat] } (fun s => s.updGrp fun g =>
    { g.writeLanes x.toNat (rngWord g.rngKey g.rngCtr) (lanesOf g.e) with rngCtr := g.rngCtr + 1 }) s

/-! ### `launch` (R100, R396) -/

/-- The lines of the ballot record that a launch record names; none without one (R235). -/
def ballotLinesOf (r : List Byte) : List Quad := if recField r 72 8 = 0 then [] else linesFrom (BitVec.ofNat 64 (recField r 72 8)) 4096

/-- R100, R396, `launch`; the quorum unit, a device agent, opens the ballot record once its lines can be reached (R425). -/
def execLaunch (fin : Bool) (x y : BitVec 6) (s : State) : Out :=
  issue { infoS fin [x, y] with waits := true } (fun s =>
    let g := s.grp
    let va := g.readS y.toNat
    let ret := fun (s : State) (status : Nat) =>
      Did.did (s.updGrp fun g => g.addPending (.scalar x.toNat (BitVec.ofNat 64 status))) [] false
    if g.oz && !s.oz.ctx.getLsbD 8 then ret s 4
    else if va.toNat % 128 != 0 then .did s (g.faultAll fAlign va) false
    else s.pagesOr 0 [va] fun s =>
      let asid := s.asidOf g
      match s.engineAsks asid va with
      | q :: qs => .stall (s.owe (q :: qs))
      | [] =>
        let (s', bs, _) := s.groupRead asid va 128
        let ctx := s.ctxOf g
        let record := ballotLinesOf bs
        match s.agentWaits asid 1 record with
        | some t => .stall t
        | none =>
          let status := s'.launchStatus ctx bs
          if status != 0 then ret s' status
          else
            match s.releaseAsks g 5 with
            | some asks => .stall (s.owe asks)
            | none => ret ((record.foldl (fun s va => s.agentTouch asid va) s').acceptGrid ctx bs) 0) s

/-! ### `cinv` (R397) -/

/-- The key of an instruction-cache line of an address space: 128 bytes. -/
def icKey (asid n : Nat) : Nat := asid * 2 ^ 57 + n

/-- R397: the lines of a range leave the instruction cache of every core. -/
def State.dropFetched (s : State) (asid : Nat) (va : Quad) (n : Nat) : State :=
  if n = 0 then s
  else
    let lo := icKey asid (va.toNat / 128)
    let hi := icKey asid (min ((va.toNat + n - 1) / 128) (2 ^ 57 - 1))
    { s with cores := s.cores.map fun (e : Nat × Core) =>
        (e.1, { e.2 with icache := e.2.icache.filter fun l => !(lo ≤ l.1 && l.1 ≤ hi) }) }

/-- R397, `cinv`.  (In part DESIGN CHOICE, log entry 24.) -/
def execCinv (fin : Bool) (x y : BitVec 6) (s : State) : Out :=
  issue { infoS fin [x, y] with waits := true } (fun s =>
    let g := s.grp
    match s.releaseAsks g 5 with
    | some asks => .stall (s.owe asks)
    | none =>
      match s.spaceOf g with
      | some asid =>
        .did (s.dropFetched asid (g.readS x.toNat) ((g.readS y.toNat).extractLsb' 0 32).toNat) [] false
      | none => .did s [] false) s

end Sys2Proof.Machine
end

