-- ==== Sys2Proof/Machine/HostRings.lean ====
section
/-! DEFINITION. Command rings of the host: pointers, entries and their ring phases, contexts, purges, answers and attestation (R72 to R84,
R88, R166). -/

namespace Sys2Proof.Machine

/-- A command ring. -/
def State.ring (s : State) (n : Nat) : HostRing := s.host.rings.getD n HostRing.init

/-- Change a command ring. -/
def State.updHostRing (s : State) (n : Nat) (f : HostRing → HostRing) : State :=
  { s with host := { s.host with rings := s.host.rings.set n (f (s.ring n)) } }

/-! ### Pointers and configuration (R73 to R75) -/

/-- RING_WP_WRITE (R73). -/
def HostRing.writeWp (r : HostRing) (w : Word) : HostRing :=
  if r.state = 2 then r
  else if 2 ^ r.log2 < (w - r.rp).toNat then { r with state := 2, err := 1, bad := w }
  else if 2 ^ 31 ≤ (w - r.wp).toNat then { r with state := 2, err := 2, bad := w }
  else { r with wp := w }

/-- RING_WP_WRITE. -/
def execRingWpWrite (n : Nat) (v : Quad) (s : State) : Out := .next (s.updHostRing n fun r => r.writeWp (v.setWidth 32))

/-- R74: the reset proper, once no ring phase is in progress. -/
def HostRing.doReset (r : HostRing) : HostRing :=
  { r with rp := 0, wp := 0, err := 0, bad := 0, state := if r.enable then 1 else 0, resetDue := false, phase := .none }

/-- A WAIT in progress. -/
def HostRing.waits (r : HostRing) : Bool := match r.phase with
  | .wait .. => true
  | _ => false

/-- RING_RESET (R74): a WAIT is abandoned; any other phase runs to its end first. -/
def HostRing.reset (r : HostRing) : HostRing :=
  if r.phase = .none || r.waits then r.doReset else { r with resetDue := true }

/-- RING_RESET. -/
def execRingReset (n : Nat) (s : State) : Out := .next (s.updHostRing n HostRing.reset)

/-- RING_CFG_WRITE (R74, R75): when ENABLE is cleared, a WAIT is abandoned, and any other phase runs to its end before STATE is idle. -/
def HostRing.writeCfg (r : HostRing) (v : Quad) : HostRing :=
  let log2 := (v.extractLsb' 0 4).toNat
  let enable := v.getLsbD 4
  let admin := v.getLsbD 5
  let ctx := (v.extractLsb' 8 8).toNat
  if log2 < 4 then r
  else if r.enable && (log2 != r.log2 || admin != r.admin || ctx != r.ctx) then r
  else
    let r := { r with log2, enable, admin, ctx }
    if r.state = 2 then r
    else if enable then { r with state := 1 }
    else if r.phase = .none || r.waits then { r with state := 0, phase := .none }
    else r

/-- RING_CFG_WRITE. -/
def execRingCfgWrite (n : Nat) (v : Quad) (s : State) : Out := .next (s.updHostRing n fun r => r.writeCfg v)

/-- EVQ_CFG_WRITE (R75): enabling restarts SEQ at 0. -/
def Evq.writeCfg (q : Evq) (v : Quad) : Evq :=
  let log2 := (v.extractLsb' 0 4).toNat
  let enable := v.getLsbD 4
  if log2 < 4 || (q.enable && log2 != q.log2) then q
  else { q with
    log2, enable, kinds := v.extractLsb' 16 16, vec := (v.extractLsb' 32 16).toNat, seq := if enable && !q.enable then 0 else q.seq }

/-- EVQ_CFG_WRITE. -/
def execEvqCfgWrite (n : Nat) (v : Quad) (s : State) : Out := .next (s.setEvq n ((s.evq n).writeCfg v)).showNoq

/-- EVQ_RP_WRITE (R82). -/
def Evq.writeRp (q : Evq) (w : Word) : Evq :=
  if (q.wp - q.rp).toNat < (w - q.rp).toNat || 2 ^ 31 ≤ (w - q.rp).toNat then { q with badrp := true } else { q with rp := w }

/-- EVQ_RP_WRITE. -/
def execEvqRpWrite (n : Nat) (v : Quad) (s : State) : Out := .next (s.setEvq n ((s.evq n).writeRp (v.setWidth 32)))

/-! ### Taking an entry (R72, R76 to R78) -/

/-- The 64 bytes of the entry that a ring takes next. -/
def State.entryBytes (s : State) (n : Nat) : List Byte :=
  let r := s.ring n
  s.hostMem.bytes ((r.base.extractLsb' 12 52).toNat * 4096 + r.rp.toNat % 2 ^ r.log2 * 64) 64

/-- A ring may take an entry (R72, R76). -/
def State.mayTake (s : State) (n : Nat) : Bool :=
  let r := s.ring n
  s.pkg.fetches && r.state == 1 && r.rp != r.wp && r.phase == .none && !r.resetDue

/-- A field of an entry. -/
def fld (bs : List Byte) (off n : Nat) : Nat := leNat ((bs.drop off).take n)

/-- A field of an entry as an address. -/
def fldQ (bs : List Byte) (off : Nat) : Quad := BitVec.ofNat 64 (fld bs off 8)

/-- Bytes of an entry that are reserved: all but the header and those below. -/
def restZero (bs : List Byte) (used : List (Nat × Nat)) : Bool :=
  (numbered bs).all fun e => e.1 < 8 || (used.any fun u => u.1 ≤ e.1 && e.1 < u.1 + u.2) || e.2 == 0

/-- The bytes that an operation uses (Table 4.2); none for a reserved OP. -/
def usedBytes (op : Nat) : Option (List (Nat × Nat)) :=
  match op with
  | 1 => some []
  | 2 => some [(8, 8)]
  | 3 => some [(8, 16)]
  | 4 => some [(8, 16)]
  | 5 => some [(8, 25)]
  | 6 => some [(8, 1), (10, 4), (16, 12)]
  | 7 => some [(8, 1)]
  | 8 => some [(8, 18)]
  | 9 => some [(8, 2), (16, 16)]
  | 10 => some [(8, 5), (16, 32)]
  | 11 => some [(8, 40)]
  | _ => none

/-- R76, ERR 3: OP is reserved, or a reserved field is not 0. -/
def entryReserved (bs : List Byte) : Bool :=
  match usedBytes (fld bs 0 1) with
  | none => true
  | some used =>
    !restZero bs used || fld bs 1 1 / 2 != 0 || fld bs 4 4 != 0 || (fld bs 0 1 == 5 && fld bs 32 1 / 2 != 0) ||
      (fld bs 0 1 == 6 && fld bs 12 2 / 4096 != 0)

/-- A ring halts (R76). -/
def State.haltRing (s : State) (n err : Nat) (at_ : Word) : State :=
  s.updHostRing n fun r =>
    let r := { r with state := 2, err, at_, phase := .none }
    if r.resetDue then r.doReset else r

/-- A ring phase ends (R74, R75, R77, R78): the record of NOTIFY is posted, a reset that waited takes place, and a ring whose ENABLE has been cleared
is idle. -/
def State.endPhase (s : State) (n : Nat) : State :=
  let (notify, tag, at_) := (s.ring n).entry
  let s := s.updHostRing n fun r =>
    let r := { r with phase := .none, state := if r.state = 1 && !r.enable then 0 else r.state }
    if r.resetDue then r.doReset else r
  if notify then s.raise 15 0 0x1012 (leBytes 4 n ++ leBytes 4 at_.toNat ++ leBytes 2 tag) .none else s

/-- What an entry's operation finds. -/
inductive Took where
  /-- Its ring phase ends. -/
  | ends (s : State)
  /-- Its ring phase goes on. -/
  | goesOn (s : State)
  /-- It halts the ring, with no effect. -/
  | halts (err : Nat)

/-- What has been found becomes the state of the ring. -/
def State.settleTook (s : State) (n : Nat) (at_ : Word) : Took → State
  | .ends s' => s'.endPhase n
  | .goesOn s' => s'
  | .halts err => s.haltRing n err at_

/-- An address that a device agent is about to need. -/
structure Need where
  /-- Address space. -/
  asid : Nat
  /-- Kind of access: 0 read, 1 write. -/
  acc : Nat
  /-- Address. -/
  va : Quad
  /-- The address is accessed, and not only translated. -/
  touch : Bool

/-- Addresses of an address space that are accessed alike. -/
def needAll (asid acc : Nat) (vas : List Quad) : List Need := vas.map fun va => ⟨asid, acc, va, true⟩

/-- Pages that are checked, and not yet accessed. -/
def needPages (asid acc : Nat) (vas : List Quad) : List Need := vas.map fun va => ⟨asid, acc, va, false⟩

/-- An operation of device agents, which comes when nothing of its addresses is waited for (R155, R163, R425); its accesses are accesses at their banks
(R45, R54). -/
def State.asAgents (s : State) (needs : List Need) (f : State → State) : State :=
  match needs.findSome? fun e => s.agentWait e.asid e.va e.acc with
  | some t => t
  | none => needs.foldl (fun s e => s.clearFail e.asid e.va)
      (f (needs.foldl (fun s e => if e.touch then s.agentTouch e.asid e.va else s) s))

/-- The next entry of a ring is of an operation, and may be taken. -/
def State.takes (s : State) (n op : Nat) : Bool :=
  let o := fld (s.entryBytes n) 0 1
  s.mayTake n && (o == op || (op == 1 && (usedBytes o).isNone))

/-- A ring takes its next entry when it is of an operation (R72, R76); `needs` names the addresses that it accesses, `body` carries it out. -/
def State.takeRing (s : State) (n op : Nat) (needs : State → List Byte → List Need) (body : State → List Byte → Took) : State :=
  let bs := s.entryBytes n
  let r := s.ring n
  let taken := fun (s : State) => s.updHostRing n fun q => { q with rp := r.rp + 1, entry := (fld bs 1 1 % 2 == 1, fld bs 2 2, r.rp) }
  if !s.takes n op then s
  else if entryReserved bs then (taken s).haltRing n 3 r.rp
  else if 6 ≤ op && !r.admin then (taken s).haltRing n 4 r.rp
  else s.asAgents (needs s bs) fun s => (taken s).settleTook n r.rp (body (taken s) bs)

/-- An operation that accesses no address. -/
def noNeeds (_ : State) (_ : List Byte) : List Need := []

/-- A ring phase that is in progress goes on. -/
def State.onPhase (s : State) (n : Nat) (t : Took) : State := s.settleTook n (s.ring n).entry.2.2 t

/-- The address space of a ring, that of no context being 0. -/
def State.ringAsid (s : State) (n : Nat) : Nat := (s.ctx (s.ring n).ctx).asid

/-- The context of a ring, when it is live (R77). -/
def State.ringCtx (s : State) (n : Nat) : Option Nat := if (s.ctx (s.ring n).ctx).live then some (s.ctx (s.ring n).ctx).asid else none

/-- A device agent reads bytes across sectors. -/
def State.agentBytes (s : State) (asid : Nat) (va : Quad) (n : Nat) : Except Nat (List Byte) :=
  (List.range ((va.toNat % 32 + n + 31) / 32)).foldl (fun (acc : Except Nat (List Byte)) k =>
    match acc with
    | .error c => .error c
    | .ok l =>
      let first := if k = 0 then 0 else 32 * k - va.toNat % 32
      let last := min n (32 * (k + 1) - va.toNat % 32)
      match s.agentRead asid (va + BitVec.ofNat 64 first) (last - first) with
      | .ok bs => .ok (l ++ bs)
      | .error c => .error c) (.ok [])

/-- Every page of a range passes a device agent's check. -/
def State.agentPages (s : State) (asid : Nat) (va : Quad) (n : Nat) (write : Bool) : Bool :=
  va.toNat + n ≤ 2 ^ 48 && (pagesOf va n).all fun p => match s.agentPage asid p with
    | .ok (_, attr) => !write || attr.w
    | .error _ => false

/-! ### NOP, LAUNCH, WRITE, WAIT, COPY -/

/-- RING_NOP; a reserved OP halts the ring. -/
def execRingNop (n : Nat) (s : State) : Out := .next (s.takeRing n 1 noNeeds fun s _ => .ends s)

/-- The record of a LAUNCH goes to the scheduler (R78, R81, R90). -/
def State.offer (s : State) (n : Nat) (va : Quad) : Took :=
  match s.ringCtx n with
  | none => .halts 6
  | some asid =>
    let ctx := (s.ring n).ctx
    if (s.ctx ctx).killing then .halts 5
    else
      match s.agentBytes asid va 128 with
      | .error _ => .halts 6
      | .ok r =>
        if s.gridsFull then .goesOn (s.updHostRing n fun q => { q with phase := .launch va })
        else if s.launchStatus ctx r != 0 then .halts 5
        else .ends (s.acceptGrid ctx r)

/-- What a LAUNCH accesses: the launch record and, once that can be read, the ballot record. -/
def State.launchNeeds (s : State) (n : Nat) (va : Quad) : List Need :=
  let asid := s.ringAsid n
  if va.toNat % 128 != 0 then []
  else needAll asid 0 [va] ++ (match s.agentBytes asid va 128 with
    | .ok r => needAll asid 1 (ballotLinesOf r)
    | .error _ => [])

/-- RING_LAUNCH. -/
def execRingLaunch (n : Nat) (s : State) : Out :=
  .next (s.takeRing n 2 (fun s bs => s.launchNeeds n (fldQ bs 8)) fun s bs => if (fldQ bs 8).toNat % 128 != 0 then .halts 5 else s.offer n (fldQ bs 8))

/-- GRID_ACCEPT (R90): a LAUNCH that found the table full is accepted when a slot is free. -/
def execGridAccept (n : Nat) (s : State) : Out :=
  .next (match (s.ring n).phase with
    | .launch va => if s.gridsFull || !s.pkg.fetches then s else s.asAgents (s.launchNeeds n va) fun s => s.onPhase n (s.offer n va)
    | _ => s)

/-- RING_WRITE. -/
def execRingWrite (n : Nat) (s : State) : Out :=
  .next (s.takeRing n 3 (fun s bs => if (fldQ bs 8).toNat % 8 != 0 then [] else needAll (s.ringAsid n) 1 [fldQ bs 8]) fun s bs =>
    if (fldQ bs 8).toNat % 8 != 0 then .halts 5
    else match s.ringCtx n with
      | none => .halts 6
      | some asid => match s.agentWrite asid (fldQ bs 8) (leBytes 8 (fld bs 16 8)) with
        | .ok s => .ends s
        | .error _ => .halts 6)

/-- The load of a WAIT. -/
def State.tryWait (s : State) (n : Nat) (va v : Quad) : Took :=
  match s.ringCtx n with
  | none => .halts 6
  | some asid => match s.agentNat asid va 8 with
    | .error _ => .halts 6
    | .ok x => if v.toNat ≤ x then .ends (s.acquire 6) else .goesOn (s.updHostRing n fun q => { q with phase := .wait va v })

/-- RING_WAIT. -/
def execRingWait (n : Nat) (s : State) : Out :=
  .next (s.takeRing n 4 (fun s bs => if (fldQ bs 8).toNat % 8 != 0 then [] else needAll (s.ringAsid n) 0 [fldQ bs 8]) fun s bs => if (fldQ bs 8).toNat % 8 != 0 then .halts 5 else s.tryWait n (fldQ bs 8) (fldQ bs 16))

/-- RING_WAIT_POLL. -/
def execRingWaitPoll (n : Nat) (s : State) : Out :=
  .next (match (s.ring n).phase with
    | .wait va v => if s.pkg.fetches then s.asAgents (needAll (s.ringAsid n) 0 [va]) fun s => s.onPhase n (s.tryWait n va v) else s
    | _ => s)

/-- The pages that a COPY entry names, within its limits. -/
def State.copyNeeds (s : State) (n : Nat) (bs : List Byte) : List Need :=
  if 2 ^ 32 < fld bs 24 8 then [] else needPages (s.ringAsid n) (if fld bs 32 1 == 1 then 0 else 1) (pagesOf (fldQ bs 16) (fld bs 24 8))

/-- RING_COPY.  (In part DEDUCED, log entry 32.) -/
def execRingCopy (n : Nat) (s : State) : Out :=
  .next (s.takeRing n 5 (fun s bs => s.copyNeeds n bs) fun s bs =>
    let len := fld bs 24 8
    if len % 64 != 0 || len < 64 || 2 ^ 32 < len then .halts 5
    else match s.ringCtx n with
      | none => .halts 6
      | some asid =>
        let out := fld bs 32 1 == 1
        if !s.agentPages asid (fldQ bs 16) len (!out) then .halts 6
        else .goesOn (s.updHostRing n fun q => { q with phase := .copy (fldQ bs 8) (fldQ bs 16) len out }))

/-- The bytes of a COPY are moved. -/
def State.moveCopy (s : State) (n : Nat) (host va : Quad) (left : Nat) (out : Bool) : Took :=
  match s.ringCtx n with
  | none => .halts 6
  | some asid =>
    if out then
      match s.agentBytes asid va left with
      | .ok bs => .ends { s with hostMem := s.hostMem.putBytes host.toNat bs }
      | .error _ => .halts 6
    else .ends (s.agentPutBytes asid va (s.hostMem.bytes host.toNat left))

/-- RING_COPY_DONE: every byte has been written; a COPY counts as an issued engine command at entry (R76).  (In part DEDUCED, log entry 32.) -/
def execRingCopyDone (n : Nat) (s : State) : Out :=
  .next (match (s.ring n).phase with
    | .copy host va left out =>
      s.asAgents (needAll (s.ringAsid n) (if out then 0 else 1) (linesFrom va left)) fun s => s.onPhase n (s.moveCopy n host va left out)
    | _ => s)

/-- The number by which ENTRY_COMMAND_TERMINATE names the COPY of a ring. -/
def ringCopyId (n : Nat) : Nat := 2 ^ 64 + n

/-- A COPY is terminated (R64, R76): its ring phase ends, and the bytes that it was to write are unpredictable.  (In part DEDUCED, log entry 27.) -/
def State.terminateCopy (s : State) (n : Nat) : State :=
  let r := s.ring n
  match r.phase with
  | .copy host va left out =>
    let bs := (List.range left).map fun k => Config.undefByte s.free k
    let s := s.bumpFree
    let s := if out then { s with hostMem := s.hostMem.putBytes host.toNat bs }
      else s.agentPutBytes (s.ctx r.ctx).asid va bs
    s.endPhase n
  | _ => s

/-- ENTRY_COMMAND_TERMINATE (R64): a command still running 600 µs into step 3. -/
def execEntryCommandTerminate (id : Nat) (s : State) : Out :=
  .next (if s.pkg.entryLate then
      if 2 ^ 64 ≤ id && id < 2 ^ 64 + 32 then s.terminateCopy (id - 2 ^ 64) else s.terminateCmd id
    else s)

/-! ### Contexts (R79, R80) -/

/-- CTX_SET (R79, R175, R190, R234). -/
def execCtxSet (n : Nat) (s : State) : Out :=
  .next (s.takeRing n 6 noNeeds fun s bs =>
    let c := fld bs 8 1
    let asid := fld bs 10 2
    let root := fld bs 16 8
    let old := s.ctx c
    if asid == 0 || root % 4096 != 0 || 2 ^ 51 ≤ root || 2 ^ 20 < fld bs 24 4 ||
        (old.live && (old.asid != asid || old.root != root)) || (s.ctxs.any fun e => e.1 != c && e.2.live && e.2.asid == asid) then
      .halts 5
    else .ends (s.updCtx c fun _ => { Ctx.init with
      live := true, asid, tenant := fld bs 12 2, root, lockq := fld bs 24 4, killing := old.killing
      lockUsed := if old.live then old.lockUsed else 0 }))

/-- What a record is about belongs to a context (R84). -/
def State.askOf (s : State) (ctx : Nat) : Ask → Bool
  | .light asid _ => asid == (s.ctx ctx).asid
  | .walk _ asid _ _ => asid == (s.ctx ctx).asid
  | .decision grid => (s.grid grid).ctx == ctx
  | .release grid _ => (s.grid grid).ctx == ctx
  | .ring slot _ => ((s.rings.get? slot).map (·.ctx == ctx)).getD false
  | .insertion gid => s.ctxOf (s.group gid) == ctx && !(s.group gid).oz
  | _ => false

/-- The rings of a killed context that wait for the host end with it (R84): what waits at them completes with STATUS 4. -/
def State.endAskedRings (s : State) (c : Nat) : State :=
  (s.host.posted.map (·.ask) ++ s.host.held.map (·.ask)).foldl (fun (s : State) a => match a with
    | .ring slot die => if s.askOf c a then s.disableRing slot die else s
    | _ => s) s

/-- A group that waited at `pfx.ins` for the host ends with its context: the insertion is withdrawn, and changes nothing (R84). -/
def State.endInsertion (s : State) (i : Insertion) : State :=
  ({ s with insertions := s.insertions.filter (· != i) } : State).endGroup i.gid

/-- Steps 1 to 3 of R80, with the withdrawals of R84: launches are refused, the groups end at their next run boundaries, unissued
commands are dropped, ballots are cancelled, and the teams that have no place, or no group left, exit (Table 5.4, R107).  (In part DEDUCED, log
entry 30.) -/
def State.startKill (s : State) (c : Nat) : State :=
  let asid := (s.ctx c).asid
  let mine := fun (g : Group) => !g.oz && (s.grid (s.team g.team).grid).ctx == c
  let s := s.endAskedRings c
  let s := (s.withdraw (s.askOf c)).updCtx c fun x => { x with killing := true }
  let s := { s with
    hostWalks := s.hostWalks.filter fun w => w.asid != asid
    lightSvcs := s.lightSvcs.filter fun l => l.asid != asid }
  let s := s.dropWhere fun x => mine (s.group x.gid)
  let grids := (s.grids.filter fun e => e.2.ctx == c).map (·.1)
  let s := grids.foldl (fun (s : State) g => (s.updGrid g fun g => { g with
    ballot := g.ballot.map fun b => { b with asked := false, sibs := b.sibs.map fun x => { x with asked := false } } }).killBallot g) s
  let s := { s with groups := s.groups.map fun (e : Nat × Group) => (e.1, if mine e.2 then { e.2 with ending := true } else e.2) }
  let s := (s.insertions.filter fun i => i.asked && s.ctxOf (s.group i.gid) == c).foldl State.endInsertion s
  let teams := (s.teams.filter fun e => (s.grid e.2.grid).ctx == c).map (·.1)
  let s := teams.foldl (fun (s : State) t => (if (s.team t).st == .saved then (s.team t).groups.foldl State.endGroup s else s).teamGone t) s
  { s with grids := s.grids.map fun (e : Nat × Grid) => (e.1, if e.2.ctx == c then
      { e.2 with placed := e.2.placements, reserving := false } else e.2) }

/-- Lines of an address space that meet a range, by address. -/
def State.linesOf (s : State) (asid base len : Nat) : List Quad :=
  (s.l2.filter fun e => e.1 / 2 ^ 55 == asid && overlaps (e.1 % 2 ^ 55 * 512) 512 base len).map fun e => BitVec.ofNat 64 (e.1 % 2 ^ 55 * 512)

/-- A page entry of an address space that meets a range. -/
def PageEntry.meets (e : PageEntry) (asid base len : Nat) : Bool := e.asid == asid && overlaps e.va (pageSize e.attr.big) base len

/-- Steps 4 and 5 of R80, and steps 3 to 5 of R166: the lines of an address space in a range are unlocked, written back and invalidated, those of the
instruction caches with them, and its translations and reverse-map records are removed; the record of a page that a region still pins stays, so that
a second mapping of it is refused (R47). -/
def State.forgetRange (s : State) (asid base len : Nat) : State :=
  let s := (s.linesOf asid base len).foldl (fun s va => ((s.drainLine asid (lineOf va)).unlockLine asid va).dropLine asid va) s
  let s := s.dropFetched asid (BitVec.ofNat 64 base) len
  let keep := fun (e : PageEntry) => !e.meets asid base len
  { s with
    tlb := s.tlb.map fun e => (e.1, e.2.filter keep)
    rmap := s.rmap.filter fun e => keep e || s.pinnedMap e
    cores := s.cores.map fun (e : Nat × Core) => (e.1, { e.2 with
      pac := e.2.pac.filter fun p => !(p.asid == asid && overlaps p.va (pageSize p.big) base len)
      l1 := e.2.l1.filter fun l => !(l.1 / 2 ^ 55 == asid && overlaps (l.1 % 2 ^ 55 * 512) 512 base len) }) }

/-- The buffered atomics of a range, with their cores (R155). -/
def State.bufferedIn (s : State) (asid base len : Nat) : List (Nat × AtomEntry) :=
  s.cores.flatMap fun e => (e.2.abuf.filter fun a => a.asid == asid && overlaps a.va 4 base len).map fun a => (e.1, a)

/-- No access or message of a range is at a bank, or on its way from one. -/
def State.banksQuiet (s : State) (asid base len : Nat) : Bool :=
  !(s.bankq.any fun b => b.asid == asid && overlaps b.va b.bytes.length base len) &&
    !(s.bankMsgs.any fun m => m.asid == asid && overlaps m.va m.bytes.length base len)

/-- No row request of a range is in a task table, on its way to a base die, or pending there (R42, R376). -/
def State.rowsQuiet (s : State) (asid base len : Nat) : Bool :=
  !(s.dram.any fun e => e.2.reqs.any fun r => r.asid == asid && overlaps r.va 1024 base len) &&
    !(s.cmds.any fun e => e.2.cls == 3 && e.2.op == 2 && e.2.st != .done && e.2.asid == asid &&
      overlaps ((e.2.block.getD 0 0).toNat / 1024 * 1024) 1024 base len)

/-- The first entries of the regions of an address space that meet a range. -/
def State.regionsOf (s : State) (asid : Nat) (p : Region → Bool) : List (Nat × Nat) :=
  (s.dram.flatMap fun e => (e.2.regions.filter fun r => r.2.asid == asid && p r.2).map fun r => r.2.first).eraseDups

/-- Steps 4 to 7 of R80, once the groups of the context have gone: the slot is freed when its regions and row requests have completed, and its
collective ring slots with it (R381). -/
def State.finishKill (s : State) (n c : Nat) : Took :=
  let asid := (s.ctx c).asid
  let s := s.forgetRange asid 0 (2 ^ 64)
  let fresh := s.regionsOf asid fun r => !r.drain
  let s := fresh.foldl (fun (s : State) f => s.drainRegion f none) s
  if !(s.regionsOf asid fun _ => true).isEmpty || !s.rowsQuiet asid 0 (2 ^ 64) then .goesOn s
  else
    let s := { s with rings := s.rings.filter fun e => e.2.ctx != c }
    .ends ((s.updCtx c fun x => { x with live := false, killing := false, lockUsed := 0 }).updHostRing n fun q => { q with phase := .none })

/-- A CTX_KILL in progress can take its next step: its regions are still to be drained, or they and the row requests have completed. -/
def State.killReady (s : State) (c : Nat) : Bool :=
  let asid := (s.ctx c).asid
  s.banksQuiet asid 0 (2 ^ 64) && (!(s.regionsOf asid fun r => !r.drain).isEmpty ||
    ((s.regionsOf asid fun _ => true).isEmpty && s.rowsQuiet asid 0 (2 ^ 64)))

/-- A CTX_KILL in progress goes on when the groups of the context have gone: what the cores buffer of it is merged first (R155). -/
def State.killOn (s : State) (n c : Nat) : State :=
  if s.grids.any fun e => e.2.ctx == c then s
  else
    match s.bufferedIn (s.ctx c).asid 0 (2 ^ 64) with
    | (core, e) :: _ => s.retryMerge core e
    | [] => if s.killReady c then s.onPhase n (s.finishKill n c) else s

/-- The ballot records of the grids of a context that the host kills. -/
def State.killNeeds (s : State) (c : Nat) : List Need :=
  (s.grids.filter fun e => e.2.ctx == c).flatMap fun e => needAll (s.ctx c).asid 1 (s.ballotLines e.1)

/-- CTX_KILL (R80, R84): it is taken, or it goes on. -/
def execCtxKill (n : Nat) (s : State) : Out :=
  .next (match (s.ring n).phase with
    | .kill c => if s.pkg.fetches then s.killOn n c else s
    | _ => s.takeRing n 7 (fun s bs => s.killNeeds (fld bs 8 1)) fun s bs =>
      let c := fld bs 8 1
      if !(s.ctx c).live then .ends s
      else .goesOn ((s.startKill c).updHostRing n fun q => { q with phase := .kill c }))

/-! ### REGION and PURGE (R49, R50, R166) -/

/-- The host has answered 1 to the light fault of a page that a REGION entry waits for (R167). -/
def State.lightDenied (s : State) (asid : Nat) (va : Quad) : Bool := s.lightSvcs.any fun l => l.covers asid va && l.denied

/-- The pages of a region that the host registers: each lies in this package's HBM, and D is set where it is clear, by the memory processor (R35, R167).
None when one fails its check. -/
def State.regionPages (s : State) (asid : Nat) (vas : List Quad) : Option State :=
  vas.foldl (fun (a : Option State) va => a.bind fun s =>
    match s.agentPage asid va with
    | .error _ => none
    | .ok (s, attr) =>
      if !attr.w || !s.isMine attr.pa || !isHbm (dpaLocal attr.pa) || s.lightDenied asid va then none
      else if attr.d then some s
      else
        match s.leafOf asid va with
        | none => none
        | some a => if (s.physQuad a).getLsbD 2 then some (s.setDirty asid va) else none) (some s)

/-- The domain physical address that a device agent finds. -/
def State.agentAddr (s : State) (asid : Nat) (va : Quad) : Nat :=
  match s.agentPage asid va with
  | .ok (_, attr) => pageAddr attr va
  | .error _ => 0

/-- The descriptor that a REGION entry names, when its bytes can be read and are good. -/
def State.regionDesc (s : State) (n : Nat) (bs : List Byte) : Option Desc :=
  match s.agentBytes (s.ringAsid n) (fldQ bs 8) 32 with
  | .ok d => descOf d
  | .error _ => none

/-- What a REGION entry accesses: descriptor and result in the ring's context, and then the pages of the region in the address space that it names. -/
def State.regionNeeds (s : State) (n : Nat) (bs : List Byte) : List Need :=
  if (fldQ bs 8).toNat % 32 != 0 || (fldQ bs 16).toNat % 8 != 0 then []
  else needAll (s.ringAsid n) 0 [fldQ bs 8] ++ needAll (s.ringAsid n) 1 [fldQ bs 16] ++ (match s.regionDesc n bs with
    | some d => needPages (fld bs 24 2) 1 d.pages
    | none => [])

/-- R60: a page move that a REGION entry waits for. -/
def State.regionMove (s : State) (n : Nat) : Option Migr :=
  if !s.takes n 8 || entryReserved (s.entryBytes n) || !(s.ring n).admin then none
  else (s.regionDesc n (s.entryBytes n)).bind fun d =>
    d.pages.findSome? fun va => s.migratingAt (dpaLocal (s.agentAddr (fld (s.entryBytes n) 24 2) va))

/-- The operation of a REGION entry (R49 to R51). -/
def State.regionEntry (s : State) (n : Nat) (bs : List Byte) : Took :=
  let at_ := fldQ bs 8
  let res := fldQ bs 16
  let owner := fld bs 24 2
  if at_.toNat % 32 != 0 || res.toNat % 8 != 0 || (s.slotOfAsid owner).isNone then .halts 5
  else match s.ringCtx n with
    | none => .halts 6
    | some asid =>
      match s.agentBytes asid at_ 32 with
      | .error _ => .halts 6
      | .ok d =>
        let put := fun (s : State) (w : Quad) => match s.agentWrite asid res (leBytes 8 w.toNat) with
          | .ok s => Took.ends s
          | .error _ => .halts 6
        match descOf d with
        | none => put s (resultWord 3 0 0)
        | some desc =>
          match s.regionPages owner desc.pages with
          | none => .halts 6
          | some s =>
            let r := s.register owner none desc (s.agentAddr owner)
            put r.2 r.1

/-- The first page of a list whose check fails, when it fails for D alone (R165). -/
def State.firstLight (s : State) (asid : Nat) (vas : List Quad) : Option Quad :=
  (vas.findSome? fun va => match s.agentPage asid va with
    | .error _ => some none
    | .ok (s, attr) =>
      if !attr.w || !s.isMine attr.pa || !isHbm (dpaLocal attr.pa) then some none
      else if attr.d then none
      else some (some va)).join

/-- R35, R167: the page of a region whose light fault the host is to serve before a REGION entry goes on. -/
def State.regionLight (s : State) (n : Nat) : Option (Nat × Quad) :=
  let bs := s.entryBytes n
  let owner := fld bs 24 2
  if !s.pkg.duty.getLsbD 0 || !s.takes n 8 || entryReserved bs || !(s.ring n).admin || (fldQ bs 8).toNat % 32 != 0 || (fldQ bs 16).toNat % 8 != 0 ||
      (s.slotOfAsid owner).isNone || (s.ringCtx n).isNone then none
  else (s.regionDesc n bs).bind fun d => (s.firstLight owner d.pages).bind fun va => if s.lightDenied owner va then none else some (owner, va)

/-- A REGION entry calls for the service of a light fault, and waits for it with the lanes of the page. -/
def State.callLight (s : State) (asid : Nat) (va : Quad) : State :=
  let s := if s.lightAsked asid va then s else match execLightFaultService asid va s with
    | .next t => t
    | _ => s
  { s with lightSvcs := s.lightSvcs.map fun (l : LightSvc) => if l.covers asid va then { l with ring := true } else l }

/-- The entry of a REGION is over: what the host has refused to it is forgotten. -/
def State.forgetDenied (s : State) (bs : List Byte) : State :=
  { s with lightSvcs := s.lightSvcs.filter fun l => !(l.denied && l.asid == fld bs 24 2) }

/-- RING_REGION (R49 to R51): it waits for a page that moves (R60), and for the service of a page's light fault (R35).  (In part DEDUCED, log entry 32.) -/
def execRingRegion (n : Nat) (s : State) : Out :=
  .next (match s.regionMove n with
    | some m => if s.due.contains (.migration m.src) then s else s.owe [.migration m.src]
    | none => match s.regionLight n with
      | some (asid, va) => s.callLight asid va
      | none =>
        let t := s.takeRing n 8 (fun s bs => s.regionNeeds n bs) fun s bs => s.regionEntry n bs
        if (t.ring n).rp == (s.ring n).rp || entryReserved (s.entryBytes n) || !(s.ring n).admin then t else t.forgetDenied (s.entryBytes n))

/-- The pages of a range are free of regions, row requests, moves, light-fault services and accesses at their banks (R166, R167, R376); a move counts
whichever mapping shows its page. -/
def State.purgeReady (s : State) (asid base len : Nat) : Bool :=
  (s.regionsOf asid fun r => overlaps r.vbase (r.plen * 1024) base len).isEmpty && s.rowsQuiet asid base len && s.banksQuiet asid base len &&
    !(s.lightSvcs.any fun l => !l.denied && l.asid == asid && overlaps (pageBase l.big l.va) (pageSize l.big) base len) &&
    !(s.migrs.any fun m => (m.asid == asid && overlaps m.va (pageSize m.big) base len) ||
      (s.mapsOf m.src (pageSize m.big)).any fun e => e.meets asid base len)

/-- A PURGE in progress goes on: buffered atomics of the range are merged, and then it waits (R166). -/
def State.purgeOn (s : State) (n asid base len : Nat) : State :=
  match s.bufferedIn asid base len with
  | (core, e) :: _ => s.retryMerge core e
  | [] => if s.purgeReady asid base len then s.onPhase n (.ends (s.forgetRange asid base len)) else s

/-- PURGE (R166): it is taken, or it goes on. -/
def execPurge (n : Nat) (s : State) : Out :=
  .next (match (s.ring n).phase with
    | .purge asid base len => if s.pkg.fetches then s.purgeOn n asid base.toNat len else s
    | _ => s.takeRing n 9 noNeeds fun s bs =>
      let asid := fld bs 8 2
      let base := fld bs 16 8
      let len := fld bs 24 8
      if base % 65536 != 0 || len % 65536 != 0 then .halts 5
      else .goesOn (s.updHostRing n fun q => { q with phase := .purge asid (BitVec.ofNat 64 base) len }))

/-! ### ANSWER (R83, Table 8.4) -/

/-- An answer takes effect on what its record is about.  (In part DEDUCED, log entry 12.) -/
def State.answered (s : State) (a : Ask) (p : List Byte) : State :=
  match a with
  | .none => s
  | .light asid va =>
    let t := s.answerLight asid va p
    if s.host.rings.any fun e => (s.regionLight e.1).isSome then t else { t with lightSvcs := t.lightSvcs.filter fun l => !l.denied }
  | .walk die asid va _ => s.answerWalk die asid va p
  | .migrate m => s.answerMove m p
  | .decision grid => s.answerDecision grid p
  | .release grid k => s.answerRelease grid k p
  | .ring slot die => s.answerRing slot die p
  | .thermal => if p.getD 1 0 == 1 then s else s.writeThrottle (p.getD 0 0).toNat
  | .audit ctx page => s.answerAudit ctx page p
  | .insertion gid => s.answerInsertion gid p
  | .brown => s.answerBrown p

/-- The record that an ANSWER entry answers. -/
def State.answeredRecord (s : State) (bs : List Byte) : Option Posted :=
  s.host.posted.find? fun r => r.queue == fld bs 12 1 && r.seq == BitVec.ofNat 32 (fld bs 8 4)

/-- What an answer's effect accesses. -/
def State.answerNeeds (s : State) (bs : List Byte) : List Need :=
  let ofGrid := fun (grid : Nat) (vas : List Quad) => needAll (s.ctx (s.grid grid).ctx).asid 1 vas
  match (s.answeredRecord bs).map (fun (r : Posted) => r.ask) with
  | some (.decision grid) => ofGrid grid (s.ballotLines grid)
  | some (.release grid k) => ofGrid grid (s.releaseNeeds grid k)
  | some (.insertion gid) =>
    (match s.insertionOf gid with
     | some i => needAll (s.ctx (s.ctxOf (s.group gid))).asid 1 (s.insertNeeds gid i.h (fldQ bs 24))
     | none => [])
  | some (.audit ctx page) =>
    (match s.arena ctx with
     | some a => needAll (s.ctx ctx).asid 1 [a.refc + BitVec.ofNat 64 (2 * page)]
     | none => [])
  | _ => []

/-- ANSWER: the record is answered, or the answer is a stray.  One that names no queue is discarded and counted nowhere (DESIGN CHOICE, log entry 39). -/
def execAnswer (n : Nat) (s : State) : Out :=
  .next (s.takeRing n 10 State.answerNeeds fun s bs =>
    let q := fld bs 12 1
    match s.answeredRecord bs with
    | some r =>
      let s := { s with host := { s.host with posted := s.host.posted.filter (· != r) } }
      .ends (s.answered r.ask ((bs.drop 16).take 32))
    | none => .ends (if q < 8 then s.setEvq q { s.evq q with stray := (s.evq q).stray + 1 } else s))

/-! ### ATTEST (R87, R88, Table 4.7) -/

/-- The 16 bytes of a context slot in the report. -/
def State.slotBytes (s : State) (c : Nat) : List Byte :=
  let x := s.ctx c
  if x.live then [1, 0] ++ leBytes 2 x.asid ++ leBytes 2 x.tenant ++ [0, 0] ++ leBytes 8 x.root else List.replicate 16 0

/-- ID_PUB, 1,793 bytes. -/
def idPubBytes : List Byte := (List.range 1793).map Config.idPub

/-- Bytes 0 to 415 of the report. -/
def State.reportBytes (s : State) (nonce : List Byte) (stamp : Nat × Nat) : List Byte :=
  leBytes 4 0x54414C5A ++ leBytes 4 1 ++ padTo 32 nonce ++ stampBytes stamp ++ leBytes 8 s.pkg.wall ++ leBytes 8 s.pkg.id ++
    leBytes 8 s.pkg.mode.toNat ++ leBytes 8 s.pkg.duty.toNat ++ leBytes 8 s.pkg.boCount.toNat ++
    ((List.range 3).flatMap fun t => padTo 64 (s.host.fw.meas.getD t [])) ++
    padTo 64 (shake256 ((List.range 256).flatMap s.slotBytes) 64) ++ padTo 64 (shake256 idPubBytes 64)

/-- ATTEST. -/
def execAttest (n : Nat) (s : State) : Out :=
  .next (s.takeRing n 11 noNeeds fun s bs =>
    let host := fld bs 40 8
    if host % 64 != 0 then .halts 5
    else
      let src := s.source 0 0x1012
      let r := s.reportBytes ((bs.drop 8).take 32) (s.stampTime src, src)
      let sig := padTo 1280 (Config.sign (padTo 64 (shake256 r 64)))
      .ends { s.stamp src with hostMem := s.hostMem.putBytes host (r ++ sig) })

/-! ### Firmware (R85, R86) -/

/-- A field of the image in the staging memory. -/
def State.img (s : State) (off n : Nat) : Nat := s.host.staging.nat off n

/-- What a load of a good image leaves (R86, R398): its digest, the minimum version, which it may raise, and an image of target 0 in the private
memory of the Ozyth core. -/
def State.loadImage (s : State) (m : Memory) : State :=
  let fw := s.host.fw
  let t := m.nat 4 1
  let len := m.nat 8 4
  let fw := { fw with
    meas := fw.meas.set t (padTo 64 (shake256 (m.bytes 0 (64 + len)) 64))
    min := if m.nat 5 1 == 1 then fw.min.set t (m.nat 6 2) else fw.min
    good := if fw.good.contains t then fw.good else fw.good ++ [t] }
  let s := { s with host := { s.host with fw } }
  if t = 0 then { s with ozMem := s.ozMem.copyFrom m 64 0 (min len (2 ^ 22)), oz := { s.oz with loaded := true } } else s

/-- The result of the checks of R86 on the staged image. -/
def State.imageCode (s : State) : Nat :=
  let len := s.img 8 4
  if s.pkg.pwr != 1 then 2
  else if s.img 0 4 != 0x57464C5A || 3 ≤ s.img 4 1 || 2 ≤ s.img 5 1 || s.img 12 52 != 0 then 3
  else if len < 1 || 2 ^ 23 - 1344 < len then 4
  else if s.img 6 2 < s.host.fw.min.getD (s.img 4 1) 0 then 5
  else if !Config.signatureGood (shake256 (s.host.staging.bytes 0 (64 + len)) 64) (s.host.staging.bytes (64 + len) 1280) then 6
  else 0

/-- FW_GO (R86): a load starts; its result, and the bytes that it loads, are those of this moment. -/
def State.fwGo (s : State) : State :=
  if s.host.fw.load.isSome then s
  else { s with host := { s.host with fw := { s.host.fw with load := some (s.imageCode, s.host.staging), code := 1 } } }

/-- FW_GO. -/
def execFwGo (s : State) : Out := .next s.fwGo

/-- FW_LOAD_DONE (R86, R398): the load ends with the result of its checks at GO. -/
def execFwLoadDone (s : State) : Out :=
  .next (match s.host.fw.load with
    | none => s
    | some (code, m) =>
      let s := { s with host := { s.host with fw := { s.host.fw with load := none, code } } }
      if code != 0 then s else s.loadImage m)

/-- R172: the save pool is not empty, lies in HBM, and meets no heat table. -/
def State.poolValid (s : State) : Bool :=
  let b := (s.pkg.saveBase.extractLsb' 21 24).toNat * 2 ^ 21
  let n := (s.pkg.saveLen.extractLsb' 0 24).toNat * 2 ^ 21
  n != 0 && b + n ≤ 0x018000000000 && (List.range 24).all fun d => !overlaps b n (s.heatBase d) heatSize

/-- R55: every heat table lies at addressable rows of its stack.  A table that ends beyond its stack in standard ECC is no more addressable than one
at a strong-ECC row from 30,720 on: a START then answers 7 too (DESIGN CHOICE, log entry 39). -/
def State.heatValid (s : State) : Bool :=
  (List.range 24).all fun d =>
    let last := s.migHeat.getD d 0xEFF00 * 2 ^ 16 + heatSize
    last ≤ (if s.pkg.mode.getLsbD 4 then 30720 * 2 ^ 21 else 2 ^ 36)

/-- FW_START (R86). -/
def State.fwStart (s : State) : State :=
  let fw := s.host.fw
  if fw.load.isSome then s
  else if s.pkg.pwr != 1 then { s with host := { s.host with fw := { fw with code := 2 } } }
  else if fw.initBusy then s
  else if fw.good.contains 0 && fw.good.contains 1 && s.poolValid && s.heatValid then
    { s with host := { s.host with fw := { fw with initBusy := true } } }
  else { s with host := { s.host with fw := { fw with code := 7 } } }

/-- FW_START. -/
def execFwStart (s : State) : Out := .next s.fwStart

end Sys2Proof.Machine
end

