-- ==== Sys2Proof/Machine/Control.lean ====
section
/-! DEFINITION. Control: package control space, the registers of every chapter at their offsets (Tables 1.4, 2.5, 2.8, 3.7, 4.8, 6.5, 7.6,
8.8, 9.7, 11.8, 12.8, 14.2, 22.9), their reads and writes (R2), and fences to failing peers (R189, R190). -/

namespace Sys2Proof.Machine

/-! ### Fields -/

/-- A 64-bit word of two 32-bit halves. -/
def twoWords (lo hi : Word) : Quad := hi ++ lo

/-- R2: a write-1-to-clear counter in bits [31:0] of a write. -/
def w1cLo (x : Word) (v : Quad) : Word := x &&& ~~~(v.extractLsb' 0 32)

/-- A write-1-to-clear counter in bits [63:32] of a write. -/
def w1cHi (x : Word) (v : Quad) : Word := x &&& ~~~(v.extractLsb' 32 32)

/-- Word k of a list of bytes that is packed in 64-bit words, 0 after its end (R87). -/
def packed (bs : List Byte) (k : Nat) : Quad := BitVec.ofNat 64 (leNat ((bs.drop (8 * k)).take 8))

/-! ### Reads -/

/-- Package, power and thermal registers, below 0x400. -/
def State.readPkg (s : State) (off : Nat) : Quad :=
  let p := s.pkg
  match off with
  | 0x000 => BitVec.ofNat 64 p.id
  | 0x010 => BitVec.ofNat 64 p.now
  | 0x018 => BitVec.ofNat 64 p.wall
  | 0x020 => p.timeStat
  | 0x040 => p.mode
  | 0x048 => BitVec.ofNat 64 (bitAt p.reject 0 + bitAt p.clkBusy 1)
  | 0x050 => p.duty
  | 0x200 => BitVec.ofNat 64 (p.pwr + bitAt p.warn 3 + p.step * 2 ^ 8)
  | 0x208 => BitVec.ofNat 64 (bitAt p.auto 0 + p.hold * 2 ^ 8)
  | 0x218 => p.boSaved
  | 0x220 => p.boWall
  | 0x228 => p.timeGap
  | 0x230 => p.boCount.setWidth 64
  | 0x3C0 => BitVec.ofNat 64 (p.thermHi + p.thermLo * 2 ^ 8)
  | 0x3C8 => BitVec.ofNat 64 p.throttle
  | _ =>
    if 0x100 ≤ off && off < 0x1C8 then (s.port ((off - 0x100) / 8)).stat
    else if 0x300 ≤ off && off < 0x3C0 then BitVec.ofNat 64 (p.therm.getD ((off - 0x300) / 8) 0)
    else 0

/-- A command ring's register (Table 4.8). -/
def HostRing.read (r : HostRing) (k : Nat) : Quad :=
  match k with
  | 0x00 => r.base
  | 0x08 => BitVec.ofNat 64 (r.log2 + bitAt r.enable 4 + bitAt r.admin 5 + r.ctx * 2 ^ 8)
  | 0x10 => r.wp.setWidth 64
  | 0x18 => r.rp.setWidth 64
  | 0x20 => twoWords (BitVec.ofNat 32 (r.state + r.err * 16)) r.bad
  | 0x28 => r.at_.setWidth 64
  | _ => 0

/-- An event queue's register. -/
def Evq.read (q : Evq) (k : Nat) : Quad :=
  match k with
  | 0x00 => q.base
  | 0x08 => BitVec.ofNat 64 (q.log2 + bitAt q.enable 4 + q.kinds.toNat * 2 ^ 16 + q.vec * 2 ^ 32)
  | 0x10 => q.wp.setWidth 64
  | 0x18 => q.rp.setWidth 64
  | 0x20 => BitVec.ofNat 64 (bitAt q.full 0 + bitAt q.badrp 1 + q.stray.toNat * 2 ^ 16)
  | _ => 0

/-- Host interface registers, 0x4000 to 0x7FFF. -/
def State.readHost (s : State) (off : Nat) : Quad :=
  let fw := s.host.fw
  if off < 0x4800 then (s.ring ((off - 0x4000) / 0x40)).read (off % 0x40)
  else if 0x5000 ≤ off && off < 0x5800 then packed idPubBytes ((off - 0x5000) / 8)
  else if 0x5800 ≤ off && off < 0x5D00 then packed ((List.range 1280).map Config.idCert) ((off - 0x5800) / 8)
  else if 0x6000 ≤ off && off < 0x6200 then (s.evq ((off - 0x6000) / 0x40)).read (off % 0x40)
  else if 0x7100 ≤ off && off < 0x71C0 then packed (fw.meas.getD ((off - 0x7100) / 0x40) []) (off % 0x40 / 8)
  else
    match off with
    | 0x7008 => BitVec.ofNat 64 (fw.code + bitAt fw.load.isSome 4)
    | 0x7010 => Config.idSerial
    | 0x7018 => BitVec.ofNat 64 (fw.min.getD 0 0 + fw.min.getD 1 0 * 2 ^ 16 + fw.min.getD 2 0 * 2 ^ 32)
    | 0x7020 => BitVec.ofNat 64 (bitAt s.host.noq 0)
    | _ => 0

/-- Migration registers of a die (Table 3.7). -/
def State.readMig (s : State) (d k : Nat) : Quad :=
  match k with
  | 0x00 => BitVec.ofNat 64 (s.migHeat.getD d 0xEFF00 * 2 ^ 16)
  | 0x08 => let c := s.migStat.getD d (0, 0); twoWords c.1 c.2
  | 0x10 => (s.migAbort.getD d 0).setWidth 64
  | 0x18 => let c := s.mscStat.getD d (0, 0); twoWords c.1 c.2
  | _ => 0

/-- A word of a region-table entry (Table 2.8). -/
def Region.read (r : Region) (k : Nat) : Quad :=
  match k with
  | 0 => BitVec.ofNat 64 (1 + r.func * 2 + r.typ * 2 ^ 4 + bitAt r.sat 6 + bitAt r.drain 7 + r.passes * 2 ^ 8 + r.left * 2 ^ 24 +
      (match r.next with
       | some (st, i) => i * 2 ^ 40 + st * 2 ^ 48 + 2 ^ 53
       | none => 0))
  | 1 => twoWords r.k0 r.k1
  | 2 => BitVec.ofNat 64 (r.pbase + r.plen * 2 ^ 26)
  | _ => BitVec.ofNat 64 (r.vbase + r.asid * 2 ^ 48)

/-- A stack's register (Table 2.5). -/
def Stack.read (st : Stack) (k : Nat) : Quad :=
  if k = 0x000 then
    BitVec.ofNat 64 (bitAt st.hot 0 + st.temp % 256 * 2 ^ 8 + (4096 - st.reqs.length) * 2 ^ 16 + (256 - st.regions.length) * 2 ^ 32)
  else if k = 0x008 then BitVec.ofNat 64 (bitAt st.nbrTest 0 + st.nbrSeed.toNat * 2 ^ 32)
  else if k = 0x010 then BitVec.ofNat 64 (st.corrected.toNat + st.uncorrected.toNat * 2 ^ 32)
  else if 0x100 ≤ k && k < 0x300 then st.posWord ((k - 0x100) / 8)
  else if 0x1000 ≤ k && k < 0x3000 then
    match st.regions.get? ((k - 0x1000) / 32) with
    | some r => r.read (k % 32 / 8)
    | none => 0
  else 0

/-- A core's debug register (Table 6.5). -/
def State.readDbg (s : State) (c k : Nat) : Quad :=
  let x := s.core c
  match k with
  | 0x00 => BitVec.ofNat 64 (bitAt x.dbgTeamStop 0 + x.dbgPart * 2 ^ 3 + x.dbgSlot * 2 ^ 5)
  | 0x08 => s.dbgStatus c
  | 0x30 => BitVec.ofNat 64 x.dbgAsid
  | 0x38 => s.dbgWho c
  | _ => x.dbgBp.getD ((k - 0x10) / 8) 0

/-- The size of the fused cluster on a core, 0 when its L1 is not fused (R148). -/
def State.fusedSize (s : State) (c : Nat) : Nat :=
  match s.fusedAt c with
  | some t => (s.clusterTeams t).length
  | none => 0

/-- A core's memory register (Table 7.6). -/
def State.readCm (s : State) (c k : Nat) : Quad :=
  let x := s.core c
  let w := fun n => BitVec.ofNat 32 (x.cm.getD n 0)
  match k with
  | 0x00 =>
    let fused := s.fusedSize c
    BitVec.ofNat 64 ((16 - (s.cacheWays c).length) + bitAt (fused != 0) 8 + fused * 2 ^ 12 +
      (255 - (x.bufs.filter fun b => b.2.live).length) * 2 ^ 16 + (64 - x.abuf.length) * 2 ^ 24)
  | 0x08 => twoWords (w 0) (w 1)
  | 0x10 => twoWords (w 2) (w 3)
  | _ => 0

/-- CTX_FAULT of a slot (Table 8.8). -/
def Ctx.readFault (c : Ctx) (k : Nat) : Quad :=
  match k with
  | 0x00 => let (code, n, v, g) := c.fault; BitVec.ofNat 64 (code + n * 2 ^ 8 + bitAt v 16 + g * 2 ^ 32)
  | 0x08 => c.faddr
  | 0x10 => c.fpc
  | _ => c.ftime

/-- FENCE_ERR of a slot (Table 9.7). -/
def Ctx.readFerr (c : Ctx) (k : Nat) : Quad :=
  match k with
  | 0x00 => c.ferrStat
  | 0x08 => c.ferrLo
  | 0x10 => c.ferrHi
  | 0x18 => c.ferrAsid
  | 0x20 => c.ferrTime
  | _ => 0

/-- An address-range format register (Table 11.8). -/
def State.readArf (s : State) (n k : Nat) : Quad :=
  let (a, b, c, d) := s.arf.getD n (0, 0, 0, 0)
  match k with
  | 0x00 => a
  | 0x08 => b
  | 0x10 => c
  | _ => d

/-- Context, engine and round registers, from 0x30_0000. -/
def State.readHigh (s : State) (off : Nat) : Quad :=
  if off < 0x300800 then BitVec.ofNat 64 (s.ctx ((off - 0x300000) / 8)).lockUsed
  else if 0x301000 ≤ off && off < 0x303000 then (s.ctx ((off - 0x301000) / 0x20)).readFault (off % 0x20)
  else if off = 0x303000 then s.pkg.saveBase
  else if off = 0x303008 then s.pkg.saveLen
  else if off = 0x303010 then BitVec.ofNat 64 s.saveFree
  else if 0x308000 ≤ off && off < 0x30C000 then (s.ctx ((off - 0x308000) / 0x40)).readFerr (off % 0x40)
  else if 0x30C000 ≤ off && off < 0x30C800 then s.readArf ((off - 0x30C000) / 0x20) (off % 0x20)
  else if off = 0x310000 then s.pkg.kvTbl
  else if off = 0x310008 then s.pkg.pfxTbl
  else if off = 0x310010 then twoWords s.kvAudit.1 s.kvAudit.2
  else if off = 0x310018 then twoWords s.pfxStat.1 s.pfxStat.2
  else if 0x311000 ≤ off && off < 0x311800 then (s.ctx ((off - 0x311000) / 8)).kva
  else if 0x312000 ≤ off && off < 0x31A000 then
    twoWords (s.rounds.getD ((off - 0x312000) / 8) 0) (if s.roundStall.getD ((off - 0x312000) / 8) false then 1 else 0)
  else if 0x320000 ≤ off && off < 0x322400 then
    (if off % 16 = 0 then let c := s.core ((off - 0x320000) / 16); twoWords c.rndServed c.rndMissed else 0)
  else 0

/-- A read of package control space at an offset (R2: what no register holds reads 0). -/
def State.controlAt (s : State) (off : Nat) : Quad :=
  if off < 0x400 then s.readPkg off
  else if off < 0x4000 then 0
  else if off < 0x8000 then s.readHost off
  else if off < 0x9800 then s.readMig ((off - 0x8000) / 0x100) (off % 0x100)
  else if 0x10000 ≤ off && off < 0x70000 then (s.stack ((off - 0x10000) / 0x4000)).read (off % 0x4000)
  else if 0x100000 ≤ off && off < 0x109000 then s.readDbg ((off - 0x100000) / 0x40) (off % 0x40)
  else if 0x200000 ≤ off && off < 0x209000 then s.readCm ((off - 0x200000) / 0x40) (off % 0x40)
  else if 0x300000 ≤ off then s.readHigh off
  else 0

/-! ### Writes -/

/-- The answer of an event that always goes on. -/
def stateOf (o : Out) (s : State) : State :=
  match o with
  | .next t => t
  | _ => s

/-- Package, power and thermal registers. -/
def State.writePkg (s : State) (off : Nat) (v : Quad) : State :=
  let upd := fun (f : Pkg → Pkg) => { s with pkg := f s.pkg }
  match off with
  | 0x000 => if s.pkg.joined then s else upd fun p => { p with id := (v.extractLsb' 0 6).toNat }
  | 0x018 => upd fun p => { p with wall := v.toNat }
  | 0x040 => s.writeMode v
  | 0x048 => upd fun p => { p with reject := p.reject && !v.getLsbD 0 }
  | 0x050 => s.writeDuty v
  | 0x208 =>
    if v.extractLsb' 8 8 == 0 then s else upd fun p => { p with auto := v.getLsbD 0, hold := (v.extractLsb' 8 8).toNat }
  | 0x210 =>
    if v.extractLsb' 0 2 == 1 then stateOf (execPwrCmdEnter s) s
    else if v.extractLsb' 0 2 == 2 then stateOf (execPwrCmdResume s) s
    else s
  | 0x3C0 => s.writeThermCfg v
  | 0x3C8 => s.writeThrottle v.toNat
  | 0x3D0 => s.interrupt 4
  | _ =>
    if 0x100 ≤ off && off < 0x1C8 then
      s.updPort ((off - 0x100) / 8) fun p => { p with retries := p.retries &&& ~~~(v.extractLsb' 16 32) }
    else s

/-- Host interface registers. -/
def State.writeHost (s : State) (off : Nat) (v : Quad) : State :=
  if off < 0x4800 then
    s.updHostRing ((off - 0x4000) / 0x40) fun r => match off % 0x40 with
      | 0x00 => if r.enable then r else { r with base := v &&& ~~~0xFFF }
      | 0x08 => r.writeCfg v
      | 0x10 => r.writeWp (v.setWidth 32)
      | 0x30 => if v.getLsbD 0 then r.reset else r
      | _ => r
  else if 0x6000 ≤ off && off < 0x6200 then
    let n := (off - 0x6000) / 0x40
    let q := s.evq n
    match off % 0x40 with
    | 0x00 => if q.enable then s else s.setEvq n { q with base := v &&& ~~~0xFFF }
    | 0x08 => (s.setEvq n (q.writeCfg v)).showNoq
    | 0x18 => s.setEvq n (q.writeRp (v.setWidth 32))
    | 0x20 => s.setEvq n { q with badrp := q.badrp && !v.getLsbD 1, stray := q.stray &&& ~~~(v.extractLsb' 16 32) }
    | _ => s
  else if off = 0x7000 then (if v.getLsbD 0 then s.fwGo else if v.getLsbD 1 then s.fwStart else s)
  else s

/-- Migration registers.  MIG_HEAT can be written until memory initialisation is done (DESIGN CHOICE, log entry 39). -/
def State.writeMig (s : State) (d k : Nat) (v : Quad) : State :=
  match k with
  | 0x00 => if s.pkg.memInit then s else { s with migHeat := s.migHeat.set d (v.extractLsb' 16 20).toNat }
  | 0x08 => let c := s.migStat.getD d (0, 0); { s with migStat := s.migStat.set d (w1cLo c.1 v, w1cHi c.2 v) }
  | 0x10 => { s with migAbort := s.migAbort.set d (w1cLo (s.migAbort.getD d 0) v) }
  | 0x18 => let c := s.mscStat.getD d (0, 0); { s with mscStat := s.mscStat.set d (w1cLo c.1 v, w1cHi c.2 v) }
  | _ => s

/-- A stack's registers. -/
def State.writeStack (s : State) (n k : Nat) (v : Quad) : State :=
  match k with
  | 0x008 => stateOf (execStkNbrWrite n v s) s
  | 0x010 => s.updStack n fun st => { st with
      corrected := w1cLo st.corrected v, uncorrected := st.uncorrected &&& ~~~(v.extractLsb' 32 16) }
  | _ => s

/-- A core's debug registers: PART and SLOT take their values before STEP or RESUME acts. -/
def State.writeDbg (s : State) (c k : Nat) (v : Quad) : State :=
  match k with
  | 0x00 =>
    let s := s.updCore c fun x => { x with
      dbgTeamStop := v.getLsbD 0, dbgPart := (v.extractLsb' 3 2).toNat, dbgSlot := (v.extractLsb' 5 5).toNat }
    let s := if v.getLsbD 1 then stateOf (execDbgStep c s) s else s
    if v.getLsbD 2 then stateOf (execDbgResume c s) s else s
  | 0x30 => s.updCore c fun x => { x with dbgAsid := (v.extractLsb' 0 16).toNat }
  | _ =>
    if 0x10 ≤ k && k < 0x30 then s.updCore c fun x => { x with dbgBp := x.dbgBp.set ((k - 0x10) / 8) (v &&& ~~~2) } else s

/-- A core's memory registers. -/
def State.writeCm (s : State) (c k : Nat) (v : Quad) : State :=
  let clear := fun (lo hi : Nat) => s.updCore c fun x =>
    let w := fun n => BitVec.ofNat 32 (x.cm.getD n 0)
    { x with cm := (x.cm.set lo (w1cLo (w lo) v).toNat).set hi (w1cHi (w hi) v).toNat }
  match k with
  | 0x08 => clear 0 1
  | 0x10 => clear 2 3
  | _ => s

/-- A range meets a reserved physical range (R11). -/
def inReserved (a n : Nat) : Bool :=
  overlaps a n 0x018000000000 0x008000000000 || 0x060000000000 < a + n

/-- ARF_WRITE (R207): discarded while VALID is 1, but for a write that clears VALID; a write that sets VALID needs a good range. -/
def State.writeArf (s : State) (n k : Nat) (v : Quad) : State :=
  let (base, len, fmt, scale) := s.arf.getD n (0, 0, 0, 0)
  let put := fun (r : Quad × Quad × Quad × Quad) => { s with arf := s.arf.set n r }
  let valid := base.getLsbD 0
  match k with
  | 0x00 =>
    let new := v &&& 0x1FFFFFFF0001
    if !v.getLsbD 0 then put (new, len, fmt, scale)
    else if valid then s
    else
      let a := (v.extractLsb' 16 29).toNat * 65536
      let bytes := (len.extractLsb' 0 29).toNat * 65536
      let elems := if fmt.getLsbD 0 then bytes * 2 else bytes
      let sc := (scale.extractLsb' 6 39).toNat * 64
      let scn := elems / if fmt.getLsbD 1 then 16 else 32
      if bytes = 0 || inReserved a bytes || inReserved sc scn || overlaps a bytes sc scn then s else put (new, len, fmt, scale)
  | 0x08 => if valid then s else put (base, v &&& 0x1FFFFFFF, fmt, scale)
  | 0x10 => if valid then s else put (base, len, v &&& 3, scale)
  | 0x18 => if valid then s else put (base, len, fmt, v &&& 0x1FFFFFFFFFC0)
  | _ => s

/-- ARF_WRITE: `off` is the offset from 0x0030_C000. -/
def execArfWrite (off : Nat) (v : Quad) (s : State) : Out :=
  .next (if off < 0x800 then s.writeArf (off / 0x20) (off % 0x20) v else s)

/-- Registers from 0x30_0000. -/
def State.writeHigh (s : State) (off : Nat) (v : Quad) : State :=
  let upd := fun (f : Pkg → Pkg) => if s.pkg.memInit then s else { s with pkg := f s.pkg }
  if 0x301000 ≤ off && off < 0x303000 then
    (if off % 0x20 = 0 && v.getLsbD 16 then s.updCtx ((off - 0x301000) / 0x20) fun c =>
      let (code, n, _, g) := c.fault; { c with fault := (code, n, false, g) } else s)
  else if off = 0x303000 then upd fun p => { p with saveBase := v &&& 0x1FFFFFE00000 }
  else if off = 0x303008 then upd fun p => { p with saveLen := v &&& 0xFFFFFF }
  else if 0x308000 ≤ off && off < 0x30C000 then
    (if off % 0x40 = 0 && v.getLsbD 0 then s.updCtx ((off - 0x308000) / 0x40) fun c => { c with ferrStat := c.ferrStat &&& ~~~1 } else s)
  else if 0x30C000 ≤ off && off < 0x30C800 then s.writeArf ((off - 0x30C000) / 0x20) (off % 0x20) v
  else if off = 0x310000 then upd fun p => { p with kvTbl := v &&& 0x1FFFFFFFF001 }
  else if off = 0x310008 then upd fun p => { p with pfxTbl := v &&& 0xFFFF1FFFFFFFF001 }
  else if off = 0x310010 then { s with kvAudit := (w1cLo s.kvAudit.1 v, w1cHi s.kvAudit.2 v) }
  else if off = 0x310018 then { s with pfxStat := (w1cLo s.pfxStat.1 v, w1cHi s.pfxStat.2 v) }
  else if 0x311000 ≤ off && off < 0x311800 then s.updCtx ((off - 0x311000) / 8) fun c => { c with kva := v &&& ~~~0x3E }
  else if 0x312000 ≤ off && off < 0x31A000 then { s with roundStall := s.roundStall.set ((off - 0x312000) / 8) (v.getLsbD 32) }
  else if 0x320000 ≤ off && off < 0x322400 && off % 16 = 0 then
    s.updCore ((off - 0x320000) / 16) fun c => { c with rndServed := w1cLo c.rndServed v, rndMissed := w1cHi c.rndMissed v }
  else s

/-- A write to package control space at an offset: a register with an event of its own takes that event's effect (R2). -/
def State.controlPut (s : State) (off : Nat) (v : Quad) : State :=
  if off < 0x400 then s.writePkg off v
  else if off < 0x4000 then s
  else if off < 0x8000 then s.writeHost off v
  else if off < 0x9800 then s.writeMig ((off - 0x8000) / 0x100) (off % 0x100) v
  else if 0x10000 ≤ off && off < 0x70000 then s.writeStack ((off - 0x10000) / 0x4000) (off % 0x4000) v
  else if 0x100000 ≤ off && off < 0x109000 then s.writeDbg ((off - 0x100000) / 0x40) (off % 0x40) v
  else if 0x200000 ≤ off && off < 0x209000 then s.writeCm ((off - 0x200000) / 0x40) (off % 0x40) v
  else if 0x300000 ≤ off then s.writeHigh off v
  else s

/-- REGISTER_WRITE (R2, R71): an aligned 64-bit write; any other is discarded. -/
def execRegisterWrite (off : Nat) (v : Quad) (s : State) : Out := .next (if off % 8 = 0 && off < 0x1000000 then s.controlPut off v else s)

/-- R71: what a host's read of `n` bytes of the control window returns: only aligned 64-bit reads are performed, and any other returns 0. -/
def State.hostRead (s : State) (off n : Nat) : Quad := if off % 8 = 0 && n = 8 && off < 0x1000000 then s.controlAt off else 0

/-- R71: the host writes bytes of the staging window, 8 MiB. -/
def State.stage (s : State) (off : Nat) (bytes : List Byte) : State :=
  { s with host := { s.host with staging := s.host.staging.putBytes off (bytes.take (0x800000 - off)) } }

/-- A read of control space by the Ozyth core (R398). -/
def State.ozRead (s : State) (va : Quad) : Quad × State := (s.controlAt (va.toNat - 0x0000F00000000000), s)

/-- A write of control space by the Ozyth core (R398). -/
def State.ozWrite (s : State) (va v : Quad) : State := s.controlPut (va.toNat - 0x0000F00000000000) v

/-! ### Fences to failing peers (R189, R190) -/

/-- The writes that a group waits for and that go to a package by a port, which is that of the die of the line's home (DESIGN CHOICE, log entry 33). -/
def State.lostOn (s : State) (gid peer port : Nat) : List Nat :=
  let g := s.group gid
  (g.stores ++ g.observed).eraseDups.filter fun n => !g.gaveUp.contains n &&
    ((s.stores.get? n).map fun st => st.peer == some peer && homeDie st.asid (st.va / 512) == port).getD false

/-- A group still waits for the acknowledgement of a write. -/
def Group.waitsFor (g : Group) (n : Nat) : Bool := (g.stores.contains n || g.observed.contains n) && !g.gaveUp.contains n

/-- A group loses a write: it may or may not have been performed at its peer, and its bytes there are free values.  Another group that waits for the
write goes on waiting (R189). -/
def State.loseWrite (s : State) (gid n : Nat) : State :=
  match s.stores.get? n with
  | some st =>
    let s : State := if s.groups.any fun e => e.2.gaveUp.contains n then s
      else { s with
        free := s.free + 1
        peerMem := s.peerMem.putBytes st.pa ((List.range st.len).map fun k => Config.undefByte s.free k) }
    let s := s.updGroup gid fun g => { g with gaveUp := g.gaveUp ++ [n] }
    if s.groups.any fun e => e.2.waitsFor n then s
    else ({ s with stores := s.stores.set n { st with peer := none } } : State).settleStore n
  | none => s

/-- Since when a group waits at a fence, or at a store with `.rel`, at domain or system scope (R189). -/
def Group.waitsFar (g : Group) : Option Nat :=
  match g.fence, g.relWait with
  | some f, _ => if 6 ≤ f.scope then some f.since else none
  | none, some (sc, t) => if 6 ≤ sc then some t else none
  | none, none => none

/-- R189: a link fails those who wait on it: it is down (status 1), or it still retrains 50 µs after the wait began (status 2). -/
def State.linkFails (s : State) (port since : Nat) : Option Nat :=
  let p := s.port port
  if p.down then some 1
  else if p.retrain && since + 50000 ≤ s.pkg.now then some 2
  else none

/-- FENCE_LINK_TIMEOUT (R189, R190): a fence, or a store with `.rel`, stops waiting for the writes of its group to a package on a failing link,
and they are lost.  A fence that waits for nothing else completes with the status of its first loss.  (In part DEDUCED, log entry 33.) -/
def execFenceLinkTimeout (gid peer port : Nat) (s : State) : Out :=
  let g := s.group gid
  let lost := s.lostOn gid peer port
  .next (match g.waitsFar.bind (s.linkFails port) with
    | none => s
    | some status =>
      if lost.isEmpty then s
      else
        let vas := lost.filterMap fun n => (s.stores.get? n).map fun st => (status, peer, st.va)
        let s := (lost.foldl (fun s n => s.loseWrite gid n) s).updGroup gid fun g => { g with lost := g.lost ++ vas }
        match g.fence with
        | some f => if (s.fenceAsks (s.group gid) f.scope).isNone then s.fenceDone gid f.scope else s
        | none => s)

/-- The links on which a group has writes to lose now: peer package and port (R189). -/
def State.failingLinks (s : State) (gid : Nat) : List (Nat × Nat) :=
  let g := s.group gid
  match g.waitsFar with
  | none => []
  | some since => ((g.stores ++ g.observed).filterMap fun n => (s.stores.get? n).bind fun st =>
      let port := homeDie st.asid (st.va / 512)
      if g.gaveUp.contains n || (s.linkFails port since).isNone then none else st.peer.map fun p => (p, port)).eraseDups

end Sys2Proof.Machine
end

