-- ==== Sys2Proof/Machine/Access.lean ====
section
/-! DEFINITION. Access: the loads, stores and atomics of majors 0x10 to 0x12 (R336 to R342, R398). -/

namespace Sys2Proof.Machine

/-- R336, R337, `ld.b`. -/
def execLdB (fin : Bool) (data off : BitVec 7) (lu : Bool) (base : BitVec 5) (s : State) : Out :=
  loadWord State.ozRead 1 1 false fin data off lu base s

/-- R336, R337, `ld.bs`. -/
def execLdBs (fin : Bool) (data off : BitVec 7) (lu : Bool) (base : BitVec 5) (s : State) : Out :=
  loadWord State.ozRead 1 1 true fin data off lu base s

/-- R336, R337, `ld.h`. -/
def execLdH (fin : Bool) (data off : BitVec 7) (lu : Bool) (base : BitVec 5) (s : State) : Out :=
  loadWord State.ozRead 2 1 false fin data off lu base s

/-- R336, R337, `ld.hs`. -/
def execLdHs (fin : Bool) (data off : BitVec 7) (lu : Bool) (base : BitVec 5) (s : State) : Out :=
  loadWord State.ozRead 2 1 true fin data off lu base s

/-- R336, R337, `ld.w`. -/
def execLdW (fin : Bool) (data off : BitVec 7) (lu : Bool) (base : BitVec 5) (s : State) : Out :=
  loadWord State.ozRead 4 1 false fin data off lu base s

/-- R336, R337, `ld.d`. -/
def execLdD (fin : Bool) (data off : BitVec 7) (lu : Bool) (base : BitVec 5) (s : State) : Out :=
  loadWord State.ozRead 8 2 false fin data off lu base s

/-- R336, R337, `ld.q`. -/
def execLdQ (fin : Bool) (data off : BitVec 7) (lu : Bool) (base : BitVec 5) (s : State) : Out :=
  loadWord State.ozRead 16 4 false fin data off lu base s

/-- R340, `st.b`. -/
def execStB (fin : Bool) (data off : BitVec 7) (lu : Bool) (base : BitVec 5) (s : State) : Out :=
  storeWord State.ozWrite 1 1 fin data off lu base s

/-- R340, `st.h`. -/
def execStH (fin : Bool) (data off : BitVec 7) (lu : Bool) (base : BitVec 5) (s : State) : Out :=
  storeWord State.ozWrite 2 1 fin data off lu base s

/-- R340, `st.w`. -/
def execStW (fin : Bool) (data off : BitVec 7) (lu : Bool) (base : BitVec 5) (s : State) : Out :=
  storeWord State.ozWrite 4 1 fin data off lu base s

/-- R340, `st.d`. -/
def execStD (fin : Bool) (data off : BitVec 7) (lu : Bool) (base : BitVec 5) (s : State) : Out :=
  storeWord State.ozWrite 8 2 fin data off lu base s

/-- R340, `st.q`. -/
def execStQ (fin : Bool) (data off : BitVec 7) (lu : Bool) (base : BitVec 5) (s : State) : Out :=
  storeWord State.ozWrite 16 4 fin data off lu base s

/-- R341, R342, `atom.add`. -/
def execAtomAdd (fin : Bool) (data off : BitVec 7) (lu : Bool) (base : BitVec 5) (ret uns : Bool) (s : State) : Out :=
  atomWord 0 ret uns fin data off lu base s

/-- R341, R342, `atom.fadd`. -/
def execAtomFadd (fin : Bool) (data off : BitVec 7) (lu : Bool) (base : BitVec 5) (ret : Bool) (s : State) : Out :=
  atomWord 1 ret false fin data off lu base s

/-- R341, R342, `atom.min`. -/
def execAtomMin (fin : Bool) (data off : BitVec 7) (lu : Bool) (base : BitVec 5) (ret uns : Bool) (s : State) : Out :=
  atomWord 2 ret uns fin data off lu base s

/-- R341, R342, `atom.max`. -/
def execAtomMax (fin : Bool) (data off : BitVec 7) (lu : Bool) (base : BitVec 5) (ret uns : Bool) (s : State) : Out :=
  atomWord 3 ret uns fin data off lu base s

/-- R341, R342, `atom.and`. -/
def execAtomAnd (fin : Bool) (data off : BitVec 7) (lu : Bool) (base : BitVec 5) (ret uns : Bool) (s : State) : Out :=
  atomWord 4 ret uns fin data off lu base s

/-- R341, R342, `atom.or`. -/
def execAtomOr (fin : Bool) (data off : BitVec 7) (lu : Bool) (base : BitVec 5) (ret uns : Bool) (s : State) : Out :=
  atomWord 5 ret uns fin data off lu base s

/-- R341, R342, `atom.xor`. -/
def execAtomXor (fin : Bool) (data off : BitVec 7) (lu : Bool) (base : BitVec 5) (ret uns : Bool) (s : State) : Out :=
  atomWord 6 ret uns fin data off lu base s

/-- R341, R342, `atom.xchg`. -/
def execAtomXchg (fin : Bool) (data off : BitVec 7) (lu : Bool) (base : BitVec 5) (ret uns : Bool) (s : State) : Out :=
  atomWord 7 ret uns fin data off lu base s

/-- R341, R342, `atom.cas`. -/
def execAtomCas (fin : Bool) (data off : BitVec 7) (lu : Bool) (base : BitVec 5) (uns : Bool) (s : State) : Out :=
  atomWord 8 true uns fin data off lu base s

end Sys2Proof.Machine
end

