-- ==== Sys2Proof/Machine/Branch.lean ====
section
/-! DEFINITION. Branches, jumps, join and exit: majors 0x0E and 0x0F (R116 to R118, R130, R298 to R302).  Every one is a control
word and ends its run (R119). -/

namespace Sys2Proof.Machine

/-- Send the lanes of E on: each to its target, or past the word. -/
def Group.go (g : Group) (target : Nat → Quad) : Group :=
  { g with
    pcs := (lanesOf g.e).foldl (fun t l => t.set l (target l)) g.pcs
    arrived := g.arrived &&& ~~~g.e }

/-- A direct branch that each lane takes or not (R298). -/
def branchWord (w : WordInfo) (taken : Group → Nat → Bool) (target : Group → Quad) : State → Out :=
  issue { w with ctl := true } fun s =>
    let g := s.grp
    .did (s.setGrp (g.go fun l => if taken g l then target g else g.a + 4)) [] true

/-- R298, `br`. -/
def execBr (fin : Bool) (off : BitVec 20) (s : State) : Out :=
  branchWord { fin } (fun _ _ => true) (targetB · off) s

/-- R298, `brp`. -/
def execBrp (fin : Bool) (p : BitVec 3) (off : BitVec 20) (s : State) : Out :=
  branchWord { fin } (fun g l => g.readP p.toNat l) (targetB · off) s

/-- R298, `brnp`. -/
def execBrnp (fin : Bool) (p : BitVec 3) (off : BitVec 20) (s : State) : Out :=
  branchWord { fin } (fun g l => !g.readP p.toNat l) (targetB · off) s

/-- A scalar branch: one decision for the pass (R298). -/
def scalarBranch (fin : Bool) (func : Nat) (a b : BitVec 6) (off : BitVec 11) : State → Out :=
  branchWord (infoS fin [a, b]) (fun g _ => sbHolds func (g.readS a.toNat) (g.readS b.toNat)) (targetBS · off)

/-- R298, `sbeq`. -/
def execSbeq (fin : Bool) (a b : BitVec 6) (off : BitVec 11) (s : State) : Out := scalarBranch fin 3 a b off s
/-- R298, `sbne`. -/
def execSbne (fin : Bool) (a b : BitVec 6) (off : BitVec 11) (s : State) : Out := scalarBranch fin 4 a b off s
/-- R298, `sblt`. -/
def execSblt (fin : Bool) (a b : BitVec 6) (off : BitVec 11) (s : State) : Out := scalarBranch fin 5 a b off s
/-- R298, `sbge`. -/
def execSbge (fin : Bool) (a b : BitVec 6) (off : BitVec 11) (s : State) : Out := scalarBranch fin 6 a b off s

/-- An indirect transfer (R300): a target that is not a multiple of 4 faults in its lane; the others go, and owe the `land` check
at their target (R130).  `link` writes v0. -/
def indirectWord (fin : Bool) (a : BitVec 7) (la link : Bool) : State → Out :=
  issue { fin, vr := [a.toNat], vw := if link then [0] else [], frees := freeIf la a.toNat, ctl := true } fun s =>
    let g := s.grp
    let bad := (lanesOf g.e).filter fun l => (targetV g a.toNat l).toNat % 4 != 0
    let good := (lanesOf g.e).filter fun l => !bad.contains l
    let g' := if link then g.writeLanes 0 (fun _ => linkOf g) good else g
    .did (s.setGrp { g' with
        pcs := good.foldl (fun t l => t.set l (targetV g a.toNat l)) g.pcs
        arrived := g.arrived ||| maskOf good })
      (bad.map fun l => ⟨l, fJumpAlign, targetV g a.toNat l, false⟩) true

/-- R300, `jr`. -/
def execJr (fin : Bool) (a : BitVec 7) (la : Bool) (s : State) : Out := indirectWord fin a la false s

/-- R300, `call`: v0 takes the link, and the branch is direct. -/
def execCall (fin : Bool) (off : BitVec 20) (s : State) : Out :=
  issue { fin, vw := [0], ctl := true } (fun s =>
    let g := s.grp
    .did (s.setGrp ((g.writeLanes 0 (fun _ => linkOf g) (lanesOf g.e)).go fun _ => targetB g off)) [] true) s

/-- R300, `callr`. -/
def execCallr (fin : Bool) (a : BitVec 7) (la : Bool) (s : State) : Out := indirectWord fin a la true s

/-- R300, `ret`. -/
def execRet (fin : Bool) (a : BitVec 7) (la : Bool) (s : State) : Out := indirectWord fin a la false s

/-- What follows a word that is no ordinary step for its lanes: the state it leaves, settled. -/
def settled (o : Out) : Out :=
  match o with
  | .next s => .next s.settleJoin
  | .fault r => .fault r
  | .refused r => .refused r

/-- R116, `join`. -/
def execJoin (fin : Bool) (s : State) : Out :=
  settled (issue { fin, waits := true, ctl := true } (fun s =>
    .did (s.updGrp fun g => { g with joined := g.joined ||| g.e, arrived := g.arrived &&& ~~~g.e, e := 0 }) [] true) s)

/-- R118, `exit`: the group's last lane takes it out of its barriers and, when its commands have completed, ends it. -/
def execExit (fin : Bool) (s : State) : Out :=
  match settled (issue { fin, waits := true, ctl := true } (fun s => .did s.exitLanes [] true) s) with
  | .next t => .next (t.groupExit t.cur)
  | .fault r => .fault r
  | .refused r => .refused r

end Sys2Proof.Machine
end

