-- ==== Sys2Proof/Machine/CompareConvert.lean ====
section
/-! DEFINITION. Compares, predicate logic and conversions: majors 0x06 and 0x07 (R320 to R324). -/

namespace Sys2Proof.Machine

/-- R320, `icmp`. -/
def execIcmp (fin : Bool) (p cond : BitVec 3) (x la lb : Bool) (a b : BitVec 7) (s : State) : Out :=
  predWord { fin, vr := [a.toNat, b.toNat], frees := freeIf la a.toNat ++ freeIf lb b.toNat } p
    (fun g l => icmpHolds cond.toNat x (g.readV a.toNat l) (g.readV b.toNat l)) s

/-- R320, `fcmp`. -/
def execFcmp (fin : Bool) (p cond : BitVec 3) (x la lb : Bool) (a b : BitVec 7) (s : State) : Out :=
  predWord { fin, vr := [a.toNat, b.toNat], frees := freeIf la a.toNat ++ freeIf lb b.toNat } p
    (fun g l => fcmpHolds cond.toNat x (g.readV a.toNat l) (g.readV b.toNat l)) s

/-- R321, `pand`. -/
def execPand (fin : Bool) (d a b : BitVec 3) (s : State) : Out :=
  predWord { fin } d (fun g l => g.readP a.toNat l && g.readP b.toNat l) s

/-- R321, `por`. -/
def execPor (fin : Bool) (d a b : BitVec 3) (s : State) : Out :=
  predWord { fin } d (fun g l => g.readP a.toNat l || g.readP b.toNat l) s

/-- R321, `pxor`. -/
def execPxor (fin : Bool) (d a b : BitVec 3) (s : State) : Out :=
  predWord { fin } d (fun g l => g.readP a.toNat l != g.readP b.toNat l) s

/-- R321, `pnot`. -/
def execPnot (fin : Bool) (d a : BitVec 3) (s : State) : Out :=
  predWord { fin } d (fun g l => !g.readP a.toNat l) s

/-- R322, `cvt`. -/
def execCvt (fin : Bool) (rm : BitVec 2) (la : Bool) (td ta : BitVec 4) (d a : BitVec 7) (s : State) : Out :=
  vecUn fin la d a (fun x => convert rm.toNat td.toNat ta.toNat x) s

/-- A format register of the issuing group's team; the Ozyth core always reads the reset value (R314). -/
def State.fmtReg (s : State) (n : Nat) : Narrow :=
  Narrow.ofQuad (if s.grp.oz then fmtReset else s.myTeam.fmt.getD n fmtReset)

/-- R323, `cvtn`: into the narrow format of the team's format register. -/
def execCvtn (fin la : Bool) (fmt : BitVec 4) (rm : BitVec 2) (d a : BitVec 7) (s : State) : Out :=
  vecUn fin la d a (fun x => toWord ((s.fmtReg fmt.toNat).encode rm.toNat (Fmt.fp32.decode x.toNat))) s

/-- R324, `cvtw`: the value of a code, rounded to FP32. -/
def execCvtw (fin la : Bool) (fmt : BitVec 4) (d a : BitVec 7) (s : State) : Out :=
  vecUn fin la d a (fun x => toWord (Fmt.fp32.rne ((s.fmtReg fmt.toNat).decode (x.toNat % 2 ^ (s.fmtReg fmt.toNat).w)))) s

end Sys2Proof.Machine
end

