-- ==== Sys2Proof/Machine/CrossLane.lean ====
section
/-! DEFINITION. Cross-lane words: major 0x0A (R126, R127, R328 to R332). -/

namespace Sys2Proof.Machine

/-- The sub-group of lane l for width w. -/
def subLanes (w l : Nat) : List Nat := (List.range w).map fun k => l / w * w + k

/-- R127: the sub-group of lane l has no absent member, or the word carries `.part`. -/
def completes (g : Group) (part : Bool) (w l : Nat) : Bool := part || (subLanes w l).all fun m => g.e.getLsbD m

/-- The lanes of E that take the member-absent fault. -/
def absentFaults (g : Group) (part : Bool) (w : Nat) : List LaneFault :=
  ((lanesOf g.e).filter fun l => !completes g part w l).map fun l => ⟨l, fMember, 0, false⟩

/-- The lanes of E whose sub-group completes. -/
def doneLanes (g : Group) (part : Bool) (w : Nat) : List Nat := (lanesOf g.e).filter fun l => completes g part w l

/-- Member m's value: 0 when it is absent (R328). -/
def member (g : Group) (a m : Nat) : Word := if g.e.getLsbD m then g.readV a m else 0

/-- A cross-lane word with a vector destination written with fixed latency. -/
def laneWord (fin part : Bool) (gr : BitVec 3) (d a : BitVec 7) (la : Bool) (src : Group → Nat → Nat → Nat) (s : State) : Out :=
  let g := s.grp
  let xb := hmXB g
  let w : WordInfo := {
    fin, vr := [a.toNat, xb], vw := [d.toNat], frees := freeIf la a.toNat ++ freeIf (hmLB g) xb, hm := hmLaneOk }
  issue w (fun s =>
    let g := s.grp
    let wd := g.subWidth gr.toNat
    .did (s.setGrp (g.writeLanes d.toNat (fun l => member g a.toNat (src g wd l)) (doneLanes g part wd)))
      (absentFaults g part wd) false) s

/-- R329, `shfl.idx`. -/
def execShflIdx (fin part : Bool) (g : BitVec 3) (d a : BitVec 7) (la : Bool) (s : State) : Out :=
  laneWord fin part g d a la (fun g w l => l / w * w + (g.readV (hmXB g) l).toNat % 16 % w) s

/-- R329, `shfl.up`. -/
def execShflUp (fin part : Bool) (g : BitVec 3) (d a : BitVec 7) (la : Bool) (s : State) : Out :=
  laneWord fin part g d a la (fun g w l =>
    let δ := (g.readV (hmXB g) l).toNat % 32
    if l < l / w * w + δ then l else l - δ) s

/-- R329, `shfl.dn`. -/
def execShflDn (fin part : Bool) (g : BitVec 3) (d a : BitVec 7) (la : Bool) (s : State) : Out :=
  laneWord fin part g d a la (fun g w l =>
    let δ := (g.readV (hmXB g) l).toNat % 32
    if l / w * w + w ≤ l + δ then l else l + δ) s

/-- R329, `shfl.xor`. -/
def execShflXor (fin part : Bool) (g : BitVec 3) (d a : BitVec 7) (la : Bool) (s : State) : Out :=
  laneWord fin part g d a la (fun g w l => l / w * w + ((l % w) ^^^ ((g.readV (hmXB g) l).toNat % 16 % w))) s

/-- R329, `bcast`: the lowest lane of E in the sub-group names the source. -/
def execBcast (fin part : Bool) (g : BitVec 3) (d a : BitVec 7) (la : Bool) (s : State) : Out :=
  laneWord fin part g d a la (fun g w l =>
    let m0 := ((subLanes w l).find? fun m => g.e.getLsbD m).getD l
    l / w * w + (g.readV (hmXB g) m0).toNat % 16 % w) s

/-- R330, `vmask`: not written when every lane of E faults. -/
def execVmask (fin part : Bool) (gr : BitVec 3) (d : BitVec 6) (a : BitVec 3) (s : State) : Out :=
  issue (infoS fin [d]) (fun s =>
    let g := s.grp
    let wd := g.subWidth gr.toNat
    let done := doneLanes g part wd
    .did (if done.isEmpty then s
          else s.setGrp (g.writeS d.toNat ((maskOf (done.filter fun l => g.readP a.toNat l)).setWidth 64)))
      (absentFaults g part wd) false) s

/-- A word that writes a predicate from all members of the sub-group. -/
def voteWord (fin part : Bool) (gr d a : BitVec 3) (f : List Bool → Bool) (s : State) : Out :=
  issue { fin } (fun s =>
    let g := s.grp
    let wd := g.subWidth gr.toNat
    let vote := fun l => f ((subLanes wd l).map fun m => g.e.getLsbD m && g.readP a.toNat m)
    let done := doneLanes g part wd
    .did (s.setGrp (g.writeP d.toNat (maskOf done) (maskOf (done.filter vote)))) (absentFaults g part wd) false) s

/-- R330, `vany`. -/
def execVany (fin part : Bool) (g d a : BitVec 3) (s : State) : Out := voteWord fin part g d a (·.any id) s

/-- R330, `vall`. -/
def execVall (fin part : Bool) (g d a : BitVec 3) (s : State) : Out := voteWord fin part g d a (·.all id) s

/-- Op of R331 for addition. -/
def laneAdd (t : Nat) (x y : Word) : Word := if t = 2 then toWord (Fmt.fp32.fadd x.toNat y.toNat) else x + y

/-- Op of R331 for the maximum. -/
def laneMax (t : Nat) (x y : Word) : Word :=
  match t with
  | 0 => if x.sle y then y else x
  | 1 => if x.ule y then y else x
  | _ => toWord (Fmt.fp32.minMax false x.toNat y.toNat)

/-- R331: the members from the sub-group's base up to lane `last`, taken in ascending order. -/
def foldMembers (op : Word → Word → Word) (g : Group) (a base last : Nat) : Word :=
  (List.range (last - base)).foldl (fun acc k => op acc (member g a (base + 1 + k))) (member g a base)

/-- A long-latency word over the members of each sub-group. -/
def reduceWord (fin part : Bool) (gr : BitVec 3) (d a : BitVec 7) (la : Bool) (op : Word → Word → Word)
    (last : Nat → Nat → Nat) (s : State) : Out :=
  issue (infoU fin la d a) (fun s =>
    let g := s.grp
    let wd := g.subWidth gr.toNat
    let vals := (doneLanes g part wd).map fun l => (l, foldMembers op g a.toNat (l / wd * wd) (last wd l))
    .did (s.setGrp (g.addPending (.lanes d.toNat vals))) (absentFaults g part wd) false) s

/-- R331, `scan.add`. -/
def execScanAdd (fin part : Bool) (g : BitVec 3) (d a : BitVec 7) (la : Bool) (t : BitVec 3) (s : State) : Out :=
  reduceWord fin part g d a la (laneAdd t.toNat) (fun _ l => l) s

/-- R331, `red.add`. -/
def execRedAdd (fin part : Bool) (g : BitVec 3) (d a : BitVec 7) (la : Bool) (t : BitVec 3) (s : State) : Out :=
  reduceWord fin part g d a la (laneAdd t.toNat) (fun w l => l / w * w + w - 1) s

/-- R331, `red.max`. -/
def execRedMax (fin part : Bool) (g : BitVec 3) (d a : BitVec 7) (la : Bool) (t : BitVec 3) (s : State) : Out :=
  reduceWord fin part g d a la (laneMax t.toNat) (fun w l => l / w * w + w - 1) s

/-- R332, `part`: WIDTH of a group register, once per pass. -/
def execPart (fin : Bool) (gr w : BitVec 3) (s : State) : Out :=
  issueOk { fin } (fun s => s.updGrp fun g => { g with g := g.g.set gr.toNat w.toNat }) s

end Sys2Proof.Machine
end

