-- ==== Sys2Proof/Machine/Hints.lean ====
section
/-! DEFINITION. Hint words: major 0x1F (R280 to R284, R312), and the word that is not an instruction (R294). -/

namespace Sys2Proof.Machine

/-- A standalone hint accepts no prefix hint (R281). -/
def standalone (fin : Bool) (eff : Group → Group) : State → Out := issueOk { fin } (·.updGrp eff)

/-- R284, `nop`. -/
def execNop (fin : Bool) (s : State) : Out := standalone fin id s

/-- R115, R284, `land`: the merge belongs to the opening of the run. -/
def execLand (fin : Bool) (s : State) : Out := standalone fin id s

/-- R312, `hs`. -/
def execHs (fin : Bool) (_h : BitVec 22) (s : State) : Out := standalone fin id s

/-- R283, `trail`: a second one in a run is illegal. -/
def execTrail (fin : Bool) (c b a : BitVec 7) (s : State) : Out :=
  let named := (([a, b, c] : List (BitVec 7)).map BitVec.toNat).filter (· != 127)
  issue { fin, names := named } (fun s =>
    if s.grp.trail.isSome then .did s (s.grp.faultAll fIllegal 0) false
    else .did (s.updGrp fun g => { g with trail := some named }) [] false) s

/-- A prefix hint attaches to the next word; it stands in the order `hx`, `hm`, `hg`, each at most once (R281).  It is legal
when no later hint is attached; its other attached hints stay. -/
def prefixHint (allowed : Group → Bool) (attach : Group → Group) (s : State) : Out :=
  let g := s.grp
  if !allowed g then .next (if g.fence.isSome then s else s.finish { fin := false } (g.faultAll fIllegal 0) false)
  else if 24 ≤ g.runLen then .next (if g.fence.isSome then s else s.finish { fin := false } (g.faultAll fRunLength 0) false)
  else .next (s.updGrp fun g => (attach (g.advance [])).countWord.onward false)

/-- R279, R281, `hx`. -/
def execHx (h : BitVec 22) (s : State) : Out :=
  prefixHint (fun g => g.hx.isNone && g.hm.isNone && g.hg.isNone) (fun g => { g with hx := some h }) s

/-- R281, R282, `hm`. -/
def execHm (h : BitVec 22) (s : State) : Out :=
  prefixHint (fun g => g.hm.isNone && g.hg.isNone) (fun g => { g with hm := some h }) s

/-- R281, R282, `hg`. -/
def execHg (outv in1v in0v : Bool) (in1 in0 : BitVec 8) (s : State) : Out :=
  prefixHint (fun g => g.hg.isNone)
    (fun g => { g with hg := some ((0 : BitVec 3) ++ BitVec.ofBool outv ++ BitVec.ofBool in1v ++ BitVec.ofBool in0v ++ in1 ++ in0) }) s

/-- R294: the issue of a word that is not an instruction raises the illegal-instruction fault, after an incomplete fence (R184). -/
def execReservedEncoding (_w : Word) (s : State) : Out :=
  .next (if s.grp.fence.isSome then s else s.finish { fin := false } (s.grp.faultAll fIllegal 0) false)

end Sys2Proof.Machine
end

