-- ==== Sys2Proof/Machine/Moves.lean ====
section
/-! DEFINITION. Moves: major 0x0B but for the queue pop (R305, R306). -/

namespace Sys2Proof.Machine

/-- R305, `sel`: vA where p_C is 1, otherwise vB. -/
def execSel (fin : Bool) (d a b : BitVec 7) (p : BitVec 3) (la : Bool) (s : State) : Out :=
  vecWord (infoA fin la false d a b) d (fun g l => if g.readP p.toNat l then g.readV a.toNat l else g.readV b.toNat l) s

/-- R305, `mov vD, vA`. -/
def execMovV (fin : Bool) (x y : BitVec 7) (la : Bool) (s : State) : Out := vecUn fin la x y (fun a => a) s

/-- R306, `mov sD, sA`. -/
def execMovS (fin : Bool) (x y : BitVec 6) (s : State) : Out :=
  scalarWord (infoS fin [x, y]) x (fun g => g.readS y.toNat) s

/-- R305, `pmov`. -/
def execPmov (fin : Bool) (x y : BitVec 3) (s : State) : Out := predWord { fin } x (fun g l => g.readP y.toNat l) s

/-- R306, `vtos`: lane LANE whatever its state; a last use frees the register in every lane. -/
def execVtos (fin : Bool) (x : BitVec 6) (y : BitVec 7) (la : Bool) (lane : BitVec 4) (s : State) : Out :=
  scalarWord { fin, vr := [y.toNat], sn := [x.toNat], frees := freeIf la y.toNat, freesAll := true } x
    (fun g => (g.readV y.toNat lane.toNat).setWidth 64) s

/-- R305, `stov`. -/
def execStov (fin : Bool) (x : BitVec 7) (y : BitVec 6) (s : State) : Out :=
  vecWord { fin, vw := [x.toNat], sn := [y.toNat] } x
    (fun g _ => (g.readS y.toNat).setWidth 32) s

/-- The bits of a word from bit 0 upwards. -/
def wordBits (a : Word) : List Bool := (List.range 32).map a.getLsbD

/-- Leading zero bits; 32 for zero (R305). -/
def clz32 (a : Word) : Nat := if a = 0 then 32 else 31 - Nat.log2 a.toNat

/-- R305, `clz`. -/
def execClz (fin : Bool) (x y : BitVec 7) (la : Bool) (s : State) : Out := vecUn fin la x y (fun a => toWord (clz32 a)) s

/-- R305, `popc`. -/
def execPopc (fin : Bool) (x y : BitVec 7) (la : Bool) (s : State) : Out :=
  vecUn fin la x y (fun a => toWord ((wordBits a).count true)) s

/-- R305, `brev`: bit i takes bit 31 − i. -/
def execBrev (fin : Bool) (x y : BitVec 7) (la : Bool) (s : State) : Out := vecUn fin la x y BitVec.reverse s

/-- R305, `lid`: the lane number. -/
def execLid (fin : Bool) (x : BitVec 7) (s : State) : Out :=
  vecWord { fin, vw := [x.toNat] } x (fun _ l => toWord l) s

end Sys2Proof.Machine
end

