-- ==== Sys2Proof/Machine/Scalar.lean ====
section
/-! DEFINITION. Scalar arithmetic: majors 0x0C and 0x0D (R303, R304). -/

namespace Sys2Proof.Machine

/-- R303, `sadd`. -/
def execSadd (fin : Bool) (d a b : BitVec 6) (s : State) : Out :=
  scalarWord (infoS fin [d, a, b]) d (fun g => (fun x y : Quad => x + y) (g.readS a.toNat) (g.readS b.toNat)) s

/-- R303, `ssub`. -/
def execSsub (fin : Bool) (d a b : BitVec 6) (s : State) : Out :=
  scalarWord (infoS fin [d, a, b]) d (fun g => (fun x y : Quad => x - y) (g.readS a.toNat) (g.readS b.toNat)) s

/-- R303, `sand`. -/
def execSand (fin : Bool) (d a b : BitVec 6) (s : State) : Out :=
  scalarWord (infoS fin [d, a, b]) d (fun g => (fun x y : Quad => x &&& y) (g.readS a.toNat) (g.readS b.toNat)) s

/-- R303, `sor`. -/
def execSor (fin : Bool) (d a b : BitVec 6) (s : State) : Out :=
  scalarWord (infoS fin [d, a, b]) d (fun g => (fun x y : Quad => x ||| y) (g.readS a.toNat) (g.readS b.toNat)) s

/-- R303, `sxor`. -/
def execSxor (fin : Bool) (d a b : BitVec 6) (s : State) : Out :=
  scalarWord (infoS fin [d, a, b]) d (fun g => (fun x y : Quad => x ^^^ y) (g.readS a.toNat) (g.readS b.toNat)) s

/-- R303, `sshl`. -/
def execSshl (fin : Bool) (d a b : BitVec 6) (s : State) : Out :=
  scalarWord (infoS fin [d, a, b]) d (fun g => (fun x y : Quad => x <<< (y.toNat % 64)) (g.readS a.toNat) (g.readS b.toNat)) s

/-- R303, `sshr`. -/
def execSshr (fin : Bool) (d a b : BitVec 6) (s : State) : Out :=
  scalarWord (infoS fin [d, a, b]) d (fun g => (fun x y : Quad => x >>> (y.toNat % 64)) (g.readS a.toNat) (g.readS b.toNat)) s

/-- R303, `smul`. -/
def execSmul (fin : Bool) (d a b : BitVec 6) (s : State) : Out :=
  scalarWord (infoS fin [d, a, b]) d (fun g => (fun x y : Quad => x * y) (g.readS a.toNat) (g.readS b.toNat)) s

/-- R304, `saddi`. -/
def execSaddi (fin : Bool) (d a : BitVec 6) (i : BitVec 11) (s : State) : Out :=
  scalarWord (infoS fin [d, a] true) d (fun g => (fun x i : Quad => x + i) (g.readS a.toNat) (scalarImm g i)) s

/-- R304, `sandi`. -/
def execSandi (fin : Bool) (d a : BitVec 6) (i : BitVec 11) (s : State) : Out :=
  scalarWord (infoS fin [d, a] true) d (fun g => (fun x i : Quad => x &&& i) (g.readS a.toNat) (scalarImm g i)) s

/-- R304, `sori`. -/
def execSori (fin : Bool) (d a : BitVec 6) (i : BitVec 11) (s : State) : Out :=
  scalarWord (infoS fin [d, a] true) d (fun g => (fun x i : Quad => x ||| i) (g.readS a.toNat) (scalarImm g i)) s

/-- R304, `sxori`. -/
def execSxori (fin : Bool) (d a : BitVec 6) (i : BitVec 11) (s : State) : Out :=
  scalarWord (infoS fin [d, a] true) d (fun g => (fun x i : Quad => x ^^^ i) (g.readS a.toNat) (scalarImm g i)) s

/-- R304, `sshli` by 0 to 63. -/
def execSshli (fin : Bool) (d a n : BitVec 6) (s : State) : Out :=
  scalarWord (infoS fin [d, a]) d (fun g => g.readS a.toNat <<< n.toNat) s

/-- R304, `sshri` by 0 to 63. -/
def execSshri (fin : Bool) (d a n : BitVec 6) (s : State) : Out :=
  scalarWord (infoS fin [d, a]) d (fun g => g.readS a.toNat >>> n.toNat) s

/-- R304, `smovi`. -/
def execSmovi (fin : Bool) (d : BitVec 6) (i : BitVec 11) (s : State) : Out :=
  scalarWord (infoS fin [d] true) d (fun g => scalarImm g i) s

end Sys2Proof.Machine
end

