-- ==== Sys2Proof/Machine/Approx.lean ====
section
/-! DEFINITION. Approx: the exact results of `exp2`, `log2`, `sin`, `cos` and `tanh` held between fixed-point numbers, and the FP32 values
that the error bounds of Table 19.11 allow around them (R325, R326; log entry 6). -/

namespace Sys2Proof

/-- Fraction bits of the fixed-point numbers of this file. -/
def fixBits : Nat := 320

/-- What the sums of this file may be wrong by, in units of the last place: many times the number of their terms. -/
def fixSlack : Int := 2 ^ 16

/-- The value of a number as a fixed-point number, cut off. -/
def toFix (m : Nat) (e : Int) : Nat := if 0 ≤ e + fixBits then m * 2 ^ (e + fixBits).toNat else m / 2 ^ (-(e + fixBits)).toNat

/-- A sum of terms each of which is the one before times `num`, over `den` and over (`k` + 1)(`k` + 2), with alternating signs: the Taylor
sums of sine and cosine. -/
def alternating : Nat → (k : Nat) → (x2 term acc : Int) → Int
  | 0, _, _, _, acc => acc
  | n + 1, k, x2, term, acc =>
    alternating n (k + 2) x2 (-(term * x2 / 2 ^ fixBits / (((k + 1) * (k + 2) : Nat) : Int))) (acc + term)

/-- The Taylor sum of the exponential. -/
def expSum : Nat → (k : Nat) → (x term acc : Int) → Int
  | 0, _, _, _, acc => acc
  | n + 1, k, x, term, acc => expSum n (k + 1) x (term * x / 2 ^ fixBits / ((k + 1 : Nat) : Int)) (acc + term)

/-- The arc tangent of 1/q: Σ (−1)^k / ((2k + 1) q^(2k+1)). -/
def atanInv (q : Nat) : Nat → (k pow : Nat) → (acc : Int) → Int
  | 0, _, _, acc => acc
  | n + 1, k, pow, acc =>
    let t : Int := (pow / (2 * k + 1) : Nat)
    atanInv q n (k + 1) (pow / (q * q)) (if k % 2 = 0 then acc + t else acc - t)

/-- π, from 16 atan(1/5) − 4 atan(1/239), in fixed point with `fixBits` + 160 bits of fraction. -/
def piFix : Nat :=
  (16 * atanInv 5 110 0 (2 ^ (fixBits + 160) / 5) 0 - 4 * atanInv 239 40 0 (2 ^ (fixBits + 160) / 239) 0).toNat

/-- A magnitude less the multiples of 2π in it, in fixed point: the reduction is exact to far below the bound for every finite FP32
value. -/
def reduceAngle (m : Nat) (e : Int) : Nat :=
  let x := toFix m (e + 160)
  x % (2 * piFix) / 2 ^ 160

/-- sin of a magnitude, in fixed point. -/
def sinFix (m : Nat) (e : Int) : Int :=
  let r : Int := reduceAngle m e
  alternating 60 1 (r * r / 2 ^ fixBits) r 0

/-- cos of a magnitude, in fixed point. -/
def cosFix (m : Nat) (e : Int) : Int :=
  let r : Int := reduceAngle m e
  alternating 60 0 (r * r / 2 ^ fixBits) (2 ^ fixBits) 0

/-- tanh of a magnitude below 32, in fixed point: (E − 1) ÷ (E + 1) with E the exponential of its double; E is the 2^8th power of the
exponential of a small number. -/
def tanhFix (m : Nat) (e : Int) : Int :=
  let small := expSum 60 0 ((toFix m (e + 1) : Int) / 2 ^ 8) (2 ^ fixBits) 0
  let big := (List.range 8).foldl (fun (y : Int) _ => y * y / 2 ^ fixBits) small
  (big - 2 ^ fixBits) * 2 ^ fixBits / (big + 2 ^ fixBits)

/-- The whole parts of bounds of tanh of a magnitude below 2^−40, which is itself a fixed-point number: x − x³/3 and x − x³/3 + 2x⁵/15. -/
def tanhSmall (h : Nat) : Nat × Nat :=
  let down := fun (num den : Nat) => h - (num + den - 1) / den
  (down (h ^ 3) (3 * 2 ^ (2 * fixBits)), down (5 * h ^ 3 * 2 ^ (2 * fixBits) - 2 * h ^ 5) (15 * 2 ^ (4 * fixBits)))

/-- One unit in the last place at a magnitude in fixed point: the spacing of FP32 values there, 2^−149 in the subnormal range. -/
def ulpFix (v : Nat) : Nat :=
  let top : Int := (Nat.log2 v : Nat) - (fixBits : Int)
  2 ^ (max (top - 23) (-149) + fixBits).toNat

/-- The FP32 patterns nearest to the ends of a range of fixed-point numbers, inside it. -/
def fixRange (lo hi : Int) : Nat × Nat :=
  (Fmt.fp32.round 2 false (Num.ofInt lo (-(fixBits : Int)) (decide (lo < 0))), Fmt.fp32.round 3 false (Num.ofInt hi (-(fixBits : Int)) false))

/-- The results that an absolute bound of 2^−22 allows around a value. -/
def withinAbs (v : Int) : Nat × Nat := fixRange (v - 2 ^ (fixBits - 22) - fixSlack) (v + 2 ^ (fixBits - 22) + fixSlack)

/-- The results that a bound of 2 ulp allows around a value held between two numbers of one sign. -/
def withinUlps (lo hi : Int) : Nat × Nat := fixRange (lo - 2 * ulpFix lo.natAbs) (hi + 2 * ulpFix hi.natAbs)

/-- The results that a bound of n ulp allows around a value that is no fixed-point number and lies between the whole parts `lo` and `hi` + 1. -/
def aroundFloor (n lo hi : Nat) : Nat × Nat := fixRange (lo + 1 - (n * ulpFix lo : Nat)) (hi + n * ulpFix hi)

/-- The results of `rsq` within 1 ulp for m × 2^e: the root of the reciprocal, cut off, and whether that is exact. -/
def rsqRange (m : Nat) (e : Int) : Nat × Nat :=
  let n := 2 ^ (2 * (fixBits : Int) - e).toNat
  let r := isqrt (n / m)
  if n % m = 0 ∧ r * r = n / m then fixRange ((r : Int) - ulpFix r) (r + ulpFix r) else aroundFloor 1 r r

/-- The results of `exp2` within 2 ulp for (−1)^neg × m × 2^e, not an integer, at most 2^8 in magnitude. -/
def exp2Range (neg : Bool) (m : Nat) (e : Int) : Nat × Nat :=
  let q := (-e).toNat
  let n : Int := if neg then -(m : Int) else m
  let k := n / 2 ^ q
  let f := (n % 2 ^ q).toNat
  -- 2^f is the exponential of f ln 2, and ln 2 is twice the area hyperbolic tangent of 1/3
  let ln2 : Int := (List.range 110).foldl (fun (s : Int) j => s + 2 * (2 ^ fixBits / ((2 * j + 1 : Nat) * 3 ^ (2 * j + 1) : Int))) 0
  let y := expSum 80 0 (toFix f e * ln2 / 2 ^ fixBits) (2 ^ fixBits) 0
  let r := ((y - fixSlack).toNat, (y + fixSlack).toNat)
  let shift := fun (x : Nat) => if 0 ≤ k then x * 2 ^ k.toNat else x / 2 ^ (-k).toNat
  withinUlps (shift r.1) (shift r.2 + 1)

/-- The results of `log2` for a positive number that is no power of 2: within 2 ulp outside [0.5, 2], within 2^−22 inside. -/
def log2Range (m : Nat) (e : Int) : Nat × Nat :=
  let t := Nat.log2 m
  let whole : Int := e + t
  let y := m * 2 ^ (800 - t)
  let r := log2Interval logBits y y 0 0
  let at_ := fun (k : Int) => k * 2 ^ (fixBits - r.2)
  let lo := at_ (whole * 2 ^ r.2 + (r.1 : Int))
  let hi := at_ (whole * 2 ^ r.2 + (r.1 : Int) + 1)
  if whole = 0 || whole = -1 then (fixRange (lo - 2 ^ (fixBits - 22)) (hi + 2 ^ (fixBits - 22))) else withinUlps lo hi

/-- The results of `tanh` within 2 ulp for a positive magnitude. -/
def tanhRange (m : Nat) (e : Int) : Nat × Nat :=
  let x := toFix m e
  if 2 ^ (fixBits + 5) ≤ x then aroundFloor 2 (2 ^ fixBits - 1) (2 ^ fixBits - 1)
  else if x < 2 ^ (fixBits - 40) then aroundFloor 2 (tanhSmall x).1 (tanhSmall x).2
  else withinUlps (tanhFix m e - fixSlack) (tanhFix m e + fixSlack)

end Sys2Proof
end

