-- ==== Sys2Proof/Machine/Special.lean ====
section
/-! DEFINITION. Special functions and the divider: majors 0x08 and 0x09 (R209, R325 to R327).  The values that Table 19.12 and the
words "correctly rounded" and "exact" fix are computed; where Table 19.11 gives a bound only, the result is a free value of the operand
among those that the bound allows (log entry 6). -/

namespace Sys2Proof.Machine

/-- CanonicalNaN(FP32). -/
def nan32 : Word := 0x7FC00000
/-- +infinity. -/
def inf32 : Word := 0x7F800000
/-- −infinity. -/
def ninf32 : Word := 0xFF800000
/-- 1.0. -/
def one32 : Word := 0x3F800000

/-- The pattern at a place in the order of all patterns: 0 upwards for positive ones, −1 downwards for negative ones. -/
def atPlace (k : Int) : Word := if 0 ≤ k then BitVec.ofInt 32 k else 0x80000000 ||| BitVec.ofInt 32 (-k - 1)

/-- The place of a pattern in that order. -/
def placeOf (x : Word) : Int := Fmt.fp32.orderKey x.toNat

/-- A pattern between two places, chosen by free bits. -/
def between (lo hi : Int) (bits : Word) : Word := atPlace (lo + (bits.toNat % (hi - lo + 1).toNat : Nat))

/-- `rcp`: correctly rounded. -/
def rcp32 (a : Word) : Word :=
  match Fmt.fp32.decode a.toNat with
  | .nan => nan32
  | .inf neg => toWord (Fmt.fp32.signBit neg)
  | .fin neg m e =>
    if m = 0 then (if neg then ninf32 else inf32)
    else toWord (Fmt.fp32.rne (.fin neg (recipMag m e).1 (recipMag m e).2))

/-- `sqrt`: correctly rounded. -/
def sqrt32 (a : Word) : Word :=
  match Fmt.fp32.decode a.toNat with
  | .nan => nan32
  | .inf neg => if neg then nan32 else inf32
  | .fin neg m e =>
    if m = 0 then a else if neg then nan32
    else toWord (Fmt.fp32.rne (.fin false (sqrtMag m e).1 (sqrtMag m e).2))

/-- A free choice among the patterns from one to another. -/
def chosen (r : Nat × Nat) (bits : Word) : Word := between (Fmt.fp32.orderKey r.1) (Fmt.fp32.orderKey r.2) bits

/-- `rsq`: within 1 ulp of 1/√a. -/
def rsq32 (a : Word) : Word :=
  match Fmt.fp32.decode a.toNat with
  | .nan => nan32
  | .inf neg => if neg then nan32 else 0
  | .fin neg m e =>
    if m = 0 then (if neg then ninf32 else inf32) else if neg then nan32
    else chosen (rsqRange m e) (Config.rsqBits a)

/-- `exp2`: exact at integers whose power is representable, otherwise within 2 ulp; results beyond the range are infinite, and
those below half the least subnormal are +0. -/
def exp2f (a : Word) : Word :=
  match Fmt.fp32.decode a.toNat with
  | .nan => nan32
  | .inf neg => if neg then 0 else inf32
  | .fin neg m e =>
    let n := roundInt 3 neg m e
    if 128 ≤ n then inf32
    else if m = 0 then one32
    else if n < -150 then 0
    else if 0 ≤ e || m % 2 ^ (-e).toNat = 0 then
      (if -149 ≤ n then toWord (Fmt.fp32.rne (.fin false 1 n)) else chosen (0x80000001, 2) (Config.exp2Bits a))
    else chosen (exp2Range neg m e) (Config.exp2Bits a)

/-- `log2`: exact at powers of 2, otherwise within the bound. -/
def log2f (a : Word) : Word :=
  match Fmt.fp32.decode a.toNat with
  | .nan => nan32
  | .inf neg => if neg then nan32 else inf32
  | .fin neg m e =>
    if m = 0 then ninf32 else if neg then nan32
    else if m = 2 ^ Nat.log2 m then toWord (Fmt.fp32.rne (Num.ofInt (e + (Nat.log2 m : Nat)) 0 false))
    else chosen (log2Range m e) (Config.log2Bits a)

/-- `sin`: within 2^−22, and odd bit for bit. -/
def sin32 (a : Word) : Word :=
  match Fmt.fp32.decode a.toNat with
  | .nan => nan32
  | .inf _ => nan32
  | .fin neg m e =>
    if m = 0 then a
    else
      let r := chosen (withinAbs (sinFix m e)) (Config.sinBits (a &&& 0x7FFFFFFF))
      if neg then r ^^^ 0x80000000 else r

/-- `cos`: within 2^−22, and even bit for bit. -/
def cos32 (a : Word) : Word :=
  match Fmt.fp32.decode a.toNat with
  | .nan => nan32
  | .inf _ => nan32
  | .fin _ m e => if m = 0 then one32 else chosen (withinAbs (cosFix m e)) (Config.cosBits (a &&& 0x7FFFFFFF))

/-- `tanh`: within 2 ulp, and odd bit for bit. -/
def tanh32 (a : Word) : Word :=
  match Fmt.fp32.decode a.toNat with
  | .nan => nan32
  | .inf neg => if neg then 0xBF800000 else one32
  | .fin neg m e =>
    if m = 0 then a
    else
      let r := chosen (tanhRange m e) (Config.tanhBits (a &&& 0x7FFFFFFF))
      if neg then r ^^^ 0x80000000 else r

/-- A special-function word. -/
def specialWord (fin la : Bool) (d a : BitVec 7) (f : Word → Word) : State → Out :=
  vecLong (infoU fin la d a) d fun g l => f (g.readV a.toNat l)

/-- R325, `rcp`. -/
def execRcp (fin la : Bool) (d a : BitVec 7) (s : State) : Out := specialWord fin la d a rcp32 s
/-- R325, `rsq`. -/
def execRsq (fin la : Bool) (d a : BitVec 7) (s : State) : Out := specialWord fin la d a rsq32 s
/-- R325, `sqrt`. -/
def execSqrt (fin la : Bool) (d a : BitVec 7) (s : State) : Out := specialWord fin la d a sqrt32 s
/-- R325, `exp2`. -/
def execExp2 (fin la : Bool) (d a : BitVec 7) (s : State) : Out := specialWord fin la d a exp2f s
/-- R325, `log2`. -/
def execLog2 (fin la : Bool) (d a : BitVec 7) (s : State) : Out := specialWord fin la d a log2f s
/-- R325, `sin`. -/
def execSin (fin la : Bool) (d a : BitVec 7) (s : State) : Out := specialWord fin la d a sin32 s
/-- R325, `cos`. -/
def execCos (fin la : Bool) (d a : BitVec 7) (s : State) : Out := specialWord fin la d a cos32 s
/-- R325, `tanh`. -/
def execTanh (fin la : Bool) (d a : BitVec 7) (s : State) : Out := specialWord fin la d a tanh32 s

/-- Table 11.9, `div.s`. -/
def divS (a b : Word) : Word := if b = 0 then 0xFFFFFFFF else BitVec.ofInt 32 (a.toInt.tdiv b.toInt)
/-- Table 11.9, `rem.s`. -/
def remS (a b : Word) : Word := if b = 0 then a else BitVec.ofInt 32 (a.toInt.tmod b.toInt)
/-- Table 11.9, `div.n`. -/
def divN (a b : Word) : Word := if b = 0 then 0xFFFFFFFF else BitVec.ofNat 32 (a.toNat / b.toNat)
/-- Table 11.9, `rem.n`. -/
def remN (a b : Word) : Word := if b = 0 then a else BitVec.ofNat 32 (a.toNat % b.toNat)

/-- A divider word. -/
def dividerWord (fin la lb : Bool) (d a b : BitVec 7) (f : Word → Word → Word) : State → Out :=
  vecLong (infoA fin la lb d a b) d fun g l => f (g.readV a.toNat l) (g.readV b.toNat l)

/-- R327, `div.s`. -/
def execDivS (fin la lb : Bool) (d a b : BitVec 7) (s : State) : Out := dividerWord fin la lb d a b divS s
/-- R327, `div.n`. -/
def execDivN (fin la lb : Bool) (d a b : BitVec 7) (s : State) : Out := dividerWord fin la lb d a b divN s
/-- R327, `rem.s`. -/
def execRemS (fin la lb : Bool) (d a b : BitVec 7) (s : State) : Out := dividerWord fin la lb d a b remS s
/-- R327, `rem.n`. -/
def execRemN (fin la lb : Bool) (d a b : BitVec 7) (s : State) : Out := dividerWord fin la lb d a b remN s

end Sys2Proof.Machine
end

