-- ==== Sys2Proof/Machine/VectorFloat.lean ====
section
/-! DEFINITION. FP32 and packed 16-bit words: majors 0x04 and 0x05 (R317 to R319). -/

namespace Sys2Proof.Machine

/-- R317, `fadd`. -/
def execFadd (fin la lb : Bool) (d a b : BitVec 7) (s : State) : Out :=
  vecBin fin la lb d a b (fun x y => toWord (Fmt.fp32.fadd x.toNat y.toNat)) s

/-- R317, `fsub`. -/
def execFsub (fin la lb : Bool) (d a b : BitVec 7) (s : State) : Out :=
  vecBin fin la lb d a b (fun x y => toWord (Fmt.fp32.fsub x.toNat y.toNat)) s

/-- R317, `fmul`. -/
def execFmul (fin la lb : Bool) (d a b : BitVec 7) (s : State) : Out :=
  vecBin fin la lb d a b (fun x y => toWord (Fmt.fp32.fmul x.toNat y.toNat)) s

/-- R318, `fmin`. -/
def execFmin (fin la lb : Bool) (d a b : BitVec 7) (s : State) : Out :=
  vecBin fin la lb d a b (fun x y => toWord (Fmt.fp32.minMax true x.toNat y.toNat)) s

/-- R318, `fmax`. -/
def execFmax (fin la lb : Bool) (d a b : BitVec 7) (s : State) : Out :=
  vecBin fin la lb d a b (fun x y => toWord (Fmt.fp32.minMax false x.toNat y.toNat)) s

/-- R317, `ffma`: a × b + vD with one rounding. -/
def execFfma (fin la lb : Bool) (d a b : BitVec 7) (s : State) : Out :=
  vecWord (infoAD fin la lb d a b) d (fun g l => toWord
    (Fmt.fp32.ffma (g.readV a.toNat l).toNat (g.readV b.toNat l).toNat (g.readV d.toNat l).toNat)) s

/-- R318, `fsgn`: the sign of b on the magnitude of a, as bits. -/
def execFsgn (fin la lb : Bool) (d a b : BitVec 7) (s : State) : Out :=
  vecBin fin la lb d a b (fun x y => y.extractLsb' 31 1 ++ x.extractLsb' 0 31) s

/-- R318, `frnd`: to an integral value by the mode in the word. -/
def execFrnd (fin la : Bool) (d a : BitVec 7) (rm : BitVec 2) (s : State) : Out :=
  vecUn fin la d a (fun x => toWord (Fmt.fp32.rne ((Fmt.fp32.decode x.toNat).integral rm.toNat))) s

/-- A packed word: each half apart (R319). -/
def packedWord (fin la ty : Bool) (d a b : BitVec 7) (f : Fmt → Nat → Nat → Nat) : State → Out :=
  vecWord (infoA fin la false d a b) d fun g l =>
    halves (fun x y _ => f (packedFmt ty) x y) (g.readV a.toNat l) (g.readV b.toNat l) 0

/-- R319, `hadd`. -/
def execHadd (fin la ty : Bool) (d a b : BitVec 7) (s : State) : Out :=
  packedWord fin la ty d a b (fun f x y => f.fadd x y) s

/-- R319, `hsub`. -/
def execHsub (fin la ty : Bool) (d a b : BitVec 7) (s : State) : Out :=
  packedWord fin la ty d a b (fun f x y => f.fsub x y) s

/-- R319, `hmul`. -/
def execHmul (fin la ty : Bool) (d a b : BitVec 7) (s : State) : Out :=
  packedWord fin la ty d a b (fun f x y => f.fmul x y) s

/-- R319, `hmin`. -/
def execHmin (fin la ty : Bool) (d a b : BitVec 7) (s : State) : Out :=
  packedWord fin la ty d a b (fun f x y => f.minMax true x y) s

/-- R319, `hmax`. -/
def execHmax (fin la ty : Bool) (d a b : BitVec 7) (s : State) : Out :=
  packedWord fin la ty d a b (fun f x y => f.minMax false x y) s

/-- R319, `hfma`: one rounding in each half. -/
def execHfma (fin la ty : Bool) (d a b : BitVec 7) (s : State) : Out :=
  vecWord (infoAD fin la false d a b) d (fun g l =>
    halves (fun x y z => (packedFmt ty).ffma x y z) (g.readV a.toNat l) (g.readV b.toNat l) (g.readV d.toNat l)) s

end Sys2Proof.Machine
end

