-- ==== Sys2Proof/Machine/VectorInteger.lean ====
section
/-! DEFINITION. Vector integer words: majors 0x01 to 0x03 (R315, R316). -/

namespace Sys2Proof.Machine

/-- R315, `add`: Wrap(a + b, 32). -/
def execAdd (fin la lb : Bool) (d a b : BitVec 7) (s : State) : Out :=
  vecBin fin la lb d a b (fun x y => x + y) s

/-- R315, `sub`: Wrap(a − b, 32). -/
def execSub (fin la lb : Bool) (d a b : BitVec 7) (s : State) : Out :=
  vecBin fin la lb d a b (fun x y => x - y) s

/-- R315, `and`: a AND b. -/
def execAnd (fin la lb : Bool) (d a b : BitVec 7) (s : State) : Out :=
  vecBin fin la lb d a b (fun x y => x &&& y) s

/-- R315, `or`: a OR b. -/
def execOr (fin la lb : Bool) (d a b : BitVec 7) (s : State) : Out :=
  vecBin fin la lb d a b (fun x y => x ||| y) s

/-- R315, `xor`: a XOR b. -/
def execXor (fin la lb : Bool) (d a b : BitVec 7) (s : State) : Out :=
  vecBin fin la lb d a b (fun x y => x ^^^ y) s

/-- R315, `shl`: a × 2^Bits(b, 4, 0). -/
def execShl (fin la lb : Bool) (d a b : BitVec 7) (s : State) : Out :=
  vecBin fin la lb d a b (fun x y => x <<< (y.toNat % 32)) s

/-- R315, `shr`: a ÷ 2^Bits(b, 4, 0), unsigned. -/
def execShr (fin la lb : Bool) (d a b : BitVec 7) (s : State) : Out :=
  vecBin fin la lb d a b (fun x y => x >>> (y.toNat % 32)) s

/-- R315, `sra`: a ÷ 2^Bits(b, 4, 0), signed. -/
def execSra (fin la lb : Bool) (d a b : BitVec 7) (s : State) : Out :=
  vecBin fin la lb d a b (fun x y => x.sshiftRight (y.toNat % 32)) s

/-- R315, `mul`: Wrap(a × b, 32). -/
def execMul (fin la lb : Bool) (d a b : BitVec 7) (s : State) : Out :=
  vecBin fin la lb d a b (fun x y => x * y) s

/-- R315, `mulhS`: the upper half of the signed product. -/
def execMulhS (fin la lb : Bool) (d a b : BitVec 7) (s : State) : Out :=
  vecBin fin la lb d a b (fun x y => ((x.signExtend 64) * (y.signExtend 64)).extractLsb' 32 32) s

/-- R315, `mulhN`: the upper half of the unsigned product. -/
def execMulhN (fin la lb : Bool) (d a b : BitVec 7) (s : State) : Out :=
  vecBin fin la lb d a b (fun x y => ((x.setWidth 64) * (y.setWidth 64)).extractLsb' 32 32) s

/-- R315, `minS`: the smaller, signed. -/
def execMinS (fin la lb : Bool) (d a b : BitVec 7) (s : State) : Out :=
  vecBin fin la lb d a b (fun x y => if x.sle y then x else y) s

/-- R315, `maxS`: the larger, signed. -/
def execMaxS (fin la lb : Bool) (d a b : BitVec 7) (s : State) : Out :=
  vecBin fin la lb d a b (fun x y => if x.sle y then y else x) s

/-- R315, `minN`: the smaller, unsigned. -/
def execMinN (fin la lb : Bool) (d a b : BitVec 7) (s : State) : Out :=
  vecBin fin la lb d a b (fun x y => if x.ule y then x else y) s

/-- R315, `maxN`: the larger, unsigned. -/
def execMaxN (fin la lb : Bool) (d a b : BitVec 7) (s : State) : Out :=
  vecBin fin la lb d a b (fun x y => if x.ule y then y else x) s

/-- R315, `absdS`: |a − b| of the signed values. -/
def execAbsdS (fin la lb : Bool) (d a b : BitVec 7) (s : State) : Out :=
  vecBin fin la lb d a b (fun x y => BitVec.ofInt 32 (x.toInt - y.toInt).natAbs) s

/-- A word of shape AI that accepts `hx`. -/
def vecImmWord (fin la : Bool) (i : BitVec 8) (d a : BitVec 7) (f : Word → Word → Word) : State → Out :=
  vecWord { infoU fin la d a with hx := true } d fun g l => f (g.readV a.toNat l) (vecImm g i)

/-- R316, `addi`. -/
def execAddi (fin la : Bool) (i : BitVec 8) (d a : BitVec 7) (s : State) : Out :=
  vecImmWord fin la i d a (fun x i => x + i) s

/-- R316, `andi`. -/
def execAndi (fin la : Bool) (i : BitVec 8) (d a : BitVec 7) (s : State) : Out :=
  vecImmWord fin la i d a (fun x i => x &&& i) s

/-- R316, `ori`. -/
def execOri (fin la : Bool) (i : BitVec 8) (d a : BitVec 7) (s : State) : Out :=
  vecImmWord fin la i d a (fun x i => x ||| i) s

/-- R316, `xori`. -/
def execXori (fin la : Bool) (i : BitVec 8) (d a : BitVec 7) (s : State) : Out :=
  vecImmWord fin la i d a (fun x i => x ^^^ i) s

/-- R316, `shli` by 0 to 31. -/
def execShli (fin la : Bool) (d a : BitVec 7) (n : BitVec 5) (s : State) : Out :=
  vecUn fin la d a (fun x => x <<< n.toNat) s

/-- R316, `shri` by 0 to 31. -/
def execShri (fin la : Bool) (d a : BitVec 7) (n : BitVec 5) (s : State) : Out :=
  vecUn fin la d a (fun x => x >>> n.toNat) s

/-- R316, `srai` by 0 to 31. -/
def execSrai (fin la : Bool) (d a : BitVec 7) (n : BitVec 5) (s : State) : Out :=
  vecUn fin la d a (fun x => x.sshiftRight n.toNat) s

/-- R316, `movi`. -/
def execMovi (fin : Bool) (i : BitVec 8) (d : BitVec 7) (s : State) : Out :=
  vecWord { fin, vw := [d.toNat], hx := true } d (fun g _ => vecImm g i) s

end Sys2Proof.Machine
end

