-- ==== Sys2Proof/Machine/Dispatch.lean ====
section
/-! DEFINITION. Dispatch: one arm per constructor of Instr, each a call of that instruction's meaning. -/

namespace Sys2Proof.Machine

def exec (i : Instr) (s : State) : Host.Outcome State Fault Refusal :=
  match i with
  | .add fin la lb d a b => Sys2Proof.Machine.execAdd fin la lb d a b s
  | .sub fin la lb d a b => Sys2Proof.Machine.execSub fin la lb d a b s
  | .and fin la lb d a b => Sys2Proof.Machine.execAnd fin la lb d a b s
  | .or fin la lb d a b => Sys2Proof.Machine.execOr fin la lb d a b s
  | .xor fin la lb d a b => Sys2Proof.Machine.execXor fin la lb d a b s
  | .shl fin la lb d a b => Sys2Proof.Machine.execShl fin la lb d a b s
  | .shr fin la lb d a b => Sys2Proof.Machine.execShr fin la lb d a b s
  | .sra fin la lb d a b => Sys2Proof.Machine.execSra fin la lb d a b s
  | .mul fin la lb d a b => Sys2Proof.Machine.execMul fin la lb d a b s
  | .mulhS fin la lb d a b => Sys2Proof.Machine.execMulhS fin la lb d a b s
  | .mulhN fin la lb d a b => Sys2Proof.Machine.execMulhN fin la lb d a b s
  | .minS fin la lb d a b => Sys2Proof.Machine.execMinS fin la lb d a b s
  | .maxS fin la lb d a b => Sys2Proof.Machine.execMaxS fin la lb d a b s
  | .minN fin la lb d a b => Sys2Proof.Machine.execMinN fin la lb d a b s
  | .maxN fin la lb d a b => Sys2Proof.Machine.execMaxN fin la lb d a b s
  | .absdS fin la lb d a b => Sys2Proof.Machine.execAbsdS fin la lb d a b s
  | .addi fin la imm d a => Sys2Proof.Machine.execAddi fin la imm d a s
  | .andi fin la imm d a => Sys2Proof.Machine.execAndi fin la imm d a s
  | .ori fin la imm d a => Sys2Proof.Machine.execOri fin la imm d a s
  | .xori fin la imm d a => Sys2Proof.Machine.execXori fin la imm d a s
  | .shli fin la d a imm => Sys2Proof.Machine.execShli fin la d a imm s
  | .shri fin la d a imm => Sys2Proof.Machine.execShri fin la d a imm s
  | .srai fin la d a imm => Sys2Proof.Machine.execSrai fin la d a imm s
  | .movi fin imm d => Sys2Proof.Machine.execMovi fin imm d s
  | .fadd fin la lb d a b => Sys2Proof.Machine.execFadd fin la lb d a b s
  | .fsub fin la lb d a b => Sys2Proof.Machine.execFsub fin la lb d a b s
  | .fmul fin la lb d a b => Sys2Proof.Machine.execFmul fin la lb d a b s
  | .ffma fin la lb d a b => Sys2Proof.Machine.execFfma fin la lb d a b s
  | .fmin fin la lb d a b => Sys2Proof.Machine.execFmin fin la lb d a b s
  | .fmax fin la lb d a b => Sys2Proof.Machine.execFmax fin la lb d a b s
  | .fsgn fin la lb d a b => Sys2Proof.Machine.execFsgn fin la lb d a b s
  | .frnd fin la d a rm => Sys2Proof.Machine.execFrnd fin la d a rm s
  | .hadd fin la ty d a b => Sys2Proof.Machine.execHadd fin la ty d a b s
  | .hsub fin la ty d a b => Sys2Proof.Machine.execHsub fin la ty d a b s
  | .hmul fin la ty d a b => Sys2Proof.Machine.execHmul fin la ty d a b s
  | .hfma fin la ty d a b => Sys2Proof.Machine.execHfma fin la ty d a b s
  | .hmin fin la ty d a b => Sys2Proof.Machine.execHmin fin la ty d a b s
  | .hmax fin la ty d a b => Sys2Proof.Machine.execHmax fin la ty d a b s
  | .icmp fin p cond x la lb a b => Sys2Proof.Machine.execIcmp fin p cond x la lb a b s
  | .fcmp fin p cond x la lb a b => Sys2Proof.Machine.execFcmp fin p cond x la lb a b s
  | .pand fin d a b => Sys2Proof.Machine.execPand fin d a b s
  | .por fin d a b => Sys2Proof.Machine.execPor fin d a b s
  | .pxor fin d a b => Sys2Proof.Machine.execPxor fin d a b s
  | .pnot fin d a => Sys2Proof.Machine.execPnot fin d a s
  | .cvt fin rm la td ta d a => Sys2Proof.Machine.execCvt fin rm la td ta d a s
  | .cvtn fin la fmt rm d a => Sys2Proof.Machine.execCvtn fin la fmt rm d a s
  | .cvtw fin la fmt d a => Sys2Proof.Machine.execCvtw fin la fmt d a s
  | .rcp fin la d a => Sys2Proof.Machine.execRcp fin la d a s
  | .rsq fin la d a => Sys2Proof.Machine.execRsq fin la d a s
  | .sqrt fin la d a => Sys2Proof.Machine.execSqrt fin la d a s
  | .exp2 fin la d a => Sys2Proof.Machine.execExp2 fin la d a s
  | .log2 fin la d a => Sys2Proof.Machine.execLog2 fin la d a s
  | .sin fin la d a => Sys2Proof.Machine.execSin fin la d a s
  | .cos fin la d a => Sys2Proof.Machine.execCos fin la d a s
  | .tanh fin la d a => Sys2Proof.Machine.execTanh fin la d a s
  | .divS fin la lb d a b => Sys2Proof.Machine.execDivS fin la lb d a b s
  | .divN fin la lb d a b => Sys2Proof.Machine.execDivN fin la lb d a b s
  | .remS fin la lb d a b => Sys2Proof.Machine.execRemS fin la lb d a b s
  | .remN fin la lb d a b => Sys2Proof.Machine.execRemN fin la lb d a b s
  | .shflIdx fin p g d a la => Sys2Proof.Machine.execShflIdx fin p g d a la s
  | .shflUp fin p g d a la => Sys2Proof.Machine.execShflUp fin p g d a la s
  | .shflDn fin p g d a la => Sys2Proof.Machine.execShflDn fin p g d a la s
  | .shflXor fin p g d a la => Sys2Proof.Machine.execShflXor fin p g d a la s
  | .bcast fin p g d a la => Sys2Proof.Machine.execBcast fin p g d a la s
  | .vmask fin p g d a => Sys2Proof.Machine.execVmask fin p g d a s
  | .vany fin p g d a => Sys2Proof.Machine.execVany fin p g d a s
  | .vall fin p g d a => Sys2Proof.Machine.execVall fin p g d a s
  | .scanAdd fin p g d a la t => Sys2Proof.Machine.execScanAdd fin p g d a la t s
  | .redAdd fin p g d a la t => Sys2Proof.Machine.execRedAdd fin p g d a la t s
  | .redMax fin p g d a la t => Sys2Proof.Machine.execRedMax fin p g d a la t s
  | .part fin g w => Sys2Proof.Machine.execPart fin g w s
  | .sel fin d a b p la => Sys2Proof.Machine.execSel fin d a b p la s
  | .movV fin x y la => Sys2Proof.Machine.execMovV fin x y la s
  | .movS fin x y => Sys2Proof.Machine.execMovS fin x y s
  | .movQ fin x y => Sys2Proof.Machine.execMovQ fin x y s
  | .pmov fin x y => Sys2Proof.Machine.execPmov fin x y s
  | .vtos fin x y la lane => Sys2Proof.Machine.execVtos fin x y la lane s
  | .stov fin x y => Sys2Proof.Machine.execStov fin x y s
  | .clz fin x y la => Sys2Proof.Machine.execClz fin x y la s
  | .popc fin x y la => Sys2Proof.Machine.execPopc fin x y la s
  | .brev fin x y la => Sys2Proof.Machine.execBrev fin x y la s
  | .lid fin x => Sys2Proof.Machine.execLid fin x s
  | .sadd fin d a b => Sys2Proof.Machine.execSadd fin d a b s
  | .ssub fin d a b => Sys2Proof.Machine.execSsub fin d a b s
  | .sand fin d a b => Sys2Proof.Machine.execSand fin d a b s
  | .sor fin d a b => Sys2Proof.Machine.execSor fin d a b s
  | .sxor fin d a b => Sys2Proof.Machine.execSxor fin d a b s
  | .sshl fin d a b => Sys2Proof.Machine.execSshl fin d a b s
  | .sshr fin d a b => Sys2Proof.Machine.execSshr fin d a b s
  | .smul fin d a b => Sys2Proof.Machine.execSmul fin d a b s
  | .saddi fin d a imm => Sys2Proof.Machine.execSaddi fin d a imm s
  | .sandi fin d a imm => Sys2Proof.Machine.execSandi fin d a imm s
  | .sori fin d a imm => Sys2Proof.Machine.execSori fin d a imm s
  | .sshli fin d a imm => Sys2Proof.Machine.execSshli fin d a imm s
  | .sshri fin d a imm => Sys2Proof.Machine.execSshri fin d a imm s
  | .smovi fin d imm => Sys2Proof.Machine.execSmovi fin d imm s
  | .sxori fin d a imm => Sys2Proof.Machine.execSxori fin d a imm s
  | .br fin off => Sys2Proof.Machine.execBr fin off s
  | .brp fin p off => Sys2Proof.Machine.execBrp fin p off s
  | .brnp fin p off => Sys2Proof.Machine.execBrnp fin p off s
  | .sbeq fin a b off => Sys2Proof.Machine.execSbeq fin a b off s
  | .sbne fin a b off => Sys2Proof.Machine.execSbne fin a b off s
  | .sblt fin a b off => Sys2Proof.Machine.execSblt fin a b off s
  | .sbge fin a b off => Sys2Proof.Machine.execSbge fin a b off s
  | .jr fin a la => Sys2Proof.Machine.execJr fin a la s
  | .call fin off => Sys2Proof.Machine.execCall fin off s
  | .callr fin a la => Sys2Proof.Machine.execCallr fin a la s
  | .ret fin a la => Sys2Proof.Machine.execRet fin a la s
  | .join fin => Sys2Proof.Machine.execJoin fin s
  | .exit fin => Sys2Proof.Machine.execExit fin s
  | .ldB fin data off lu base => Sys2Proof.Machine.execLdB fin data off lu base s
  | .ldBs fin data off lu base => Sys2Proof.Machine.execLdBs fin data off lu base s
  | .ldH fin data off lu base => Sys2Proof.Machine.execLdH fin data off lu base s
  | .ldHs fin data off lu base => Sys2Proof.Machine.execLdHs fin data off lu base s
  | .ldW fin data off lu base => Sys2Proof.Machine.execLdW fin data off lu base s
  | .ldD fin data off lu base => Sys2Proof.Machine.execLdD fin data off lu base s
  | .ldQ fin data off lu base => Sys2Proof.Machine.execLdQ fin data off lu base s
  | .stB fin data off lu base => Sys2Proof.Machine.execStB fin data off lu base s
  | .stH fin data off lu base => Sys2Proof.Machine.execStH fin data off lu base s
  | .stW fin data off lu base => Sys2Proof.Machine.execStW fin data off lu base s
  | .stD fin data off lu base => Sys2Proof.Machine.execStD fin data off lu base s
  | .stQ fin data off lu base => Sys2Proof.Machine.execStQ fin data off lu base s
  | .atomAdd fin data off lu base ret uns => Sys2Proof.Machine.execAtomAdd fin data off lu base ret uns s
  | .atomFadd fin data off lu base ret => Sys2Proof.Machine.execAtomFadd fin data off lu base ret s
  | .atomMin fin data off lu base ret uns => Sys2Proof.Machine.execAtomMin fin data off lu base ret uns s
  | .atomMax fin data off lu base ret uns => Sys2Proof.Machine.execAtomMax fin data off lu base ret uns s
  | .atomAnd fin data off lu base ret uns => Sys2Proof.Machine.execAtomAnd fin data off lu base ret uns s
  | .atomOr fin data off lu base ret uns => Sys2Proof.Machine.execAtomOr fin data off lu base ret uns s
  | .atomXor fin data off lu base ret uns => Sys2Proof.Machine.execAtomXor fin data off lu base ret uns s
  | .atomXchg fin data off lu base ret uns => Sys2Proof.Machine.execAtomXchg fin data off lu base ret uns s
  | .atomCas fin data off lu base uns => Sys2Proof.Machine.execAtomCas fin data off lu base uns s
  | .fence fin scope d => Sys2Proof.Machine.execFence fin scope d s
  | .waitc fin cls n => Sys2Proof.Machine.execWaitc fin cls n s
  | .bar fin id => Sys2Proof.Machine.execBar fin id s
  | .arrive fin id => Sys2Proof.Machine.execArrive fin id s
  | .trig fin => Sys2Proof.Machine.execTrig fin s
  | .lds fin data off lu base => Sys2Proof.Machine.execLds fin data off lu base s
  | .sts fin data off lu base => Sys2Proof.Machine.execSts fin data off lu base s
  | .spAlloc fin x y => Sys2Proof.Machine.execSpAlloc fin x y s
  | .spFree fin x => Sys2Proof.Machine.execSpFree fin x s
  | .bheld fin x y => Sys2Proof.Machine.execBheld fin x y s
  | .bhand fin x rank => Sys2Proof.Machine.execBhand fin x rank s
  | .sywInit fin h a imm => Sys2Proof.Machine.execSywInit fin h a imm s
  | .sywWait fin d h a => Sys2Proof.Machine.execSywWait fin d h a s
  | .lock fin d a b => Sys2Proof.Machine.execLock fin d a b s
  | .unlock fin a b => Sys2Proof.Machine.execUnlock fin a b s
  | .spcvt fin d n => Sys2Proof.Machine.execSpcvt fin d n s
  | .l1cvt fin d n => Sys2Proof.Machine.execL1cvt fin d n s
  | .rbump fin d a => Sys2Proof.Machine.execRbump fin d a s
  | .rget fin d a => Sys2Proof.Machine.execRget fin d a s
  | .racq fin d a => Sys2Proof.Machine.execRacq fin d a s
  | .shape fin d a => Sys2Proof.Machine.execShape fin d a s
  | .fmtset fin fmt a => Sys2Proof.Machine.execFmtset fin fmt a s
  | .mma fin p out => Sys2Proof.Machine.execMma fin p out s
  | .mmas fin p out => Sys2Proof.Machine.execMmas fin p out s
  | .accz fin p out => Sys2Proof.Machine.execAccz fin p out s
  | .accld fin p out => Sys2Proof.Machine.execAccld fin p out s
  | .accst fin p out => Sys2Proof.Machine.execAccst fin p out s
  | .drain fin p z out => Sys2Proof.Machine.execDrain fin p z out s
  | .copyIn fin p out => Sys2Proof.Machine.execCopyIn fin p out s
  | .copyOut fin p out => Sys2Proof.Machine.execCopyOut fin p out s
  | .copyPf fin p out => Sys2Proof.Machine.execCopyPf fin p out s
  | .tsrSet fin slot a => Sys2Proof.Machine.execTsrSet fin slot a s
  | .attn fin p init out => Sys2Proof.Machine.execAttn fin p init out s
  | .attnFin fin p out => Sys2Proof.Machine.execAttnFin fin p out s
  | .hdlMk fin d p => Sys2Proof.Machine.execHdlMk fin d p s
  | .hdlExt fin d p => Sys2Proof.Machine.execHdlExt fin d p s
  | .hdlTrunc fin d p => Sys2Proof.Machine.execHdlTrunc fin d p s
  | .hdlRef fin d p => Sys2Proof.Machine.execHdlRef fin d p s
  | .hdlRel fin d p => Sys2Proof.Machine.execHdlRel fin d p s
  | .pfxFind fin d p => Sys2Proof.Machine.execPfxFind fin d p s
  | .pfxIns fin d p => Sys2Proof.Machine.execPfxIns fin d p s
  | .sweepReg fin d a => Sys2Proof.Machine.execSweepReg fin d a s
  | .sweepDereg fin d a => Sys2Proof.Machine.execSweepDereg fin d a s
  | .rowreq fin p urg out => Sys2Proof.Machine.execRowreq fin p urg out s
  | .sweepPos fin d a => Sys2Proof.Machine.execSweepPos fin d a s
  | .sweepWait fin a b => Sys2Proof.Machine.execSweepWait fin a b s
  | .sibPost fin a => Sys2Proof.Machine.execSibPost fin a s
  | .sibHold fin => Sys2Proof.Machine.execSibHold fin s
  | .sibFree fin => Sys2Proof.Machine.execSibFree fin s
  | .sibStat fin d => Sys2Proof.Machine.execSibStat fin d s
  | .sibCp fin => Sys2Proof.Machine.execSibCp fin s
  | .collAr fin p out => Sys2Proof.Machine.execCollAr fin p out s
  | .collAg fin p out => Sys2Proof.Machine.execCollAg fin p out s
  | .collRs fin p out => Sys2Proof.Machine.execCollRs fin p out s
  | .collBc fin p out => Sys2Proof.Machine.execCollBc fin p out s
  | .collAbort fin a => Sys2Proof.Machine.execCollAbort fin a s
  | .collRing fin d p => Sys2Proof.Machine.execCollRing fin d p s
  | .qbind fin q stream => Sys2Proof.Machine.execQbind fin q stream s
  | .qfree fin q => Sys2Proof.Machine.execQfree fin q s
  | .qtry fin d q => Sys2Proof.Machine.execQtry fin d q s
  | .qpeek fin d q => Sys2Proof.Machine.execQpeek fin d q s
  | .trap fin imm => Sys2Proof.Machine.execTrap fin imm s
  | .sget fin kind d spr => Sys2Proof.Machine.execSget fin kind d spr s
  | .sset fin kind a spr la => Sys2Proof.Machine.execSset fin kind a spr la s
  | .tsrd fin x => Sys2Proof.Machine.execTsrd fin x s
  | .rng fin x => Sys2Proof.Machine.execRng fin x s
  | .launch fin x y => Sys2Proof.Machine.execLaunch fin x y s
  | .cinv fin x y => Sys2Proof.Machine.execCinv fin x y s
  | .eret fin => Sys2Proof.Machine.execEret fin s
  | .brk fin => Sys2Proof.Machine.execBrk fin s
  | .halt fin => Sys2Proof.Machine.execHalt fin s
  | .yield fin => Sys2Proof.Machine.execYield fin s
  | .wfi => Sys2Proof.Machine.execWfi s
  | .iret => Sys2Proof.Machine.execIret s
  | .nop fin => Sys2Proof.Machine.execNop fin s
  | .land fin => Sys2Proof.Machine.execLand fin s
  | .trail fin c b a => Sys2Proof.Machine.execTrail fin c b a s
  | .hx h => Sys2Proof.Machine.execHx h s
  | .hm h => Sys2Proof.Machine.execHm h s
  | .hg outv in1v in0v in1 in0 => Sys2Proof.Machine.execHg outv in1v in0v in1 in0 s
  | .hs fin h => Sys2Proof.Machine.execHs fin h s
  | .registerWrite off v => Sys2Proof.Machine.execRegisterWrite off v s
  | .packageReset => Sys2Proof.Machine.execPackageReset s
  | .memoryInitialisationDone => Sys2Proof.Machine.execMemoryInitialisationDone s
  | .modeWrite v => Sys2Proof.Machine.execModeWrite v s
  | .clkStable => Sys2Proof.Machine.execClkStable s
  | .dutyWrite v => Sys2Proof.Machine.execDutyWrite v s
  | .dataFlit port head body tail => Sys2Proof.Machine.execDataFlit port head body tail s
  | .idleFlit port bs => Sys2Proof.Machine.execIdleFlit port bs s
  | .retryFlit port bs => Sys2Proof.Machine.execRetryFlit port bs s
  | .timeFlit port flit => Sys2Proof.Machine.execTimeFlit port flit s
  | .timeFlitSend => Sys2Proof.Machine.execTimeFlitSend s
  | .masterTimeout => Sys2Proof.Machine.execMasterTimeout s
  | .domainJoin t live => Sys2Proof.Machine.execDomainJoin t live s
  | .laneLockLoss port => Sys2Proof.Machine.execLaneLockLoss port s
  | .retrainDone port => Sys2Proof.Machine.execRetrainDone port s
  | .retrainTimeout port => Sys2Proof.Machine.execRetrainTimeout port s
  | .sweepStep stack pc => Sys2Proof.Machine.execSweepStep stack pc s
  | .passBoundary stack pc free => Sys2Proof.Machine.execPassBoundary stack pc free s
  | .rowRequestAccept id => Sys2Proof.Machine.execRowRequestAccept id s
  | .hurryActivation stack id => Sys2Proof.Machine.execHurryActivation stack id s
  | .bankAccess pa => Sys2Proof.Machine.execBankAccess pa s
  | .rowClose pa => Sys2Proof.Machine.execRowClose pa s
  | .bankStoreAck asid va => Sys2Proof.Machine.execBankStoreAck asid va s
  | .combUpdate asid va => Sys2Proof.Machine.execCombUpdate asid va s
  | .rowRequestComplete stack id => Sys2Proof.Machine.execRowRequestComplete stack id s
  | .stkNbrWrite stack v => Sys2Proof.Machine.execStkNbrWrite stack v s
  | .l2Miss asid miss => Sys2Proof.Machine.execL2Miss asid miss s
  | .migration src => Sys2Proof.Machine.execMigration src s
  | .pwrWarnAssert => Sys2Proof.Machine.execPwrWarnAssert s
  | .pwrWarnDeassert => Sys2Proof.Machine.execPwrWarnDeassert s
  | .holdExpiry => Sys2Proof.Machine.execHoldExpiry s
  | .pwrCmdEnter => Sys2Proof.Machine.execPwrCmdEnter s
  | .pwrCmdResume => Sys2Proof.Machine.execPwrCmdResume s
  | .brownOutEntry => Sys2Proof.Machine.execBrownOutEntry s
  | .entryCommandTerminate id => Sys2Proof.Machine.execEntryCommandTerminate id s
  | .entryVetoTimeout => Sys2Proof.Machine.execEntryVetoTimeout s
  | .resumption => Sys2Proof.Machine.execResumption s
  | .ringWpWrite n v => Sys2Proof.Machine.execRingWpWrite n v s
  | .ringReset n => Sys2Proof.Machine.execRingReset n s
  | .ringCfgWrite n v => Sys2Proof.Machine.execRingCfgWrite n v s
  | .evqCfgWrite n v => Sys2Proof.Machine.execEvqCfgWrite n v s
  | .evqRpWrite n v => Sys2Proof.Machine.execEvqRpWrite n v s
  | .ringNop n => Sys2Proof.Machine.execRingNop n s
  | .ringLaunch n => Sys2Proof.Machine.execRingLaunch n s
  | .ringWrite n => Sys2Proof.Machine.execRingWrite n s
  | .ringWait n => Sys2Proof.Machine.execRingWait n s
  | .ringWaitPoll n => Sys2Proof.Machine.execRingWaitPoll n s
  | .ringCopy n => Sys2Proof.Machine.execRingCopy n s
  | .ringCopyDone n => Sys2Proof.Machine.execRingCopyDone n s
  | .ctxSet n => Sys2Proof.Machine.execCtxSet n s
  | .ctxKill n => Sys2Proof.Machine.execCtxKill n s
  | .ringRegion n => Sys2Proof.Machine.execRingRegion n s
  | .purge n => Sys2Proof.Machine.execPurge n s
  | .answer n => Sys2Proof.Machine.execAnswer n s
  | .attest n => Sys2Proof.Machine.execAttest n s
  | .heldEventPost => Sys2Proof.Machine.execHeldEventPost s
  | .fwGo => Sys2Proof.Machine.execFwGo s
  | .fwLoadDone => Sys2Proof.Machine.execFwLoadDone s
  | .fwStart => Sys2Proof.Machine.execFwStart s
  | .gridAccept n => Sys2Proof.Machine.execGridAccept n s
  | .gridReady grid => Sys2Proof.Machine.execGridReady grid s
  | .gridDone grid => Sys2Proof.Machine.execGridDone grid s
  | .teamPlace grid core => Sys2Proof.Machine.execTeamPlace grid core s
  | .reserveTimeout grid => Sys2Proof.Machine.execReserveTimeout grid s
  | .preemptTimeout grid die => Sys2Proof.Machine.execPreemptTimeout grid die s
  | .preBoundExpiry team => Sys2Proof.Machine.execPreBoundExpiry team s
  | .saveClose team => Sys2Proof.Machine.execSaveClose team s
  | .teamReplace team core => Sys2Proof.Machine.execTeamReplace team core s
  | .groupActivate gid => Sys2Proof.Machine.execGroupActivate gid s
  | .groupSwap gid victim => Sys2Proof.Machine.execGroupSwap gid victim s
  | .joinComplete gid => Sys2Proof.Machine.execJoinComplete gid s
  | .resultCommit gid idx => Sys2Proof.Machine.execResultCommit gid idx s
  | .breakpointMatch gid => Sys2Proof.Machine.execBreakpointMatch gid s
  | .dbgStep core => Sys2Proof.Machine.execDbgStep core s
  | .dbgResume core => Sys2Proof.Machine.execDbgResume core s
  | .writeUpdate slice core => Sys2Proof.Machine.execWriteUpdate slice core s
  | .storeAck n => Sys2Proof.Machine.execStoreAck n s
  | .atomicMerge core asid va => Sys2Proof.Machine.execAtomicMerge core asid va s
  | .translationRequest die asid va acc core => Sys2Proof.Machine.execTranslationRequest die asid va acc core s
  | .attributeReturn core asid va => Sys2Proof.Machine.execAttributeReturn core asid va s
  | .lightFaultService asid va => Sys2Proof.Machine.execLightFaultService asid va s
  | .fenceComplete gid => Sys2Proof.Machine.execFenceComplete gid s
  | .fenceLinkTimeout gid peer port => Sys2Proof.Machine.execFenceLinkTimeout gid peer port s
  | .taskLeave id => Sys2Proof.Machine.execTaskLeave id s
  | .copyChunkWrite id => Sys2Proof.Machine.execCopyChunkWrite id s
  | .engineCommandComplete id => Sys2Proof.Machine.execEngineCommandComplete id s
  | .matrixStepRun id => Sys2Proof.Machine.execMatrixStepRun id s
  | .deferredPageFree slot page => Sys2Proof.Machine.execDeferredPageFree slot page s
  | .pfxInsertDecide die => Sys2Proof.Machine.execPfxInsertDecide die s
  | .postDecide grid => Sys2Proof.Machine.execPostDecide grid s
  | .siblingCancelStop gid => Sys2Proof.Machine.execSiblingCancelStop gid s
  | .holdTimeout grid => Sys2Proof.Machine.execHoldTimeout grid s
  | .siblingRelease grid k => Sys2Proof.Machine.execSiblingRelease grid k s
  | .roundInstall core c => Sys2Proof.Machine.execRoundInstall core c s
  | .roundPush core => Sys2Proof.Machine.execRoundPush core s
  | .roundIncrement gid => Sys2Proof.Machine.execRoundIncrement gid s
  | .arfWrite off v => Sys2Proof.Machine.execArfWrite off v s
  | .collRoundOpen id => Sys2Proof.Machine.execCollRoundOpen id s
  | .collRoundComplete slot num agree given => Sys2Proof.Machine.execCollRoundComplete slot num agree given s
  | .collTimeout slot die => Sys2Proof.Machine.execCollTimeout slot die s
  | .collAbortFlit slot die status silent => Sys2Proof.Machine.execCollAbortFlit slot die status silent s
  | .collProbe slot die => Sys2Proof.Machine.execCollProbe slot die s
  | .collProbeTimeout slot die answered => Sys2Proof.Machine.execCollProbeTimeout slot die answered s
  | .collReformFlit slot die gen silent => Sys2Proof.Machine.execCollReformFlit slot die gen silent s
  | .collResumeFlit slot die => Sys2Proof.Machine.execCollResumeFlit slot die s
  | .reformReturnTimeout slot die => Sys2Proof.Machine.execReformReturnTimeout slot die s
  | .thermSample temps => Sys2Proof.Machine.execThermSample temps s
  | .ozTimer => Sys2Proof.Machine.execOzTimer s
  | .ozDoorWrite => Sys2Proof.Machine.execOzDoorWrite s
  | .interruptEntry => Sys2Proof.Machine.execInterruptEntry s
  | .thermCfgWrite v => Sys2Proof.Machine.execThermCfgWrite v s
  | .throttleWrite v => Sys2Proof.Machine.execThrottleWrite v s
  | .queuePopReturn gid => Sys2Proof.Machine.execQueuePopReturn gid s
  | .waitcReturn gid => Sys2Proof.Machine.execWaitcReturn gid s
  | .barrierPhaseComplete gid => Sys2Proof.Machine.execBarrierPhaseComplete gid s
  | .sywWaitReturn gid => Sys2Proof.Machine.execSywWaitReturn gid s
  | .sweepWaitReturn gid => Sys2Proof.Machine.execSweepWaitReturn gid s
  | .linkTraining port => Sys2Proof.Machine.execLinkTraining port s
  | .reservedEncoding w => Sys2Proof.Machine.execReservedEncoding w s
  | .handleSliceOperation gid => Sys2Proof.Machine.execHandleSliceOperation gid s
  | .collWaitFlit slot die => Sys2Proof.Machine.execCollWaitFlit slot die s

end Sys2Proof.Machine
end

