-- ==== Sys2Proof/Machine/Run.lean ====
section
/-! DEFINITION. Run: how a group opens a run and issues a word (R111 to R115, R119, R121, R128 to R133, R165, R169), which group issues
(R102 to R104), and what the machine does by itself when nothing outside moves it (log entry 2). -/

namespace Sys2Proof.Machine

/-! ### Fetching (R130, R165, R169, R397, R398) -/

/-- What a fetch finds. -/
inductive Fetch where
  /-- The word. -/
  | word (s : State) (w : Word)
  /-- The group stalls. -/
  | stall (s : State)
  /-- The fetch faults: code, and whether an agent services it. -/
  | fault (code : Nat) (serviced : Bool)

/-- The 128 bytes of an instruction-cache line, through the home slice or from memory.  (In part DESIGN CHOICE, log entry 24.) -/
def State.fetchLine (s : State) (asid : Nat) (attr : PageAttr) (va : Quad) : Rd :=
  let base := BitVec.ofNat 64 (va.toNat / 128 * 128)
  (List.range 4).foldl (fun (r : Rd) k => match r with
    | .bytes s bs p =>
      let a := base + BitVec.ofNat 64 (32 * k)
      match (if attr.nc then s.readNc asid attr a 32 2 false else s.readHome s.grp.core asid a 32 2 false none) with
      | .bytes s more q => .bytes s (bs ++ more) (p || q)
      | x => x
    | x => x) (.bytes s [] false)

/-- Whether the word itself is poisoned (R169). -/
def State.fetchPoison (s : State) (asid : Nat) (attr : PageAttr) (va : Quad) : Bool :=
  match (if attr.nc then s.readNc asid attr va 4 2 false else s.readHome s.grp.core asid va 4 2 false none) with
  | .bytes _ _ p => p
  | _ => false

/-- The fetch of the word at an address by the issuing group: the check comes with every fetch, the bytes from its core's instruction
cache when it holds the line (R397).  A line with a poisoned word is not kept, so that each fetch of that word faults (R169).  (In part DESIGN CHOICE, log entry 24.) -/
def State.fetchAt (s : State) (va : Quad) : Fetch :=
  let g := s.grp
  if g.oz && isOzPrivate va then .word s (s.ozMem.word (va.toNat - 0x0000E00000000000))
  else if g.oz && isOzControl va then .fault fTranslation false
  else
    match s.check va 2 with
    | .stall asks => .stall (s.owe asks)
    | .fault code => .fault code false
    | .park code => .fault code true
    | .ok _ =>
      let asid := s.asidOf g
      let key := icKey asid (va.toNat / 128)
      match (s.core g.core).icache.get? key with
      | some line => .word s (line.word (va.toNat % 128))
      | none =>
        match s.pageFor asid va 2 with
        | .page s attr =>
          (match s.fetchLine asid attr va with
           | .asks as => .stall (s.owe as)
           | .stalled s _ => .stall s
           | .bytes s' bs bad =>
             if bad && s.fetchPoison asid attr va then .fault fPoison false
             else
               let line := Memory.putBytes [] 0 bs
               .word (if bad then s' else s'.updCore g.core fun c => { c with icache := c.icache.set key line }) (line.word (va.toNat % 128)))
        | _ => .stall (s.owe [.l2Miss asid va 2])

/-! ### Issuing a word (R113, R114, R119, R130) -/

/-- The word `land` (R284). -/
def isLand (w : Word) : Bool := match decodeWord w with
  | some (.land _) => true
  | _ => false

/-- The first word of a run: the temporaries are undefined (R121). -/
def State.openRun (s : State) : State :=
  ({ s with free := s.free + 1 } : State).updGrp fun g => { g.dropHints with
    runOpen := true, runLen := 0, trail := none, skipBp := none, split := false, tseed := s.free
    v := g.v.filter fun e => e.1 / 16 < 120
    vseed := g.vseed.filter fun e => e.1 / 16 < 120 }

/-- Faults that come before the word (R129, R130, R169): when they leave no lane of E, the word ends its run (R119). -/
def State.preFaults (s : State) (fs : List LaneFault) : State :=
  let s := s.meetFaults fs
  if !fs.isEmpty && s.grp.e == 0 then s.updGrp fun g => g.countWord.endRun else s

/-- Lanes of E that owe a fault. -/
def Group.owing (g : Group) : List LaneFault :=
  (lanesOf g.e).filterMap fun l => (g.owed.get? l).map fun f => ⟨l, f.1, f.2, false⟩

/-- Lanes of E that arrived at a word that is not `land` by an indirect transfer. -/
def Group.landless (g : Group) (w : Word) : List LaneFault :=
  if isLand w then [] else (lanesOf (g.e &&& g.arrived)).map fun l => ⟨l, fLand, g.a, false⟩

/-- The word issues: the decoder's instruction, or the illegal-instruction fault (R294). -/
def State.execWord (s : State) (w : Word) : Out :=
  match decodeWord w with
  | some i => exec i s
  | none => execReservedEncoding w s

/-- A fetched word: faults owed, the `land` check, and its issue. -/
def State.issueWord (s : State) (w : Word) : Out :=
  let s := s.preFaults s.grp.owing
  if s.grp.e == 0 then .next s
  else
    let s := s.preFaults (s.grp.landless w)
    if s.grp.e == 0 then .next s else s.execWord w

/-- A fetch that fails: the lanes of E take its fault at the word. -/
def State.fetchFault (s : State) (code : Nat) (serviced : Bool) : State :=
  let g := s.grp
  s.finish { fin := false } ((lanesOf g.e).map fun l => ⟨l, code, g.a, serviced⟩) false

/-- A lane of E meets a fault before the word, which an incomplete fence holds back (R184). -/
def Group.heldFault (g : Group) (w : Word) : Bool := g.fence.isSome && (!g.owing.isEmpty || !(g.landless w).isEmpty)

/-- An issue slot of the issuing group: its run goes on, or a run opens at the lowest program counter.  A group that waits for a slice stalls (R370), and a
fault that comes before the word waits for an incomplete fence. -/
def State.issueGroup (s : State) : Out :=
  let g := s.grp
  if g.block != .none then .next s
  else if g.runOpen then
    match s.fetchAt g.a with
    | .stall s => .next s
    | .fault code serviced => .next (if g.fence.isSome then s else s.fetchFault code serviced)
    | .word s w => if s.grp.heldFault w then .next s else s.issueWord w
  else
    let a := g.minPc
    let at_ := g.lanesAt a
    let s := s.updGrp fun g => { g with a, e := g.openE a }
    match s.fetchAt a with
    | .stall s => .next s
    | .fault code serviced => .next (if g.fence.isSome then s else s.openRun.fetchFault code serviced)
    | .word s w =>
      let s := if isLand w then s.updGrp fun g => { g with e := at_ } else s
      if s.grp.heldFault w then .next s else s.openRun.issueWord w

/-! ### Around an issue slot (R102 to R104, R122, R133) -/

/-- What the slot did for a group: a word has issued, or the group has come to wait at one. -/
def Group.movedFrom (g before : Group) : Bool := g.words != before.words || (g.block != .none && before.block == .none)

/-- What the slot leaves: whether the run of a victim ended, the work counter, and the move to the pending set of a group that waits at a run end
(R103). -/
def State.afterIssue (s : State) (gid : Nat) (before : Group) : State :=
  let g := s.group gid
  let moved := g.movedFrom before
  let s := s.updGroup gid fun g => { g with
    spent := g.spent || (before.chosen && moved && !g.runOpen), chosen := g.chosen && !(moved && !g.runOpen) }
  let s := if moved && !g.oz then s.updTeam g.team fun t => { t with work := t.work.modify 0 (· + 1) } else s
  if g.parks then s.toPending gid else s

/-- A group issues in a slot (R102), which is the `n`-th. -/
def State.slotFor (s : State) (n gid : Nat) : Out :=
  let s := ({ s with cur := gid } : State).updGroup gid fun g => { g with lastIssue := n }
  let before := s.grp
  if !before.runOpen && s.bpHit before before.minPc then execBreakpointMatch gid s
  else
    match s.issueGroup with
    | .next t => .next (t.afterIssue gid before)
    | .fault r => .fault r
    | .refused r => .refused r

/-! ### Fused words (R296) -/

/-- The predicate that a compare writes, its sources, and whether it ends its run. -/
def comparesOf : Instr → Option (BitVec 3 × List (BitVec 7) × Bool)
  | .icmp fin p _ _ _ _ a b => some (p, [a, b], fin)
  | .fcmp fin p _ _ _ _ a b => some (p, [a, b], fin)
  | _ => none

/-- A branch on a predicate. -/
def branchesOn (p : BitVec 3) : Instr → Bool
  | .brp _ q _ => q == p
  | .brnp _ q _ => q == p
  | _ => false

/-- Two words of Table 17.16. -/
def fusePair (i j : Instr) : Bool :=
  match comparesOf i with
  | some (p, _, fin) => !fin && (branchesOn p j || match j with
      | .sel _ _ _ _ q _ => q == p
      | _ => false)
  | none =>
    match i, j with
    | .lid fin d, .shli _ _ _ a _ => !fin && a == d
    | .shli fin _ d _ n, .add _ _ _ _ a b => !fin && 1 ≤ n.toNat && n.toNat ≤ 4 && (a == d || b == d)
    | .fmul fin _ _ d _ _, .fadd _ _ _ _ a b => !fin && (a == d || b == d)
    | .fmul fin _ _ d _ _, .fsub _ _ _ _ a b => !fin && (a == d || b == d)
    | .sshri fin d _ _, .sandi _ _ a _ => !fin && a == d
    | _, _ => false

/-- The loop close of Table 17.16. -/
def fuseLoop (i j k : Instr) : Bool :=
  match i, j with
  | .addi fin _ _ d _, .icmp fin' p _ _ _ _ a b => !fin && !fin' && (a == d || b == d) && branchesOn p k
  | _, _ => false

/-- The instruction at an address, if the issuing group's fetch of it succeeds. -/
def State.wordAt (s : State) (va : Quad) : Option Instr :=
  match s.fetchAt va with
  | .word _ w => decodeWord w
  | _ => none

/-- Words of the fused group of Table 17.16 that stands at the issue address of a group; 1 for a word that is not fused. -/
def State.fuseLen (s : State) (gid : Nat) : Nat :=
  let s : State := { s with cur := gid }
  let va := if s.grp.runOpen then s.grp.a else s.grp.minPc
  match s.wordAt va, s.wordAt (va + 4) with
  | some i, some j =>
    if fusePair i j then 2
    else match s.wordAt (va + 8) with
      | some k => if fuseLoop i j k then 3 else 1
      | none => 1
  | _, _ => 1

/-- A group's word has issued, and no lane of it has faulted. -/
def Group.wentOn (g before : Group) : Bool :=
  g.movedFrom before && g.parked &&& ~~~before.parked == 0 && g.inTrap &&& ~~~before.inTrap == 0

/-- Further words of a group issue in its slot; none when one of them would stall or fault (R296). -/
def State.fuseTail (s : State) (n gid : Nat) : Nat → Option State
  | 0 => some s
  | k + 1 =>
    match s.slotFor n gid with
    | .next t => if (t.group gid).wentOn (s.group gid) then t.fuseTail n gid k else none
    | _ => none

/-- A slot of a group: its word, and the words that are fused with it (R296). -/
def State.wordsFor (s : State) (n gid : Nat) : Out :=
  match s.slotFor n gid with
  | .next t => .next (if (t.group gid).wentOn (s.group gid) then (t.fuseTail n gid (s.fuseLen gid - 1)).getD t else t)
  | o => o

/-! ### Whose slot it is (R102, R104, R128, R401) -/

/-- Groups of teams issue while work goes on, and in entry up to the end of step 2 inside their runs (R64). -/
def State.issues (s : State) (g : Group) : Bool :=
  s.pkg.running || (s.pkg.pwr == 3 && s.pkg.step < 2 && (g.runOpen || s.pkg.step == 0))

/-- A group can issue in a slot: it is active and ready, and no victim whose run has ended (R102, R104). -/
def State.canIssue (s : State) (g : Group) : Bool := g.slot.isSome && g.ready && s.issues g && !g.spent

/-- The groups of a partition that can issue in a slot: the active ready ones, but for a victim whose run has ended (R102, R104). -/
def State.issuable (s : State) (core part : Nat) : List (Nat × Group) :=
  (s.partition core part).filter fun e => s.canIssue e.2

/-- Two groups of a partition issue as one: they stand at a run opening with equal issue addresses, or at the same word of the run that
they opened together (R128). -/
def Group.gangs (g h : Group) : Bool :=
  g.team == h.team && !g.stepping && !h.stepping && g.runOpen == h.runOpen &&
    (if g.runOpen then g.gang != 0 && g.gang == h.gang && g.a == h.a else g.minPc == h.minPc)

/-- R128: the groups that issue with a group, up to four in ascending group number (R192).  (In part DESIGN CHOICE, log entry 10.) -/
def State.gangOf (s : State) (gid : Nat) : List Nat :=
  let g := s.group gid
  let more := ((s.issuable g.core g.part).filter fun e => e.1 != gid && g.gangs e.2).take 3
  match more with
  | [] => [gid]
  | _ =>
    let ms := (gid, g) :: more
    (List.range 64).filterMap fun n => (ms.find? fun e => e.2.num == n).map (·.1)

/-- A member of a gang waits at its word for memory, or for a release: what it did in a slot is `t`. -/
def State.waitsIn (t s : State) (gid : Nat) : Bool :=
  !(t.group gid).movedFrom (s.group gid) && (t.due != s.due || (t.group gid).relWait.isSome)

/-- The members of a gang issue, one after the other, up to one that waits at its word; one that an earlier member has stopped leaves the gang.  (In part
DEDUCED, log entry 10.) -/
def State.gangSlots (s : State) (n : Nat) : List Nat → Out
  | [] => .next s
  | gid :: rest =>
    if !s.canIssue (s.group gid) then s.gangSlots n rest
    else match s.wordsFor n gid with
      | .next t => if t.waitsIn s gid then .next t else t.gangSlots n rest
      | o => o

/-- What the slot comes to when the first member of a gang that waits at its word for memory, or for a release, keeps the others with it: no member's access
goes before a lower one's (R192).  (In part DEDUCED, log entry 10.) -/
def State.gangWaits (s : State) (n : Nat) : List Nat → Option State
  | [] => none
  | gid :: rest =>
    match s.wordsFor n gid with
    | .next t => if t.waitsIn s gid then some t else s.gangWaits n rest
    | _ => s.gangWaits n rest

/-- R128: the members that have come to the same word of a run stay together. -/
def State.keepGang (s : State) (n : Nat) (ms : List Nat) : State :=
  let lead := s.group (ms.headD 0)
  ms.foldl (fun s gid => s.updGroup gid fun g => { g with
    gang := if !lead.runOpen || !g.runOpen || g.a != lead.a then 0 else if lead.gang != 0 then lead.gang else n }) s

/-- An issue slot given to a group, and to those that gang with it (R102, R128). -/
def State.issueFor (s : State) (gid : Nat) : Out :=
  let n := s.fresh
  match s.gangOf gid with
  | [m] => ({ s with fresh := n + 1 } : State).wordsFor n m
  | ms =>
    let s := ({ s with fresh := n + 1 } : State)
    match s.gangWaits n ms with
    | some t => .next t
    | none =>
      match s.gangSlots n ms with
      | .next t => .next (t.keepGang n ms)
      | o => o

/-- R104: the victim of a swap that is owed, while it can issue. -/
def State.favoured (s : State) (core part : Nat) : Option Nat :=
  if s.swapOwed core part then ((s.issuable core part).find? fun e => e.2.chosen).map (·.1) else none

/-- An issue slot that THROTTLE leaves to a partition (R102, R104): it is the victim's, and another group's when the victim stalls in it. -/
def State.openSlot (s : State) (core part : Nat) : Out :=
  match s.favoured core part with
  | some v =>
    match s.issueFor v with
    | .next t =>
      if (t.group v).movedFrom (s.group v) then .next t
      else match oldest ((t.issuable core part).filter fun e => e.1 != v) with
        | some gid => t.issueFor gid
        | none => .next t
    | o => o
  | none =>
    match oldest (s.issuable core part) with
    | some gid => s.issueFor gid
    | none => .next s

/-- The last seven issue slots of a partition (R401). -/
def State.recentSlots (s : State) (core part : Nat) : List Bool := (s.core core).recent.getD part []

/-- R401: a slot in which a partition may not issue, since 8 − THROTTLE of the last eight, this one among them, would be more. -/
def State.throttled (s : State) (core part : Nat) : Bool := 8 - s.pkg.throttle ≤ (s.recentSlots core part).count true

/-- R401: a slot of a partition has passed. -/
def State.noteSlot (s : State) (core part : Nat) (issued : Bool) : State :=
  s.updCore core fun c => { c with recent := c.recent.set part ((issued :: c.recent.getD part []).take 7) }

/-- A group of the partition has issued between two states. -/
def State.issuedIn (t s : State) (core part : Nat) : Bool := (s.partition core part).any fun e => (t.group e.1).movedFrom e.2

/-- An issue slot of a partition (R102, R401). -/
def State.issueSlot (s : State) (core part : Nat) : Out :=
  if s.pkg.throttle == 0 then s.openSlot core part
  else if s.throttled core part then .next (s.noteSlot core part false)
  else
    match s.openSlot core part with
    | .next t => .next (t.noteSlot core part (t.issuedIn s core part))
    | o => o

/-- The Ozyth core can issue. -/
def State.ozReady (s : State) : Bool :=
  s.oz.running && !s.oz.halted && (s.group ozGid).ready && (!s.oz.waiting || s.oz.enabled != 0)

/-- An issue slot of the Ozyth core (R398 to R400): an interrupt comes before a run opens. -/
def State.ozSlot (s : State) : Out :=
  if !s.ozReady then .next s
  else
    let s := { s with oz := { s.oz with waiting := false } }
    if s.irqDue then .next s.takeInterrupt else ({ s with fresh := s.fresh + 1 } : State).slotFor s.fresh ozGid

/-! ### What the machine does by itself (log entry 2) -/

/-- An event that the machine owes. -/
def State.runOwed (s : State) : Owed → Out
  | .translationRequest die asid va acc core => execTranslationRequest die asid va acc core s
  | .attributeReturn core asid va => execAttributeReturn core asid va s
  | .lightFaultService asid va => execLightFaultService asid va s
  | .walkPost asid va acc => .next (s.callWalk asid va acc)
  | .l2Miss asid va acc => execL2Miss asid ⟨va, acc⟩ s
  | .atomicMerge core asid va => execAtomicMerge core asid va s
  | .atomicEvict core asid va => .next (s.evictEntry core asid va)
  | .bankAccess pa => execBankAccess pa s
  | .bankStoreAck asid va => execBankStoreAck asid va s
  | .combUpdate asid va => execCombUpdate asid va s
  | .writeUpdate slice core => execWriteUpdate slice core s
  | .storeAck n => execStoreAck n s
  | .roundInstall core c => execRoundInstall core c s
  | .roundPush core => execRoundPush core s
  | .roundIncrement gid => execRoundIncrement gid s
  | .rowRequestComplete stack id => execRowRequestComplete stack id s
  | .handleSlice gid => execHandleSliceOperation gid s
  | .migration src => execMigration src s
  | .collAbort slot die status silent => execCollAbortFlit slot die status silent s
  | .collReform slot die gen silent => .next (s.reformFlit slot die gen silent)
  | .collResume slot die => .next (s.resumeFlit slot die)

/-- A group that ends stops at its run boundary, or at a word that counts as one, and exits (R80, R171, R390). -/
def State.stopEnding (s : State) (gid : Nat) : State :=
  let g := s.group gid
  if g.ending && !g.gone && !g.oz && g.exited != allLanes && s.atCancelPoint gid then s.endGroup gid else s

/-- The events that may end the wait of a group, or let it go on; a group that stops for good does so first. -/
def groupEvents (gid : Nat) : List (State → Out) :=
  [fun s => .next (s.stopEnding gid), execSiblingCancelStop gid,
   execFenceComplete gid, execWaitcReturn gid, execBarrierPhaseComplete gid, execSywWaitReturn gid, execQueuePopReturn gid,
   execSweepWaitReturn gid, execRoundIncrement gid, fun s =>
     if (s.group gid).runOpen then .next s else execJoinComplete gid s, execGroupActivate gid, fun s =>
     let g := s.group gid
     match (s.partition g.core g.part).find? fun e => e.2.spent with
     | some v => if s.waiting g.core g.part == some gid then execGroupSwap gid v.1 s else .next s
     | none => .next s]

/-- Every active ready group of the partition has had an issue slot since the group's last one: a result takes longer than a round of issue
slots, so that no group of the partition waits behind the polls of the others (R131). -/
def State.roundOver (s : State) (gid : Nat) (g : Group) : Bool :=
  g.oz || (s.partition g.core g.part).all fun e =>
    e.1 == gid || e.2.slot.isNone || !e.2.ready || !s.issues e.2 || g.lastIssue < e.2.lastIssue

/-- The first result of a group that may commit. -/
def State.commitEvents (s : State) (gid : Nat) (g : Group) : List (State → Out) :=
  if !s.roundOver gid g then [] else
  match (List.range g.pend.length).find? (s.canCommit gid) with
  | some k => [execResultCommit gid k]
  | none => []

/-- The events of a command. -/
def commandEvents (id : Nat) : List (State → Out) :=
  [execTaskLeave id, execMatrixStepRun id, execCopyChunkWrite id, execEngineCommandComplete id, execRowRequestAccept id,
   execCollRoundOpen id]

/-- A ring whose WAIT is over. -/
def State.waitOver (s : State) (n : Nat) : Bool :=
  match (s.ring n).phase with
  | .wait va v => match s.tryWait n va v with
    | .goesOn _ => false
    | _ => true
  | _ => false

/-- The events of a command ring: the operation of the entry that it takes next, and the end of the phase in progress. -/
def State.ringEvents (s : State) (n : Nat) : List (State → Out) :=
  (if s.mayTake n then
    [execRingNop n, execRingLaunch n, execRingWrite n, execRingWait n, execRingCopy n, execCtxSet n, execCtxKill n, execRingRegion n, execPurge n,
     execAnswer n, execAttest n] else []) ++
  (if s.waitOver n then [execRingWaitPoll n] else []) ++
  [execRingCopyDone n, execGridAccept n] ++
  (match (s.ring n).phase with
   | .kill _ => [execCtxKill n]
   | .purge .. => [execPurge n]
   | _ => [])

/-- The events of the rings of collectives that pass by themselves: silences that have lasted, and the rounds of a ring whose members are all of
this package. -/
def State.collEvents (s : State) : List (State → Out) := s.rings.flatMap fun e =>
  (e.2.seats.flatMap fun d =>
    (if s.upWaits e.1 d.1 && d.2.heard + 1000 ≤ s.pkg.now then [execCollWaitFlit e.1 d.1] else []) ++
    [execCollTimeout e.1 d.1, execCollProbe e.1 d.1, execCollProbeTimeout e.1 d.1 false, execReformReturnTimeout e.1 d.1,
     fun s => .next (s.settleReform e.1 d.1)]) ++
  (e.2.rounds.flatMap fun x =>
    if ((e.2.seats.get? x.die).map (·.members)).any fun ms => ms.all fun m => m.1 == s.pkg.id then [execCollRoundComplete e.1 x.num true []] else [])

/-- The events of a grid: what it places next comes to the first place where it fits. -/
def State.gridEvents (s : State) (grid : Nat) : List (State → Out) :=
  (match s.nextSaved grid with
   | some t => ((List.range 576).find? fun c => s.savedFits t c []).toList.map fun c => execTeamReplace t c
   | none => if s.hasUnplaced grid then ((List.range 576).find? fun c => s.clusterFits grid c []).toList.map fun c => execTeamPlace grid c else []) ++
  (if s.wants grid && (s.grid grid).since + 1000000 ≤ s.pkg.now then [execReserveTimeout grid] else []) ++
  (if s.wants grid && (s.grid grid).priority == 3 && (s.grid grid).since + 50000 ≤ s.pkg.now then
     (List.range 24).map fun d => execPreemptTimeout grid d else []) ++
  [execGridReady grid, execGridDone grid, execPostDecide grid, execHoldTimeout grid] ++
  ((List.range (match (s.grid grid).ballot with | some b => b.sibs.length | none => 0)).map fun k => execSiblingRelease grid k)

/-- The bounds of links and of power that have passed: a retraining, the master's silence, the host's answer to an entry, engine commands in entry, and
fences that wait for a failing link (R16, R22, R64, R66, R76, R189). -/
def State.boundEvents (s : State) : List (State → Out) :=
  (s.ports.filter fun e => s.retrainOver e.1).map (fun e => execRetrainTimeout e.1) ++
  (if s.pkg.masterSilent then [execMasterTimeout] else []) ++
  (if s.pkg.vetoOver then [execEntryVetoTimeout] else []) ++
  (if s.pkg.entryLate then (s.cmds.map fun e => execEntryCommandTerminate e.1) ++ s.host.rings.map (fun e => execEntryCommandTerminate (ringCopyId e.1))
    else []) ++
  s.groups.flatMap fun e => (s.failingLinks e.1).map fun x => execFenceLinkTimeout e.1 x.1 x.2

/-- The events that nothing outside has to bring about, in the order in which the machine looks for one that does something. -/
def State.ownEvents (s : State) : List (State → Out) :=
  [fun s => if s.pkg.pwr == 0 then execPackageReset s else .next s, execMemoryInitialisationDone, execFwLoadDone, execClkStable,
   fun s => if s.pkg.pwr == 3 then execBrownOutEntry s else .next s, execResumption, execHoldExpiry, execHeldEventPost, execOzTimer] ++
  s.boundEvents ++
  (s.cores.flatMap fun e => (e.2.abuf.filter (·.due)).map fun a s => .next (s.retryMerge e.1 a)) ++
  (s.dram.flatMap fun e => (e.2.reqs.filter fun r => s.hurried r).map fun r => execHurryActivation e.1 r.id) ++
  (s.groups.flatMap fun e => s.commitEvents e.1 e.2) ++
  (s.groups.flatMap fun e => groupEvents e.1) ++
  (s.cmds.flatMap fun e => commandEvents e.1) ++
  (s.sliceq.map execHandleSliceOperation) ++
  ((List.range 24).map execPfxInsertDecide) ++
  (s.freedPages.map fun p => execDeferredPageFree p.ctx p.page) ++
  (s.migrs.map fun m => execMigration m.src) ++
  (s.host.rings.flatMap fun e => s.ringEvents e.1) ++
  ((s.teams.filter fun e => e.2.waitOut.isSome).map fun e => execPreBoundExpiry e.1) ++
  (s.teams.map fun e => execSaveClose e.1) ++
  s.collEvents ++
  (s.grids.flatMap fun e => s.gridEvents e.1)

/-- The first event that changes the state. -/
def State.firstEvent (s : State) : List (State → Out) → Option State
  | [] => none
  | f :: fs => match f s with
    | .next t => if t = s then s.firstEvent fs else some t
    | _ => s.firstEvent fs

/-- Whose turn it is: of the groups that could issue, the one that has gone longest without a turn. -/
def State.nextIssuer (s : State) : Option Nat :=
  let active := s.groups.filter fun e => !e.2.oz && e.2.slot.isSome && e.2.ready && !e.2.gone && s.issues e.2 && !e.2.spent
  ((active ++ (if s.ozReady then [(ozGid, s.group ozGid)] else [])).foldl (fun (b : Option (Nat × Nat)) e =>
    match b with
    | some h => if e.2.turn < h.2 then some (e.1, e.2.turn) else b
    | none => some (e.1, e.2.turn)) none).map (·.1)

/-- The turn of a group: its partition has an issue slot, in which R102 and R104 say who issues. -/
def State.giveTurn (s : State) (gid : Nat) : Out :=
  let s := ({ s with fresh := s.fresh + 1 } : State).updGroup gid fun g => { g with turn := s.fresh }
  if gid = ozGid then s.ozSlot else s.issueSlot (s.group gid).core (s.group gid).part

/-- A step that nothing outside moves: what the machine owes, one of its own events, or an issue slot. -/
def State.auto (s : State) : Out :=
  match s.due with
  | o :: rest => State.runOwed { s with due := rest } o
  | [] =>
    match s.firstEvent s.ownEvents with
    | some t => .next t
    | none =>
      match s.nextIssuer with
      | some gid => s.giveTurn gid
      | none => .next s

/-- What follows every step: ballots and grids whose state the step has decided, and pending groups that have become ready (R91, R103, R242,
R243). -/
def State.settle (s : State) : State := s.settleBallots.settleGrids.settleReady.settleStops

end Sys2Proof.Machine
end

