-- ==== Sys2Proof/Machine/Step.lean ====
section
/-! DEFINITION. Step: one step of the machine, and the placement of a word where the next step fetches. -/

namespace Sys2Proof.Machine

/-- What the agenda names happens. -/
def State.perform (s : State) : Act → Host.Outcome State Fault Refusal
  | .event i => if i.isEvent then exec i s else .fault .notAnEvent
  | .issue core part => s.issueSlot core part
  | .oz => s.ozSlot
  | .drain port vc n => .next (s.updPort port fun p => p.drain vc n)
  | .send port vc payload => .next (s.updPort port fun p => p.sendData vc payload)
  | .idle port => .next (s.updPort port Port.sendIdle)
  | .bitError pa bit => .next (s.bitErr pa bit)
  | .dramTemp stack temp => .next (s.updStack stack fun st => { st with temp })
  | .stage off bytes => .next (s.stage off bytes)

/-- One step: the next entry of the agenda after its ticks, or what the machine does by itself in a tick (log entry 2). -/
def step (s : State) : Host.Outcome State Fault Refusal :=
  let o := match s.agenda with
    | [] => (s.advance 1).auto
    | a :: rest => ({ s with agenda := rest }.advance a.ticks).perform a.act
  match o with
  | .next t => .next t.settle
  | .fault r => .fault r
  | .refused r => .refused r

/-- Where `withFetchWord` puts the word of a group. -/
def fetchPc : Quad := 0x10000

/-- The attributes of a page that a fetch may read. -/
def fetchPage : PacEntry where
  asid := 1
  va := fetchPc.toNat
  w := false
  x := true
  d := false
  grain := 1
  big := false

/-- The word stands where the Ozyth core fetches next. -/
def State.withOzWord (s : State) (w : Nat) : State :=
  let g := { s.group ozGid with
    oz := true, core := ozCore, exited := 0xFFFE, joined := 0, parked := 0, arrived := 0, runOpen := false, block := .none
    stopped := false, stopDue := false, saving := false, ending := false, cancel := false, fence := none, acq := none, gone := false, pend := [], owed := [], pcs := [(0, 0x0000E00000000000)], e := 0 }
  { s with
    groups := s.groups.set ozGid g
    oz := { s.oz with running := true, halted := false, waiting := false, ien := 0 }
    ozMem := s.ozMem.putNat 0 4 w
    agenda := [⟨0, .oz⟩] }

/-- The word stands where a group of core 0 fetches next: a group of 16 lanes alone in its partition, with its page's attributes and its
instruction-cache line at hand. -/
def State.withGroupWord (s : State) (w : Nat) : State :=
  let id := s.fresh
  let grid : Grid := { Grid.init with ctx := 1, num := 1, st := .running, record := List.replicate 128 0, mode := s.pkg.mode, order := id }
  let team : Team := { Team.init with grid := id, st := .resident, groups := [id] }
  let grp : Group := { Group.init with team := id, pcs := (List.range 16).map fun l => (l, fetchPc), slot := some 0 }
  let s := { s with
    pkg := { s.pkg with pwr := 2 }
    fresh := id + 1
    grids := s.grids.set id grid
    teams := s.teams.set id team
    groups := Tbl.set (s.groups.map fun (e : Nat × Group) =>
      if e.2.core = 0 && e.2.part = 0 then (e.1, { e.2 with slot := none }) else e) id grp
    agenda := [⟨0, .issue 0 0⟩] }
  let s := s.updCtx 1 fun c => { c with live := true, asid := 1 }
  s.updCore 0 fun c => { c with
    pac := fetchPage :: c.pac.filter fun p => p.asid != 1
    icache := c.icache.set (icKey 1 (fetchPc.toNat / 128)) (Memory.putNat [] 0 4 w) }

/-- `s` with an instruction stored where `step` fetches its next one: the words that only the Ozyth core executes stand in its private
memory, every other word in a group's program. -/
def State.withFetchWord (s : State) (nbits w : Nat) : State :=
  let w := w % 2 ^ nbits % 2 ^ 32
  match decodeWord (BitVec.ofNat 32 w) with
  | some .wfi => s.withOzWord w
  | some .iret => s.withOzWord w
  | _ => s.withGroupWord w

end Sys2Proof.Machine
end

