-- ==== Sys2Proof/Safety.lean ====
section
/-! DEFINITION. Safety: what a step may not break, and the vocabulary of the claims: what it means that a word is clear to issue, that
nothing but the issuing group changes, and that the group stands past a word. -/

namespace Sys2Proof.Machine

/-- The state's memories have their canonical form. -/
def State.memWf (s : State) : Bool := s.mem.wf && s.peerMem.wf && s.ozMem.wf && s.hostMem.wf && s.host.staging.wf

/-- A step that answers a next state. -/
def stepsTo (s t : State) : Prop := step s = .next t

namespace Claims

/-- The word passes checks 3 to 6 of Table 17.15, and nothing of R122, R184 and R217 holds it back. -/
def clear (w : WordInfo) (s : State) : Prop := s.checkWord w = none ∧ s.mustStall w = false

/-- Nothing outside the issuing group changes: every other field of the machine and every other group are as before.  The number of the
next free value may rise, and a command of the task table may note that a register which it holds is to be freed after its read (R217). -/
def othersSame (s t : State) : Prop :=
  { t with groups := s.groups, free := s.free, cmds := s.cmds } = s ∧
  (∀ n, n ≠ s.cur → t.group n = s.group n) ∧
  ∀ n, (t.cmds.get? n).map (fun c => { c with freeAfter := [] }) = (s.cmds.get? n).map (fun c => { c with freeAfter := [] })

/-- What a word that changes only registers leaves alone in its group: everything but the vector, scalar and predicate registers, the
results under way, and the group's place in its run. -/
def groupRest (g h : Group) : Prop :=
  { h with
    v := g.v, vseed := g.vseed, freed := g.freed, s := g.s, p := g.p, pend := g.pend, pcs := g.pcs, arrived := g.arrived, a := g.a
    runOpen := g.runOpen, runLen := g.runLen, words := g.words, hx := g.hx, hm := g.hm, hg := g.hg, trail := g.trail
    stopped := g.stopped, stopDue := g.stopDue, stepping := g.stepping, stopNote := g.stopNote, e := g.e, split := g.split, gang := g.gang
    relWait := g.relWait } = g

/-- The run ends at a word: its S bit is 1, or no lane of E is left (R119). -/
def ends (fin : Bool) (g : Group) : Bool := fin || g.e == 0

/-- A and E after a word of a group whose lanes have moved (R114): the next word with the same lanes or, where lanes have left E at this word and the run
goes on, the lowest eligible program counter, with the lanes of E that stand there, or else all that do. -/
def standsAt (fin : Bool) (g h : Group) : Prop :=
  if ends fin g || !g.split then h.a = g.a + 4 ∧ h.e = g.e
  else h.a = ({ g with pcs := h.pcs } : Group).minPc ∧ h.e = ({ g with pcs := h.pcs } : Group).openE h.a

/-- The group stands past a word that is not a control word: the lanes of E at the next address, every other lane where it was; the word is
counted, the hints attached to it are gone (R281), and its run goes on or ends (R119). -/
def past (fin : Bool) (g h : Group) : Prop :=
  (∀ l, l < 16 → h.pc l = if g.e.getLsbD l then g.a + 4 else g.pc l) ∧
  standsAt fin g h ∧ h.hx = none ∧ h.hm = none ∧ h.hg = none ∧ h.words = g.words + 1 ∧
  h.runOpen = (g.runOpen && !ends fin g) ∧ h.runLen = (if ends fin g then 0 else g.runLen + 1)

/-- The results under way after a word that made the results `new`: at the run's end those of temporaries are gone and the others may
commit (R121, R122). -/
def pendAfter (fin : Bool) (g : Group) (new : List Pending) : List Pending :=
  if ends fin g then ({ g with pend := g.pend ++ new } : Group).endRun.pend else g.pend ++ new

/-- A word's general effect: it completes, and leaves alone what a register word leaves alone. -/
def completes (i : Instr) (w : WordInfo) (new : Group → List Pending) (s t : State) : Prop :=
  exec i s = .next t ∧ othersSame s t ∧ groupRest s.grp t.grp ∧ past w.fin s.grp t.grp ∧
  t.grp.pend = pendAfter w.fin s.grp (new s.grp)

/-- The last-use bits of a word leave a lane of a register alone: they free lanes of E only (R113, R313), but for the word that frees in every lane
(R306). -/
def notFreed (w : WordInfo) (s : State) (r l : Nat) : Prop := r ∉ w.frees ∨ (w.freesAll = false ∧ s.grp.e.getLsbD l = false)

/-- The vector registers but those in `ds`, in the lanes of E, and what a last-use bit frees, hold their values. -/
def vectorsKept (w : WordInfo) (ds : List Nat) (s t : State) : Prop :=
  ∀ r l, l < 16 → notFreed w s r l → (r ∉ ds ∨ s.grp.e.getLsbD l = false) → t.grp.readV r l = s.grp.readV r l

/-- A fixed-latency word that writes vD in the lanes of E (R297, R313). -/
def vectorResult (i : Instr) (w : WordInfo) (d : Nat) (f : Group → Nat → Word) (s : State) : Prop :=
  clear w s → ∃ t, completes i w (fun _ => []) s t ∧ vectorsKept w [d] s t ∧ t.grp.s = s.grp.s ∧ t.grp.p = s.grp.p ∧
    ∀ l, l < 16 → s.grp.e.getLsbD l = true → t.grp.readV d l = f s.grp l

/-- A long-latency word whose result, in the lanes of E, is under way to vD (R120). -/
def vectorLong (i : Instr) (w : WordInfo) (d : Nat) (f : Group → Nat → Word) (s : State) : Prop :=
  clear w s → ∃ t, completes i w (fun g => [⟨.lanes d ((lanesOf g.e).map fun l => (l, f g l)), true, false, false, [], 0⟩]) s t ∧
    vectorsKept w [] s t ∧ t.grp.s = s.grp.s ∧ t.grp.p = s.grp.p

/-- A word that writes sD once for the pass; a write to s0 is discarded (R275, R297). -/
def scalarResult (i : Instr) (w : WordInfo) (d : Nat) (f : Group → Quad) (s : State) : Prop :=
  clear w s → ∃ t, completes i w (fun _ => []) s t ∧ vectorsKept w [] s t ∧ t.grp.p = s.grp.p ∧
    ∀ r, t.grp.readS r = if r = d ∧ d ≠ 0 then f s.grp else s.grp.readS r

/-- A word that writes pD in the lanes of E (R320). -/
def predResult (i : Instr) (w : WordInfo) (d : Nat) (f : Group → Nat → Bool) (s : State) : Prop :=
  clear w s → ∃ t, completes i w (fun _ => []) s t ∧ vectorsKept w [] s t ∧ t.grp.s = s.grp.s ∧
    ∀ q l, l < 16 → t.grp.readP q l = if q = d ∧ s.grp.e.getLsbD l = true then f s.grp l else s.grp.readP q l

/-- The word `i` completes with the own effect `u`: apart from moving past the word, and its last-use frees, the next state is `u`. -/
def effect (i : Instr) (w : WordInfo) (u s : State) : Prop :=
  ∃ t, exec i s = .next t ∧ othersSame u t ∧ groupRest u.grp t.grp ∧ past w.fin u.grp t.grp ∧
    t.grp.pend = pendAfter w.fin u.grp [] ∧ vectorsKept w [] u t ∧ t.grp.s = u.grp.s ∧ t.grp.p = u.grp.p

/-- The control word `i` completes: each lane of E goes to its target, the run ends (R119), a destination takes the low half of the address
after the word, and no other register changes (R298, R300). -/
def transfer (i : Instr) (w : WordInfo) (target : Nat → Quad) (arrived : Mask) (s : State) : Prop :=
  ∃ t, exec i s = .next t ∧ othersSame s t ∧ groupRest s.grp t.grp ∧
    (∀ l, l < 16 → t.grp.pc l = if s.grp.e.getLsbD l then target l else s.grp.pc l) ∧ t.grp.arrived = arrived ∧
    t.grp.e = s.grp.e ∧ t.grp.runOpen = false ∧ t.grp.runLen = 0 ∧ t.grp.hx = none ∧ t.grp.hm = none ∧ t.grp.hg = none ∧
    t.grp.pend = pendAfter true s.grp [] ∧ vectorsKept w w.vw s t ∧ t.grp.s = s.grp.s ∧ t.grp.p = s.grp.p ∧
    ∀ r l, l < 16 → r ∈ w.vw → s.grp.e.getLsbD l = true → t.grp.readV r l = (s.grp.a + 4).extractLsb' 0 32

/-- R127: every sub-group of the group register that holds a lane of E lies wholly in E, or the word carries `.part`. -/
def noAbsent (part : Bool) (gr : BitVec 3) (g : Group) : Prop :=
  part = true ∨ ∀ l m, l < 16 → m < 16 → l / g.subWidth gr.toNat = m / g.subWidth gr.toNat →
    g.e.getLsbD l = true → g.e.getLsbD m = true

/-- Lane l has taken a fault of the code at its program counter (R170): the program counter, the code and the address are saved, in.trap is
1, and the lane stands at its vector. -/
def trapped (s t : State) (l code : Nat) (addr : Quad) : Prop :=
  t.grp.epc.getD l 0 = s.grp.pc l ∧ t.grp.cause.getD l 0 = BitVec.ofNat 64 code ∧ t.grp.taddr.getD l 0 = addr ∧
  t.grp.inTrap.getLsbD l = true ∧ t.grp.pc l = s.grp.trapBase + BitVec.ofNat 64 (0x40 * code) ∧
  t.grp.parked.getLsbD l = false

/-- Every lane of E has taken the fault, and lane l, at its vector, is outside the issuing set. -/
def delivered (s t : State) (l code : Nat) (addr : Quad) : Prop := trapped s t l code addr ∧ t.grp.e.getLsbD l = false

/-- The lanes of the group that a fault is delivered to: the group has a vector table, no lane of E is in a handler (R170), and no fence that the fault
would wait for is incomplete (R184). -/
def canTrap (g : Group) : Prop := g.trapBase ≠ 0 ∧ g.inTrap &&& g.e = 0 ∧ g.fence = none

/-- No register of the group changes but for undefined values that a last-use free leaves. -/
def registersKept (w : WordInfo) (s t : State) : Prop := vectorsKept w [] s t ∧ t.grp.s = s.grp.s ∧ t.grp.p = s.grp.p

/-- The byte that the home slice of a line holds for an address of an address space, if it holds the line. -/
def homeByte (s : State) (asid va : Nat) : Option Byte := (s.l2.get? (lineKey asid (va / 512))).map fun l => l.data.byte (va % 512)

/-- Ring n takes its next entry, which is of an operation, has no reserved field, and stands in an admin ring when it has to (R72, R76). -/
def takes (s : State) (n op : Nat) : Prop :=
  s.mayTake n = true ∧ fld (s.entryBytes n) 0 1 = op ∧ entryReserved (s.entryBytes n) = false ∧ (6 ≤ op → (s.ring n).admin = true)

/-- The machine `u`, whose ring n has taken the entry that it has next in `s`: RP has moved past it, and NOTIFY, TAG and its pointer are kept (R72). -/
def takenIn (s u : State) (n : Nat) : State :=
  u.updHostRing n fun r => { r with
    rp := (s.ring n).rp + 1, entry := (fld (s.entryBytes n) 1 1 % 2 == 1, fld (s.entryBytes n) 2 2, (s.ring n).rp) }

/-- The machine whose ring n has taken its next entry. -/
def taken (s : State) (n : Nat) : State := takenIn s s n

/-- The accesses that an operation of device agents makes have been made at their banks (R45, R54). -/
def touched (s : State) (needs : List Need) : State := needs.foldl (fun s e => if e.touch then s.agentTouch e.asid e.va else s) s

/-- What device agents are about to access is at hand: nothing of it is waited for, and the host has failed no walk (R155, R163, R425). -/
def atHand (s : State) (needs : List Need) : Prop :=
  (∀ w ∈ s.hostWalks, w.failed = none) ∧ ∀ e ∈ needs, s.agentWait e.asid e.va e.acc = none

/-- The event halts ring n at the entry that it takes in the machine `u`, with no other effect (R76). -/
def haltsIn (i : Instr) (n err : Nat) (s u : State) : Prop :=
  exec i s = .next ((takenIn s u n).updHostRing n fun r => { r with state := 2, err, at_ := (s.ring n).rp, phase := .none })

/-- The event halts ring n at the entry that it takes, and accesses nothing (R76). -/
def haltsRing (i : Instr) (n err : Nat) (s : State) : Prop := haltsIn i n err s s

/-- The event `e` lets the word return that group `gid` waits at: the group, with the own effect `eff` of the word, stands past it. -/
def returns (e : Instr) (gid : Nat) (eff : State → State) (s : State) : Prop :=
  let u := eff (({ s with cur := gid } : State).setGrp { s.group gid with block := .none })
  ∃ t, exec e s = .next { t with cur := s.cur } ∧ othersSame u t ∧ groupRest u.grp t.grp ∧ past (s.group gid).blockFin u.grp t.grp ∧
    t.grp.pend = pendAfter (s.group gid).blockFin u.grp [] ∧ t.grp.v = u.grp.v ∧ t.grp.s = u.grp.s ∧ t.grp.p = u.grp.p

/-- A result that has returned inside its run. -/
def returned (r : Result) : Pending := ⟨r, true, false, false, [], 0⟩

end Claims

end Sys2Proof.Machine
end

