-- ==== Sys2Proof/Certificates/Slice0/Obligations.lean ====
section
/-! DEFINITION. Obligations: the statements for the provers. -/

open Sys2Proof Sys2Proof.Machine Sys2Proof.Machine.Claims

/-! ### Register words (chapters 18 and 19) -/

/-- R315, Table 19.1: the vector integer words write in each lane of E the value of the table, and leave alone what a register word leaves
alone. R316, Table 19.3: the vector words with an immediate i, which is the sign-extended field, or with an `hx` of payload h the
sign-extended 30-bit value h × 2⁸ + IMM8. -/
def Obligations.VectorWords : Prop :=
  (∀ (fin la lb : Bool) (d a b : BitVec 7) (s : State),
     let result := fun (i : Instr) (f : Word → Word → Word) =>
       vectorResult i (infoA fin la lb d a b) d.toNat (fun g l => f (g.readV a.toNat l) (g.readV b.toNat l)) s
     result (.add fin la lb d a b) (fun x y => BitVec.ofNat 32 (x.toNat + y.toNat)) ∧
     result (.sub fin la lb d a b) (fun x y => BitVec.ofInt 32 ((x.toNat : Int) - y.toNat)) ∧
     result (.and fin la lb d a b) (fun x y => x &&& y) ∧
     result (.or fin la lb d a b) (fun x y => x ||| y) ∧
     result (.xor fin la lb d a b) (fun x y => x ^^^ y) ∧
     result (.shl fin la lb d a b) (fun x y => BitVec.ofNat 32 (x.toNat * 2 ^ (y.extractLsb' 0 5).toNat)) ∧
     result (.shr fin la lb d a b) (fun x y => BitVec.ofNat 32 (x.toNat / 2 ^ (y.extractLsb' 0 5).toNat)) ∧
     result (.sra fin la lb d a b) (fun x y => BitVec.ofInt 32 (x.toInt / 2 ^ (y.extractLsb' 0 5).toNat)) ∧
     result (.mul fin la lb d a b) (fun x y => BitVec.ofNat 32 (x.toNat * y.toNat)) ∧
     result (.mulhS fin la lb d a b) (fun x y => (BitVec.ofInt 64 (x.toInt * y.toInt)).extractLsb' 32 32) ∧
     result (.mulhN fin la lb d a b) (fun x y => (BitVec.ofNat 64 (x.toNat * y.toNat)).extractLsb' 32 32) ∧
     result (.minS fin la lb d a b) (fun x y => BitVec.ofInt 32 (min x.toInt y.toInt)) ∧
     result (.maxS fin la lb d a b) (fun x y => BitVec.ofInt 32 (max x.toInt y.toInt)) ∧
     result (.minN fin la lb d a b) (fun x y => BitVec.ofNat 32 (min x.toNat y.toNat)) ∧
     result (.maxN fin la lb d a b) (fun x y => BitVec.ofNat 32 (max x.toNat y.toNat)) ∧
     result (.absdS fin la lb d a b) (fun x y => BitVec.ofNat 32 (x.toInt - y.toInt).natAbs)) ∧
  (∀ (fin la : Bool) (imm : BitVec 8) (n : BitVec 5) (d a : BitVec 7) (s : State),
     let i := fun (g : Group) => match g.hx with
       | none => BitVec.ofInt 32 imm.toInt
       | some h => BitVec.ofInt 32 (BitVec.ofNat 30 (h.toNat * 2 ^ 8 + imm.toNat)).toInt
     let result := fun (x : Instr) (f : Word → Word → Word) =>
       vectorResult x { infoU fin la d a with hx := true } d.toNat (fun g l => f (g.readV a.toNat l) (i g)) s
     let shift := fun (x : Instr) (f : Word → Word) =>
       vectorResult x (infoU fin la d a) d.toNat (fun g l => f (g.readV a.toNat l)) s
     result (.addi fin la imm d a) (fun x i => BitVec.ofNat 32 (x.toNat + i.toNat)) ∧
     result (.andi fin la imm d a) (fun x i => x &&& i) ∧
     result (.ori fin la imm d a) (fun x i => x ||| i) ∧
     result (.xori fin la imm d a) (fun x i => x ^^^ i) ∧
     shift (.shli fin la d a n) (fun x => BitVec.ofNat 32 (x.toNat * 2 ^ n.toNat)) ∧
     shift (.shri fin la d a n) (fun x => BitVec.ofNat 32 (x.toNat / 2 ^ n.toNat)) ∧
     shift (.srai fin la d a n) (fun x => BitVec.ofInt 32 (x.toInt / 2 ^ n.toNat)) ∧
     vectorResult (.movi fin imm d) { fin, vw := [d.toNat], hx := true } d.toNat (fun g _ => i g) s)

/-- R317 to R319: the FP32 words and the packed words complete, and write each lane (each half of it) with the result of the model's exact
arithmetic rounded once; `ffma` and `hfma` round once with the old destination as addend; `fsgn` works on bits. R322 to R324: the
conversions complete, and write each lane with the model's conversion of the source; `cvtn` and `cvtw` use the format register of the
group's team, and the Ozyth core the reset value of the format registers (R314). -/
def Obligations.FloatWords : Prop :=
  (∀ (fin la lb ty : Bool) (d a b : BitVec 7) (rm : BitVec 2) (s : State),
     let result := fun (i : Instr) (f : Nat → Nat → Nat) =>
       vectorResult i (infoA fin la lb d a b) d.toNat
         (fun g l => BitVec.ofNat 32 (f (g.readV a.toNat l).toNat (g.readV b.toNat l).toNat)) s
     let packed := fun (i : Instr) (f : Nat → Nat → Nat) =>
       vectorResult i (infoA fin la false d a b) d.toNat (fun g l =>
         let x := g.readV a.toNat l
         let y := g.readV b.toNat l
         BitVec.ofNat 32 (f (x.extractLsb' 0 16).toNat (y.extractLsb' 0 16).toNat % 2 ^ 16 +
           f (x.extractLsb' 16 16).toNat (y.extractLsb' 16 16).toNat % 2 ^ 16 * 2 ^ 16)) s
     let half := if ty then Fmt.fp16 else Fmt.bf16
     result (.fadd fin la lb d a b) Fmt.fp32.fadd ∧
     result (.fsub fin la lb d a b) Fmt.fp32.fsub ∧
     result (.fmul fin la lb d a b) Fmt.fp32.fmul ∧
     result (.fmin fin la lb d a b) (Fmt.fp32.minMax true) ∧
     result (.fmax fin la lb d a b) (Fmt.fp32.minMax false) ∧
     result (.fsgn fin la lb d a b) (fun x y => y / 2 ^ 31 * 2 ^ 31 + x % 2 ^ 31) ∧
     vectorResult (.ffma fin la lb d a b) (infoAD fin la lb d a b) d.toNat (fun g l => BitVec.ofNat 32
       (Fmt.fp32.ffma (g.readV a.toNat l).toNat (g.readV b.toNat l).toNat (g.readV d.toNat l).toNat)) s ∧
     vectorResult (.frnd fin la d a rm) (infoU fin la d a) d.toNat (fun g l => BitVec.ofNat 32
       (Fmt.fp32.rne ((Fmt.fp32.decode (g.readV a.toNat l).toNat).integral rm.toNat))) s ∧
     packed (.hadd fin la ty d a b) half.fadd ∧
     packed (.hsub fin la ty d a b) half.fsub ∧
     packed (.hmul fin la ty d a b) half.fmul ∧
     packed (.hmin fin la ty d a b) (half.minMax true) ∧
     packed (.hmax fin la ty d a b) (half.minMax false) ∧
     vectorResult (.hfma fin la ty d a b) (infoAD fin la false d a b) d.toNat (fun g l =>
       let x := g.readV a.toNat l
       let y := g.readV b.toNat l
       let z := g.readV d.toNat l
       BitVec.ofNat 32 (half.ffma (x.extractLsb' 0 16).toNat (y.extractLsb' 0 16).toNat (z.extractLsb' 0 16).toNat % 2 ^ 16 +
         half.ffma (x.extractLsb' 16 16).toNat (y.extractLsb' 16 16).toNat (z.extractLsb' 16 16).toNat % 2 ^ 16 * 2 ^ 16)) s) ∧
  (∀ (fin la : Bool) (rm : BitVec 2) (td ta n : BitVec 4) (d a : BitVec 7) (s : State),
     let format := Narrow.ofQuad (if s.grp.oz then fmtReset else s.myTeam.fmt.getD n.toNat fmtReset)
     let result := fun (i : Instr) (f : Word → Word) =>
       vectorResult i (infoU fin la d a) d.toNat (fun g l => f (g.readV a.toNat l)) s
     result (.cvt fin rm la td ta d a) (convert rm.toNat td.toNat ta.toNat) ∧
     result (.cvtn fin la n rm d a) (fun x => BitVec.ofNat 32 (format.encode rm.toNat (Fmt.fp32.decode x.toNat))) ∧
     result (.cvtw fin la n d a) (fun x => BitVec.ofNat 32 (Fmt.fp32.rne (format.decode (x.toNat % 2 ^ format.w)))))

/-- R320, R321: the compares and the predicate logic write p_D in the lanes of E and nowhere else; FUNC 2 to 5 of major 0x06 select the
words of the predicate logic, and FUNC 6 and 7 are reserved. -/
def Obligations.PredicateWords : Prop :=
  ∀ (fin x la lb : Bool) (p cond d e f : BitVec 3) (a b : BitVec 7) (s : State),
    let w : WordInfo := { fin, vr := [a.toNat, b.toNat], frees := freeIf la a.toNat ++ freeIf lb b.toNat }
    let holds := fun (lt eq : Bool) => match cond.toNat with
      | 0 => eq | 1 => !eq | 2 => lt | 3 => lt || eq | 4 => !(lt || eq) | _ => !lt
    let nan := fun (y : Word) => Fmt.fp32.decode y.toNat == Num.nan
    predResult (.icmp fin p cond x la lb a b) w p.toNat (fun g l =>
      let y := g.readV a.toNat l
      let z := g.readV b.toNat l
      if x then holds (decide (y.toNat < z.toNat)) (y == z) else holds (decide (y.toInt < z.toInt)) (y == z)) s ∧
    predResult (.fcmp fin p cond x la lb a b) w p.toNat (fun g l =>
      let y := g.readV a.toNat l
      let z := g.readV b.toNat l
      let o := (Fmt.fp32.decode y.toNat).cmp (Fmt.fp32.decode z.toNat)
      if nan y || nan z then x else holds (o == .lt) (o == .eq)) s ∧
    predResult (.pand fin d e f) { fin } d.toNat (fun g l => g.readP e.toNat l && g.readP f.toNat l) s ∧
    predResult (.por fin d e f) { fin } d.toNat (fun g l => g.readP e.toNat l || g.readP f.toNat l) s ∧
    predResult (.pxor fin d e f) { fin } d.toNat (fun g l => g.readP e.toNat l != g.readP f.toNat l) s ∧
    predResult (.pnot fin d e) { fin } d.toNat (fun g l => !g.readP e.toNat l) s ∧
    (let word := fun (func : BitVec 3) (fields : BitVec 9) => BitVec.ofBool fin ++ 0x06#5 ++ func ++ fields ++ 0#14
     decodeWord (word 2 (d ++ e ++ f)) = some (.pand fin d e f) ∧ decodeWord (word 3 (d ++ e ++ f)) = some (.por fin d e f) ∧
     decodeWord (word 4 (d ++ e ++ f)) = some (.pxor fin d e f) ∧ decodeWord (word 5 (d ++ e ++ 0#3)) = some (.pnot fin d e) ∧
     decodeWord 0x1914C000 = some (.pand false 1 2 3) ∧ decodeWord 0x1AC20000 = some (.pnot false 4 1) ∧
     ∀ x : Word, x.extractLsb' 26 5 = 0x06 → 6 ≤ (x.extractLsb' 23 3).toNat → decodeWord x = none)

/-- R305, R306: the moves. -/
def Obligations.MoveWords : Prop :=
  ∀ (fin la : Bool) (d a b : BitVec 7) (p q : BitVec 3) (x y : BitVec 6) (lane : BitVec 4) (s : State),
    let result := fun (i : Instr) (f : Word → Word) => vectorResult i (infoU fin la d a) d.toNat (fun g l => f (g.readV a.toNat l)) s
    result (.movV fin d a la) id ∧
    predResult (.pmov fin p q) { fin } p.toNat (fun g l => g.readP q.toNat l) s ∧
    vectorResult (.stov fin d x) { fin, vw := [d.toNat], sn := [x.toNat] } d.toNat
      (fun g _ => (g.readS x.toNat).extractLsb' 0 32) s ∧
    result (.clz fin d a la) (fun v => BitVec.ofNat 32 (((List.range 32).find? fun k => v.getLsbD (31 - k)).getD 32)) ∧
    result (.popc fin d a la) (fun v => BitVec.ofNat 32 ((List.range 32).filter fun k => v.getLsbD k).length) ∧
    result (.brev fin d a la) BitVec.reverse ∧
    vectorResult (.lid fin d) { fin, vw := [d.toNat] } d.toNat (fun _ l => BitVec.ofNat 32 l) s ∧
    vectorResult (.sel fin d a b p la) (infoA fin la false d a b) d.toNat
      (fun g l => if g.readP p.toNat l then g.readV a.toNat l else g.readV b.toNat l) s ∧
    scalarResult (.movS fin x y) (infoS fin [x, y]) x.toNat (fun g => g.readS y.toNat) s ∧
    scalarResult (.vtos fin x a la lane) { fin, vr := [a.toNat], sn := [x.toNat], frees := freeIf la a.toNat, freesAll := true } x.toNat
      (fun g => BitVec.ofNat 64 (g.readV a.toNat lane.toNat).toNat) s

/-- R325, R327: the special functions and the divider words complete; their results are under way to vD in the lanes of E. R209, Table 11.9:
the results of the divider. The bits that R325 leaves open are free values (the model's choice, log entry 6). -/
def Obligations.SpecialFunctionWords : Prop :=
  (∀ (fin la lb : Bool) (d a b : BitVec 7) (s : State),
     let result := fun (i : Instr) (f : Word → Word) => vectorLong i (infoU fin la d a) d.toNat (fun g l => f (g.readV a.toNat l)) s
     let divider := fun (i : Instr) (f : Word → Word → Word) =>
       vectorLong i (infoA fin la lb d a b) d.toNat (fun g l => f (g.readV a.toNat l) (g.readV b.toNat l)) s
     result (.rcp fin la d a) rcp32 ∧ result (.rsq fin la d a) rsq32 ∧ result (.sqrt fin la d a) sqrt32 ∧
     result (.exp2 fin la d a) exp2f ∧ result (.log2 fin la d a) log2f ∧ result (.sin fin la d a) sin32 ∧
     result (.cos fin la d a) cos32 ∧ result (.tanh fin la d a) tanh32 ∧
     divider (.divS fin la lb d a b) divS ∧ divider (.divN fin la lb d a b) divN ∧
     divider (.remS fin la lb d a b) remS ∧ divider (.remN fin la lb d a b) remN) ∧
  (∀ (a b : Word),
     (b ≠ 0 → ¬ (a = 0x80000000 ∧ b = 0xFFFFFFFF) →
       (divS a b).toInt = a.toInt.tdiv b.toInt ∧ (remS a b).toInt = a.toInt - a.toInt.tdiv b.toInt * b.toInt) ∧
     (b ≠ 0 → (divN a b).toNat = a.toNat / b.toNat ∧ (remN a b).toNat = a.toNat - a.toNat / b.toNat * b.toNat) ∧
     (b = 0 → divS a b = 0xFFFFFFFF ∧ remS a b = a ∧ divN a b = 0xFFFFFFFF ∧ remN a b = a) ∧
     (a = 0x80000000 → b = 0xFFFFFFFF → divS a b = 0x80000000 ∧ remS a b = 0 ∧ divN a b = 0 ∧ remN a b = a))

/-- R303, R304: the scalar words write sD once for the pass, and a write to s0 is discarded. Majors 0x0C and 0x0D hold them: in 0x0C bit 6
of each register field, LA and LB are 0; in 0x0D FUNC 7 is reserved, a shift has IMM[10:6] = 0 and `smovi` has sA = 0, and any other word is
no instruction. -/
def Obligations.ScalarWords : Prop :=
  ∀ (fin : Bool) (d a b n : BitVec 6) (imm : BitVec 11) (s : State),
    let result := fun (i : Instr) (f : Quad → Quad → Quad) =>
      scalarResult i (infoS fin [d, a, b]) d.toNat (fun g => f (g.readS a.toNat) (g.readS b.toNat)) s
    let i := fun (g : Group) => match g.hx with
      | none => BitVec.ofInt 64 imm.toInt
      | some h => BitVec.ofInt 64 (BitVec.ofNat 33 (h.toNat * 2 ^ 11 + imm.toNat)).toInt
    let immediate := fun (x : Instr) (f : Quad → Quad → Quad) =>
      scalarResult x (infoS fin [d, a] true) d.toNat (fun g => f (g.readS a.toNat) (i g)) s
    result (.sadd fin d a b) (fun x y => BitVec.ofNat 64 (x.toNat + y.toNat)) ∧
    result (.ssub fin d a b) (fun x y => BitVec.ofInt 64 ((x.toNat : Int) - y.toNat)) ∧
    result (.sand fin d a b) (fun x y => x &&& y) ∧
    result (.sor fin d a b) (fun x y => x ||| y) ∧
    result (.sxor fin d a b) (fun x y => x ^^^ y) ∧
    result (.sshl fin d a b) (fun x y => BitVec.ofNat 64 (x.toNat * 2 ^ (y.extractLsb' 0 6).toNat)) ∧
    result (.sshr fin d a b) (fun x y => BitVec.ofNat 64 (x.toNat / 2 ^ (y.extractLsb' 0 6).toNat)) ∧
    result (.smul fin d a b) (fun x y => BitVec.ofNat 64 (x.toNat * y.toNat)) ∧
    immediate (.saddi fin d a imm) (fun x i => BitVec.ofNat 64 (x.toNat + i.toNat)) ∧
    immediate (.sandi fin d a imm) (fun x i => x &&& i) ∧
    immediate (.sori fin d a imm) (fun x i => x ||| i) ∧
    immediate (.sxori fin d a imm) (fun x i => x ^^^ i) ∧
    scalarResult (.sshli fin d a n) (infoS fin [d, a]) d.toNat (fun g => BitVec.ofNat 64 ((g.readS a.toNat).toNat * 2 ^ n.toNat)) s ∧
    scalarResult (.sshri fin d a n) (infoS fin [d, a]) d.toNat (fun g => BitVec.ofNat 64 ((g.readS a.toNat).toNat / 2 ^ n.toNat)) s ∧
    scalarResult (.smovi fin d imm) (infoS fin [d] true) d.toNat i s ∧
    (let alu := fun (func : BitVec 3) => decodeWord (BitVec.ofBool fin ++ 0x0C#5 ++ func ++ 0#2 ++ 0#1 ++ d ++ 0#1 ++ a ++ 0#1 ++ b)
     let imm' := fun (func : BitVec 3) (a : BitVec 6) (m : BitVec 11) => decodeWord (BitVec.ofBool fin ++ 0x0D#5 ++ func ++ d ++ a ++ m)
     alu 0 = some (.sadd fin d a b) ∧ alu 1 = some (.ssub fin d a b) ∧ alu 2 = some (.sand fin d a b) ∧ alu 3 = some (.sor fin d a b) ∧
     alu 4 = some (.sxor fin d a b) ∧ alu 5 = some (.sshl fin d a b) ∧ alu 6 = some (.sshr fin d a b) ∧ alu 7 = some (.smul fin d a b) ∧
     imm' 0 a imm = some (.saddi fin d a imm) ∧ imm' 1 a imm = some (.sandi fin d a imm) ∧ imm' 2 a imm = some (.sori fin d a imm) ∧
     imm' 3 a (0#5 ++ n) = some (.sshli fin d a n) ∧ imm' 4 a (0#5 ++ n) = some (.sshri fin d a n) ∧
     imm' 5 0 imm = some (.smovi fin d imm) ∧ imm' 6 a imm = some (.sxori fin d a imm) ∧
     decodeWord 0x30014307 = some (.sadd false 5 6 7) ∧ decodeWord 0x33008184 = some (.sshr false 2 3 4) ∧
     decodeWord 0x33820409 = some (.smul false 8 8 9) ∧ decodeWord 0x34124FFF = some (.saddi false 9 9 0x7FF) ∧
     decodeWord 0x36185810 = some (.sshri false 12 11 16) ∧ decodeWord 0xB49860FF = some (.sandi true 12 12 0xFF) ∧
     decodeWord 0x36880100 = some (.smovi false 4 256) ∧ decodeWord 0x368E0000 = some (.smovi false 7 0) ∧
     ∀ x : Word,
       (x.extractLsb' 26 5 = 0x0C → (x.extractLsb' 21 2 ≠ 0 ∨ x.getLsbD 20 = true ∨ x.getLsbD 13 = true ∨ x.getLsbD 6 = true) →
         decodeWord x = none) ∧
       (x.extractLsb' 26 5 = 0x0D → let func := (x.extractLsb' 23 3).toNat
         (func = 7 ∨ ((func = 3 ∨ func = 4) ∧ x.extractLsb' 6 5 ≠ 0) ∨ (func = 5 ∧ x.extractLsb' 11 6 ≠ 0)) → decodeWord x = none))

/-! ### Cross-lane words (R126 to R128, R328 to R332) -/

/-- R328, R329: the shuffles and `bcast`, when no member of a sub-group with a lane of E is absent or the word carries `.part`: lane l of E
takes the value of its source lane, 0 when that lane is not in E. R127, R129, R313: in a cross-lane word without `.part` a lane of E whose
sub-group has an absent member takes the member-absent fault, and the word writes nothing in it; a lane of a whole sub-group takes its
source lane's value. -/
def Obligations.ShuffleWords : Prop :=
  (∀ (fin part la : Bool) (gr : BitVec 3) (d a : BitVec 7) (s : State),
     let xb := hmXB s.grp
     let w : WordInfo := {
       fin, vr := [a.toNat, xb], vw := [d.toNat], frees := freeIf la a.toNat ++ freeIf (hmLB s.grp) xb, hm := hmLaneOk }
     let width := s.grp.subWidth gr.toNat
     let base := fun (l : Nat) => l / width * width
     let index := fun (l : Nat) => (s.grp.readV xb l).toNat % 16 % width
     let delta := fun (l : Nat) => (s.grp.readV xb l).toNat % 32
     let first := fun (l : Nat) => ((List.range 16).find? fun m => m / width == l / width && s.grp.e.getLsbD m).getD l
     let result := fun (i : Instr) (src : Nat → Nat) => noAbsent part gr s.grp →
       vectorResult i w d.toNat (fun g l => if g.e.getLsbD (src l) then g.readV a.toNat (src l) else 0) s
     result (.shflIdx fin part gr d a la) (fun l => base l + index l) ∧
     result (.shflUp fin part gr d a la) (fun l => if l < base l + delta l then l else l - delta l) ∧
     result (.shflDn fin part gr d a la) (fun l => if base l + width ≤ l + delta l then l else l + delta l) ∧
     result (.shflXor fin part gr d a la) (fun l => base l + (l % width ^^^ index l)) ∧
     result (.bcast fin part gr d a la) (fun l => base l + index (first l))) ∧
  (∀ (fin : Bool) (gr : BitVec 3) (d a : BitVec 7) (s : State),
     let xb := hmXB s.grp
     let w : WordInfo := { fin, vr := [a.toNat, xb], vw := [d.toNat], frees := freeIf (hmLB s.grp) xb, hm := hmLaneOk }
     let width := s.grp.subWidth gr.toNat
     let absent := fun (l : Nat) => ∃ m, m < 16 ∧ m / width = l / width ∧ s.grp.e.getLsbD m = false
     clear w s → canTrap s.grp → (hmLB s.grp = true → xb ≠ d.toNat) →
     ∃ t, exec (.shflIdx fin false gr d a false) s = .next t ∧ ∀ l, l < 16 → s.grp.e.getLsbD l = true →
       (absent l → trapped s t l 0x05 0 ∧ t.grp.readV d.toNat l = s.grp.readV d.toNat l) ∧
       (¬ absent l → t.grp.pc l = s.grp.a + 4 ∧
         t.grp.readV d.toNat l = s.grp.readV a.toNat (l / width * width + (s.grp.readV xb l).toNat % 16 % width)))

/-- R330: `vmask` writes the lanes of E whose predicate is 1, once for the pass; `vany` and `vall` write in each lane of E whether any, or
every, member of its sub-group has the predicate, an absent member counting as 0. R332, R126: `part`, OP 11 with D, A and PART 0, sets WIDTH
of one group register to T, once for the pass; the sub-group of a cross-lane word that names it is then of 4, 8 or 16 lanes, whatever E was.
T = 3 makes no instruction. -/
def Obligations.VoteWords : Prop :=
  (∀ (fin part : Bool) (gr p q : BitVec 3) (d : BitVec 6) (s : State), s.grp.e ≠ 0 → noAbsent part gr s.grp →
     let width := s.grp.subWidth gr.toNat
     let votes := fun (g : Group) (m : Nat) => g.e.getLsbD m && g.readP q.toNat m
     scalarResult (.vmask fin part gr d q) (infoS fin [d]) d.toNat (fun g => (g.pred q.toNat &&& g.e).setWidth 64) s ∧
     predResult (.vany fin part gr p q) { fin } p.toNat
       (fun g l => (List.range 16).any fun m => m / width == l / width && votes g m) s ∧
     predResult (.vall fin part gr p q) { fin } p.toNat
       (fun g l => (List.range 16).all fun m => m / width != l / width || votes g m) s) ∧
  (∀ (fin : Bool) (gr w : BitVec 3) (s : State),
     (clear { fin } s → w.toNat < 3 →
       ∃ h : Group, { h with g := s.grp.g } = s.grp ∧ effect (.part fin gr w) { fin } (s.setGrp h) s ∧
         ∀ r, h.subWidth r = if r = gr.toNat then 4 * 2 ^ w.toNat else s.grp.subWidth r) ∧
     (let word := fun (part : BitVec 1) (d a : BitVec 7) (la : BitVec 1) =>
        decodeWord (BitVec.ofBool fin ++ 0x0A#5 ++ 11#4 ++ part ++ gr ++ d ++ a ++ la ++ w)
      (w.toNat < 3 → word 0 0 0 0 = some (.part fin gr w)) ∧ (3 ≤ w.toNat → word 0 0 0 0 = none) ∧
      (∀ part d a la, (part ≠ 0 ∨ d ≠ 0 ∨ a ≠ 0) → word part d a la = none) ∧
      decodeWord 0x2AC40000 = some (.part false 1 0) ∧ decodeWord 0x2AC80001 = some (.part false 2 1)))

/-- R331: `scan.add` and the reductions take the members of the sub-group in ascending order, up to the lane itself or up to the last; an
absent member counts as 0. The result is long-latency. -/
def Obligations.ReductionWords : Prop :=
  ∀ (fin part la : Bool) (gr t : BitVec 3) (d a : BitVec 7) (s : State),
    let width := s.grp.subWidth gr.toNat
    let val := fun (g : Group) (m : Nat) => if g.e.getLsbD m then g.readV a.toNat m else 0
    let fold := fun (op : Word → Word → Word) (last : Nat → Nat) (g : Group) (l : Nat) =>
      (((List.range 16).filter fun m => l / width * width < m && m ≤ last l).map (val g)).foldl op (val g (l / width * width))
    let add := fun (x y : Word) => if t = 2 then BitVec.ofNat 32 (Fmt.fp32.fadd x.toNat y.toNat) else BitVec.ofNat 32 (x.toNat + y.toNat)
    let larger := fun (x y : Word) =>
      if t = 0 then BitVec.ofInt 32 (max x.toInt y.toInt)
      else if t = 1 then BitVec.ofNat 32 (max x.toNat y.toNat)
      else BitVec.ofNat 32 (Fmt.fp32.minMax false x.toNat y.toNat)
    let result := fun (i : Instr) (f : Group → Nat → Word) => noAbsent part gr s.grp → vectorLong i (infoU fin la d a) d.toNat f s
    result (.scanAdd fin part gr d a la t) (fold add id) ∧
    result (.redAdd fin part gr d a la t) (fold add fun l => l / width * width + width - 1) ∧
    result (.redMax fin part gr d a la t) (fold larger fun l => l / width * width + width - 1)

/-! ### Branches, jumps, join and exit (R116 to R118, R298 to R302) -/

/-- R298, Table 18.1: each lane of E goes to the target, A + 4 × the sign-extended offset, when its test holds, and to A + 4 otherwise.
R278: the offset counts words, from −2,097,152 to +2,097,148 bytes in shape B and from −4,096 to +4,092 in shape BS; a branch that a hint is
attached to raises the illegal-instruction fault in every lane of E. -/
def Obligations.BranchWords : Prop :=
  ∀ (fin : Bool) (p : BitVec 3) (a b : BitVec 6) (off : BitVec 20) (off' : BitVec 11) (s : State),
    let go := fun (i : Instr) (w : WordInfo) (taken : Nat → Bool) (o : Int) => clear w s →
      transfer i w (fun l => s.grp.a + BitVec.ofInt 64 (if taken l then 4 * o else 4)) (s.grp.arrived &&& ~~~s.grp.e) s
    let w : WordInfo := { infoS fin [a, b] with ctl := true }
    let x := s.grp.readS a.toNat
    let y := s.grp.readS b.toNat
    go (.br fin off) { fin, ctl := true } (fun _ => true) off.toInt ∧
    go (.brp fin p off) { fin, ctl := true } (fun l => s.grp.readP p.toNat l) off.toInt ∧
    go (.brnp fin p off) { fin, ctl := true } (fun l => !s.grp.readP p.toNat l) off.toInt ∧
    go (.sbeq fin a b off') w (fun _ => decide (x = y)) off'.toInt ∧
    go (.sbne fin a b off') w (fun _ => decide (x ≠ y)) off'.toInt ∧
    go (.sblt fin a b off') w (fun _ => decide (x.toInt < y.toInt)) off'.toInt ∧
    go (.sbge fin a b off') w (fun _ => decide (y.toInt ≤ x.toInt)) off'.toInt ∧
    (-2097152 ≤ 4 * off.toInt ∧ 4 * off.toInt ≤ 2097148 ∧ -4096 ≤ 4 * off'.toInt ∧ 4 * off'.toInt ≤ 4092) ∧
    ((s.grp.hx ≠ none ∨ s.grp.hm ≠ none ∨ s.grp.hg ≠ none) → canTrap s.grp →
      ∀ i ∈ [Instr.br fin off, .brp fin p off, .brnp fin p off, .sbeq fin a b off', .sbne fin a b off', .sblt fin a b off', .sbge fin a b off'],
        ∃ t, exec i s = .next t ∧ ∀ l, l < 16 → s.grp.e.getLsbD l = true → delivered s t l 0x01 0)

/-- R299, R300, Table 18.2: `call` goes to its target and writes A + 4 to v0; `jr`, `callr` and `ret` take a target per lane, which keeps
the upper half of A, and their lanes owe the `land` check (R130). R116: the lanes of E join at the word; when every lane that has not exited
is joined there, all of them move to the next word and open the next run together. R118, R302: the lanes of E exit. When no lane of the
group is left and its commands, row requests left out (R91), have completed, the group exits: its queue registers are unbound, its active slot is free, and its bit of the
team's exit set is set; the last group's exit is the team's. -/
def Obligations.JumpJoinExitWords : Prop :=
  (∀ (fin la : Bool) (a : BitVec 7) (off : BitVec 20) (s : State),
     let target := fun (l : Nat) => BitVec.ofNat 64 (s.grp.a.toNat / 2 ^ 32 * 2 ^ 32 + (s.grp.readV a.toNat l).toNat)
     let w := fun (link : Bool) => ({
       fin, vr := [a.toNat], vw := if link then [0] else [], frees := freeIf la a.toNat, ctl := true } : WordInfo)
     let indirect := fun (i : Instr) (link : Bool) => clear (w link) s →
       (∀ l, l < 16 → s.grp.e.getLsbD l = true → (s.grp.readV a.toNat l).toNat % 4 = 0) →
       transfer i (w link) target (s.grp.arrived ||| s.grp.e) s
     indirect (.jr fin a la) false ∧ indirect (.callr fin a la) true ∧ indirect (.ret fin a la) false ∧
     (clear { fin, vw := [0], ctl := true } s → transfer (.call fin off) { fin, vw := [0], ctl := true } (fun _ => s.grp.a + BitVec.ofInt 64 (4 * off.toInt))
       (s.grp.arrived &&& ~~~s.grp.e) s)) ∧
  (∀ (fin : Bool) (s : State), clear { fin, waits := true, ctl := true } s → s.grp.e ≠ 0 →
     let others := ~~~(s.grp.exited ||| s.grp.joined ||| s.grp.e)
     let all := s.grp.joined ||| s.grp.e
     (others ≠ 0 → ∃ t, exec (.join fin) s = .next t ∧ othersSame s t ∧ groupRest { s.grp with joined := all, e := 0 } t.grp ∧
       t.grp.e = 0 ∧ t.grp.runOpen = false ∧ ∀ l, l < 16 → t.grp.pc l = s.grp.pc l) ∧
     (others = 0 → s.grp.parked = 0 → (∀ l, l < 16 → all.getLsbD l = true → s.grp.pc l = s.grp.a) →
       ∃ t, exec (.join fin) s = .next t ∧ othersSame s t ∧ groupRest { s.grp with joined := 0, e := all } t.grp ∧
         t.grp.e = all ∧ t.grp.runOpen = false ∧ t.grp.arrived = 0 ∧
         ∀ l, l < 16 → t.grp.pc l = if all.getLsbD l then s.grp.a + 4 else s.grp.pc l)) ∧
  (∀ (fin : Bool) (s : State), clear { fin, waits := true, ctl := true } s → s.grp.e ≠ 0 →
     (~~~(s.grp.exited ||| s.grp.joined ||| s.grp.e) ≠ 0 →
       ∃ t, exec (.exit fin) s = .next t ∧ othersSame s t ∧ groupRest { s.grp with
           exited := s.grp.exited ||| s.grp.e, owed := s.grp.owed.filter (fun x => !s.grp.e.getLsbD x.1), e := 0 } t.grp ∧
         t.grp.e = 0 ∧ t.grp.runOpen = false ∧ ∀ l, l < 16 → t.grp.pc l = s.grp.pc l) ∧
     (s.grp.exited ||| s.grp.e = allLanes → s.grp.joined = 0 → s.grp.oz = false → s.grp.gone = false →
       (∀ c ∈ s.grp.cmds, c.1 ≠ 3 → c.2 = []) → s.grp.bumping = false → s.grp.num < 64 → s.teams.get? s.grp.team ≠ none →
       ∃ t, exec (.exit fin) s = .next t ∧ t.grp.exited = allLanes ∧ t.grp.gone = true ∧ t.grp.q = [] ∧ t.grp.slot = none ∧
         (t.team s.grp.team).exit.getLsbD s.grp.num = true ∧
         ((s.team s.grp.team).st = .resident → (∀ g ∈ (s.team s.grp.team).groups, g = s.cur ∨ (s.group g).gone = true) →
           (t.team s.grp.team).st = .exited) ∧
         t.mem = s.mem ∧ ∀ n, n ≠ s.cur → t.group n = s.group n))

/-! ### Hint words and faults at decode (R281 to R284, R294, R295, R312) -/

/-- R284, R312: `nop`, `land` and `hs` have no effect beyond their issue slot and their place in the run. R283: `trail` names, for the end
of its run, the registers of the slots that do not hold 127; it writes no register. A second `trail` in one run raises the
illegal-instruction fault in every lane of E. R281, R282, R279: a prefix hint, in the order `hx`, `hm`, `hg`, attaches to the next word: it
moves past itself, counts in the run and writes no register, and the hints attached before it stay. -/
def Obligations.HintWords : Prop :=
  (∀ (fin : Bool) (h : BitVec 22) (s : State), clear { fin } s →
     effect (.nop fin) { fin } s s ∧ effect (.land fin) { fin } s s ∧ effect (.hs fin h) { fin } s s) ∧
  (∀ (a b c : BitVec 7) (s : State), s.grp.e ≠ 0 →
     clear { fin := false, names := (([a, b, c] : List (BitVec 7)).map BitVec.toNat).filter (· != 127) } s →
     (s.grp.trail = none → ∃ t, exec (.trail false c b a) s = .next t ∧ othersSame s t ∧ groupRest s.grp t.grp ∧
       past false s.grp t.grp ∧ registersKept { fin := false } s t ∧ t.grp.pend = s.grp.pend ∧
       ∃ l, t.grp.trail = some l ∧ ∀ r, r ∈ l ↔ r ≠ 127 ∧ (r = a.toNat ∨ r = b.toNat ∨ r = c.toNat)) ∧
     (s.grp.trail ≠ none → canTrap s.grp → ∃ t, exec (.trail false c b a) s = .next t ∧
       ∀ l, l < 16 → s.grp.e.getLsbD l = true → delivered s t l 0x01 0)) ∧
  (∀ (h : BitVec 22) (ov v1 v0 : Bool) (in1 in0 : BitVec 8) (s : State), s.grp.runLen < 24 → s.grp.hg = none → s.grp.e ≠ 0 → s.grp.split = false →
     let attaches := fun (i : Instr) (hx hm hg : Option (BitVec 22)) => ∃ t, exec i s = .next t ∧ othersSame s t ∧
       groupRest s.grp t.grp ∧ t.grp.v = s.grp.v ∧ t.grp.vseed = s.grp.vseed ∧ t.grp.s = s.grp.s ∧ t.grp.p = s.grp.p ∧
       (∀ l, l < 16 → t.grp.pc l = if s.grp.e.getLsbD l then s.grp.a + 4 else s.grp.pc l) ∧ t.grp.a = s.grp.a + 4 ∧ t.grp.e = s.grp.e ∧
       t.grp.runLen = s.grp.runLen + 1 ∧ t.grp.runOpen = s.grp.runOpen ∧ t.grp.hx = hx ∧ t.grp.hm = hm ∧ t.grp.hg = hg
     (s.grp.hx = none → s.grp.hm = none → attaches (.hx h) (some h) none none) ∧
     (s.grp.hm = none → attaches (.hm h) s.grp.hx (some h) none) ∧
     attaches (.hg ov v1 v0 in1 in0) s.grp.hx s.grp.hm (some (BitVec.ofNat 22
       (in0.toNat + in1.toNat * 2 ^ 8 + v0.toNat * 2 ^ 16 + v1.toNat * 2 ^ 17 + ov.toNat * 2 ^ 18))))

/-- R294, R170, R129: a word that is not an instruction raises the illegal-instruction fault in every lane of E; the lane's trap registers
are written as for any delivered fault, and no other register of the group changes. R295, Table 17.15, rows 3 to 6, on a word that every
core executes: the first check that fails decides the fault, which every lane of E takes, and the word writes nothing. R171: a fault in a
lane whose in.trap is 1, or of a group without a vector table, terminates the team: the lane is parked, every group of the team stops at its
next run boundary, and the first terminating fault of the context fills its CTX_FAULT record, whose COUNT counts every one. On the Ozyth
core issue stops instead, and the trap registers keep their values. -/
def Obligations.FaultChecks : Prop :=
  (∀ (x : Word) (s : State), canTrap s.grp → ∃ t, exec (.reservedEncoding x) s = .next t ∧ othersSame s t ∧
     (∀ l, l < 16 → s.grp.e.getLsbD l = true → delivered s t l 0x01 0) ∧
     (∀ l, l < 16 → s.grp.e.getLsbD l = false → t.grp.pc l = s.grp.pc l ∧ t.grp.epc.getD l 0 = s.grp.epc.getD l 0) ∧
     t.grp.e = 0 ∧ t.grp.runOpen = false ∧ t.grp.v = s.grp.v ∧ t.grp.s = s.grp.s ∧ t.grp.p = s.grp.p) ∧
  (∀ (fin la lb : Bool) (d a b : BitVec 7) (s : State), canTrap s.grp →
     let g := s.grp
     let decode := g.hx = none ∧ g.hm = none ∧ g.hg = none ∧ (la = true → a.toNat < 120) ∧ (lb = true → b.toNat < 120)
     let inRange := fun (r : Nat) => r < g.budget ∨ 120 ≤ r
     let range := inRange a.toNat ∧ inRange b.toNat ∧ inRange d.toNat
     let freed := (s.modeOf g).getLsbD 10 = true ∧ (g.isFreed a.toNat = true ∨ g.isFreed b.toNat = true)
     let faults := fun (code : Nat) => ∃ t, exec (.add fin la lb d a b) s = .next t ∧ t.grp.v = g.v ∧ t.grp.s = g.s ∧ t.grp.p = g.p ∧
       ∀ l, l < 16 → g.e.getLsbD l = true → delivered s t l code 0
     (¬ decode → faults 0x01) ∧
     (decode → 24 ≤ g.runLen → faults 0x02) ∧
     (decode → g.runLen < 24 → ¬ range → faults 0x03) ∧
     (decode → g.runLen < 24 → range → freed → faults 0x04) ∧
     (decode → g.runLen < 24 → range → ¬ freed → s.checkWord (infoA fin la lb d a b) = none)) ∧
  (∀ (x : Word) (s : State) (l : Nat), l < 16 → s.grp.e = BitVec.ofNat 16 (2 ^ l) → s.grp.fence = none →
     (s.grp.inTrap.getLsbD l = true ∨ s.grp.trapBase = 0) →
     ∃ t, exec (.reservedEncoding x) s = .next t ∧ t.grp.parked.getLsbD l = true ∧ t.grp.pc l = s.grp.pc l ∧
       t.grp.epc = s.grp.epc ∧ t.grp.cause = s.grp.cause ∧ t.grp.taddr = s.grp.taddr ∧ t.grp.inTrap = s.grp.inTrap ∧
       (s.grp.oz = true → t.oz = { s.oz with halted := true }) ∧
       (s.grp.oz = false → t.oz = s.oz ∧
         (s.teams.get? s.grp.team ≠ none → (t.team s.grp.team).terminating = true) ∧
         (∀ n, s.groups.get? n ≠ none → (s.group n).team = s.grp.team → (t.group n).ending = true) ∧
         let c := s.ctx (s.ctxOf s.grp)
         let c' := t.ctx (s.ctxOf s.grp)
         c'.fault.2.1 = min 255 (c.fault.2.1 + 1) ∧ c'.fault.2.2.1 = true ∧
         if c.fault.2.2.1 then c'.fault.1 = c.fault.1 ∧ c'.faddr = c.faddr ∧ c'.fpc = c.fpc ∧ c'.ftime = c.ftime
         else c'.fault.1 = 0x01 ∧ c'.faddr = 0 ∧ c'.fpc = s.grp.pc l ∧ c'.fault.2.2.2 = s.myGrid.num))

/-! ### System words (R125, R132, R170, R389 to R397, R400) -/

/-- R390, R170: `trap` takes the software fault in every lane of E, with its immediate in tr.addr; `eret` in a lane with in.trap = 1 sends
the lane to tr.epc and clears in.trap, and without it raises the illegal-instruction fault. R132, R171, R390: `brk` moves past itself and
stops the group with CAUSE 1 in DBG_STAT; `halt` ends the team without a CTX_FAULT record; `yield` moves past itself and gives up the active
slot to a waiting group. On the Ozyth core `brk` and `halt` stop issue. R400, R285: on that core `wfi` waits and `iret` returns from an interrupt
to oz.epc and clears in.irq, or raises the illegal-instruction fault outside an interrupt; a group that issues either raises that fault. -/
def Obligations.TrapAndControlWords : Prop :=
  (∀ (fin : Bool) (imm : BitVec 10) (s : State), clear { fin, waits := true } s →
     (canTrap s.grp → ∃ t, exec (.trap fin imm) s = .next t ∧ othersSame s t ∧ registersKept { fin } s t ∧ t.grp.runOpen = false ∧
       ∀ l, l < 16 → s.grp.e.getLsbD l = true → delivered s t l 0x09 (imm.setWidth 64)) ∧
     (s.grp.e &&& ~~~s.grp.inTrap = 0 → ∃ t, exec (.eret fin) s = .next t ∧ othersSame s t ∧ registersKept { fin } s t ∧
       groupRest { s.grp with inTrap := s.grp.inTrap &&& ~~~s.grp.e } t.grp ∧ t.grp.runOpen = false ∧
       ∀ l, l < 16 → t.grp.pc l = if s.grp.e.getLsbD l then s.grp.epc.getD l 0 else s.grp.pc l) ∧
     (canTrap s.grp → ∃ t, exec (.eret fin) s = .next t ∧ ∀ l, l < 16 → s.grp.e.getLsbD l = true → delivered s t l 0x01 0)) ∧
  (∀ (fin : Bool) (s : State), clear { fin, waits := true } s →
     let passed := fun (t : State) => ∀ l, l < 16 → t.grp.pc l = if s.grp.e.getLsbD l then s.grp.a + 4 else s.grp.pc l
     (s.grp.oz = false → ∃ t, exec (.brk fin) s = .next t ∧ passed t ∧ t.grp.stopped = true ∧ t.grp.runOpen = false ∧
       registersKept { fin } s t ∧ (t.core s.grp.core).dbgStat = (s.grp.part, s.grp.pos, 1) ∧ t.mem = s.mem ∧
       ((s.core s.grp.core).dbgTeamStop = false → ∀ n, n ≠ s.cur → t.group n = s.group n)) ∧
     (s.grp.oz = true → ∃ t, exec (.brk fin) s = .next t ∧ passed t ∧ t.oz = { s.oz with halted := true } ∧ registersKept { fin } s t) ∧
     (s.grp.oz = false → ∃ t, exec (.halt fin) s = .next t ∧ t.grp.exited = s.grp.exited ||| s.grp.e ∧ t.grp.e = 0 ∧
       registersKept { fin } s t ∧ t.ctxs = s.ctxs ∧ t.mem = s.mem ∧
       (s.teams.get? s.grp.team ≠ none → (t.team s.grp.team).terminating = true) ∧
       ∀ n, s.groups.get? n ≠ none → (s.group n).team = s.grp.team → (s.group n).oz = false → (t.group n).ending = true) ∧
     (s.grp.oz = true → ∃ t, exec (.halt fin) s = .next t ∧ passed t ∧ t.oz = { s.oz with halted := true } ∧ registersKept { fin } s t) ∧
     ∃ t, exec (.yield fin) s = .next t ∧ passed t ∧ othersSame s t ∧ registersKept { fin } s t ∧ t.grp.runOpen = false ∧
       t.grp.slot = if !s.grp.oz && ((s.updGrp Group.pass).waiting s.grp.core s.grp.part).isSome then none else s.grp.slot) ∧
  ∀ (s : State), let w : WordInfo := { fin := true, grp := false, waits := true }
    (clear w s → effect .wfi w { s with oz := { s.oz with waiting := true } } s) ∧
    (clear w s → s.oz.inIrq = true → ∃ t, exec .iret s = .next t ∧ othersSame { s with oz := { s.oz with inIrq := false } } t ∧
      groupRest s.grp t.grp ∧ registersKept w s t ∧
      ∀ l, l < 16 → t.grp.pc l = if s.grp.e.getLsbD l then s.oz.epc else s.grp.pc l) ∧
    (clear w s → s.oz.inIrq = false → canTrap s.grp → ∃ t, exec .iret s = .next t ∧
      ∀ l, l < 16 → s.grp.e.getLsbD l = true → delivered s t l 0x01 0) ∧
    (s.grp.oz = false → canTrap s.grp → ∀ i : Instr, i = .wfi ∨ i = .iret → ∃ t, exec i s = .next t ∧ t.oz = s.oz ∧
      ∀ l, l < 16 → s.grp.e.getLsbD l = true → delivered s t l 0x01 0)

/-- R391, R125, R392, Tables 6.3, 8.5, 17.14 and 22.7: `sget` writes a special register to vD in each lane of E, or to sD once for the pass; on
the Ozyth core core.id reads 31 and the package, and grid.id, ctx.slot, sib.n, team.id and sib.id read 0 (the last two are the model's choice,
log entry 31). R391, Tables 8.5 and 22.7: `sset` writes a special register under its write rule, and nothing else changes; a write that breaks
the rule of trap.base or oz.vbase, a write of a register that is read only, and a group's access to 0x300 to 0x3FF raise the
illegal-instruction fault. -/
def Obligations.SpecialRegisters : Prop :=
  (∀ (fin : Bool) (d : BitVec 7) (s : State),
     let g := s.grp
     let lane := fun (spr : BitVec 10) (f : Nat → Word) => vectorResult (.sget fin false d spr) { fin, vw := [d.toNat] } d.toNat (fun _ l => f l) s
     let once := fun (spr : BitVec 10) (x : Quad) =>
       scalarResult (.sget fin true d spr) { fin, sn := [d.toNat], grp := spr.toNat < 0x300 } d.toNat (fun _ => x) s
     lane 0x000 (BitVec.ofNat 32 ·) ∧ lane 0x001 (fun l => (g.pc l).extractLsb' 0 32) ∧
     lane 0x002 (fun l => (g.epc.getD l 0).extractLsb' 0 32) ∧ lane 0x003 (fun l => (g.cause.getD l 0).extractLsb' 0 32) ∧
     lane 0x004 (fun l => (g.taddr.getD l 0).extractLsb' 0 32) ∧ lane 0x005 (fun l => if g.inTrap.getLsbD l then 1 else 0) ∧
     once 0x100 (BitVec.ofNat 64 g.num) ∧ once 0x101 (BitVec.ofNat 64 g.role) ∧ once 0x102 (BitVec.ofNat 64 g.roleGrp) ∧
     (g.oz = false → once 0x103 (BitVec.ofNat 64 s.myTeam.num) ∧ once 0x10A (BitVec.ofNat 64 s.myTeam.sib) ∧
       once 0x10E (BitVec.ofNat 64 s.myGrid.num) ∧ once 0x10F (BitVec.ofNat 64 s.myGrid.ctx)) ∧
     once 0x104 ((~~~g.exited).setWidth 64) ∧ once 0x105 (g.e.setWidth 64) ∧ once 0x106 (g.parked.setWidth 64) ∧
     once 0x107 (g.joined.setWidth 64) ∧ once 0x108 g.trapBase ∧ once 0x109 (BitVec.ofNat 64 s.pkg.now) ∧
     (g.oz = false → once 0x110 (BitVec.ofNat 64 (if s.myGrid.ballot = none then 0 else s.myGrid.nsib)) ∧
       once 0x111 (BitVec.ofNat 64 (g.core % 24 + 2 ^ 5 * (g.core / 24) + 2 ^ 10 * s.pkg.id + 2 ^ 16 * g.part))) ∧
     (g.oz = true → (∀ spr ∈ [0x103#10, 0x10A#10, 0x10E#10, 0x10F#10, 0x110#10], once spr 0) ∧ once 0x111 (BitVec.ofNat 64 (31 + 2 ^ 10 * s.pkg.id))) ∧
     once 0x10B (BitVec.ofNat 64 (s.groupSource g)) ∧ once 0x10C g.rngKey ∧ once 0x10D g.rngCtr ∧
     once 0x300 s.oz.vbase ∧ once 0x301 s.oz.ien ∧ once 0x302 s.oz.ipend ∧ once 0x303 s.oz.epc ∧
     once 0x304 (BitVec.ofNat 64 (s.oz.icause + 256 * s.oz.inIrq.toNat)) ∧ once 0x305 s.oz.ctx ∧ once 0x306 s.oz.tcmp) ∧
  (∀ (fin la : Bool) (a : BitVec 7) (s : State),
     let x := s.grp.readS a.toNat
     let word := fun (spr : BitVec 10) => ({ fin, sn := [a.toNat], grp := spr.toNat < 0x300, waits := true } : WordInfo)
     let once := fun (spr : BitVec 10) (u : State) => clear (word spr) s → effect (.sset fin true a spr la) (word spr) u s
     let illegal := fun (i : Instr) => ∃ t, exec i s = .next t ∧ t.oz = s.oz ∧ registersKept { fin } s t ∧
       t.grp.trapBase = s.grp.trapBase ∧ t.grp.rngKey = s.grp.rngKey ∧ t.grp.rngCtr = s.grp.rngCtr ∧
       ∀ l, l < 16 → s.grp.e.getLsbD l = true → delivered s t l 0x01 0
     let group := fun (h : Group) => s.setGrp h
     let oz := fun (o : Ozyth) => { s with oz := o }
     (x.extractLsb' 0 12 = 0 → once 0x108 (group { s.grp with trapBase := x }) ∧ once 0x300 (oz { s.oz with vbase := x })) ∧
     (canTrap s.grp → ∀ spr : BitVec 10,
       (x.extractLsb' 0 12 ≠ 0 → (spr = 0x108 ∨ spr = 0x300) → clear (word spr) s → illegal (.sset fin true a spr la)) ∧
       (spr ∉ [0x108#10, 0x10C#10, 0x10D#10, 0x300#10, 0x301#10, 0x302#10, 0x303#10, 0x305#10, 0x306#10] → clear (word spr) s →
         illegal (.sset fin true a spr la)) ∧
       (spr ≠ 0x002 → clear { fin, vr := [a.toNat], frees := freeIf la a.toNat, waits := true } s →
         illegal (.sset fin false a spr la)) ∧
       (0x300 ≤ spr.toNat → s.grp.oz = false → illegal (.sset fin true a spr la) ∧ ∀ d : BitVec 7, illegal (.sget fin true d spr))) ∧
     once 0x10C (group { s.grp with rngKey := x }) ∧ once 0x10D (group { s.grp with rngCtr := x }) ∧
     once 0x301 (oz { s.oz with ien := x &&& 0x1F }) ∧ once 0x302 (oz { s.oz with ipend := s.oz.ipend &&& ~~~x }) ∧
     once 0x303 (oz { s.oz with epc := x &&& ~~~3 }) ∧ once 0x305 (oz { s.oz with ctx := x &&& 0x1FF }) ∧
     once 0x306 (oz { s.oz with tcmp := x, armed := true }) ∧
     (let w : WordInfo := { fin, vr := [a.toNat], frees := freeIf la a.toNat, waits := true }
      clear w s → ∃ h, effect (.sset fin false a 0x002 la) w (s.setGrp h) s ∧ { h with epc := s.grp.epc } = s.grp ∧
       ∀ l, l < 16 → h.epc.getD l 0 = if s.grp.e.getLsbD l then
           BitVec.ofNat 64 (s.grp.a.toNat / 2 ^ 32 * 2 ^ 32 + (s.grp.readV a.toNat l).toNat / 4 * 4) else s.grp.epc.getD l 0))

/-- R393, R14: `tsrd` writes the time of a stamp that the issuing partition takes: the present tick, or the first tick after the partition's
last stamp; the stamp is recorded. So every unit's stamps strictly increase, and a second stamp in one tick takes the next free tick;
`ts.now` reads the counter itself. R394: `rng` writes in each lane of E a word that rng.key, rng.ctr and the lane alone decide, and adds 1
to rng.ctr. -/
def Obligations.StampAndRandomWords : Prop :=
  (∀ (fin : Bool) (d : BitVec 6) (s : State), clear { infoS fin [d] with waits := true } s →
     let src := s.groupSource s.grp
     let time := match s.stamps.get? src with
       | some last => max s.pkg.now (last + 1)
       | none => s.pkg.now
     ∃ t, exec (.tsrd fin d) s = .next t ∧ othersSame { s with stamps := s.stamps.set src time } t ∧ groupRest s.grp t.grp ∧
       past fin s.grp t.grp ∧ vectorsKept (infoS fin [d]) [] s t ∧ t.grp.p = s.grp.p ∧
       (∀ r, t.grp.readS r = if r = d.toNat ∧ d.toNat ≠ 0 then BitVec.ofNat 64 time else s.grp.readS r) ∧
       t.stamps.get? src = some time ∧ (∀ last, s.stamps.get? src = some last → last < time) ∧
       scalarResult (.sget fin true (0#1 ++ d) 0x109) (infoS fin [d]) d.toNat (fun _ => BitVec.ofNat 64 s.pkg.now) s ∧
       ∀ unit, (s.stamp unit).stamps.get? unit = some (s.stampTime unit) ∧ (∀ u, u ≠ unit → (s.stamp unit).stamps.get? u = s.stamps.get? u) ∧
         s.pkg.now ≤ s.stampTime unit ∧ (∀ last, s.stamps.get? unit = some last →
           last < s.stampTime unit ∧ (s.pkg.now ≤ last → s.stampTime unit = last + 1) ∧ (last < s.pkg.now → s.stampTime unit = s.pkg.now))) ∧
  (∀ (fin : Bool) (d : BitVec 7) (s : State), clear { fin, vw := [d.toNat] } s →
     let m := fun (x : Nat) => x % 2 ^ 64
     let value := fun (l : Nat) =>
       let x := m (m (s.grp.rngCtr.toNat * 16 + l) ^^^ s.grp.rngKey.toNat)
       let x := m ((x ^^^ (x / 2 ^ 31)) * 0x9E6D55A3C1F42B87)
       let x := m ((x ^^^ (x / 2 ^ 29)) * 0xD2B74407B1CE6E93)
       BitVec.ofNat 32 (x ^^^ (x / 2 ^ 32))
     ∃ h, effect (.rng fin d) { fin, vw := [d.toNat] } (s.setGrp h) s ∧
       { h with v := s.grp.v, rngCtr := s.grp.rngCtr } = s.grp ∧ h.rngCtr = s.grp.rngCtr + 1 ∧
       ∀ r l, l < 16 → h.readV r l = if r = d.toNat ∧ s.grp.e.getLsbD l = true then value l else s.grp.readV r l)

/-- R100, R396: a `launch` whose record's page and bytes, and the ballot lines it names (R425), are at hand returns the status of Table 5.2: 1 when the grid table is full, 3 for a
number in use, and 0 when the record is accepted and its grid stands in the table under the record's number. R397: when the group's release
at package scope is performed, `cinv` drops from every core's instruction cache the 128-byte lines of the issuing context that cover the
range, and nothing else; a length of 0 drops nothing. The order of the statuses is the model's choice (log entry 30). -/
def Obligations.LaunchAndCinvWords : Prop :=
  (∀ (fin : Bool) (d a : BitVec 6) (s : State), let w : WordInfo := { infoS fin [d, a] with waits := true }
     clear w s →
     let va := s.grp.readS a.toNat
     let asid := s.asidOf s.grp
     let slot := s.ctxOf s.grp
     let read := (s.groupRead asid va 128).1
     let rec_ := (s.groupRead asid va 128).2.1
     let record := ballotLinesOf rec_
     let result := fun (n : Nat) (g : Group) => g.addPending (.scalar d.toNat (BitVec.ofNat 64 n))
     (s.grp.oz = true → s.oz.ctx.getLsbD 8 = false →
       effect (.launch fin d a) w (s.updGrp (result 4)) s) ∧
     ((s.grp.oz = false ∨ s.oz.ctx.getLsbD 8 = true) → va.toNat % 128 = 0 → (∃ attr, s.check va 0 = .ok attr) → s.engineAsks asid va = [] →
       s.agentWaits asid 1 record = none →
       (read.launchStatus slot rec_ ≠ 0 →
         effect (.launch fin d a) w (read.updGrp (result (read.launchStatus slot rec_))) s) ∧
       (read.launchStatus slot rec_ = 0 → s.releaseAsks s.grp 5 = none →
         effect (.launch fin d a) w (((record.foldl (fun t va => t.agentTouch asid va) read).acceptGrid slot rec_).updGrp (result 0)) s) ∧
       (4096 ≤ read.grids.length → read.launchStatus slot rec_ = 1) ∧
       (∀ n, read.grids.get? n ≠ none → (read.grid n).ctx = slot → (read.grid n).num = recField rec_ 36 4 → recordOk rec_ = true →
         recField rec_ 72 8 = 0 → read.grids.length < 4096 → read.launchStatus slot rec_ = 3))) ∧
  (∀ (fin : Bool) (a b : BitVec 6) (s : State) (asid : Nat), let w : WordInfo := { infoS fin [a, b] with waits := true }
     clear w s → s.releaseAsks s.grp 5 = none → s.spaceOf s.grp = some asid →
     let va := (s.grp.readS a.toNat).toNat
     let n := (s.grp.readS b.toNat).toNat % 2 ^ 32
     ∃ u, effect (.cinv fin a b) w u s ∧ { u with cores := s.cores } = s ∧
       ∀ c, { (u.core c) with icache := (s.core c).icache } = s.core c ∧
         ∀ other line, line < 2 ^ 57 → (u.core c).icache.get? (other * 2 ^ 57 + line) =
           if other = asid ∧ 0 < n ∧ va / 128 ≤ line ∧ line ≤ (va + n - 1) / 128 then none
           else (s.core c).icache.get? (other * 2 ^ 57 + line))

/-! ### Ordering words, queue registers (R98, R181 to R184, R224, R307 to R311, R343 to R348) -/

/-- R183, R343: a `fence` whose group has every read back, every store of its cumulative set performed at the scope, no buffered atomic on
its core and no `rbump` under way completes with status 0, and is an acquire. R184: otherwise the group goes on past it, with the status
outstanding and the place and registers after the word kept for a rollback; a word that waits for a fence (here `trig` and `waitc`) and a word
that faults stay where they are until it completes, and a second `fence` too (in part the model's choice, log entry 7). R344, Table 9.5: `waitc` completes when at most N commands of the class are outstanding; otherwise the group waits at the word, whose
program counter stays. On the Ozyth core it has no effect (R354). R98, R347: the first `trig` of a group records it in the team, with the
writes that it releases; a later one has no effect, and none has one on the Ozyth core. -/
def Obligations.FenceWaitcAndTrigWords : Prop :=
  (∀ (fin : Bool) (scope : BitVec 3) (d : BitVec 6) (s : State), let w : WordInfo := { fin, sn := [d.toNat], waits := true }
     clear w s →
     let g := s.grp
     let performed := (s.core g.core).abuf = [] ∧
       (∀ n ∈ g.stores ++ g.observed, ∀ st, s.stores.get? n = some st → st.performedAt (if n ∈ g.gaveUp then min scope.toNat 5 else scope.toNat) = true) ∧
       (∀ p ∈ g.pend, p.ready = true ∨ p.tag = fenceTag)
     let status := fun (ready : Bool) => g.pend ++ [(⟨.scalar d.toNat 0, ready, false, false, [], fenceTag⟩ : Pending)]
     (performed → effect (.fence fin scope d) w ((s.acquire scope.toNat).setGrp { g with pend := status true }) s) ∧
     (¬ performed → ∃ u back, effect (.fence fin scope d) w u s ∧ u.mem = s.mem ∧
       u.grp = { g with pend := status false, fence := some ⟨scope.toNat, s.pkg.now, some back, []⟩ } ∧
       back.pend = pendAfter fin u.grp [] ∧ back.v = g.v ∧ back.s = g.s ∧ back.p = g.p ∧
       ∀ l, l < 16 → back.pcs.getD l 0 = if g.e.getLsbD l then g.a + 4 else g.pc l)) ∧
  (∀ (fin : Bool) (cls : BitVec 3) (n : BitVec 8) (x : Word) (s : State), s.grp.fence ≠ none →
     (s.checkWord { fin } = none → exec (.trig fin) s = .next s ∧ exec (.waitc fin cls n) s = .next s) ∧
     (∀ scope d, s.checkWord { fin, sn := [d.toNat] } = none → exec (.fence fin scope d) s = .next s ∨ s.grp.fence.any (·.back.isNone) = true) ∧
     exec (.reservedEncoding x) s = .next s) ∧
  (∀ (fin : Bool) (cls : BitVec 3) (n : BitVec 8) (s : State), let w : WordInfo := { fin, waits := true }
     clear w s → cls.toNat < 5 →
     let outstanding := (s.grp.cmds.getD cls.toNat []).length
     (s.grp.oz = true → effect (.waitc fin cls n) w s s) ∧
     (s.grp.oz = false → outstanding ≤ n.toNat → effect (.waitc fin cls n) w (if cls = 4 then s.acquire 6 else s) s) ∧
     (s.grp.oz = false → n.toNat < outstanding → exec (.waitc fin cls n) s =
       .next (s.setGrp { s.grp with block := .waitc cls.toNat n.toNat, blockFin := fin }))) ∧
  (∀ (fin : Bool) (s : State), let w : WordInfo := { fin, waits := true }
     clear w s →
     (s.grp.oz = true ∨ s.grp.triggered = true → effect (.trig fin) w s s) ∧
     (s.grp.oz = false → s.grp.triggered = false → s.grp.bumping = false → (s.core s.grp.core).abuf = [] →
       ∃ u : State, effect (.trig fin) w u s ∧
         u.grp = { s.grp with triggered := true, trigStores := s.grp.stores ++ s.grp.observed } ∧
         { u with teams := s.teams, groups := s.groups } = s ∧ (∀ n, n ≠ s.cur → u.group n = s.group n) ∧
         (s.teams.get? s.grp.team ≠ none →
           u.team s.grp.team = { s.team s.grp.team with trig := (s.team s.grp.team).trig ||| BitVec.ofNat 64 (2 ^ s.grp.num) })))

/-- R345, R346: a participant whose release is performed arrives; when every participant that has not exited has arrived the phase advances
modulo 2³², and no group is left in the arrived set. `arrive` goes on; `bar` goes on when its arrival ends the phase, and waits for the
phase otherwise. On the Ozyth core both have no effect (R354). -/
def Obligations.BarrierWords : Prop :=
  ∀ (fin : Bool) (id : BitVec 4) (s : State), let w : WordInfo := { fin, waits := true }
    clear w s →
    (s.grp.oz = true → effect (.arrive fin id) w s s ∧ effect (.bar fin id) w s s) ∧
    let t := s.grp.team
    let n := id.toNat
    let b := s.barrier t n
    s.grp.oz = false → s.cur ∈ s.participants t n → s.cur ∉ b.arrived → s.releaseAsks s.grp (barScope n) = none → s.teams.get? (s.barHome t n) ≠ none →
    let last := ∀ g ∈ s.participants t n, (s.group g).exited = allLanes ∨ g ∈ b.arrived ∨ g = s.cur
    ∃ u : State, { u with teams := s.teams } = s ∧
      (last → u.barrier t n = ⟨(b.phase + 1) % 2 ^ 32, []⟩) ∧
      (¬ last → u.barrier t n = ⟨b.phase, b.arrived ++ [s.cur]⟩) ∧
      (∀ m, m ≠ n → m < 16 → u.barrier t m = s.barrier t m) ∧
      effect (.arrive fin id) w u s ∧
      (last → effect (.bar fin id) w u s) ∧
      (¬ last → exec (.bar fin id) s = .next (u.setGrp { s.grp with block := .bar n b.phase, blockFin := fin }))

/-- R310: `qbind` binds an unbound queue register to a stream that no other is bound to, with no record (16 of the random stream, R395);
binding the same stream again changes nothing, and any other binding is illegal. `qfree` unbinds. R307, R308: `qtry` writes whether the
queue register holds a record, `qpeek` its oldest record; a pop takes the oldest record, long-latency, and the stream pushes the oldest
record that it holds back; on an empty bound queue register, or behind an incomplete fence (R184), the group waits, and an unbound one is illegal. The pop of a collective's record
is an acquire at domain scope (Table 9.5). -/
def Obligations.QueueWords : Prop :=
  (∀ (fin : Bool) (q : BitVec 3) (stream : BitVec 4) (s : State), let w : WordInfo := { fin, waits := true }
     clear w s → stream.toNat < 6 →
     let old := (s.grp.queue q.toNat).stream
     (old = none → s.grp.boundTo stream.toNat = none → ∃ h : Group, { h with q := s.grp.q } = s.grp ∧
       (∃ f, effect (.qbind fin q stream) w (({ s with free := f } : State).setGrp h) s) ∧
       (h.queue q.toNat).stream = some stream.toNat ∧ (h.queue q.toNat).held = [] ∧
       (h.queue q.toNat).recs.length = (if stream = 5 then 16 else 0) ∧ ∀ r, r ≠ q.toNat → h.queue r = s.grp.queue r) ∧
     (old = some stream.toNat → effect (.qbind fin q stream) w s s) ∧
     (old ≠ some stream.toNat → (old ≠ none ∨ s.grp.boundTo stream.toNat ≠ none) → canTrap s.grp →
       ∃ t, exec (.qbind fin q stream) s = .next t ∧ t.grp.q = s.grp.q ∧ ∀ l, l < 16 → s.grp.e.getLsbD l = true → delivered s t l 0x01 0) ∧
     ∃ h : Group, { h with q := s.grp.q } = s.grp ∧ effect (.qfree fin q) w (s.setGrp h) s ∧
       (h.queue q.toNat).stream = none ∧ ∀ r, r ≠ q.toNat → h.queue r = s.grp.queue r) ∧
  (∀ (fin : Bool) (d : BitVec 6) (q : BitVec 3) (s : State),
     let r := s.grp.queue q.toNat
     let w : WordInfo := { fin, sn := [d.toNat] }
     scalarResult (.qtry fin d q) (infoS fin [d]) d.toNat (fun _ => if r.recs = [] then 0 else 1) s ∧
     scalarResult (.qpeek fin d q) (infoS fin [d]) d.toNat (fun _ => r.recs.headD 0) s ∧
     (clear w s → s.grp.fence = none → ∀ x xs, r.recs = x :: xs → r.stream ≠ none → r.stream ≠ some 5 → ∃ u : State, effect (.movQ fin d q) w u s ∧
       u.grp.pend = s.grp.pend ++ [returned (.scalar d.toNat x)] ∧
       u.grp.queue q.toNat = { r with recs := xs ++ r.held.take 1, held := r.held.drop 1 } ∧
       (∀ n, n ≠ q.toNat → u.grp.queue n = s.grp.queue n) ∧
       (r.stream ≠ some 3 → { u with groups := s.groups } = s) ∧
       (r.stream = some 3 → { u with groups := s.groups } = s.acquire 6)) ∧
     (clear w s → s.grp.fence = none → ∀ x xs, r.recs = x :: xs → r.stream = some 5 → ∃ u : State, effect (.movQ fin d q) w u s ∧
       u.grp.pend = s.grp.pend ++ [returned (.scalar d.toNat x)] ∧ (u.grp.queue q.toNat).stream = some 5) ∧
     (clear w s → r.stream ≠ none → (r.recs = [] ∨ s.grp.fence ≠ none) →
       exec (.movQ fin d q) s = .next (s.setGrp { s.grp with block := .pop d.toNat q.toNat, blockFin := fin })) ∧
     (clear w s → r.stream = none → canTrap s.grp → ∃ t, exec (.movQ fin d q) s = .next t ∧
       ∀ l, l < 16 → s.grp.e.getLsbD l = true → delivered s t l 0x01 0))

/-! ### Scratchpad words (R139 to R147, R349 to R354) -/

/-- R349, R192: with every lane of E aligned and within a held buffer, `lds` reads the 32-bit word at the lane's offset (long-latency), and
`sts` writes it in ascending lane order; every other byte of the team's scratchpad space, and all of memory, is as before. R349: a lane
whose offset is not a multiple of 4 takes the alignment fault, and a lane outside the buffer the buffer-bounds fault, each with the offset
in tr.addr; a word on a buffer that the team does not hold takes the ownership fault in every lane of E. -/
def Obligations.ScratchpadWords : Prop :=
  (∀ (fin lu : Bool) (data off : BitVec 7) (base : BitVec 5) (s : State) (core i : Nat) (b : Buf),
     s.grp.oz = false → s.buffer s.grp.team (s.grp.readS base.toNat) = some (core, i, b) → s.teams.get? b.owner ≠ none →
     let o := fun (l : Nat) => ((s.grp.readV off.toNat l).toNat : Int) + memImm s.grp
     (∀ l, l < 16 → s.grp.e.getLsbD l = true → o l % 4 = 0 ∧ 0 ≤ o l ∧ o l + 4 ≤ b.size) →
     let at_ := fun (l : Nat) => b.off + (o l).toNat
     let tm := s.team b.owner
     let wl : WordInfo := {
       fin, vr := [off.toNat], vw := [data.toNat], sn := [base.toNat], frees := freeIf lu off.toNat, hx := true, waits := true }
     let ws : WordInfo := { fin, vr := [off.toNat, data.toNat], sn := [base.toNat], frees := freeIf lu data.toNat, hx := true, waits := true }
     ((∀ l, l < 16 → s.grp.e.getLsbD l = true → tm.spPoisoned (at_ l) 4 = false) → clear wl s →
       effect (.lds fin data off lu base) wl (({ s with free := s.free + 1 } : State).setGrp { s.grp with pend := s.grp.pend ++
         [⟨.lanes data.toNat ((lanesOf s.grp.e).map fun l => (l, BitVec.ofNat 32 (leNat ((List.range 4).map fun k => tm.spByte (at_ l + k))))),
           true, false, false, [], 0⟩] }) s) ∧
     (clear ws s → ∃ u : State, effect (.sts fin data off lu base) ws u s ∧ { u with teams := s.teams } = s ∧
       (∀ n, n ≠ b.owner → u.team n = s.team n) ∧
       (∀ a, (∀ l, l < 16 → s.grp.e.getLsbD l = true → a < at_ l ∨ at_ l + 4 ≤ a) → (u.team b.owner).spByte a = tm.spByte a) ∧
       ∀ l k, l < 16 → s.grp.e.getLsbD l = true → k < 4 →
         (∀ m, l < m → m < 16 → s.grp.e.getLsbD m = true → at_ l + k < at_ m ∨ at_ m + 4 ≤ at_ l + k) →
         (u.team b.owner).spByte (at_ l + k) = (s.grp.readV data.toNat l).extractLsb' (8 * k) 8)) ∧
  (∀ (fin lu : Bool) (data off : BitVec 7) (base : BitVec 5) (s : State), canTrap s.grp → s.grp.oz = false →
     let o := fun (l : Nat) => ((s.grp.readV off.toNat l).toNat : Int) + memImm s.grp
     let faults := fun (i : Instr) (w : WordInfo) => clear w s →
       (s.buffer s.grp.team (s.grp.readS base.toNat) = none → ∃ t, exec i s = .next t ∧ t.teams = s.teams ∧
         ∀ l, l < 16 → s.grp.e.getLsbD l = true → delivered s t l 0x17 0) ∧
       ∀ core k b, s.buffer s.grp.team (s.grp.readS base.toNat) = some (core, k, b) →
         ∃ t, exec i s = .next t ∧ ∀ l, l < 16 → s.grp.e.getLsbD l = true →
           (o l % 4 ≠ 0 → trapped s t l 0x0A (BitVec.ofInt 64 (o l))) ∧
           (o l % 4 = 0 → (o l < 0 ∨ (b.size : Int) < o l + 4) → trapped s t l 0x18 (BitVec.ofInt 64 (o l))) ∧
           (o l % 4 = 0 → 0 ≤ o l → o l + 4 ≤ b.size → t.grp.pc l = s.grp.a + 4)
     faults (.lds fin data off lu base) {
       fin, vr := [off.toNat], vw := [data.toNat], sn := [base.toNat], frees := freeIf lu off.toNat, hx := true, waits := true } ∧
     faults (.sts fin data off lu base) {
       fin, vr := [off.toNat, data.toNat], sn := [base.toNat], frees := freeIf lu data.toNat, hx := true, waits := true })

/-- R142, R350: `sp.alloc` of 1 to 512 KiB, rounded up to 256 bytes, takes the lowest free entry of the core's buffer table and the lowest
space that fits, and returns the handle of the new buffer; with no entry, no space or a bad size it returns 0xFFFF and changes nothing else.
R139, R140, R354, Table 7.1: `spcvt` gives the team n cache ways, the highest-numbered first, and the lines that they hold leave the core's
L1; `l1cvt` returns the n most recently converted; the status, long-latency, is 0 when it is done, 1 when there are too few ways, and 2 when a live buffer lies in them. -/
def Obligations.WayWords : Prop :=
  (∀ (fin : Bool) (d a : BitVec 6) (s : State), let w : WordInfo := { infoS fin [d, a] with waits := true }
     clear w s → s.grp.oz = false →
     let size := (s.grp.readS a.toNat).toNat
     let n := (size + 255) / 256 * 256
     let tm := s.team s.grp.team
     let bufs := (s.core tm.core).bufs
     let used := fun (i : Nat) => ∃ b, bufs.get? i = some b ∧ b.live = true
     (size = 0 ∨ 524288 < size ∨ (∀ i, i < 255 → used i) ∨ s.findSpace s.grp.team n = none →
       scalarResult (.spAlloc fin d a) w d.toNat (fun _ => 0xFFFF) s) ∧
     ∀ i off, 0 < size → size ≤ 524288 → i < 255 → ¬ used i → (∀ j, j < i → used j) → s.findSpace s.grp.team n = some off →
       let gen := ((bufs.get? i).map (·.gen)).getD 0
       ∃ u : State, effect (.spAlloc fin d a) w u s ∧
         { u with cores := s.cores, teams := s.teams, groups := s.groups, free := s.free } = s ∧
         (u.core tm.core).bufs.get? i = some ⟨true, gen, s.grp.team, s.grp.team, off, n, none⟩ ∧
         (∀ j, j ≠ i → (u.core tm.core).bufs.get? j = bufs.get? j) ∧
         ∀ r, u.grp.readS r = if r = d.toNat ∧ d.toNat ≠ 0 then BitVec.ofNat 64 (tm.rank * 4096 + gen * 256 + i) else s.grp.readS r) ∧
  (∀ (fin : Bool) (d : BitVec 6) (k : BitVec 4) (s : State), let w : WordInfo := { fin, sn := [d.toNat], waits := true }
     clear w s → s.grp.oz = false →
     s.teams.get? s.grp.team ≠ none →
     let n := k.toNat + 1
     let tm := s.team s.grp.team
     let free := s.cacheWays tm.core
     let keep := tm.ways.length - n
     let inUse := ∃ e ∈ s.extents s.grp.team, keep * 32768 < e.2
     let result := fun (i : Instr) (x : Quad) (ways gone : List Nat) => ∃ u : State, effect i w u s ∧
       { u with teams := s.teams, groups := s.groups, cores := s.cores } = s ∧ (u.team s.grp.team).ways = ways ∧
       u.grp = { s.grp with pend := s.grp.pend ++ [returned (.scalar d.toNat x)] } ∧
       (∀ m, m ≠ s.grp.team → u.team m = s.team m) ∧
       ∀ c, u.core c = if c = tm.core then { s.core c with l1 := (s.core c).l1.filter fun e => !gone.contains e.2.way } else s.core c
     (n ≤ free.length → result (.spcvt fin d k) 0 (tm.ways ++ free.take n) (free.take n)) ∧
     (free.length < n → result (.spcvt fin d k) 1 tm.ways []) ∧
     (n ≤ tm.ways.length → ¬ inUse → result (.l1cvt fin d k) 0 (tm.ways.take keep) []) ∧
     (n ≤ tm.ways.length → inUse → result (.l1cvt fin d k) 2 tm.ways []) ∧
     (tm.ways.length < n → result (.l1cvt fin d k) 1 tm.ways []))

/-- R142, R144, R350 to R352, R147: the other words on buffers. `sp.free` frees a buffer that no command names, and its generation advances;
`bheld` tells whether the team holds it; `bhand` hands it to the cluster's team of the rank; `syw.init` sets its sync word to a target with
COUNT and GEN 0; `syw.wait` returns GEN when it has passed. R150, R353: `lock` counts, against the quota LOCKQ that the context had at the grid's placement
and the 12 lockable ways of a set, the lines of the range that are not locked; above the quota it returns 1, and above a set's ways 2, and
locks nothing; else, of lines that their homes hold whole, it locks them and returns 0. `unlock` unlocks each line of the range that is locked. -/
def Obligations.BufferAndLockWords : Prop :=
  (∀ (fin : Bool) (d h a : BitVec 6) (rank : BitVec 4) (imm : BitVec 11) (s : State) (core i : Nat) (b : Buf), s.grp.oz = false →
     let word := fun (rs : List (BitVec 6)) => ({ infoS fin rs with waits := true } : WordInfo)
     let hd := s.grp.readS h.toNat
     let busy := s.bufferBusy s.grp.team hd
     s.buffer s.grp.team hd = some (core, i, b) →
     (clear (word [h]) s → busy = false → effect (.spFree fin h) (word [h])
       (s.setBuf core i { b with live := false, gen := (b.gen + 1) % 16, syw := none }) s) ∧
     (clear (word [h]) s → busy = true → exec (.spFree fin h) s = .next s) ∧
     scalarResult (.bheld fin d h) (word [d, h]) d.toNat (fun _ => 1) s ∧
     (s.buffer s.grp.team (s.grp.readS a.toNat) = none →
       scalarResult (.bheld fin d a) (word [d, a]) d.toNat (fun _ => 0) s) ∧
     (∀ u, clear (word [h]) s → (s.peers s.grp.team).find? (fun u => (s.team u).rank == rank.toNat) = some u →
       (u = s.grp.team → effect (.bhand fin h rank) (word [h]) s s) ∧
       (u ≠ s.grp.team → busy = false → s.releaseAsks s.grp 3 = none →
         effect (.bhand fin h rank) (word [h]) (s.setBuf core i { b with holder := u }) s)) ∧
     (let o := 16 * (match s.grp.hx with | none => imm.toNat | some x => x.toNat * 2048 + imm.toNat)
      clear { word [h, a] with hx := true } s → o + 16 ≤ b.size → s.teams.get? b.owner ≠ none →
       ∃ u : State, effect (.sywInit fin h a imm) { word [h, a] with hx := true } u s ∧
         { u with cores := s.cores, teams := s.teams } = s ∧ (u.core core).bufs.get? i = some { b with syw := some o } ∧
         (u.team b.owner).spWord (b.off + o) = (s.grp.readS a.toNat).extractLsb' 0 32 ∧
         (u.team b.owner).spWord (b.off + o + 4) = 0 ∧ (u.team b.owner).spWord (b.off + o + 8) = 0) ∧
     ∀ o, b.syw = some o → clear (word [d, h, a]) s →
       let gen := (s.team b.owner).spWord (b.off + o + 8)
       let v := (s.grp.readS a.toNat).extractLsb' 0 32
       let ahead := (gen.toNat + 2 ^ 32 - v.toNat) % 2 ^ 32
       (1 ≤ ahead ∧ ahead < 2 ^ 31 → effect (.sywWait fin d h a) (word [d, h, a]) (s.setGrp { s.grp with pend := s.grp.pend ++
         [returned (.scalar d.toNat (gen.setWidth 64))] }) s) ∧
       (¬ (1 ≤ ahead ∧ ahead < 2 ^ 31) → exec (.sywWait fin d h a) s =
         .next (s.setGrp { s.grp with block := .syw d.toNat (hd.toNat % 65536) v, blockFin := fin }))) ∧
  (∀ (fin : Bool) (d a b : BitVec 6) (s : State), s.grp.oz = false →
     let va := s.grp.readS a.toNat
     let n := (s.grp.readS b.toNat).toNat
     let slot := s.ctxOf s.grp
     let asid := s.asidOf s.grp
     let w : WordInfo := { infoS fin [d, a, b] with waits := true }
     let lines := s.lockLines asid va n
     let locked := fun (s : State) (x : Quad) => ∃ l, s.line? asid x = some l ∧ l.locked ≠ none
     let pages := ∀ x ∈ pagesOf va (512 * n), ∃ p, s.checkMany x 0 = .ok p
     let news := lines.filter fun x => !(((s.line? asid x).map (·.locked.isSome)).getD false)
     va.toNat % 512 = 0 → pages →
     (clear w s → 0 < n → n ≤ 2 ^ 20 → s.pageNeeds asid 0 (pagesOf va (512 * n)) = [] →
       let inSet := fun (p : Nat × Nat) => (s.l2.filter fun e => e.2.locked.isSome && homeSlice (e.1 / 2 ^ 55) (e.1 % 2 ^ 55) == p.1 &&
           homeSet (e.1 / 2 ^ 55) (e.1 % 2 ^ 55) == p.2).length +
         (news.filter fun y => (homeSlice asid (lineOf y), homeSet asid (lineOf y)) == p).length
       ((s.ctx slot).lockUsed + news.length ≤ s.lockqOf s.grp → (∀ p, inSet p ≤ 12) →
         (∀ x ∈ lines, s.wholeLineAsks asid x = [] ∧ ∃ l, s.line? asid x = some l ∧ ∀ k, k < 16 → l.valid.getLsbD k = true) →
         ∃ u : State, effect (.lock fin d a b) w u s ∧ { u with l2 := s.l2, ctxs := s.ctxs, groups := s.groups } = s ∧
           (∀ x ∈ lines, locked u x) ∧ (u.ctx slot).lockUsed = (s.ctx slot).lockUsed + news.length ∧
           u.grp = { s.grp with pend := s.grp.pend ++ [returned (.scalar d.toNat 0)] }) ∧
       (s.lockqOf s.grp < (s.ctx slot).lockUsed + news.length → effect (.lock fin d a b) w
         (s.setGrp { s.grp with pend := s.grp.pend ++ [returned (.scalar d.toNat 1)] }) s) ∧
       ((s.ctx slot).lockUsed + news.length ≤ s.lockqOf s.grp →
         (∃ y ∈ news, 12 < inSet (homeSlice asid (lineOf y), homeSet asid (lineOf y))) → effect (.lock fin d a b) w
         (s.setGrp { s.grp with pend := s.grp.pend ++ [returned (.scalar d.toNat 2)] }) s)) ∧
     (clear { infoS fin [a, b] with waits := true } s → ∃ u : State, effect (.unlock fin a b) { infoS fin [a, b] with waits := true } u s ∧
       { u with l2 := s.l2, ctxs := s.ctxs } = s ∧ ∀ x ∈ linesAt va n, ¬ locked u x))

/-! ### Loads, stores and atomics (R40, R152 to R155, R177 to R182, R247 to R250, R334 to R342) -/

/-- R334 to R337, Table 20.2: a load whose lanes pass their checks and whose bytes are at hand completes: the registers take, long-latency
and in ascending lane order, the bytes that the lanes read, zero- or sign-extended; a poisoned lane takes an undefined value and its address
is kept for the poison fault (R169). Of the group only its list of observed writes changes beside, and, of a load that passes an incomplete fence,
the fence's list of lines read (R184): such a load reads its core's copies alone, and waits otherwise (the model's choice, log entry 7). The
undefined value of a poisoned lane is free (log entry 5). -/
def Obligations.LoadWords : Prop :=
  ∀ (fin lu : Bool) (data off : BitVec 7) (base : BitVec 5) (s : State),
    let load := fun (i : Instr) (n regs : Nat) (signed : Bool) =>
      let w : WordInfo := {
        fin, vr := [off.toNat], vw := (List.range regs).map (data.toNat + ·), sn := [base.toNat], frees := freeIf lu off.toNat
        hx := true, hm := hmLoadOk }
      let c := s.checkLanes (memAddr s.grp base off) n 0
      let r := s.readLanes c.good n (loadBound s) State.ozRead
      let value := fun (bs : List Byte) (k : Nat) =>
        if signed then BitVec.ofInt 32 (BitVec.ofNat (8 * n) (leNat bs)).toInt else BitVec.ofNat 32 (leNat ((bs.drop (4 * k)).take 4))
      clear w s → c.asks = [] → c.bad = [] → s.loadWaits c.good = false → s.readNeeds c.good n (loadBound s) = [] → r.asks = [] →
        ∃ u : State, effect i w u s ∧
        { u.grp with pend := s.grp.pend, observed := s.grp.observed, fence := s.grp.fence, acq := s.grp.acq } = s.grp ∧
        u.grp.fence.map (fun f => (f.scope, f.since, f.back)) = s.grp.fence.map (fun f => (f.scope, f.since, f.back)) ∧
        (∀ f, u.grp.fence = some f → ∀ x ∈ c.good, lineKey (s.asidOf s.grp) (lineOf x.2.1) ∈ f.lines) ∧
        (r.waits = [] → u.grp.acq = none ∧ ∃ vals : Nat → Tbl Word,
          u.grp.pend = s.grp.pend ++ (List.range regs).map (fun k => ({ returned (.lanes (data.toNat + k) (vals k)) with
            poisoned := if k = 0 then (r.got.filter (·.2.2)).map (fun x => (x.1, memAddr s.grp base off x.1)) else [] } : Pending)) ∧
          ∀ k, k < regs → (vals k).map (·.1) = r.got.map (·.1) ∧
            ∀ (j : Nat) (x : Nat × List Byte × Bool), r.got[j]? = some x → x.2.2 = false → (vals k)[j]? = some (x.1, value x.2.1 k))
    load (.ldB fin data off lu base) 1 1 false ∧ load (.ldBs fin data off lu base) 1 1 true ∧
    load (.ldH fin data off lu base) 2 1 false ∧ load (.ldHs fin data off lu base) 2 1 true ∧
    load (.ldW fin data off lu base) 4 1 false ∧ load (.ldD fin data off lu base) 8 2 false ∧ load (.ldQ fin data off lu base) 16 4 false

/-- R137, R138, R155, R247 to R250: where a lane's load takes its bytes. A core's copy of a line that is not round-managed serves the load when it
holds the sector and the core buffers no atomic to the line; else the home's line does, and leaves a copy. A copy of a round-managed line serves
it only while its fill round is within the bound; else the load refetches from the home, which leaves a copy with the counter's value as its
fill round, or, with STALL of the counter 1, waits at the home for the next bump. Under bound 15 it reads the home, and every L1 is as before. No
byte of memory changes. -/
def Obligations.LaneReads : Prop :=
  ∀ (s : State) (core asid : Nat) (va : Quad) (n k : Nat) (again : Bool),
    let o := va.toNat % 512
    let at_ := s.copyCore core (lineOf va)
    let key := lineKey asid (lineOf va)
    let kept := fun (t : State) => t.mem = s.mem ∧ t.peerMem = s.peerMem ∧ ∀ x y, homeByte t x y = homeByte s x y
    let gives := fun (t : State) (data : Memory) (poison : List Nat) =>
      s.readVa core asid va n k again = .bytes t (data.bytes o n) (poison.any fun p => p < o + n && o < p + s.eccSize) ∧ kept t
    let copied := fun (t : State) (fill : Option Word) => s.cacheWays at_ ≠ [] → ∃ c, (t.core at_).l1.get? key = some c ∧
      c.valid.getLsbD (o / 32) = true ∧ c.fills.get? (o / 32) = fill
    let home := fun (h : L2Line) => s.homeAsks asid va 0 = [] ∧ s.line? asid va = some h ∧ (h.grain = 1 ∨ h.grain = 4 ∨ h.grain = 16)
    let refetches := fun (c : Nat) (v : Word) => ∀ h, home h → h.round = some c →
      (s.roundStall.getD c false = false → ∃ t, gives t h.data h.poison ∧ copied t (some v)) ∧
      (s.roundStall.getD c false = true → ∃ t h', s.readVa core asid va n k again = .stalled t c ∧ kept t ∧
        t.line? asid va = some h' ∧ core ∈ h'.wanted ∧ { h' with wanted := h.wanted } = h ∧ ∀ m, (t.core m).l1 = (s.core m).l1)
    (∀ l, s.readL1 core asid va = some l →
      (l.round = none → gives s l.data l.poison) ∧
      (∀ c, l.round = some c → k = 15 → ∀ h, home h → ∃ t, gives t h.data h.poison ∧ t.cores = s.cores) ∧
      (∀ c v, l.round = some c → k < 15 → s.roundValue core c = some v →
        (∀ f, l.fills.get? (o / 32) = some f → (v - f).toNat ≤ k → ∃ t, gives t l.data l.poison ∧ ∀ m, (t.core m).l1 = (s.core m).l1) ∧
        ((∀ f, l.fills.get? (o / 32) = some f → k < (v - f).toNat) → refetches c v))) ∧
    (s.readL1 core asid va = none → ∀ h, home h →
      (h.round = none → ∃ t, gives t h.data h.poison ∧ copied t none) ∧
      (∀ c, h.round = some c → k = 15 → ∃ t, gives t h.data h.poison ∧ t.cores = s.cores) ∧
      (∀ c v, h.round = some c → k < 15 → s.roundValue core c = some v → refetches c v))

/-- R335, R340, Table 20.3, R181: a store whose lanes pass their checks, whose release is performed and which nothing has to precede
completes: the lanes store their bytes in ascending lane order; no register changes. -/
def Obligations.StoreWords : Prop :=
  ∀ (fin lu : Bool) (data off : BitVec 7) (base : BitVec 5) (s : State),
    let store := fun (i : Instr) (n regs : Nat) =>
      let rs := (List.range regs).map (data.toNat + ·)
      let w : WordInfo := {
        fin, vr := off.toNat :: rs, sn := [base.toNat], frees := if lu then rs else [], hx := true, hm := hmStoreOk, waits := true }
      let c := s.checkLanes (memAddr s.grp base off) n 1
      let bytes := fun (l : Nat) => (List.range n).map fun k => (s.grp.readV (data.toNat + k / 4) l).extractLsb' (8 * (k % 4)) 8
      let u := s.recordLoss
      clear w s → c.asks = [] → c.bad = [] → s.relAsks = none → u.storeNeeds c.good n = [] →
        effect i w (u.storeLanes State.ozWrite s.grp.core (s.asidOf s.grp) c.good bytes) s
    store (.stB fin data off lu base) 1 1 ∧ store (.stH fin data off lu base) 2 1 ∧ store (.stW fin data off lu base) 4 1 ∧
    store (.stD fin data off lu base) 8 2 ∧ store (.stQ fin data off lu base) 16 4

/-- R40, R149, R152, R340: where one lane's store goes. To a line that its home holds: into the home's copy, at the lane's address and nowhere
else; the words are sent to every other sharer of a block with a precise record, and to every core that a coarse record covers (to none of a
round-managed line), and the store waits for as many acknowledgements; to a comb-target line or an NC page: to the bank, while every byte of the
home's copy stays; to a page of another package: to that package too, at once (the model's choice, log entry 1). A line of this package that its
home does not hold is brought there first. R235: a store to the ballot record of an unfinished grid marks that record, whose later contents are
unpredictable. Nothing else of any memory changes. -/
def Obligations.LaneStores : Prop :=
  ∀ (s : State) (core gid asid : Nat) (attr : PageAttr) (va : Quad) (bytes : List Byte), va.toNat % 512 + bytes.length ≤ 512 →
    let pa := pageAddr attr va
    let n := bytes.length
    let t := s.storeTo core gid asid attr va bytes []
    let inside := fun (x y : Nat) => x = asid ∧ va.toNat ≤ y ∧ y < va.toNat + n
    let held := fun (s : State) => attr.nc = true ∨ ∃ l, s.line? asid va = some l ∧ l.valid.getLsbD (va.toNat % 512 / 32) = true
    let sentTo := fun (l : L2Line) => if l.round ≠ none then [] else match l.sharersAt (va.toNat % 512) with
      | .precise cs => cs.filter (· != s.copyCore core (lineOf va))
      | .coarse dies => (List.range 577).filter fun c => dies.getLsbD (dieOfCore c)
    (¬ held s → held (s.bring asid va 1) → s.isMine pa = true → s.spoil asid va.toNat n = s →
      (s.bring asid va 1).spoil asid va.toNat n = s.bring asid va 1 → t = (s.bring asid va 1).storeTo core gid asid attr va bytes []) ∧
    t.ozMem = s.ozMem ∧ t.hostMem = s.hostMem ∧
    (∀ a, ¬ (s.isMine pa = false ∧ pa ≤ a ∧ a < pa + n) → t.peerMem.byte a = s.peerMem.byte a) ∧
    (s.isMine pa = false → t.peerMem.bytes pa n = bytes) ∧
    (held s → t.mem = s.mem ∧
      (∀ x y, y < 2 ^ 64 → x < 2 ^ 16 → asid < 2 ^ 16 → ¬ inside x y → homeByte t x y = homeByte s x y) ∧
      (∀ l, attr.nc = false → s.line? asid va = some l → (s.isMine pa = false ∨ l.comb = false) →
        (∀ k, k < n → homeByte t asid (va.toNat + k) = bytes[k]?) ∧
        (∃ st, t.stores.get? s.fresh = some st ∧ st.home = true ∧ st.bank = false ∧ st.acks = (sentTo l).length) ∧
        ∀ c ∈ sentTo l, ∃ u ∈ t.updates, u.core = c ∧ u.asid = asid ∧ u.line = lineOf va ∧ u.off = va.toNat % 512 ∧ u.bytes = bytes ∧
          u.store = s.fresh) ∧
      (s.isMine pa = true → (attr.nc = true ∨ ∃ l, s.line? asid va = some l ∧ l.comb = true) →
        t.bankq = s.bankq ++ [⟨asid, va.toNat, dpaLocal pa, bytes, [], s.fresh⟩] ∧
        ∀ x y, y < 2 ^ 64 → x < 2 ^ 16 → asid < 2 ^ 16 → homeByte t x y = homeByte s x y)) ∧
    (∀ m b, s.grids.get? m ≠ none → (s.grid m).st ≠ .done → (s.ctx (s.grid m).ctx).asid = asid → (s.grid m).ballot = some b → n ≠ 0 →
      va.toNat < b.addr.toNat + 4096 → b.addr.toNat < va.toNat + n → ∃ b', ((s.spoil asid va.toNat n).grid m).ballot = some b' ∧ b'.spoiled = true)

/-- R341, R342: an atomic word whose lanes pass their checks, whose release is performed and which nothing has to precede completes: the
lanes' atomics take place in ascending lane order, and a returning one's old values are under way to the register that `hm` names. R342,
Tables 7.5 and 20.5: an atomic at its home reads the old 32-bit value of the home's copy and writes there the new one (a failing `atom.cas`
writes nothing); in HBM and the capacity tier it does the same on memory. Every other byte is as before. -/
def Obligations.AtomicWords : Prop :=
  (∀ (fin lu : Bool) (data off : BitVec 7) (base : BitVec 5) (ret uns : Bool) (s : State),
     let atomic := fun (i : Instr) (op : Nat) (ret uns : Bool) =>
       let w : WordInfo := {
         fin, vr := [off.toNat, data.toNat] ++ (if op = 8 then [hmXB s.grp] else []), vw := if ret then [hmXD s.grp] else [], sn := [base.toNat]
         frees := freeIf lu data.toNat ++ (if op = 8 then freeIf (hmLB s.grp) (hmXB s.grp) else []), hx := true
         hm := hmAtomOk ret (op == 8), waits := true }
       let c := s.checkLanes (memAddr s.grp base off) 4 1
       let r := s.recordLoss.atomLanes c.good op ret uns data.toNat
       clear w s → c.asks = [] → c.bad = [] → s.relAsks = none → r.asks = [] →
         let u := match acqScope s.grp with
           | some sc => r.st.acquire sc
           | none => r.st
         effect i w (if ret then u.setGrp { u.grp with pend := u.grp.pend ++ [returned (.lanes (hmXD s.grp) r.old)] } else u) s
     atomic (.atomAdd fin data off lu base ret uns) 0 ret uns ∧ atomic (.atomFadd fin data off lu base ret) 1 ret false ∧
     atomic (.atomMin fin data off lu base ret uns) 2 ret uns ∧ atomic (.atomMax fin data off lu base ret uns) 3 ret uns ∧
     atomic (.atomAnd fin data off lu base ret uns) 4 ret uns ∧ atomic (.atomOr fin data off lu base ret uns) 5 ret uns ∧
     atomic (.atomXor fin data off lu base ret uns) 6 ret uns ∧ atomic (.atomXchg fin data off lu base ret uns) 7 ret uns ∧
     atomic (.atomCas fin data off lu base uns) 8 true uns) ∧
  (∀ (s : State) (core asid : Nat) (gids : List Nat) (merged : Bool) (attr : PageAttr) (va : Quad) (op : Nat) (uns : Bool) (a b : Word), va.toNat % 4 = 0 → asid < 2 ^ 16 →
     let new := fun (old : Word) => match op with
       | 0 => some (BitVec.ofNat 32 (old.toNat + a.toNat))
       | 1 => some (BitVec.ofNat 32 (Fmt.fp32.fadd old.toNat a.toNat))
       | 2 => some (if uns then BitVec.ofNat 32 (min old.toNat a.toNat) else BitVec.ofInt 32 (min old.toInt a.toInt))
       | 3 => some (if uns then BitVec.ofNat 32 (max old.toNat a.toNat) else BitVec.ofInt 32 (max old.toInt a.toInt))
       | 4 => some (old &&& a)
       | 5 => some (old ||| a)
       | 6 => some (old ^^^ a)
       | 7 => some a
       | _ => if old = a then some b else none
     (∀ l, s.line? asid va = some l → l.valid.getLsbD (va.toNat % 512 / 32) = true →
       let old := l.data.word (va.toNat % 512)
       let r := s.atomAt core gids merged asid attr va .home op uns a b
       r.1 = old ∧ r.2.mem = s.mem ∧
       (∀ x y, x < 2 ^ 16 → y < 2 ^ 64 → ¬ (x = asid ∧ va.toNat ≤ y ∧ y < va.toNat + 4) → homeByte r.2 x y = homeByte s x y) ∧
       ∃ l', r.2.line? asid va = some l' ∧ l'.data.word (va.toNat % 512) = (new old).getD old) ∧
     ∀ pa comb,
       let t := s.bankTouch pa
       let r := s.atomAt core gids merged asid attr va (.bank pa comb) op uns a b
       r.1 = t.mem.word pa ∧ r.2.mem.word pa = (new (t.mem.word pa)).getD (t.mem.word pa) ∧
       ∀ x, x < pa ∨ pa + 4 ≤ x → r.2.mem.byte x = t.mem.byte x)

/-! ### Rounds, shapes, formats and tensor records (R198, R211, R246, R251, R252, R359, R360, R365) -/

/-- R246, R251, R252: `rget` writes the value that the core's round table holds of the counter; the group stalls while no entry holds it,
and the installation puts the memory processor's value there. `racq` returns the value at the memory processor, once no push of the counter
is on its way to the core. `rbump`, once its release is performed, raises the counter by 1 and pushes the new value to every table that
holds it; a push changes an entry that holds the counter, never to an earlier value, and is dropped elsewhere. -/
def Obligations.RoundWords : Prop :=
  ∀ (fin : Bool) (d a : BitVec 6) (s : State),
    let g := s.grp
    let w : WordInfo := { infoS fin [d, a] with waits := true }
    let c := ((g.readS a.toNat).extractLsb' 0 12).toNat
    (clear w s → ∀ v, s.roundValue g.core c = some v →
      (∃ u : State, effect (.rget fin d a) w u s ∧ { u with cores := s.cores, groups := s.groups } = s ∧
        (∀ r, u.grp.readS r = if r = d.toNat ∧ d.toNat ≠ 0 then v.setWidth 64 else g.readS r) ∧
        ∀ k n, u.roundValue k n = s.roundValue k n) ∧
      ((∀ p ∈ s.pushes, ¬ (p.core = g.core ∧ p.counter = c)) → ∃ u : State, effect (.racq fin d a) w u s ∧
        { u with cores := s.cores, groups := s.groups } = s ∧
        u.grp.pend = g.pend ++ [returned (.scalar d.toNat ((s.roundVal c).setWidth 64))])) ∧
    (clear w s → s.roundValue g.core c = none → ∃ t : State, exec (.rget fin d a) s = .next t ∧ exec (.racq fin d a) s = .next t ∧
      { t with due := s.due } = s ∧ ∃ u : State, exec (.roundInstall g.core c) t = .next u ∧
        u.roundValue g.core c = some (s.roundVal c) ∧ { u with cores := s.cores, due := s.due } = s) ∧
    (clear w s → ∃ u : State, effect (.rbump fin d a) w u s ∧ { u with groups := s.groups, due := s.due, fresh := s.fresh } = s ∧
      u.grp = { g with pend := g.pend ++
        [⟨.scalar d.toNat (BitVec.ofNat 64 c), false, false, false, [], bumpTag + 2 * s.fresh⟩] }) ∧
    (∀ gid p r n, (s.group gid).pend.find? (fun p => bumpTag ≤ p.tag && !p.ready) = some p → p.tag % 2 = 0 →
      p.res = .scalar r (BitVec.ofNat 64 n) → n < 4096 → s.cumulative (s.group gid) 5 = none →
      ∃ t : State, exec (.roundIncrement gid) s = .next t ∧ t.roundVal n = s.roundVal n + 1 ∧
        (∀ m, m ≠ n → t.roundVal m = s.roundVal m) ∧
        ∀ e ∈ s.cores, (∃ x ∈ e.2.rtab, x.1 = n) → ∃ q ∈ t.pushes, q.core = e.1 ∧ q.counter = n ∧ q.val = s.roundVal n + 1) ∧
    ∀ core p, s.pushes.find? (fun p => p.core == core) = some p → ∃ t : State, exec (.roundPush core) s = .next t ∧
      t.rounds = s.rounds ∧
      (t.core core).rtab = (s.core core).rtab.map fun e =>
        if e.1 = p.counter then (e.1, if (p.val - e.2).toNat < 2 ^ 31 then p.val else e.2) else e

/-- R211, R359, Table 12.1: `shape` denies a request with a reserved source or reserved bits (1), with different containers (2), or with a
four-bit container and SC16 (3), and grants every other; the grant word goes to sD, and a grant replaces the group's. R198, R360, R365:
`fmtset` writes a valid value to the team's format register, and an invalid one raises the illegal-instruction fault and leaves the
register. `tsr.set` of an aligned address whose page can be read has its 64 bytes under way as a record for the slot, for which the end of
the run waits; a misaligned address takes the alignment fault. -/
def Obligations.RecordWords : Prop :=
  (∀ (fin : Bool) (d a : BitVec 6) (s : State), let w : WordInfo := { fin, sn := [d.toNat, a.toNat], oz := false, waits := true }
     s.grp.oz = false → clear w s →
     let r := s.grp.readS a.toNat
     let src := fun (k : Nat) => (r.extractLsb' k 2).toNat
     let fmt := fun (k : Nat) => s.myTeam.fmt.getD (r.extractLsb' (k + 2) 4).toNat fmtReset
     let width := fun (k : Nat) => ((fmt k).extractLsb' 0 1).toNat + ((fmt k).extractLsb' 1 4).toNat + ((fmt k).extractLsb' 5 4).toNat
     let cont := fun (k : Nat) => if src k = 2 then (if width k ≤ 4 then 4 else 8) else 16
     let sc16 := fun (k : Nat) => src k = 2 ∧ (fmt k).getLsbD 26 = true
     let reserved := src 0 = 3 ∨ src 6 = 3 ∨ r.extractLsb' 12 52 ≠ 0
     let denied := fun (why : Nat) => ∃ u : State, effect (.shape fin d a) w u s ∧
       u = s.setGrp u.grp ∧ u.grp.grant = s.grp.grant ∧
       ∀ q, u.grp.readS q = if q = d.toNat ∧ d.toNat ≠ 0 then BitVec.ofNat 64 (2 * why) else s.grp.readS q
     (reserved → denied 1) ∧
     (¬ reserved → cont 0 ≠ cont 6 → denied 2) ∧
     (¬ reserved → cont 0 = cont 6 → cont 0 = 4 → (sc16 0 ∨ sc16 6) → denied 3) ∧
     (¬ reserved → cont 0 = cont 6 → ¬ (cont 0 = 4 ∧ (sc16 0 ∨ sc16 6)) → ∃ (u : State) (x : Quad),
       effect (.shape fin d a) w u s ∧ u = s.setGrp u.grp ∧ u.grp.grant = x ∧
       (∀ q, u.grp.readS q = if q = d.toNat ∧ d.toNat ≠ 0 then x else s.grp.readS q) ∧
       x.getLsbD 0 = true ∧ x.extractLsb' 1 3 = 0 ∧ (x.extractLsb' 6 8).toNat = 512 / cont 0 ∧
       (x.extractLsb' 4 2).toNat = (if cont 0 = 16 then 0 else if cont 0 = 8 then 1 else 2))) ∧
  (∀ (fin : Bool) (n : BitVec 4) (a : BitVec 6) (s : State), s.grp.oz = false →
     let w : WordInfo := { fin, sn := [a.toNat], oz := false, waits := true }
     let x := s.grp.readS a.toNat
     let sign := (x.extractLsb' 0 1).toNat
     let exp := (x.extractLsb' 1 4).toNat
     let man := (x.extractLsb' 5 4).toNat
     let policy := (x.extractLsb' 24 2).toNat
     let valid := 2 ≤ sign + exp + man ∧ sign + exp + man ≤ 8 ∧ exp ≤ 8 ∧ man ≤ 8 ∧ policy ≠ 3 ∧ (policy = 0 → 2 ≤ exp ∧ 1 ≤ man) ∧
       (exp = 0 → policy = 2) ∧ x.extractLsb' 9 7 = 0 ∧ x.extractLsb' 27 5 = 0 ∧ x.extractLsb' 48 16 = 0
     clear w s →
     (valid → s.teams.get? s.grp.team ≠ none → ∃ u : State, effect (.fmtset fin n a) w u s ∧ { u with teams := s.teams } = s ∧
       (u.team s.grp.team).fmt.get? n.toNat = some x ∧ (∀ m, m ≠ n.toNat → (u.team s.grp.team).fmt.get? m = s.myTeam.fmt.get? m) ∧
       (∀ m, m ≠ s.grp.team → u.team m = s.team m)) ∧
     (¬ valid → canTrap s.grp → ∃ t, exec (.fmtset fin n a) s = .next t ∧ t.teams = s.teams ∧
       ∀ l, l < 16 → s.grp.e.getLsbD l = true → delivered s t l 0x01 0) ∧
     (x.toNat % 64 ≠ 0 → canTrap s.grp → ∃ t, exec (.tsrSet fin n a) s = .next t ∧ t.teams = s.teams ∧
       ∀ l, l < 16 → s.grp.e.getLsbD l = true → delivered s t l 0x0A x) ∧
     (x.toNat % 64 = 0 → (∃ attr, s.check x 0 = .ok attr) → (pieces x 64).flatMap (fun y => s.engineAsks (s.asidOf s.grp) y.1) = [] →
       let r := s.groupRead (s.asidOf s.grp) x 64
       effect (.tsrSet fin n a) w (r.1.updGrp fun g => { g with pend := g.pend ++ [returned (.record n.toNat r.2.1 x s.grp.e)] }) s))

/-! ### Engine commands (R210, R221, R222, R229, R358 to R369, R375, R382) -/

/-- R210, R221, R222, R358, Table 21.1: an engine word whose checks pass, whose core buffers no atomic and whose task table has room enters
its command into the table of 64, in issue order, with its class, its tag, its tokens and its parameter block, and counts it as outstanding;
it writes no register, no memory and no tile. A check that fails faults in every lane of E and issues nothing; a full table stalls the group
at the word. R122, R123: an `mma` or `mmas` whose block names a freed register under MODE_DEAD faults, and one whose block names a register with a
result not committed stalls (the order before the other checks is the model's choice, log entry 34). -/
def Obligations.EngineWords : Prop :=
  ∀ (fin flag : Bool) (p : BitVec 6) (urg : BitVec 2) (out : BitVec 8) (s : State),
    let g := s.grp
    let block := fun (n : Nat) => (List.range n).map fun k => g.readS (p.toNat + k)
    let q := fun (n k : Nat) => (block n).getD k 0
    let reads := fun (i : Instr) (n : Nat) (oz : Bool) (regs : List Nat) (check : List Quad → Verdict) (cls op : Nat) (tag : BitVec 16) =>
      let w : WordInfo := { fin, sn := (List.range n).map (p.toNat + ·), hg := true, out := outOk g out, oz, waits := true }
      let freed := (s.modeOf g).getLsbD 10 = true ∧ ∃ r ∈ regs, r < 120 ∧ g.freed.getD r 0 ≠ 0
      clear w s →
      (freed → canTrap g → ∃ t, exec i s = .next t ∧ t.cmds = s.cmds ∧ ∀ l, l < 16 → g.e.getLsbD l = true → delivered s t l 0x04 0) ∧
      (¬ freed → g.uncommitted regs = true → exec i s = .next s) ∧
      (¬ freed → g.uncommitted regs = false →
      (check (block n) = .pass → s.mergesOf g.core = [] → (s.core g.core).tasks.length < 64 → ∃ (u : State) (c : Cmd),
        effect i w u s ∧ { u with cmds := s.cmds, cores := s.cores, groups := s.groups, fresh := s.fresh } = s ∧
        { u.grp with cmds := g.cmds } = g ∧ { (u.core g.core) with tasks := (s.core g.core).tasks } = s.core g.core ∧
        u.cmds.get? s.fresh = some c ∧ c.cls = cls ∧ c.op = op ∧ c.tag.toNat = tag.toNat ∧ c.block = block n ∧ c.st = .waiting ∧
        c.gid = s.cur ∧ c.team = g.team ∧ c.core = g.core ∧ c.ins = hgIns g ∧ c.out = hgOut g out ∧ c.holds = regs ∧
        (∀ id, id ≠ s.fresh → u.cmds.get? id = s.cmds.get? id) ∧
        (u.core g.core).tasks = (s.core g.core).tasks ++ [s.fresh] ∧
        (u.grp.cmds.getD cls [] = g.cmds.getD cls [] ++ [s.fresh]) ∧
        ∀ k, k ≠ cls → u.grp.cmds.getD k [] = g.cmds.getD k []) ∧
      (∀ code addr, check (block n) = .fault code addr false → canTrap g → ∃ t, exec i s = .next t ∧ t.cmds = s.cmds ∧ t.cores = s.cores ∧
        ∀ l, l < 16 → g.e.getLsbD l = true → delivered s t l code addr) ∧
      (check (block n) = .pass → s.mergesOf g.core = [] → 64 ≤ (s.core g.core).tasks.length → exec i s = .next s))
    let enters := fun (i : Instr) (n : Nat) (oz : Bool) (check : List Quad → Verdict) (cls op : Nat) (tag : BitVec 16) =>
      reads i n oz [] check cls op tag
    reads (.mma fin p out) 2 false (mmaHolds g false (block 2)) (s.mmaCheck false) 1 2 ((q 2 1).extractLsb' 16 16) ∧
    reads (.mmas fin p out) 3 false (mmaHolds g true (block 3)) (s.mmaCheck true) 1 3 ((q 3 1).extractLsb' 16 16) ∧
    enters (.accz fin p out) 1 false s.acczCheck 1 4 ((q 1 0).extractLsb' 16 16) ∧
    enters (.accld fin p out) 2 false s.accMoveCheck 1 5 ((q 2 0).extractLsb' 48 16) ∧
    enters (.accst fin p out) 2 false s.accMoveCheck 1 6 ((q 2 0).extractLsb' 48 16) ∧
    enters (.drain fin p flag out) 2 false s.drainCheck 0 7 ((q 2 0).extractLsb' 16 16) ∧
    enters (.copyIn fin p out) 4 false (s.copyCheck 0) 0 0 ((q 4 0).extractLsb' 16 16) ∧
    enters (.copyOut fin p out) 4 false (s.copyCheck 1) 0 1 ((q 4 0).extractLsb' 16 16) ∧
    enters (.copyPf fin p out) 4 false (s.copyCheck 2) 0 2 ((q 4 0).extractLsb' 16 16) ∧
    enters (.attn fin p flag out) 4 false s.attnCheck 2 0 ((q 4 3).extractLsb' 0 16) ∧
    enters (.attnFin fin p out) 2 false s.attnFinCheck 2 1 ((q 2 1).extractLsb' 16 16) ∧
    enters (.rowreq fin p urg out) 4 true s.rowreqCheck 3 2 ((q 4 1).extractLsb' 16 16) ∧
    enters (.collAr fin p out) 4 false (s.roundCheck 0) 4 0 ((q 4 3).extractLsb' 0 16) ∧
    enters (.collAg fin p out) 4 false (s.roundCheck 1) 4 1 ((q 4 3).extractLsb' 0 16) ∧
    enters (.collRs fin p out) 4 false (s.roundCheck 2) 4 2 ((q 4 3).extractLsb' 0 16) ∧
    enters (.collBc fin p out) 4 false (s.roundCheck 3) 4 3 ((q 4 3).extractLsb' 0 16)

/-! ### Handle and prefix words (R228 to R233, R370, R371) -/

/-- R228, R370, R371: a handle word or `pfx.find` whose block is good waits for its slice, and changes no register and no byte of memory
until then; the slice, which has no earlier operation to do and what it touches at hand, answers, the value goes to sD before the next word and the group moves past the
word, or every lane of E takes the slice's fault. A bad block faults at once. R229, R230, R370, Tables 12.9 and 21.7: what the slice
answers. A handle that fails its check gives the handle fault, but to `hdl.ref` without a handle table, which gives 0 (R234); without an arena the words that return a handle give 0, and the others status
3 with LEN. `hdl.mk` with no free entry gives 0. `hdl.ext` and `hdl.trunc` refuse with status 2 or 1 and change nothing; `hdl.trunc` to the
present page count, and `hdl.ext` within it, change LEN alone. The order of the checks of `hdl.mk` and `hdl.ref` is the model's choice (log
entry 13). -/
def Obligations.HandleWords : Prop :=
  (∀ (fin : Bool) (d p : BitVec 6) (s : State), s.grp.oz = false → s.sliceq = [] →
     let g := s.grp
     let block := fun (n : Nat) => (List.range n).map fun k => g.readS (p.toNat + k)
     let info := fun (n : Nat) => ({ fin, sn := d.toNat :: (List.range n).map (p.toNat + ·), oz := false, waits := true } : WordInfo)
     let answers := fun (i : Instr) (n op : Nat) (b : List Quad) => clear (info n) s → ∃ u : State, exec i s = .next u ∧
       { u with groups := s.groups, sliceq := [], due := s.due } = s ∧ u.sliceq = [s.cur] ∧
       u.grp = { g with block := .slice op d.toNat b, blockFin := fin } ∧
       let asid := (s.ctx (s.ctxOf g)).asid
       let u' := { (u.sliceNeeds s.cur op b).foldl (fun t va => t.agentTouch asid va) u with sliceq := [] }
       u'.grp = u.grp → g.leaves = false → g.saving = false → u.agentWaits asid 1 (u.sliceNeeds s.cur op b) = none →
       (∀ (s' : State) (v : Quad), u'.sliceAnswer s.cur op b = .val s' v → s'.cur = s.cur → s'.grp = u.grp →
         ∃ t : State, exec (.handleSliceOperation s.cur) u = .next t ∧ t.mem = s'.mem ∧ past fin g t.grp ∧ t.grp.block = .none ∧
           t.grp.v = g.v ∧ t.grp.p = g.p ∧ ∀ r, t.grp.readS r = if r = d.toNat ∧ d.toNat ≠ 0 then v else g.readS r) ∧
       (∀ code addr, u'.sliceAnswer s.cur op b = .fault code addr → canTrap g →
         ∃ t : State, exec (.handleSliceOperation s.cur) u = .next t ∧ t.mem = u'.mem ∧ t.grp.s = g.s ∧
           ∀ l, l < 16 → g.e.getLsbD l = true → delivered s t l code addr)
     let refused := fun (i : Instr) (n code : Nat) (addr : Quad) => clear (info n) s → canTrap g → ∃ t, exec i s = .next t ∧
       t.mem = s.mem ∧ t.sliceq = [] ∧ ∀ l, l < 16 → g.e.getLsbD l = true → delivered s t l code addr
     let x := g.readS p.toNat
     let y := g.readS (p.toNat + 1)
     let list := g.readS d.toNat
     let goodMk := x.extractLsb' 1 5 = 0 ∧ x.extractLsb' 48 16 = 0
     (goodMk → answers (.hdlMk fin d p) 1 0 (block 1)) ∧ (¬ goodMk → refused (.hdlMk fin d p) 1 0x01 0) ∧
     (y.extractLsb' 20 44 = 0 → answers (.hdlExt fin d p) 2 1 (block 2) ∧ answers (.hdlTrunc fin d p) 2 2 (block 2)) ∧
     (y.extractLsb' 20 44 ≠ 0 → refused (.hdlExt fin d p) 2 0x01 0 ∧ refused (.hdlTrunc fin d p) 2 0x01 0) ∧
     (d ≠ 0 → list.toNat % 64 = 0 → answers (.hdlRef fin d p) 1 3 (block 1 ++ [list])) ∧
     (d = 0 → refused (.hdlRef fin d p) 1 0x01 0) ∧
     (d ≠ 0 → list.toNat % 64 ≠ 0 → refused (.hdlRef fin d p) 1 0x0A list) ∧
     answers (.hdlRel fin d p) 1 4 (block 1) ∧ answers (.pfxFind fin d p) 2 5 (block 2)) ∧
  (∀ (s : State) (gid : Nat) (h x : Quad),
     let slot := s.ctxOf (s.group gid)
     let e := s.hEntry (kvIndex h)
     let ok := s.handleOk (s.tenantOf (s.group gid)) h = true
     let status := fun (code len : Nat) => BitVec.ofNat 64 (code + len * 2 ^ 32)
     (¬ ok → ∀ op, 1 ≤ op → op ≤ 4 → (op = 3 → s.pkg.kvTbl.getLsbD 0 = true) → s.sliceAnswer gid op [h, x] = .fault 0x19 0) ∧
     (s.pkg.kvTbl.getLsbD 0 = false → s.sliceAnswer gid 3 [h, x] = .val s 0) ∧
     (s.arena slot = none → s.sliceAnswer gid 0 [h] = .val s 0 ∧
       (ok → s.sliceAnswer gid 3 [h, x] = .val s 0 ∧ ∀ op, op = 1 ∨ op = 2 ∨ op = 4 → s.sliceAnswer gid op [h, x] = .val s (status 3 e.len))) ∧
     ((∀ i, 0 < i → i < 2 ^ 22 → (s.hEntry i).live = true) → s.sliceAnswer gid 0 [h] = .val s 0) ∧
     (ok → ∀ a, s.arena slot = some a →
       (kvBound h < e.len + x.toNat → s.sliceAnswer gid 1 [h, x] = .val s (status 2 e.len)) ∧
       (e.len + x.toNat ≤ kvBound h → a.top < e.pagesFor (e.len + x.toNat) - e.npage →
         s.sliceAnswer gid 1 [h, x] = .val s (status 1 e.len)) ∧
       (e.len + x.toNat ≤ kvBound h → e.pagesFor (e.len + x.toNat) ≤ e.npage →
         s.sliceAnswer gid 1 [h, x] = .val (s.setHEntry (kvIndex h) { e with len := e.len + x.toNat }) (status 0 (e.len + x.toNat))) ∧
       (kvBound h < x.toNat ∨ e.len < x.toNat → s.sliceAnswer gid 2 [h, x] = .val s (status 2 e.len)) ∧
       (x.toNat ≤ kvBound h → x.toNat ≤ e.len → e.npage ≤ e.pagesFor x.toNat →
         s.sliceAnswer gid 2 [h, x] = .val (s.setHEntry (kvIndex h) { e with len := x.toNat }) (status 0 x.toNat))))

/-- R5, R233, R371: `pfx.ins` of a handle that passes its check sends the insertion to its slice with the partition's stamp, and the group
waits; with no prefix table it writes 0 and goes on. The slice decides the insertion that is next in stamp order, not before its time plus
1,024, with what it touches at hand, in lines that their homes hold whole: a key that is absent takes the handle, which sD receives; a full set gives 0. What a losing insertion does first is the model's
choice (log entry 13). -/
def Obligations.PrefixInsertion : Prop :=
  ∀ (fin : Bool) (d p : BitVec 6) (s : State), s.grp.oz = false →
    let g := s.grp
    let block := (List.range 3).map fun k => g.readS (p.toNat + k)
    let w : WordInfo := { fin, sn := d.toNat :: (List.range 3).map (p.toNat + ·), oz := false, waits := true }
    let h := g.readS (p.toNat + 2)
    let key := (g.readS p.toNat).toNat + (g.readS (p.toNat + 1)).toNat * 2 ^ 64
    let tn := s.tenantOf g
    let src := s.groupSource g
    let die := s.pfxSet key tn % 24
    clear w s →
    (s.handleOk tn h = false → canTrap g → ∃ t, exec (.pfxIns fin d p) s = .next t ∧ t.insertions = s.insertions ∧
      ∀ l, l < 16 → g.e.getLsbD l = true → delivered s t l 0x19 0) ∧
    (s.handleOk tn h = true → s.pkg.pfxTbl.getLsbD 0 = false → scalarResult (.pfxIns fin d p) w d.toNat (fun _ => 0) s) ∧
    (s.handleOk tn h = true → s.pkg.pfxTbl.getLsbD 0 = true →
      let i : Insertion := ⟨s.cur, d.toNat, key, h, (s.stampTime src, src), die, false⟩
      exec (.pfxIns fin d p) s = .next ({ s.stamp src with insertions := s.insertions ++ [i] }.setGrp
        { g with block := .slice 6 d.toNat block, blockFin := fin })) ∧
    ∀ (i : Insertion), s.insertions = [i] → i.die = die → i.asked = false →
      (s.pkg.now < i.stamp.1 + 1024 → exec (.pfxInsertDecide die) s = .next s) ∧
      (i.stamp.1 + 1024 ≤ s.pkg.now → s.pkg.duty.getLsbD 7 = false → i.gid = s.cur →
        s.pfxLookup tn i.key = none → s.agentWaits (s.ctx (s.ctxOf g)).asid 1 (s.insertNeeds s.cur i.h 0) = none →
        (s.insertNeeds s.cur i.h 0).foldl (fun t va => t.agentTouch (s.ctx (s.ctxOf g)).asid va) s = s → g.leaves = false → g.saving = false →
        ∃ t, exec (.pfxInsertDecide die) s = .next t ∧ t.insertions = [] ∧ past g.blockFin g t.grp ∧
          ((∃ k, k < 8 ∧ s.pfxVacant (s.pfxAddr (s.pfxSet i.key tn) k) = true) →
            ∀ r, t.grp.readS r = if r = i.d ∧ i.d ≠ 0 then i.h else g.readS r) ∧
          ((∀ k, k < 8 → s.pfxVacant (s.pfxAddr (s.pfxSet i.key tn) k) = false) → t.mem = s.mem ∧
            ∀ r, t.grp.readS r = if r = i.d ∧ i.d ≠ 0 then 0 else g.readS r))

/-- R142, R144, R147, R150, R228 to R233, R334 to R337, R350 to R353, R370, R371: words that complete, and where. A load whose lanes are
aligned, on pages that pass their checks, in sectors that the core's L1 holds, not round-managed and with no poison, completes
with the bytes of the copies, and changes no byte of memory. `sp.free`, `bheld`, `bhand`, `syw.init` and `syw.wait` complete on a held buffer
that no command names, `lock` of lines that their homes hold whole within the quota and the ways of their sets, `unlock` of any range whose
pages can be read. A handle word or a prefix word whose operands are good and whose slice has nothing earlier to do, with what it touches at
hand in lines that their homes hold whole, completes with the answer of R370 and R371: `hdl.mk` with a new handle of the lowest free entry, or 0 with no arena; `hdl.ext` within
its pages, and `hdl.trunc` to no fewer pages, with the new LEN; `hdl.ref` of a handle of no page with a new handle, `hdl.rel` with the entry
no longer live and its generation advanced, and 3 with LEN for the words of no arena; `pfx.find` with the handle found or 0; `pfx.ins` with
no prefix table with 0, and with one when its slice finds the key absent and an entry free, with the handle. -/
def Obligations.WordsComplete : Prop :=
  ∀ (fin lu : Bool) (data off : BitVec 7) (base : BitVec 5) (d h a b p : BitVec 6) (rank : BitVec 4) (imm : BitVec 11) (s : State),
    s.grp.oz = false →
    let g := s.grp
    let asid := s.asidOf g
    let slot := s.ctxOf g
    -- the word completes with the value `x` in sD, moves past itself, and leaves memory as `m`
    let gives := fun (i : Instr) (x : Quad) (m : Memory) => ∃ t : State, exec i s = .next t ∧ past fin g t.grp ∧ t.mem = m ∧ t.grp.v = g.v ∧
      t.grp.p = g.p ∧ ∀ r, t.grp.readS r = if r = d.toNat ∧ d.toNat ≠ 0 then x else g.readS r
    -- its long-latency result is `new`
    let sends := fun (i : Instr) (new : List Pending) => ∃ t : State, exec i s = .next t ∧ past fin g t.grp ∧ t.mem = s.mem ∧
      t.grp.s = g.s ∧ t.grp.p = g.p ∧ t.grp.pend = pendAfter fin g new
    (let va := memAddr g base off
     let line := fun (l : Nat) => s.readL1 g.core asid (va l)
     let load := fun (i : Instr) (n regs : Nat) (signed : Bool) =>
       let w : WordInfo := {
         fin, vr := [off.toNat], vw := (List.range regs).map (data.toNat + ·), sn := [base.toNat], frees := freeIf lu off.toNat
         hx := true, hm := hmLoadOk }
       let value := fun (l k : Nat) =>
         let bs := Memory.bytes (((line l).map (·.data)).getD []) ((va l).toNat % 512) n
         if signed then BitVec.ofInt 32 (BitVec.ofNat (8 * n) (leNat bs)).toInt else BitVec.ofNat 32 (leNat ((bs.drop (4 * k)).take 4))
       clear w s → g.acq = none → (g.fence = none ∨ acqScope g = none) →
       (∀ l, l < 16 → g.e.getLsbD l = true → (va l).toNat % n = 0 ∧
         (∃ page, s.check (va l) 0 = .ok page) ∧ ∃ c, line l = some c ∧ c.round = none ∧ c.poison = []) →
       ∃ t : State, exec i s = .next t ∧ past fin g t.grp ∧ (acqScope g = none → t.mem = s.mem ∧ t.peerMem = s.peerMem ∧ t.l2 = s.l2) ∧
         t.grp.s = g.s ∧ t.grp.p = g.p ∧ t.grp.pend = pendAfter fin g ((List.range regs).map fun k =>
           returned (.lanes (data.toNat + k) ((lanesOf g.e).map fun l => (l, value l k))))
     load (.ldB fin data off lu base) 1 1 false ∧ load (.ldBs fin data off lu base) 1 1 true ∧
     load (.ldH fin data off lu base) 2 1 false ∧ load (.ldHs fin data off lu base) 2 1 true ∧
     load (.ldW fin data off lu base) 4 1 false ∧ load (.ldD fin data off lu base) 8 2 false ∧
     load (.ldQ fin data off lu base) 16 4 false) ∧
    (∀ core i x, s.buffer g.team (g.readS h.toNat) = some (core, i, x) → s.bufferBusy g.team (g.readS h.toNat) = false →
      let buf := fun (e : Instr) (y : Buf) => ∃ t : State, exec e s = .next t ∧ past fin g t.grp ∧ t.grp.s = g.s ∧ t.mem = s.mem ∧
        (t.core core).bufs.get? i = some y
      let word := fun (rs : List (BitVec 6)) => ({ infoS fin rs with waits := true } : WordInfo)
      (clear (word [h]) s → buf (.spFree fin h) { x with live := false, gen := (x.gen + 1) % 16, syw := none }) ∧
      (clear (word [d, h]) s → gives (.bheld fin d h) 1 s.mem) ∧
      (∀ u, clear (word [h]) s → s.releaseAsks g 3 = none → (s.peers g.team).find? (fun u => (s.team u).rank == rank.toNat) = some u →
        u ≠ g.team → buf (.bhand fin h rank) { x with holder := u }) ∧
      (clear { word [h, a] with hx := true } s → g.hx = none → 16 * imm.toNat + 16 ≤ x.size →
        buf (.sywInit fin h a imm) { x with syw := some (16 * imm.toNat) }) ∧
      (∀ o, clear (word [d, h, a]) s → x.syw = some o →
        let gen := (s.team x.owner).spWord (x.off + o + 8)
        let ahead := (gen.toNat + 2 ^ 32 - ((g.readS a.toNat).extractLsb' 0 32).toNat) % 2 ^ 32
        1 ≤ ahead → ahead < 2 ^ 31 → sends (.sywWait fin d h a) [returned (.scalar d.toNat (gen.setWidth 64))])) ∧
    (let va := g.readS a.toNat
     let n := (g.readS b.toNat).toNat
     let lines := s.lockLines asid va n
     va.toNat % 512 = 0 → (∀ x ∈ pagesOf va (512 * n), ∃ page, s.checkMany x 0 = .ok page) →
     (clear { infoS fin [d, a, b] with waits := true } s → 0 < n → n ≤ 2 ^ 20 → s.pageNeeds asid 0 (pagesOf va (512 * n)) = [] → (s.ctx slot).lockUsed + lines.length ≤ s.lockqOf g →
       (∀ q, (s.l2.filter fun e => e.2.locked.isSome && homeSlice (e.1 / 2 ^ 55) (e.1 % 2 ^ 55) == q.1 &&
         homeSet (e.1 / 2 ^ 55) (e.1 % 2 ^ 55) == q.2).length + (lines.filter fun y =>
           (homeSlice asid (lineOf y), homeSet asid (lineOf y)) == q).length ≤ 12) →
       (∀ x ∈ lines, s.wholeLineAsks asid x = [] ∧ ∃ l, s.line? asid x = some l ∧ l.locked = none ∧ ∀ k, k < 16 → l.valid.getLsbD k = true) →
       sends (.lock fin d a b) [returned (.scalar d.toNat 0)]) ∧
     (clear { infoS fin [a, b] with waits := true } s → ∃ t : State, exec (.unlock fin a b) s = .next t ∧ past fin g t.grp ∧ t.mem = s.mem ∧
       t.grp.s = g.s ∧ ∀ x ∈ linesAt va n, ∀ l, t.line? asid x = some l → l.locked = none)) ∧
    (let tn := s.tenantOf g
     let x := g.readS p.toNat
     let y := g.readS (p.toNat + 1)
     let list := g.readS d.toNat
     let e := s.hEntry (kvIndex x)
     let status := fun (code len : Nat) => BitVec.ofNat 64 (code + len * 2 ^ 32)
     -- the word waits for its slice, which answers with the value `v` and leaves memory as `m`
     let answered := fun (i : Instr) (n op : Nat) (b : List Quad) (v : Quad) (m : Memory) =>
       let w := s.setGrp { g with block := .slice op d.toNat b, blockFin := fin }
       let u := ({ w with sliceq := [s.cur] } : State).owe [.handleSlice s.cur]
       let needs := u.sliceNeeds s.cur op b
       clear { fin, sn := d.toNat :: (List.range n).map (p.toNat + ·), oz := false, waits := true } s → g.leaves = false → g.saving = false →
       u.agentWaits (s.ctx slot).asid 1 needs = none → needs.foldl (fun t va => t.agentTouch (s.ctx slot).asid va) u = u →
       ∃ t : State, exec i s = .next u ∧ exec (.handleSliceOperation s.cur) u = .next t ∧ past fin g t.grp ∧
         t.grp.block = .none ∧ t.mem = m ∧ t.grp.v = g.v ∧ t.grp.p = g.p ∧
         ∀ r, t.grp.readS r = if r = d.toNat ∧ d.toNat ≠ 0 then v else g.readS r
     s.sliceq = [] →
     (x.extractLsb' 1 5 = 0 → x.extractLsb' 48 16 = 0 →
       (s.arena slot = none → answered (.hdlMk fin d p) 1 0 [x] 0 s.mem) ∧
       ∀ ar i, s.arena slot = some ar → s.freeEntry = some i → s.listFault (s.ctx slot).asid (x &&& 0xFFFFFFFFFFC0) = none →
         s.siblingOf s.cur = none → answered (.hdlMk fin d p) 1 0 [x] (kvHandle tn (s.hEntry i).gen i 0xFFFFF) (s.setHEntry i
           { s.hEntry i with live := true, tenant := tn, d128 := x.getLsbD 0, ctx := slot, len := 0, npage := 0, list := x &&& 0xFFFFFFFFFFC0 }).mem) ∧
     (s.handleOk tn x = true →
       (s.arena slot = none → (y.extractLsb' 20 44 = 0 → answered (.hdlExt fin d p) 2 1 [x, y] (status 3 e.len) s.mem ∧
           answered (.hdlTrunc fin d p) 2 2 [x, y] (status 3 e.len) s.mem) ∧ answered (.hdlRel fin d p) 1 4 [x] (status 3 e.len) s.mem) ∧
       ∀ ar, s.arena slot = some ar →
         (y.extractLsb' 20 44 = 0 → e.len + y.toNat ≤ kvBound x → e.pagesFor (e.len + y.toNat) ≤ e.npage →
           answered (.hdlExt fin d p) 2 1 [x, y] (status 0 (e.len + y.toNat)) (s.setHEntry (kvIndex x) { e with len := e.len + y.toNat }).mem) ∧
         (y.extractLsb' 20 44 = 0 → y.toNat ≤ kvBound x → y.toNat ≤ e.len → e.npage ≤ e.pagesFor y.toNat →
           answered (.hdlTrunc fin d p) 2 2 [x, y] (status 0 y.toNat) (s.setHEntry (kvIndex x) { e with len := y.toNat }).mem) ∧
         (s.pkg.kvTbl.getLsbD 0 = true → d ≠ 0 → list.toNat % 64 = 0 → e.npage = 0 → ∀ i, s.freeEntry = some i → s.listFault (s.ctx slot).asid list = none →
           s.siblingOf s.cur = none → answered (.hdlRef fin d p) 1 3 [x, list] (kvHandle tn (s.hEntry i).gen i 0xFFFFF) (s.setHEntry i
             { s.hEntry i with live := true, tenant := tn, d128 := e.d128, ctx := slot, len := e.len, npage := 0, list }).mem) ∧
         (e.npage = 0 → (∀ n ∈ s.grids, n.2.ballot = none) → answered (.hdlRel fin d p) 1 4 [x] (status 0 e.len)
           (s.setHEntry (kvIndex x) { e with live := false, gen := (e.gen + 1) % 1024 }).mem)) ∧
     (let key := x.toNat + y.toNat * 2 ^ 64
      let z := g.readS (p.toNat + 2)
      answered (.pfxFind fin d p) 2 5 [x, y] (if s.pkg.pfxTbl.getLsbD 0 then (s.pfxLookup tn key).getD 0 else 0) s.mem ∧
      (clear { fin, sn := d.toNat :: (List.range 3).map (p.toNat + ·), oz := false, waits := true } s → g.leaves = false → g.saving = false → s.handleOk tn z = true →
        (s.pkg.pfxTbl.getLsbD 0 = false → gives (.pfxIns fin d p) 0 s.mem) ∧
        (s.pkg.pfxTbl.getLsbD 0 = true → s.insertions = [] → s.pkg.duty.getLsbD 7 = false → s.pfxLookup tn key = none →
          (∃ k, k < 8 ∧ s.pfxVacant (s.pfxAddr (s.pfxSet key tn) k) = true) →
          let src := s.groupSource g
          let die := s.pfxSet key tn % 24
          let sent := ({ s.stamp src with insertions := [⟨s.cur, d.toNat, key, z, (s.stampTime src, src), die, false⟩] } : State).setGrp
            { g with block := .slice 6 d.toNat [x, y, z], blockFin := fin }
          let later := { sent with pkg := { s.pkg with now := s.stampTime src + 1024 } }
          later.agentWaits (s.ctx slot).asid 1 (later.insertNeeds s.cur z 0) = none →
          (later.insertNeeds s.cur z 0).foldl (fun t va => t.agentTouch (s.ctx slot).asid va) later = later →
          ∃ t : State, exec (.pfxIns fin d p) s = .next sent ∧ exec (.pfxInsertDecide die) later = .next t ∧ past fin g t.grp ∧
            ∀ r, t.grp.readS r = if r = d.toNat ∧ d.toNat ≠ 0 then z else g.readS r))))

/-! ### Row words, sibling words, ring words (R34 to R38, R48, R235 to R242, R373 to R381, R387) -/

/-- R50, R373, R374: `sweep.reg` of an aligned descriptor whose bytes are at hand returns, long-latency, status 3 for a bad descriptor, and
else, when its pages pass their checks and none migrates, the result word of the registration; a refused registration changes nothing else,
and an accepted one has the first entry that the word names, of the function and the context of the region, and marks the lines that homes
hold of it. `sweep.dereg`
counts one row-class command: pending, the region drains; refused, its completion record goes out at once. R48, R377, R378, Table 2.5:
`sweep.pos` of an address in the package's HBM returns, long-latency, the next row index, HOT and the pass of its pseudo-channel;
`sweep.wait` goes on when the row has been restored in pass n or later and what was applied to it has reached the homes and the sharers, and
waits for it otherwise; an address of another tier, or of another package (the model's choice, log entry 15), takes the row-region fault. The
result word of `sweep.dereg`, and a second one on a draining region, are the model's choice (log entry 16). -/
def Obligations.SweepAllWords : Prop :=
  (∀ (fin : Bool) (d a : BitVec 6) (s : State),
     let g := s.grp
     let x := g.readS a.toNat
     let w : WordInfo := { infoS fin [d, a] with waits := true }
     let asid := s.asidOf g
     clear w s →
     (x.toNat % 32 ≠ 0 → canTrap g → ∃ t, exec (.sweepReg fin d a) s = .next t ∧ t.dram = s.dram ∧
       ∀ l, l < 16 → g.e.getLsbD l = true → delivered s t l 0x0A x) ∧
     (x.toNat % 32 = 0 → s.pageVerdict 0 x = .pass → s.engineAsks asid x = [] →
       let r := s.groupRead asid x 32
       (descOf r.2.1 = none → effect (.sweepReg fin d a) w
         (r.1.updGrp fun g => { g with pend := g.pend ++ [returned (.scalar d.toNat 0x30000)] }) s) ∧
       ∀ desc, descOf r.2.1 = some desc → firstBad (desc.pages.map (s.rowVerdict 1)) = .pass →
         (∀ va ∈ desc.pages, s.migratingAt (dpaLocal (s.checkedAddr va)) = none) →
         let q := r.1.bringPages asid desc.pages
         let ps := desc.pieces q.checkedAddr
         let returns := fun (v : Quad) (u : State) => effect (.sweepReg fin d a) w
           (u.updGrp fun g => { g with pend := g.pend ++ [returned (.scalar d.toNat v)] }) s
         ((∃ va ∈ desc.pages, q.manyMaps (q.checkedAddr va) = true) → returns 0x50000 q) ∧
         ((∀ va ∈ desc.pages, q.manyMaps (q.checkedAddr va) = false) → (∃ p ∈ ps, q.clashes p = true) → returns 0x20000 q) ∧
         ((∀ va ∈ desc.pages, q.manyMaps (q.checkedAddr va) = false) → (∀ p ∈ ps, q.clashes p = false) →
           q.placePieces ps [] = none → returns 0x10000 q) ∧
         ((∀ va ∈ desc.pages, q.manyMaps (q.checkedAddr va) = false) → (∀ p ∈ ps, q.clashes p = false) →
           ∀ p i more, q.placePieces ps [] = some ((p, i) :: more) → ∃ u : State, returns (BitVec.ofNat 64 (p.stack + 32 * i)) u ∧
             (∃ e, (u.stack p.stack).regions.get? i = some e ∧ e.first = (p.stack, i) ∧ e.func = desc.func ∧ e.asid = asid ∧ e.drain = false) ∧
             ∀ e ∈ u.l2, e.1 / 2 ^ 55 = asid → desc.vbase < (e.1 % 2 ^ 55 + 1) * 512 → e.1 % 2 ^ 55 * 512 < desc.vbase + desc.len →
               e.2.comb = true)) ∧
     (let st := (x.extractLsb' 0 5).toNat
      let i := (x.extractLsb' 5 8).toNat
      let known := x.extractLsb' 13 51 = 0 ∧ st < 24 ∧ (s.ctx (s.ctxOf g)).live = true ∧
        ∃ r, (s.stack st).regions.get? i = some r ∧ r.first = (st, i) ∧ s.spaceOf g = some r.asid
      (known → s.dram.get? st ≠ none → ∃ u : State, effect (.sweepDereg fin d a) w u s ∧
         u.grp.pend = g.pend ++ [returned (.scalar d.toNat 0)] ∧
         u.grp.cmds.getD 3 [] = g.cmds.getD 3 [] ++ [s.fresh] ∧
         ∃ r, (u.stack st).regions.get? i = some r ∧ r.drain = true ∧ s.fresh ∈ r.dereg) ∧
      (¬ known → g.exited ≠ allLanes → ∃ u : State, effect (.sweepDereg fin d a) w u s ∧ u.dram = s.dram ∧
         u.grp.pend = g.pend ++ [returned (.scalar d.toNat 0x30000)] ∧
         (let time := s.stampTime (s.source (if st < 24 then st else 0) 0x1006)
          ∀ n, g.boundTo 4 = some n → u.grp.queue n = (g.queue n).push (rowRecord 0xFFFF 3 time)) ∧
         (u.cmds.get? s.fresh).map (·.st) = some .done))) ∧
  (∀ (fin : Bool) (d a b : BitVec 6) (s : State) (attr : PageAttr),
     let g := s.grp
     let wp : WordInfo := { infoS fin [d, a] with waits := true }
     let ww : WordInfo := { infoS fin [a, b] with waits := true }
     let va := g.readS a.toNat
     let pa := dpaLocal (pageAddr attr va)
     let st := s.stack (pa / 2 ^ 36)
     let pc := pa / 2 ^ 10 % 64
     s.pageAt 0 va = .ok attr →
     (s.isMine attr.pa = true → isHbm (dpaLocal attr.pa) = true →
       (clear wp s → effect (.sweepPos fin d a) wp (s.setGrp { g with pend := g.pend ++
         [returned (.scalar d.toNat (BitVec.ofNat 64 (st.nextRow.getD pc 0 % 32768 + st.hot.toNat * 32768 + st.pass.getD pc 0 % 2 ^ 48 * 65536)))] }) s) ∧
       (clear ww s →
         let row := pa / 1024 * 1024
         let n := ((g.readS b.toNat).extractLsb' 0 48).toNat
         (s.sweepSeen row n = true → effect (.sweepWait fin a b) ww s s) ∧
         (s.sweepSeen row n = false → exec (.sweepWait fin a b) s =
           .next (s.setGrp { g with block := .sweepWait row n, blockFin := fin })))) ∧
     ((s.isMine attr.pa = false ∨ isHbm (dpaLocal attr.pa) = false) → canTrap g →
       (clear wp s → ∃ t, exec (.sweepPos fin d a) s = .next t ∧ ∀ l, l < 16 → g.e.getLsbD l = true → delivered s t l 0x16 va) ∧
       (clear ww s → ∃ t, exec (.sweepWait fin a b) s = .next t ∧ ∀ l, l < 16 → g.e.getLsbD l = true → delivered s t l 0x16 va)))

/-- R237, R240, R241, R379, R380: the sibling words. In a grid with a ballot `sib.post` (its release performed) sends one post with the
partition's stamp, `sib.hold` opens the group's interval, `sib.free` closes it, and `sib.stat` returns the word of R380; in any other grid
`sib.post` and `sib.stat` raise the illegal-instruction fault, and the others have no effect. `sib.cp` has no effect in a group that has not
to stop. -/
def Obligations.SiblingWords : Prop :=
  ∀ (fin : Bool) (a d : BitVec 6) (s : State), s.grp.oz = false →
    let g := s.grp
    let src := s.groupSource g
    let w : WordInfo := { fin, oz := false, waits := true }
    let wa : WordInfo := { fin, sn := [a.toNat], oz := false, waits := true }
    let wd : WordInfo := { fin, sn := [d.toNat], oz := false, waits := true }
    (clear w s → effect (.sibFree fin) w (s.setGrp { g with hold := false, deferred := false }) s ∧
      (s.cancelDue s.cur = false → effect (.sibCp fin) w s s)) ∧
    (s.myGrid.ballot = none →
      (clear w s → effect (.sibHold fin) w s s) ∧
      (canTrap g → clear wa s → ∃ t, exec (.sibPost fin a) s = .next t ∧ ∀ l, l < 16 → g.e.getLsbD l = true → delivered s t l 0x01 0) ∧
      (canTrap g → clear wd s → ∃ t, exec (.sibStat fin d) s = .next t ∧ ∀ l, l < 16 → g.e.getLsbD l = true → delivered s t l 0x01 0)) ∧
    ∀ b, s.myGrid.ballot = some b →
      (clear w s → effect (.sibHold fin) w (s.setGrp { g with hold := true }) s) ∧
      (clear wa s → s.releaseAsks g 5 = none → ∃ u : State, effect (.sibPost fin a) wa u s ∧ { u with grids := s.grids, stamps := s.stamps } = s ∧
        (u.grid s.myTeam.grid).ballot = some { b with posts := b.posts ++ [⟨s.myTeam.sib, g.readS a.toNat, s.stampTime src, src⟩] } ∧
        u.stamps.get? src = some (s.stampTime src)) ∧
      (clear wd s →
        let k := s.myTeam.sib
        effect (.sibStat fin d) wd (s.setGrp { g with pend := g.pend ++ [returned (.scalar d.toNat (BitVec.ofNat 64
          (b.outcome + (b.sib k).status * 2 ^ 8 + g.hold.toNat * 2 ^ 11 + k * 2 ^ 16 + (if b.outcome = 0 then 0 else b.completer) * 2 ^ 24)))] }) s)

/-- R381, R387: `coll.ring` of an aligned table whose bytes are at hand returns, long-latency, the lowest of the statuses that hold: 1 for a
slot of another live context, 2 for an invalid table, 3 for a slot with a round open at this die; else 0, and the slot holds the table at this die
(what it holds at other dies stands).
`coll.abort` of a slot that is not set has no effect, and otherwise ends every open round of the slot at this die and sends the abort to the
other members of this package. The status of a slot that
was never set is the model's choice (log entry 17). -/
def Obligations.RingWords : Prop :=
  ∀ (fin : Bool) (d p a : BitVec 6) (s : State), s.grp.oz = false →
    let g := s.grp
    let va := g.readS p.toNat
    let slot := ((g.readS (p.toNat + 1)).extractLsb' 0 6).toNat
    let asid := s.asidOf g
    let w : WordInfo := { fin, sn := [d.toNat, p.toNat, p.toNat + 1], oz := false, waits := true }
    let wa : WordInfo := { fin, sn := [a.toNat], oz := false, waits := true }
    let aborts := fun (r : Seat) (slot die status silent : Nat) => r.members.zipIdx.filterMap fun m =>
      if m.1.1 == s.pkg.id && m.1.2 != die && m.2 != silent then some (Owed.collAbort slot m.1.2 status silent) else none
    (clear w s → (g.readS (p.toNat + 1)).extractLsb' 6 58 = 0 → va.toNat % 64 = 0 → s.pageVerdict 0 va = .pass → s.engineAsks asid va = [] →
      let head := leNat (s.engineRead asid va 8).2.1
      let n := head % 128
      let m := if 64 < n then 0 else n
      s.pagesVerdict 0 none (pagesOf va (8 + 8 * m)) = .pass →
      ((pieces va (8 + 8 * m)).flatMap fun y => s.engineAsks asid y.1) = [] →
      let r := s.groupRead asid va (8 + 8 * m)
      let ms := membersOf (r.2.1.drop 8) m
      let other := ∃ x, s.rings.get? slot = some x ∧ x.ctx ≠ s.ctxOf g ∧ (s.ctx x.ctx).live = true
      let bad := ¬ (2 ≤ n ∧ n ≤ 64 ∧ ms.eraseDups.length = ms.length ∧ (∀ x ∈ ms, x.2 < 24) ∧ (s.pkg.id, g.core / 24) ∈ ms)
      let opened := ∃ x, s.rings.get? slot = some x ∧ ∃ y ∈ x.rounds, y.die = g.core / 24
      let returns := fun (v : Quad) (u : State) => effect (.collRing fin d p) w
        (u.updGrp fun g => { g with pend := g.pend ++ [returned (.scalar d.toNat v)] }) s
      (other → returns 1 r.1) ∧ (¬ other → bad → returns 2 r.1) ∧ (¬ other → ¬ bad → opened → returns 3 r.1) ∧
      (¬ other → ¬ bad → ¬ opened → ∃ u x y, returns 0 u ∧ u.rings.get? slot = some x ∧ x.ctx = s.ctxOf g ∧ x.seats.get? (g.core / 24) = some y ∧
        y.addr = va ∧ y.members = ms ∧ y.gen = head / 2 ^ 16 % 65536 ∧ y.tmo = (if head / 2 ^ 8 % 256 = 0 then 20 else head / 2 ^ 8 % 256) ∧
        y.next = 0 ∧ y.disabled = false ∧
        ∀ z, s.rings.get? slot = some z → z.ctx = s.ctxOf g → x.rounds = z.rounds ∧
          ∀ die, die ≠ g.core / 24 → x.seats.get? die = z.seats.get? die)) ∧
    (let slot := ((g.readS a.toNat).extractLsb' 0 6).toNat
     clear wa s →
      (s.ringAt slot (s.ctxOf g) (g.core / 24) = none → effect (.collAbort fin a) wa s s) ∧
      (∀ r x, s.ringAt slot (s.ctxOf g) (g.core / 24) = some r → s.rings.get? slot = some x → (∀ y ∈ x.rounds, y.die ≠ g.core / 24) →
        effect (.collAbort fin a) wa (s.owe (aborts r slot (g.core / 24) 2 127)) s) ∧
      ∀ r, s.ringAt slot (s.ctxOf g) (g.core / 24) = some r →
        effect (.collAbort fin a) wa ((s.endRounds slot (g.core / 24) 2 127).owe (aborts r slot (g.core / 24) 2 127)) s)

/-! ### Registers written from outside (R2, R24 to R26, R73 to R75, R82, R207, R399, R401) -/

/-- R24, R25, R26, R399, R401, Tables 2.5 and 22.9: writes of the package's registers. A refused write of MODE or DUTY changes nothing and
sets REJECT; an accepted one of MODE takes its defined fields, keeps bit 63 once it is set, and starts CLK_BUSY when the clock field
changes; DUTY takes bits [8:0]. The thermal limits take a write with HI above LO; a door write interrupts the Ozyth core while its image
runs. -/
def Obligations.PackageRegisterWrites : Prop :=
  ∀ (v : Quad) (n : Nat) (s : State),
    let old := s.pkg.mode
    let refused := 3 ≤ s.pkg.pwr ∨ v.extractLsb' 0 2 = 3 ∨ v.extractLsb' 5 2 = 3 ∨ 5 ≤ (v.extractLsb' 7 3).toNat ∨
      (v.getLsbD 4 ≠ old.getLsbD 4 ∧ (old.getLsbD 63 = true ∨ ∃ e ∈ s.ctxs, e.2.live = true))
    let pkg := fun (i : Instr) (p : Pkg) => exec i s = .next { s with pkg := p }
    (refused → pkg (.modeWrite v) { s.pkg with reject := true }) ∧
    (¬ refused → ∃ p : Pkg, pkg (.modeWrite v) p ∧ { p with mode := old, clkBusy := s.pkg.clkBusy } = s.pkg ∧
      (∀ k, k < 22 → p.mode.getLsbD k = v.getLsbD k) ∧ (∀ k, 22 ≤ k → k < 63 → p.mode.getLsbD k = false) ∧
      p.mode.getLsbD 63 = (v.getLsbD 63 || old.getLsbD 63) ∧
      (p.clkBusy = true ↔ s.pkg.clkBusy = true ∨ v.extractLsb' 0 2 ≠ old.extractLsb' 0 2)) ∧
    pkg .clkStable { s.pkg with clkBusy := false } ∧
    (3 ≤ s.pkg.pwr → pkg (.dutyWrite v) { s.pkg with reject := true }) ∧
    (s.pkg.pwr < 3 → pkg (.dutyWrite v) { s.pkg with duty := v &&& 0x1FF }) ∧
    (let hi := (v.extractLsb' 0 8).toNat
     let lo := (v.extractLsb' 8 8).toNat
     (lo < hi → pkg (.thermCfgWrite v) { s.pkg with thermHi := hi, thermLo := lo }) ∧
     (hi ≤ lo → exec (.thermCfgWrite v) s = .next s)) ∧
    pkg (.throttleWrite v) { s.pkg with throttle := v.toNat % 8 } ∧
    (s.oz.running = true → exec .ozDoorWrite s = .next { s with oz := { s.oz with ipend := s.oz.ipend ||| 16 } }) ∧
    (s.oz.running = false → exec .ozDoorWrite s = .next s) ∧
    (n < 24 → ∃ t : State, exec (.stkNbrWrite n v) s = .next t ∧ { t with dram := s.dram } = s ∧
      (t.stack n).nbrTest = v.getLsbD 0 ∧ (t.stack n).nbrSeed = v.extractLsb' 32 32 ∧ (∀ m, m ≠ n → t.stack m = s.stack m) ∧
      { t.stack n with nbrTest := (s.stack n).nbrTest, nbrSeed := (s.stack n).nbrSeed, xs := (s.stack n).xs } = s.stack n)

/-- R73, R74, R75, R82: the pointers and the configuration of a command ring and of an event queue. A write of RING_WP to a halted ring is
discarded; one that leaves more entries than the ring has halts it with ERR 1, one that moves back with ERR 2, and any other moves WP. A
reset empties the ring and abandons a WAIT; it waits for any other ring phase. A configuration with LOG2 below 4, or one that changes a
fixed field of an enabled ring or queue, is discarded; a ring that is disabled abandons a WAIT, and becomes idle at the end of any other phase.
NOQ follows the queues. A read pointer beyond WP sets BADRP. R2, R207, Table 11.8: an aligned 64-bit write of
package control space is the event of the register that it names, and any other write is discarded. The fields of an address-range format
register are discarded while it is valid; a write that clears VALID makes it writable. -/
def Obligations.RegisterWrites : Prop :=
  (∀ (n : Nat) (v : Quad) (s : State),
     let r := s.ring n
     let w := v.extractLsb' 0 32
     let ring := fun (i : Instr) (r : HostRing) => exec i s = .next (s.updHostRing n fun _ => r)
     let log2 := (v.extractLsb' 0 4).toNat
     let ctx := (v.extractLsb' 8 8).toNat
     (r.state = 2 → ring (.ringWpWrite n v) r) ∧
     (r.state ≠ 2 → 2 ^ r.log2 < (w - r.rp).toNat → ring (.ringWpWrite n v) { r with state := 2, err := 1, bad := w }) ∧
     (r.state ≠ 2 → (w - r.rp).toNat ≤ 2 ^ r.log2 → 2 ^ 31 ≤ (w - r.wp).toNat →
       ring (.ringWpWrite n v) { r with state := 2, err := 2, bad := w }) ∧
     (r.state ≠ 2 → (w - r.rp).toNat ≤ 2 ^ r.log2 → (w - r.wp).toNat < 2 ^ 31 → ring (.ringWpWrite n v) { r with wp := w }) ∧
     ((r.phase = .none ∨ ∃ va x, r.phase = .wait va x) → ring (.ringReset n) { r with
       rp := 0, wp := 0, err := 0, bad := 0, state := (if r.enable then 1 else 0), resetDue := false, phase := .none }) ∧
     (r.phase ≠ .none → (∀ va x, r.phase ≠ .wait va x) → ring (.ringReset n) { r with resetDue := true }) ∧
     (log2 < 4 → ring (.ringCfgWrite n v) r) ∧
     (4 ≤ log2 → r.enable = true → (log2 ≠ r.log2 ∨ v.getLsbD 5 ≠ r.admin ∨ ctx ≠ r.ctx) → ring (.ringCfgWrite n v) r) ∧
     (4 ≤ log2 → r.enable = false → r.state ≠ 2 → v.getLsbD 4 = true → ring (.ringCfgWrite n v) { r with
       log2, enable := true, admin := v.getLsbD 5, ctx, state := 1 }) ∧
     (4 ≤ log2 → r.enable = true → r.state ≠ 2 → log2 = r.log2 → v.getLsbD 5 = r.admin → ctx = r.ctx → v.getLsbD 4 = false →
       ((r.phase = .none ∨ ∃ va x, r.phase = .wait va x) → ring (.ringCfgWrite n v) { r with enable := false, state := 0, phase := .none }) ∧
       (r.phase ≠ .none → (∀ va x, r.phase ≠ .wait va x) → ring (.ringCfgWrite n v) { r with enable := false })) ∧
     (let q := s.evq n
      let queue := fun (i : Instr) (q : Evq) => exec i s = .next (s.setEvq n q)
      let shown := fun (i : Instr) (q : Evq) => ∃ t : State, exec i s = .next t ∧
        { t with host := { t.host with noq := s.host.noq } } = s.setEvq n q ∧
        (t.host.noq = true ↔ ∃ e ∈ s.host.held, t.queueFor e.kind = none)
      (log2 < 4 ∨ (q.enable = true ∧ log2 ≠ q.log2) → shown (.evqCfgWrite n v) q) ∧
      (4 ≤ log2 → (q.enable = true → log2 = q.log2) → shown (.evqCfgWrite n v) { q with
        log2, enable := v.getLsbD 4, kinds := v.extractLsb' 16 16, vec := (v.extractLsb' 32 16).toNat
        seq := if v.getLsbD 4 = true ∧ q.enable = false then 0 else q.seq }) ∧
      ((w - q.rp).toNat ≤ (q.wp - q.rp).toNat → (w - q.rp).toNat < 2 ^ 31 → queue (.evqRpWrite n v) { q with rp := w }) ∧
      ((q.wp - q.rp).toNat < (w - q.rp).toNat ∨ 2 ^ 31 ≤ (w - q.rp).toNat → queue (.evqRpWrite n v) { q with badrp := true }))) ∧
  (∀ (off n : Nat) (v : Quad) (s : State),
     let write := fun (off : Nat) (i : Instr) => exec (.registerWrite off v) s = exec i s
     (off % 8 ≠ 0 → exec (.registerWrite off v) s = .next s) ∧
     write 0x040 (.modeWrite v) ∧ write 0x050 (.dutyWrite v) ∧ write 0x3C0 (.thermCfgWrite v) ∧ write 0x3C8 (.throttleWrite v) ∧
     write 0x3D0 .ozDoorWrite ∧
     (v = 1 → write 0x210 .pwrCmdEnter ∧ write 0x7000 .fwGo) ∧ (v = 2 → write 0x210 .pwrCmdResume ∧ write 0x7000 .fwStart) ∧
     (n < 32 → write (0x4008 + 0x40 * n) (.ringCfgWrite n v) ∧ write (0x4010 + 0x40 * n) (.ringWpWrite n v) ∧
       (v.getLsbD 0 = true → write (0x4030 + 0x40 * n) (.ringReset n))) ∧
     (n < 8 → write (0x6008 + 0x40 * n) (.evqCfgWrite n v) ∧ write (0x6018 + 0x40 * n) (.evqRpWrite n v)) ∧
     (n < 24 → write (0x10008 + 0x4000 * n) (.stkNbrWrite n v)) ∧
     (off < 0x800 → off % 8 = 0 → write (0x30C000 + off) (.arfWrite off v)) ∧
     (let a := s.arf.getD n (0, 0, 0, 0)
      let field := fun (k : Nat) (r : Quad × Quad × Quad × Quad) => exec (.arfWrite (0x20 * n + k) v) s = .next { s with arf := s.arf.set n r }
      let kept := fun (k : Nat) => exec (.arfWrite (0x20 * n + k) v) s = .next s
      n < 64 →
       (a.1.getLsbD 0 = true → kept 0x08 ∧ kept 0x10 ∧ kept 0x18 ∧ (v.getLsbD 0 = true → kept 0x00)) ∧
       (v.getLsbD 0 = false → field 0x00 (v &&& 0x1FFFFFFF0001, a.2)) ∧
       (a.1.getLsbD 0 = false → field 0x08 (a.1, v &&& 0x1FFFFFFF, a.2.2) ∧ field 0x10 (a.1, a.2.1, v &&& 3, a.2.2.2) ∧
         field 0x18 (a.1, a.2.1, a.2.2.1, v &&& 0x1FFFFFFFFFC0))))

/-! ### Links, time, power and heat (R15 to R22, R62 to R69, R399 to R401, R422) -/

/-- R19 to R22: what a flit, given as its 272 bytes, does at an open port. A bad CRC asks for a resend, and the eighth request without a
delivery retrains the link; a bad header retrains it. Any other flit has its ACK and STOP taken. A DATA flit in sequence is delivered, the
expected number advances modulo 4,096, and the STOP levels follow the free slots of each channel; out of sequence it is discarded, and only
the first asks for a resend. A RETRY flit has the replay buffer sent again from its RSEQ. A port that is not open ignores every flit. An IDLE flit goes out of an open port. R15 to
R17, R22, R68: training and loss of a link, which is DOWN when its retraining has lasted longer than 50 µs, and the time of the domain. A time
flit at an open port of a member that is not the master, and whose counter runs, sets the offset to its own time less the master's; the master
sends one on each open port; one that has been silent for 10 µs is replaced by the lowest live package. A package that joins finds the lowest
of the others master until its offset is within 8 ticks, and then the lowest of all is; a counter more than 8 ticks behind steps forward to
the master's time, one more than 8 ahead stands still, and one that stands in brown-out waits. The order of the bytes of a flit and its CRC,
which flits have a sequence number, when a RETRY flit is sent and counted, the channel of the IDLE, RETRY and TIME flits, what a DOWN or a
retraining port reads, the place of the time in a TIME flit, when SYNC is set, when a package that joins becomes master, what a new master's
offset is, and the sign of the offset are the model's choice (log entries 22, 23). -/
def Obligations.LinkEvents : Prop :=
  ∀ (n now delay : Nat) (live : List Nat) (head body tail : List Byte) (s : State),
    let bs := head ++ body ++ tail
    let p := s.port n
    let g := s.pkg
    let h : Quad := BitVec.ofNat 64 (leNat (bs.take 8))
    let field := fun (lo len : Nat) => (h.extractLsb' lo len).toNat
    let payload := (bs.drop 8).take 256
    let good := bs.length = 272 ∧ leNat (bs.drop 264) = (crc64 (bs.take 264)).toNat
    let badHeader := field 0 20 ≠ 0 ∨ (field 20 12 ≠ 0 ∧ field 36 2 ≠ 2)
    let port := fun (i : Instr) (p : Port) => exec i s = .next (s.updPort n fun _ => p)
    let pkg := fun (i : Instr) (p : Pkg) => exec i s = .next { s with pkg := p }
    let opened := p.up = true ∧ p.retrain = false
    let flit := fun (typ vc seq rseq : Nat) (bs : List Byte) => (⟨typ, vc, seq, (p.expect + 4095) % 4096, p.stops, rseq, bs⟩ : Flit)
    let again := fun (ds : List (Nat × Nat × List Byte)) => ds.map fun d => flit 0 d.2.1 d.1 0 d.2.2
    let unacked := if p.replay.any (·.1 == field 40 12) then (p.replay.dropWhile fun d => d.1 != field 40 12).drop 1 else p.replay
    let heard := { p with acked := field 40 12, stop := h.extractLsb' 32 4, replay := unacked }
    let asked := fun (p : Port) => { p with
      discard := true, retries := p.retries + 1, sent := p.sent ++ [flit 2 3 0 p.expect []]
      retrain := decide (8 ≤ p.unanswered + 1), unanswered := if 8 ≤ p.unanswered + 1 then 0 else p.unanswered + 1 }
    let flits := [Instr.dataFlit n head body tail, .idleFlit n bs, .retryFlit n bs, .timeFlit n ⟨bs, delay⟩]
    let master := g.joined = true ∧ g.master = g.id
    let counting := ¬ (g.pwr = 3 ∧ 8 ≤ g.step) ∧ g.pwr ≠ 4 ∧ ¬ (g.pwr = 5 ∧ g.back < 2)
    let silent := g.joined = true ∧ ¬ master ∧ counting ∧ g.heardAt + 10000 ≤ g.clock
    let least := fun (m : Nat) (l : List Nat) => m ∈ l ∧ ∀ x ∈ l, m ≤ x
    let met := fun (t : Nat) (aligns joining : Prop) (m : Nat) (q : Pkg) =>
      let off : Int := (g.now : Int) - t
      q.rejoin = false ∧
      (8 < off.natAbs → q.sync = true ∧ (q.joining = true ↔ joining) ∧ q.master = m ∧
        (off < 0 → aligns → q.now = t ∧ q.offset = 0 ∧ q.still = false) ∧
        (0 < off → aligns → q.now = g.now ∧ q.offset = off ∧ q.still = true) ∧
        (¬ aligns → q.now = g.now ∧ q.offset = off ∧ q.still = (g.still && decide (0 < off)))) ∧
      (off.natAbs ≤ 8 → q.sync = false ∧ q.joining = false ∧ q.now = g.now ∧ (aligns → q.still = false) ∧
        (joining → least q.master (g.id :: q.live)) ∧ (¬ joining → q.master = m) ∧
        (joining → q.master = g.id → q.offset = 0) ∧ (¬ (joining ∧ q.master = g.id) → q.offset = off))
    (¬ opened → ∀ i ∈ flits, port i p) ∧
    (opened → ¬ good → ∀ i ∈ flits, port i (asked p)) ∧
    (opened → good → badHeader → ∀ i ∈ flits, port i { p with retrain := true, unanswered := 0 }) ∧
    (opened → good → ¬ badHeader →
      (field 36 2 = 0 → field 52 12 = p.expect → ∃ q : Port, port (.dataFlit n head body tail) q ∧ { q with stops := p.stops } = { heard with
          expect := (p.expect + 1) % 4096, discard := false, unanswered := 0, inbox := p.inbox ++ [(field 38 2, payload)] } ∧
        ∀ vc, vc < 4 →
          let free := 128 - (q.inbox.filter fun f => f.1 == vc).length
          q.stops.getLsbD vc = if free ≤ 48 then true else if 80 ≤ free then false else p.stops.getLsbD vc) ∧
      (field 36 2 = 0 → field 52 12 ≠ p.expect → p.discard = true → port (.dataFlit n head body tail) heard) ∧
      (field 36 2 = 0 → field 52 12 ≠ p.expect → p.discard = false → port (.dataFlit n head body tail) (asked heard)) ∧
      (field 36 2 = 1 → port (.idleFlit n bs) heard) ∧
      (field 36 2 = 2 → port (.retryFlit n bs) { heard with sent := p.sent ++ again (unacked.dropWhile fun d => d.1 != field 20 12) }) ∧
      (field 36 2 = 3 → (g.joined = false ∨ master ∨ ¬ counting) → port (.timeFlit n ⟨bs, delay⟩) heard) ∧
      (field 36 2 = 3 → g.joined = true → ¬ master → counting → ∃ q : Pkg,
        exec (.timeFlit n ⟨bs, delay⟩) s = .next { s.updPort n (fun _ => heard) with pkg := q } ∧
        met (leNat (payload.take 8) + delay) (g.rejoin = true) (g.joining = true) g.master q ∧ q.heardAt = g.clock ∧
        { q with now := g.now, offset := g.offset, sync := g.sync, still := g.still, rejoin := g.rejoin, joining := g.joining, master := g.master
                 heardAt := g.heardAt } = g)) ∧
    (opened → s.perform (.idle n) = .next (s.updPort n fun _ => { p with sent := p.sent ++ [flit 1 3 0 0 []] })) ∧
    (¬ opened → s.perform (.idle n) = .next (s.updPort n fun _ => p)) ∧
    (p.up = false → p.down = false → port (.linkTraining n) { p with up := true }) ∧
    (p.up = true ∨ p.down = true → port (.linkTraining n) p) ∧
    (p.up = true → port (.laneLockLoss n) { p with retrain := true, unanswered := 0 }) ∧
    (p.up = true → p.retrain = false → ∃ t : State, exec (.laneLockLoss n) s = .next t ∧ (t.port n).since = g.clock) ∧
    (p.up = false → port (.laneLockLoss n) p) ∧
    (p.retrain = true → (g.clock ≤ p.since + 50000 → port (.retrainDone n) { p with retrain := false, sent := p.sent ++ again p.replay } ∧
        exec (.retrainTimeout n) s = .next s) ∧
      (p.since + 50000 < g.clock → exec (.retrainDone n) s = .next s ∧
        port (.retrainTimeout n) { p with up := false, retrain := false, down := true })) ∧
    (p.retrain = false → (g.clock ≤ p.since + 50000 → port (.retrainDone n) p) ∧ exec (.retrainTimeout n) s = .next s) ∧
    (master → ∃ t : State, exec .timeFlitSend s = .next t ∧ { t with ports := s.ports } = s ∧
      ∀ k, k < 24 →
        let o := s.port k
        t.port k = if o.up = true ∧ o.retrain = false
          then { o with sent := o.sent ++ [(⟨3, 3, 0, (o.expect + 4095) % 4096, o.stops, 0, leBytes 8 g.now⟩ : Flit)] } else o) ∧
    (¬ master → exec .timeFlitSend s = .next s) ∧
    (silent → ∃ q : Pkg, pkg .masterTimeout q ∧ q.now = g.now ∧ q.joined = true ∧ q.offset = 0 ∧ q.still = false ∧ q.heardAt = g.clock ∧
      q.live = (g.live.filter (· ≠ g.master)).filter (· ≠ g.id) ∧
      least q.master (if g.joining = true ∧ q.live ≠ [] then q.live else g.id :: q.live) ∧
      (q.master = g.id → q.sync = false ∧ q.joining = false) ∧ (q.master ≠ g.id → q.sync = g.sync ∧ q.joining = g.joining)) ∧
    (¬ silent → exec .masterTimeout s = .next s) ∧
    (let others := live.filter (· ≠ g.id)
     let fresh := g.joined = false ∨ g.joining = true
     let mine := others = [] ∨ (¬ fresh ∧ ∀ x ∈ others, g.id ≤ x)
     ∃ q : Pkg, pkg (.domainJoin now live) q ∧ q.joined = true ∧ q.live = others ∧ q.heardAt = g.clock ∧
       (mine → q.master = g.id ∧ q.now = g.now ∧ q.offset = 0 ∧ q.sync = false ∧ q.joining = false) ∧
       (¬ mine → ¬ counting → least q.master others ∧ q.now = g.now ∧ q.joining = true ∧ q.rejoin = true ∧ q.sync = true) ∧
       (¬ mine → counting → ∃ m, least m others ∧ met now (g.joined = false ∨ g.rejoin = true) fresh m q))

/-- R410: when memory initialisation is done, every byte of the handle table (KV_TBL) and of the prefix table (PFX_TBL) is zero, and every entry of
the handle table has LIVE 0 and GEN 0. -/
def Obligations.MemoryInitialisation : Prop :=
  ∀ (s : State), s.pkg.pwr = 1 → s.host.fw.initBusy = true → ∃ t : State, exec .memoryInitialisationDone s = .next t ∧
    (s.pkg.kvTbl.getLsbD 0 = true → (∀ k, k < 2 ^ 27 → t.mem.byte ((s.pkg.kvTbl.extractLsb' 12 33).toNat * 4096 + k) = 0) ∧
      ∀ n, n < 2 ^ 22 → (t.hEntry n).live = false ∧ (t.hEntry n).gen = 0) ∧
    (s.pkg.pfxTbl.getLsbD 0 = true → ∀ k, k < (s.pkg.pfxTbl.extractLsb' 48 16).toNat * 65536 →
      t.mem.byte ((s.pkg.pfxTbl.extractLsb' 12 33).toNat * 4096 + k) = 0)

/-- R55, R56, R62, R399: package reset sets every register to its reset value and takes the package from OFF to INIT, while memory,
the fused minimum versions and the staged image stay; when memory initialisation is done the package runs, each stack's heat table is zero
and stands in entry 0 of its region table, and the Ozyth core starts its image. R62, R64, R66, R67, R68: the events of the power states. PWR_WARN, or
a command, starts brown-out entry from RUN; entry goes through the steps of Table 3.5, of which step 2 waits for the teams' run boundaries, step 3 for
the engines' commands, a command being terminated only 600 µs into it, step 8 saves the counters and step 9 enters the brown-out; a host that has not
answered within 200 µs of the trigger vetoes nothing; a command, or HOLD with AUTO and no warning, starts resumption, whose step 2 restarts the time
counter at one more than was saved, with SYNC set in a package that has others in its domain, which aligns at its first time flit; after its
last step the package runs, or enters again while PWR_WARN is asserted. The region of the heat table in entry 0, from where HOLD counts, what
package reset keeps, and the order of what entry and resumption do inside a step, are the model's choice (log entries 27, 28, 29). -/
def Obligations.ResetAndPowerEvents : Prop :=
  (∀ (s : State),
     (∃ t : State, exec .packageReset s = .next t ∧ t.pkg = { Pkg.init with pwr := 1, warn := s.pkg.warn } ∧ t.mem = s.mem ∧
       t.peerMem = s.peerMem ∧ t.peerPoison = s.peerPoison ∧ t.hostMem = s.hostMem ∧ t.groups = State.reset.groups ∧ t.teams = [] ∧ t.grids = [] ∧ t.cmds = [] ∧
       t.cores = [] ∧ t.ctxs = [] ∧ t.oz = Ozyth.init ∧ t.dram = [] ∧ t.l2 = [] ∧ t.tlb = [] ∧ t.ports = [] ∧ t.rounds = [] ∧ t.rings = [] ∧
       t.stamps = [] ∧ t.host.fw = { Firmware.init with min := s.host.fw.min } ∧ t.host.staging = s.host.staging ∧
       t.host.rings = [] ∧ t.host.evqs = []) ∧
     (s.pkg.pwr = 1 → s.host.fw.initBusy = true → ∃ t : State, exec .memoryInitialisationDone s = .next t ∧
       t.pkg = (let p := { s.pkg with pwr := 2, eccStrong := s.pkg.mode.getLsbD 4, memInit := true }
         if p.warn then { p with pwr := 3, step := 0, cause := 0, vetoWait := p.duty.getLsbD 8, trigAt := p.clock, stepAt := p.clock } else p) ∧
       t.host.fw = { s.host.fw with initBusy := false } ∧ t.oz.running = true ∧ t.oz.halted = false ∧
       (t.group ozGid).oz = true ∧ (t.group ozGid).pc 0 = 0x0000E00000000000 ∧ (t.group ozGid).exited = 0xFFFE ∧
       ∀ d, d < 24 →
         let base := d * 2 ^ 36 + s.migHeat.getD d 0xEFF00 * 2 ^ 16
         (∀ k, k < heatSize → t.mem.byte (base + k) = 0) ∧ ∃ r, (t.stack d).regions.get? 0 = some r ∧ r.func = 6 ∧ r.typ = 0 ∧
           r.sat = false ∧ r.passes = 65535 ∧ r.asid = 0 ∧ r.vbase = base ∧ r.k0 = 1) ∧
     ((s.pkg.pwr ≠ 1 ∨ s.host.fw.initBusy = false) → exec .memoryInitialisationDone s = .next s)) ∧
  (∀ (n : Nat) (s : State),
     let p := s.pkg
     let pkg := fun (i : Instr) (p : Pkg) => exec i s = .next { s with pkg := p }
     let entry := fun (cause : Nat) (p : Pkg) => { p with pwr := 3, step := 0, cause, vetoWait := p.duty.getLsbD 8, trigAt := p.clock, stepAt := p.clock }
     (∃ t : State, exec .pwrWarnAssert s = .next t ∧ t.pkg = (if p.pwr = 2 then entry 0 else id) { p with warn := true } ∧
       t.oz = (if s.oz.running then { s.oz with ipend := s.oz.ipend ||| 8 } else s.oz)) ∧
     pkg .pwrWarnDeassert { p with warn := false } ∧
     (p.pwr = 2 → p.duty.getLsbD 8 = false → pkg .pwrCmdEnter (entry 1 p)) ∧
     (p.pwr = 2 → ∃ t : State, exec .pwrCmdEnter s = .next t ∧ t.pkg = entry 1 p) ∧
     (p.pwr ≠ 2 → exec .pwrCmdEnter s = .next s) ∧
     (p.pwr = 4 → pkg .pwrCmdResume { p with pwr := 5, back := 0 }) ∧ (p.pwr ≠ 4 → exec .pwrCmdResume s = .next s) ∧
     (p.pwr = 4 → p.auto = true → p.warn = false → p.hold * 1000000 ≤ p.lowFor → p.duty.getLsbD 8 = false →
       pkg .holdExpiry { p with pwr := 5, back := 0 }) ∧
     ((p.pwr ≠ 4 ∨ p.auto = false ∨ p.warn = true ∨ p.lowFor < p.hold * 1000000 ∨ p.duty.getLsbD 8 = true) → exec .holdExpiry s = .next s) ∧
     ((p.pwr ≠ 3 ∨ p.vetoWait = true) → exec .brownOutEntry s = .next s) ∧
     (p.pwr = 3 → p.vetoWait = false → p.duty.getLsbD 8 = false →
       (p.step = 1 → (∃ e ∈ s.teams, (e.2.st = .resident ∨ e.2.st = .saving) ∧ s.atBoundary e.1 = false) →
         ∃ t : State, exec .brownOutEntry s = .next t ∧ t.pkg = p) ∧
       (p.step = 2 → (∃ e ∈ s.cmds, e.2.st = .running ∧ e.2.cls ≠ 3 ∧ e.2.cls ≠ 4) → exec .brownOutEntry s = .next s) ∧
       (p.step = 5 ∨ p.step = 6 → pkg .brownOutEntry { p with step := p.step + 1, stepAt := p.clock }) ∧
       (p.step = 7 → pkg .brownOutEntry { p with boSaved := BitVec.ofNat 64 p.now, boWall := BitVec.ofNat 64 p.wall, step := 8, stepAt := p.clock }) ∧
       (p.step = 8 → pkg .brownOutEntry { p with pwr := 4, boCount := p.boCount + 1, step := 9, stepAt := p.clock })) ∧
     (p.vetoWait = true → p.trigAt + 200000 ≤ p.clock → ∃ t : State, exec .entryVetoTimeout s = .next t ∧ t.pkg = { p with vetoWait := false } ∧ ∀ r ∈ t.host.posted, r.ask ≠ .brown) ∧
     ((p.vetoWait = false ∨ p.clock < p.trigAt + 200000) → exec .entryVetoTimeout s = .next s) ∧
     (p.pwr = 3 → p.step = 2 → p.stepAt + 600000 ≤ p.clock → n < 2 ^ 64 →
       ((s.cmd n).st = .running → (s.cmd n).cls < 3 → ∃ t : State, exec (.entryCommandTerminate n) s = .next t ∧ t.cmdDone n = true) ∧
       (3 ≤ (s.cmd n).cls → exec (.entryCommandTerminate n) s = .next s)) ∧
     ((p.pwr ≠ 3 ∨ p.step ≠ 2 ∨ p.clock < p.stepAt + 600000) → exec (.entryCommandTerminate n) s = .next s) ∧
     (p.pwr = 5 → ∃ t : State, exec .resumption s = .next t ∧ t.pkg.back = p.back + 1 ∧
       (p.back = 1 → t.pkg.now = p.boSaved.toNat + 1 ∧ t.pkg.timeGap = BitVec.ofNat 64 p.wall - p.boWall ∧
         (p.id ∉ p.live → (t.pkg.sync = true ↔ p.joined = true ∧ p.live ≠ []) ∧ (t.pkg.rejoin = true ↔ p.joined = true ∧ p.live ≠ []))) ∧
       (p.back ≠ 1 → t.pkg.now = p.now) ∧ t.pkg.pwr = (if p.back < 5 then 5 else if p.warn then 3 else 2)) ∧
     (p.pwr ≠ 5 → exec .resumption s = .next s))

/-- R400, R401, R422, Table 22.8: a sample round records the 24 temperatures, and, with DUTY[5] = 0, sets the Ozyth core's pending bit 1
when the hottest rises above HI and bit 2 when it falls below LO; the timer sets bit 0 once it is reached; an interrupt is taken only
outside a run, outside an interrupt and while the core is not halted: the lowest enabled pending source, to oz.vbase + 0x40 × its number. -/
def Obligations.OzythEvents : Prop :=
  ∀ (temps : List Nat) (s : State),
    let o := s.oz
    let hot := temps.foldl max 0
    let last := s.pkg.hottest.getD s.pkg.thermHi
    let pending := fun (k : Nat) => if o.running then { o with ipend := o.ipend ||| BitVec.ofNat 64 (2 ^ k) } else o
    (temps.length = 24 → (∀ x ∈ temps, x < 256) → s.pkg.duty.getLsbD 5 = false → ∃ t : State, exec (.thermSample temps) s = .next t ∧
      { t with pkg := s.pkg, oz := o } = s ∧ { t.pkg with therm := s.pkg.therm, hottest := s.pkg.hottest } = s.pkg ∧
      (∀ k, k < 24 → t.pkg.therm.getD k 0 = temps.getD k 0) ∧ t.pkg.hottest = some hot ∧
      t.oz = if s.pkg.thermHi < hot ∧ last ≤ s.pkg.thermHi then pending 1
        else if hot < s.pkg.thermLo ∧ s.pkg.thermLo ≤ last then pending 2 else o) ∧
    (o.armed = true → o.tcmp.toNat ≤ s.pkg.now → exec .ozTimer s = .next { s with oz := { pending 0 with armed := false } }) ∧
    ((o.armed = false ∨ s.pkg.now < o.tcmp.toNat) → exec .ozTimer s = .next s) ∧
    (∀ n, n < 5 → o.running = true → o.halted = false → o.inIrq = false → (s.group ozGid).runOpen = false → s.groups.get? ozGid ≠ none →
      (o.ien.getLsbD n = true ∧ o.ipend.getLsbD n = true) → (∀ m, m < n → ¬ (o.ien.getLsbD m = true ∧ o.ipend.getLsbD m = true)) →
      ∃ t : State, exec .interruptEntry s = .next t ∧ { t with oz := o, groups := s.groups } = s ∧
        t.oz = { o with epc := (s.group ozGid).pc 0, icause := n, inIrq := true, waiting := false } ∧
        t.group ozGid = { s.group ozGid with pcs := (t.group ozGid).pcs, arrived := 1 } ∧
        (t.group ozGid).pc 0 = o.vbase + BitVec.ofNat 64 (0x40 * n) ∧ ∀ k, k ≠ ozGid → t.group k = s.group k) ∧
    ((o.running = false ∨ o.halted = true ∨ o.inIrq = true ∨ (s.group ozGid).runOpen = true) → exec .interruptEntry s = .next s)

/-! ### Stacks, banks and homes (R30, R31, R39 to R46, R59, R137, R163, R405, R406) -/

/-- Table 2.3, R33: an application of a function takes an element of a type from `x` to `y`. -/
def combTakes (func typ : Nat) (sat : Bool) (k0 k1 : Word) (x y : Nat) : Prop :=
  let f := if typ = 1 then Fmt.fp32 else Fmt.bf16
  let bits := if typ = 2 then 16 else 32
  let X := (BitVec.ofNat 32 x).toInt
  let fit := fun (v : Int) => (BitVec.ofInt 32 (if sat then max (-2 ^ 31) (min v (2 ^ 31 - 1)) else v)).toNat
  let v := f.decode x
  let c0 := Fmt.fp32.decode k0.toNat
  let c1 := Fmt.fp32.decode k1.toNat
  let below := fun (a b : Sys2Proof.Num) (an bn : Bool) => a.cmp b = .lt ∨ (a.cmp b = .eq ∧ an = true ∧ bn = false)
  let neg := (BitVec.ofNat bits x).getLsbD (bits - 1)
  (func = 0 → y = x) ∧
  (func = 7 → y = if typ ≠ 0 ∧ v = .nan then x else x ^^^ (k0.toNat % 2 ^ bits)) ∧
  (typ = 0 → (func = 1 → y = 0) ∧ (func = 2 → y = fit (X + k0.toInt)) ∧ (func = 3 → y = fit (X * k0.toInt)) ∧
    (func = 4 → y = fit (X * k0.toInt + k1.toInt)) ∧ (func = 6 → y = ((BitVec.ofNat 32 x).sshiftRight (k0.toNat % 32)).toNat) ∧
    (func = 5 → k0.toInt ≤ k1.toInt → y = if X < k0.toInt then k0.toNat else if k1.toInt < X then k1.toNat else x)) ∧
  (typ ≠ 0 → v = .nan → 1 ≤ func → func ≤ 6 → y = f.canonNaN) ∧
  (typ ≠ 0 → v ≠ .nan → (func = 1 → y = 0) ∧ (func = 2 → y = f.round 0 sat (v.add c0)) ∧ (func = 3 → y = f.round 0 sat (v.mul c0)) ∧
    (func = 4 → y = f.round 0 sat ((v.mul c0).add c1)) ∧
    (func = 5 → (below v c0 neg (k0.getLsbD 31) → y = f.round 0 sat c0) ∧
      (¬ below v c0 neg (k0.getLsbD 31) → below c1 v (k1.getLsbD 31) neg → y = f.round 0 sat c1) ∧
      (¬ below v c0 neg (k0.getLsbD 31) → ¬ below c1 v (k1.getLsbD 31) neg → y = x)) ∧
    (func = 6 → ∀ m e s, v = .fin s m e → y = f.round 0 sat (.fin s m (e - (k0.toNat % 256 : Nat)))) ∧
    (func = 6 → ∀ s, v = .inf s → y = f.round 0 sat (.inf s)))

/-- R30, R31, R33, R36, R39, R41, R42, R46, R51, R58, Tables 2.2 and 2.3: the sweep and the row requests. A step restores the next row index of its
pseudo-channel, which the boundary brings back to 0 in the next pass; at a boundary of pseudo-channel 0 HOT is set above 85 °C and cleared at or below
80 °C, a channel takes its new period, and LEFT of an entry is its pass count less the passes that all its channels have had; a request that has left
its task table is refused with its completion, or takes a slot; a `.hurry` request, and a plain one of a page that is being unmapped, applies at its
activation, which gives each element of the row the value of Table 2.3, those of poisoned words apart, and changes no other byte; the words of an
application reach the copies at home, in the order of their path; nothing is restored or applied outside the power states in which the comb works; and a
request whose words every sharer has applied completes and frees its slot. What ends a deregistration, and a request whose page lies in no stack, are the
model's choice (log entries 16, 39). -/
def Obligations.RowEvents : Prop :=
  ∀ (n pc id asid : Nat) (va : Quad) (free : List Nat) (attr : PageAttr) (s : State), n < 24 → pc < 64 →
    let st := s.stack n
    let index := st.nextRow.getD pc 0
    (index < 32768 → s.sweeping = true → ∃ t : State, exec (.sweepStep n pc) s = .next t ∧ (t.stack n).nextRow.getD pc 0 = index + 1 ∧
      (∀ c, c ≠ pc → (t.stack n).nextRow.getD c 0 = st.nextRow.getD c 0) ∧ (t.stack n).pass = st.pass ∧ t.pkg = s.pkg ∧
      (∀ m, m ≠ n → (t.stack m).nextRow = (s.stack m).nextRow) ∧
      (st.regions = [] → st.reqs = [] → s.bankq = [] → t.mem = s.mem)) ∧
    ((32768 ≤ index ∨ s.sweeping = false) → exec (.sweepStep n pc) s = .next s) ∧
    (index = 32768 → s.sweeping = true → ∃ t : State, exec (.passBoundary n pc free) s = .next t ∧ (t.stack n).nextRow.getD pc 0 = 0 ∧
      (t.stack n).pass.getD pc 0 = (st.pass.getD pc 0 + 1) % 2 ^ 48 ∧
      (t.stack n).hot = (if pc = 0 then (if 85 < st.temp then true else if st.temp ≤ 80 then false else st.hot) else st.hot) ∧
      (t.stack n).period.get? pc = some ((s.pkg.mode.extractLsb' 2 2).toNat, (t.stack n).hot) ∧
      (∀ c, c ≠ pc → (t.stack n).nextRow.getD c 0 = st.nextRow.getD c 0 ∧ (t.stack n).pass.getD c 0 = st.pass.getD c 0 ∧
        (t.stack n).period.get? c = st.period.get? c) ∧
      ∀ k r, (k, r) ∈ (t.stack n).regions → ∃ old, (k, old) ∈ st.regions ∧
        let has := fun (c : Nat) => ∃ u, u < old.plen ∧ (old.pbase + u) % 64 = c
        let had := fun (c : Nat) => (t.stack n).pass.getD c 0 - old.p0.getD c 0
        (old.passes = 65535 → r.left = old.left) ∧
        (old.passes ≠ 65535 → r.left ≤ old.passes ∧ (∀ c, c < 64 → has c → old.passes - r.left ≤ had c) ∧
          (r.left = 0 ∨ ∃ c, c < 64 ∧ has c ∧ old.passes - r.left = had c))) ∧
    ((index ≠ 32768 ∨ s.sweeping = false) → exec (.passBoundary n pc free) s = .next s) ∧
    (let c := s.cmd id
     let b := fun (k : Nat) => c.block.getD k 0
     let func := ((b 1).extractLsb' 0 3).toNat
     let typ := ((b 1).extractLsb' 3 2).toNat
     let refused := combRefused func typ ((b 2).extractLsb' 0 32) ((b 3).extractLsb' 0 32) = true
     c.st = .running → c.cls = 3 → c.op = 2 → c.progress = 0 → ∀ s', s.agentWaits c.asid 1 [b 0] = none → s.agentPage c.asid (b 0) = .ok (s', attr) →
      let pa := dpaLocal (pageAddr attr (b 0))
      s'.migratingAt pa = none →
      ((s'.isMine (pageAddr attr (b 0)) = false ∨ isHbm pa = false) → ∃ t : State, exec (.rowRequestAccept id) s = .next t ∧ t.cmd id = c ∧ t.dram = s.dram) ∧
      (s'.isMine (pageAddr attr (b 0)) = true → isHbm pa = true →
      (refused ∨ s'.manyMaps (pageAddr attr (b 0)) = true → ∃ t : State, exec (.rowRequestAccept id) s = .next t ∧ t.cmdDone id = true ∧ t.dram = s.dram) ∧
      (¬ refused → s'.manyMaps (pageAddr attr (b 0)) = false → (s'.stack (pa / 2 ^ 36)).reqs.length < 4096 →
        ∃ t : State, exec (.rowRequestAccept id) s = .next t ∧ (t.cmd id).progress = 1 ∧
          ∃ r ∈ (t.stack (pa / 2 ^ 36)).reqs, r.id = id ∧ r.pa = pa / 1024 * 1024 ∧ r.func = func ∧ r.typ = typ ∧ r.sat = (b 1).getLsbD 5 ∧
            r.applied = false ∧ r.urg = c.flag) ∧
      (¬ refused → s'.manyMaps (pageAddr attr (b 0)) = false → 4096 ≤ (s'.stack (pa / 2 ^ 36)).reqs.length →
        ∃ t : State, exec (.rowRequestAccept id) s = .next t ∧ t.cmd id = c ∧ t.dram = s.dram))) ∧
    (∀ r, st.reqs.find? (fun r => r.id == id) = some r → r.applied = false → s.sweeping = true →
      (r.urg = 2 ∨ (r.urg = 0 ∧ s.unmapping r.asid r.va 1024 = true)) → r.pa / 2 ^ 36 = n → r.pa % 1024 = 0 →
      ∃ t : State, exec (.hurryActivation n id) s = .next t ∧ (∀ q ∈ (t.stack n).reqs, q.id = id → q.applied = true) ∧
        (t.stack n).openRow.get? (32 * (r.pa / 2 ^ 10 % 64) + r.pa / 2 ^ 16 % 32) = none ∧
        (st.reqs.filter (fun q => q.pa == r.pa && !q.applied && q.urg != 1) = [r] → r.func < 8 → r.typ < 3 → r.lost = false → s.mem.wf = true →
          s.bankq = [] → s.eccErr = [] →
          let ecc := if s.pkg.eccStrong then 32 else 8
          let size := if r.typ = 2 then 2 else 4
          (∀ k, k < 1024 / size → let a := r.pa + size * k
            if s.poison.contains (a / ecc * ecc) then t.mem.nat a size = s.mem.nat a size
            else combTakes r.func r.typ r.sat r.k0 r.k1 (s.mem.nat a size) (t.mem.nat a size)) ∧
          ∀ a, a < r.pa ∨ r.pa + 1024 ≤ a → t.mem.byte a = s.mem.byte a)) ∧
    (∀ r, st.reqs.find? (fun r => r.id == id) = some r → r.applied = true → r.store ≠ 0 → s.stores.get? r.store = none →
      ∃ t : State, exec (.rowRequestComplete n id) s = .next t ∧ t.cmdDone id = true ∧ ∀ q ∈ (t.stack n).reqs, q.id ≠ id) ∧
    (∀ m rest, s.nextMsg asid va true = some (m, rest) → m.asid < 2 ^ 16 → m.va % 512 = 0 → m.va + 512 ≤ 2 ^ 64 → m.bytes.length = 512 →
      ∃ t : State, exec (.combUpdate asid va) s = .next t ∧ t.bankMsgs = rest ∧ t.mem = s.mem ∧
        ∀ l k, k < 512 → s.l2.get? (lineKey m.asid (m.va / 512)) = some l → l.valid.getLsbD (k / 32) = true →
          homeByte t m.asid (m.va + k) = m.bytes[k]?)

/-- R40, R45, R137, R163, R405, R59: the banks and the homes. A bank performs its oldest queued access: memory takes its bytes, and an
acknowledgement leaves for the home, which applies them to its copy; a row with no queued access closes; a miss, once its page is translated, waits for
what a bank has of the line, its own activation included, then fills the grain block of the address, and in a full set of 16 lines one goes that is not
locked, of which nothing is at a bank and for which no core waits, with every copy of it; a page with NC = 1 brings no line; a migration into
a frame that no other move leaves moves the page's bytes and leaves no translation of the frame left. Which line goes, and that one may not while
something of it is under way, are the model's choice (log entry 37), as is a page move in one event (log entry 25). -/
def Obligations.BankEvents : Prop :=
  ∀ (pa asid src acc : Nat) (va : Quad) (attr : PageAttr) (s : State),
    (∀ b rest, takeFirst (fun (b : BankAccess) => sameBank b.pa pa) s.bankq = some (b, rest) → ∃ t : State,
      exec (.bankAccess pa) s = .next t ∧ t.bankq = rest ∧ (∀ k, k < b.bytes.length → some (t.mem.byte (b.pa + k)) = b.bytes[k]?) ∧
      t.l2 = s.l2 ∧ ∃ more, t.bankMsgs = more ++ [⟨b.asid, b.va, b.pa, b.bytes, b.poison, b.store, false⟩]) ∧
    (isHbm pa = true → (∀ b ∈ s.bankq, b.pa / 1024 ≠ pa / 1024) →
      let bank := 32 * (pa / 2 ^ 10 % 64) + pa / 2 ^ 16 % 32
      (s.stack (pa / 2 ^ 36)).openRow.get? bank = some (rowIndex pa) → ∃ t : State, exec (.rowClose pa) s = .next t ∧
        { t with dram := s.dram } = s ∧ (t.stack (pa / 2 ^ 36)).openRow.get? bank = none ∧
        ∀ k, k ≠ bank → (t.stack (pa / 2 ^ 36)).openRow.get? k = (s.stack (pa / 2 ^ 36)).openRow.get? k) ∧
    (∀ m rest, s.nextMsg asid va false = some (m, rest) → ∃ t : State, exec (.bankStoreAck asid va) s = .next t ∧
      t.bankMsgs = rest ∧ t.mem = s.mem ∧
      (∀ st, s.stores.get? m.store = some st → ∃ st', t.stores.get? m.store = some st' ∧ st'.bank = false ∧ st'.home = true) ∧
      (m.asid < 2 ^ 16 → m.va % 512 + m.bytes.length ≤ 512 → m.va < 2 ^ 64 → ∀ l, s.l2.get? (lineKey m.asid (m.va / 512)) = some l →
        l.valid.getLsbD (m.va % 512 / 32) = true → ∀ k, k < m.bytes.length → homeByte t m.asid (m.va + k) = m.bytes[k]?)) ∧
    (s.pkg.memDown = true → exec (.l2Miss asid ⟨va, acc⟩) s = .next s) ∧
    (∀ s', s.pkg.memDown = false → s.translate asid va acc = .page s' attr →
      (attr.nc = true ∨ (∃ b ∈ s'.bankq, b.asid = asid ∧ b.va / 512 = lineOf va) → ∃ t : State, exec (.l2Miss asid ⟨va, acc⟩) s = .next t ∧ t.l2 = s'.l2) ∧
      (attr.nc = false → s'.bankAsks asid va = [] → s'.line? asid va = none →
        ((s'.setLines asid va).length < 16 → (s.pkg.sync = false ∨ s.isMine attr.pa = true) → (attr.grain = 1 ∨ attr.grain = 4 ∨ attr.grain = 16) →
          let pa := pageAddr attr va / 512 * 512
          let first := va.toNat % 512 / (32 * attr.grain) * (32 * attr.grain)
          let u := (s'.touchMsc (dpaLocal pa + first) (32 * attr.grain)).bankOpen (dpaLocal pa + first)
          let filled := fun (mem : Memory) (base : Nat) => ∃ (t : State) (l : L2Line), exec (.l2Miss asid ⟨va, acc⟩) s = .next t ∧
            t.line? asid va = some l ∧ l.valid.getLsbD (va.toNat % 512 / 32) = true ∧ l.dirty = false ∧
            (mem.wf = true → ∀ k, k < 32 * attr.grain → l.data.byte (first + k) = mem.byte (base + first + k))
          (s'.isMine pa = false → filled s'.peerMem pa) ∧
          (s'.isMine pa = true → u.bankAsks asid va = [] →
            filled ((u.bankStamp (dpaLocal pa + first)).openSidecar (fun s a n => (s.touchMsc a n).bankTouch a) (dpaLocal pa)).mem (dpaLocal pa)) ∧
          (s'.isMine pa = true → u.bankAsks asid va ≠ [] → ∃ t : State, exec (.l2Miss asid ⟨va, acc⟩) s = .next t ∧ t.line? asid va = none)) ∧
        (16 ≤ (s'.setLines asid va).length → ∃ t : State, exec (.l2Miss asid ⟨va, acc⟩) s = .next t ∧
          ∃ out : Option Nat, ((out = none → ∀ e ∈ s'.setLines asid va, e.2.mayGo = false) ∧
            ∀ key, out = some key → ∃ l, (key, l) ∈ s'.setLines asid va ∧ l.mayGo = true ∧ (s'.l2.get? key = some l → t.l2.get? key = none ∧
            ∀ c, (t.core c).l1.get? key = none)) ∧
          ∀ key, some key ≠ out → key ≠ lineKey asid (lineOf va) → ((t.l2.get? key).isSome = (s'.l2.get? key).isSome)))) ∧
    (∀ m, s.migrs.find? (fun m => m.src == src) = some m → s.canMigrate m = true →
      let size := if m.big then 2 ^ 21 else 2 ^ 16
      let left := fun (p : PageAttr) => s.isMine p.pa = true ∧ m.src ≤ dpaLocal p.pa ∧ dpaLocal p.pa < m.src + size
      ∃ t : State, exec (.migration src) s = .next t ∧ t.migrs = s.migrs.filter (· != m) ∧ (∀ e ∈ t.tlb, ∀ p ∈ e.2, ¬ left p.attr) ∧
        (s.mem.wf = true → (∀ e ∈ s.rmap, ¬ left e.attr) → (∀ k, k < size → t.mem.byte (m.dst + k) = s.mem.byte (m.src + k)) ∧
          ∀ a, a < m.dst ∨ m.dst + size ≤ a → t.mem.byte a = s.mem.byte a))

/-! ### Command rings, firmware (R72 to R88, R166) -/

/-- R72, R76 to R84, R88, R166, Table 4.2: the entries of a command ring. A ring takes its next entry; one with a reserved field, one that
only an admin ring may hold, one with a bad operand (5) and one whose context or pages are not there (6) halt it with no other effect; else,
with what it accesses at hand and accessed, the operation takes effect, and its ring phase ends or goes on as the operation says; a REGION waits for
the service of a page's light fault. An answer to no record is a stray, and one that names no queue is counted nowhere. R82, R85, R86,
R398: the events of the event queues and of the firmware unit. A held event is posted once its queue has room; a load takes the code of the
checks of its image and the image as both stand at GO, and at its end, when it was good, the image's digest is kept and an image of target 0 stands in
the Ozyth core's memory; a start in INIT with both images and valid tables begins memory initialisation. When a COPY is performed, the errors of a bad
REGION, and an answer that names no queue, are the model's choice (log entries 32, 39). -/
def Obligations.HostRingEvents : Prop :=
  (∀ (n : Nat) (s : State),
     let bs := s.entryBytes n
     let e := taken s n
     let c := (s.ring n).ctx
     let asid := (s.ctx c).asid
     let live := (s.ctx c).live = true
     let q := fun (off : Nat) => fldQ bs off
     let ends := fun (i : Instr) (u : State) => exec i s = .next (u.endPhase n)
     let phase := fun (i : Instr) (u : State) (p : Phase) => exec i s = .next (u.updHostRing n fun r => { r with phase := p })
     let at_ := fun (l : List Need) => takenIn s (touched s l) n
     let halts := fun (i : Instr) (err : Nat) (l : List Need) => haltsIn i n err s (touched s l)
     let ops : List (Instr × Nat) := [(.ringNop n, 1), (.ringLaunch n, 2), (.ringWrite n, 3), (.ringWait n, 4), (.ringCopy n, 5), (.ctxSet n, 6),
       (.ctxKill n, 7), (.ringRegion n, 8), (.purge n, 9), (.answer n, 10), (.attest n, 11)]
     (∀ x ∈ ops, s.mayTake n = true → fld bs 0 1 = x.2 → entryReserved bs = true → haltsRing x.1 n 3 s) ∧
     (∀ x ∈ ops, s.mayTake n = true → fld bs 0 1 = x.2 → entryReserved bs = false → 6 ≤ x.2 → (s.ring n).admin = false → haltsRing x.1 n 4 s) ∧
     (s.mayTake n = true → usedBytes (fld bs 0 1) = none → haltsRing (.ringNop n) n 3 s) ∧
     (s.mayTake n = false → ∀ x ∈ ops, (s.ring n).phase = .none → exec x.1 s = .next s) ∧
     (takes s n 1 → ends (.ringNop n) e) ∧
     (takes s n 2 → (q 8).toNat % 128 ≠ 0 → haltsRing (.ringLaunch n) n 5 s) ∧
     (takes s n 2 → (q 8).toNat % 128 = 0 → atHand s (s.launchNeeds n (q 8)) →
       let u := at_ (s.launchNeeds n (q 8))
       let k := (u.ring n).ctx
       (u.ringCtx n = none → halts (.ringLaunch n) 6 (s.launchNeeds n (q 8))) ∧
       ((u.ctx k).killing = false → ∀ a r, u.ringCtx n = some a → u.agentBytes a (q 8) 128 = .ok r →
         (u.gridsFull = true → phase (.ringLaunch n) u (.launch (q 8))) ∧
         (u.gridsFull = false → u.launchStatus k r = 0 → ends (.ringLaunch n) (u.acceptGrid k r)) ∧
         (u.gridsFull = false → u.launchStatus k r ≠ 0 → halts (.ringLaunch n) 5 (s.launchNeeds n (q 8))))) ∧
     (∀ va, (s.ring n).phase = .launch va → s.gridsFull = false → s.pkg.fetches = true → atHand s (s.launchNeeds n va) →
       let u := touched s (s.launchNeeds n va)
       let k := (u.ring n).ctx
       (u.ctx k).killing = false → u.gridsFull = false → ∀ a r, u.ringCtx n = some a → u.agentBytes a va 128 = .ok r → u.launchStatus k r = 0 →
         ends (.gridAccept n) (u.acceptGrid k r)) ∧
     (takes s n 3 → (q 8).toNat % 8 ≠ 0 → haltsRing (.ringWrite n) n 5 s) ∧
     (takes s n 3 → (q 8).toNat % 8 = 0 → atHand s (needAll asid 1 [q 8]) →
       let u := at_ (needAll asid 1 [q 8])
       (∀ a x, u.ringCtx n = some a → u.agentWrite a (q 8) (leBytes 8 (fld bs 16 8)) = .ok x → ends (.ringWrite n) x) ∧
       (∀ a code, u.ringCtx n = some a → u.agentWrite a (q 8) (leBytes 8 (fld bs 16 8)) = .error code →
         halts (.ringWrite n) 6 (needAll asid 1 [q 8]))) ∧
     (takes s n 4 → (q 8).toNat % 8 = 0 → atHand s (needAll asid 0 [q 8]) →
       let u := at_ (needAll asid 0 [q 8])
       ∀ a x, u.ringCtx n = some a → u.agentNat a (q 8) 8 = .ok x →
         ((q 16).toNat ≤ x → ends (.ringWait n) (u.acquire 6)) ∧ (x < (q 16).toNat → phase (.ringWait n) u (.wait (q 8) (q 16)))) ∧
     (∀ va v, (s.ring n).phase = .wait va v → s.pkg.fetches = true → atHand s (needAll asid 0 [va]) →
       let u := touched s (needAll asid 0 [va])
       ∀ a x, u.ringCtx n = some a → u.agentNat a va 8 = .ok x →
         (v.toNat ≤ x → ends (.ringWaitPoll n) (u.acquire 6)) ∧ (x < v.toNat → phase (.ringWaitPoll n) u (.wait va v))) ∧
     (takes s n 5 → atHand s (s.copyNeeds n bs) →
       let len := fld bs 24 8
       let out := fld bs 32 1 == 1
       ((len % 64 ≠ 0 ∨ len < 64 ∨ 2 ^ 32 < len) → haltsRing (.ringCopy n) n 5 s) ∧
       (len % 64 = 0 → 64 ≤ len → len ≤ 2 ^ 32 → live → e.agentPages asid (q 16) len (!out) = true →
         phase (.ringCopy n) e (.copy (q 8) (q 16) len out))) ∧
     (∀ host va len, (s.ring n).phase = .copy host va len false → atHand s (needAll asid 1 (linesFrom va len)) →
       let u := touched s (needAll asid 1 (linesFrom va len))
       ∀ a, u.ringCtx n = some a → ends (.ringCopyDone n) (u.agentPutBytes a va (u.hostMem.bytes host.toNat len))) ∧
     (∀ host va len, (s.ring n).phase = .copy host va len true → atHand s (needAll asid 0 (linesFrom va len)) →
       let u := touched s (needAll asid 0 (linesFrom va len))
       ∀ a bytes, u.ringCtx n = some a → u.agentBytes a va len = .ok bytes →
         ends (.ringCopyDone n) { u with hostMem := u.hostMem.putBytes host.toNat bytes }) ∧
     (takes s n 6 → let k := fld bs 8 1
       let new := fld bs 10 2
       let root := fld bs 16 8
       let bad := new = 0 ∨ root % 4096 ≠ 0 ∨ 2 ^ 51 ≤ root ∨ 2 ^ 20 < fld bs 24 4 ∨
         ((s.ctx k).live = true ∧ ((s.ctx k).asid ≠ new ∨ (s.ctx k).root ≠ root)) ∨ ∃ x ∈ s.ctxs, x.1 ≠ k ∧ x.2.live = true ∧ x.2.asid = new
       (bad → haltsRing (.ctxSet n) n 5 s) ∧
       (¬ bad → ∃ x : Ctx, ends (.ctxSet n) (e.updCtx k fun _ => x) ∧ x.live = true ∧ x.asid = new ∧ x.tenant = fld bs 12 2 ∧ x.root = root ∧
         x.lockq = fld bs 24 4 ∧ x.kva = 0 ∧ x.fault = (0, 0, false, 0) ∧ x.ferrStat = 0)) ∧
     (takes s n 7 → atHand s (s.killNeeds (fld bs 8 1)) → ((s.ctx (fld bs 8 1)).live = false → ends (.ctxKill n) (at_ (s.killNeeds (fld bs 8 1)))) ∧
       ((s.ctx (fld bs 8 1)).live = true → ∃ t : State, exec (.ctxKill n) s = .next t ∧ (t.ring n).phase = .kill (fld bs 8 1) ∧
         (t.ctx (fld bs 8 1)).killing = true ∧ ∀ i, (s.group i).oz = false → (s.grid (s.team (s.group i).team).grid).ctx = fld bs 8 1 →
           s.groups.get? i ≠ none → (t.group i).ending = true ∨ (t.group i).exited = allLanes)) ∧
     (let owner := fld bs 24 2
      let l := s.regionNeeds n bs
      let u := at_ l
      let atEnd := fun (t : State) => exec (.ringRegion n) s = .next (t.forgetDenied bs)
      let bad := (q 8).toNat % 32 ≠ 0 ∨ (q 16).toNat % 8 ≠ 0 ∨ u.slotOfAsid owner = none
      let fails := fun (err : Nat) => atEnd (u.updHostRing n fun r => { r with state := 2, err, at_ := (s.ring n).rp, phase := .none })
      (takes s n 8 → s.regionMove n = none → ∀ a va, s.regionLight n = some (a, va) → ∃ t : State, exec (.ringRegion n) s = .next t ∧
        t.ring n = s.ring n ∧ ∃ x ∈ t.lightSvcs, x.covers a va = true ∧ x.ring = true) ∧
      (takes s n 8 → s.regionMove n = none → s.regionLight n = none → atHand s l →
        (bad → fails 5) ∧ (¬ bad → u.ringCtx n = none → fails 6) ∧
        (¬ bad → ∀ a d, u.ringCtx n = some a → u.agentBytes a (q 8) 32 = .ok d →
          (∀ v, descOf d = none → u.agentWrite a (q 16) (leBytes 8 0x30000) = .ok v → atEnd (v.endPhase n)) ∧
          (∀ desc, descOf d = some desc → u.regionPages owner desc.pages = none → fails 6) ∧
          ∀ desc v w, descOf d = some desc → u.regionPages owner desc.pages = some v →
            let r := v.register owner none desc (v.agentAddr owner)
            r.2.agentWrite a (q 16) (leBytes 8 r.1.toNat) = .ok w → atEnd (w.endPhase n)))) ∧
     (takes s n 9 → let base := fld bs 16 8
       let len := fld bs 24 8
       ((base % 65536 ≠ 0 ∨ len % 65536 ≠ 0) → haltsRing (.purge n) n 5 s) ∧
       (base % 65536 = 0 → len % 65536 = 0 → ∃ t : State, exec (.purge n) s = .next t ∧
         (t.ring n).phase = .purge (fld bs 8 2) (BitVec.ofNat 64 base) len)) ∧
     (∀ asid base len, (s.ring n).phase = .purge asid base len → s.pkg.fetches = true → s.bufferedIn asid base.toNat len = [] →
       s.purgeReady asid base.toNat len = true → ends (.purge n) (s.forgetRange asid base.toNat len)) ∧
     (takes s n 10 → atHand s (s.answerNeeds bs) →
       let k := fld bs 12 1
       let u := at_ (s.answerNeeds bs)
       let named := u.host.posted.find? fun r => r.queue == k && r.seq == BitVec.ofNat 32 (fld bs 8 4)
       (∀ r, named = some r → ends (.answer n)
         (({ u with host := { u.host with posted := u.host.posted.filter (· != r) } } : State).answered r.ask ((bs.drop 16).take 32))) ∧
       (named = none → k < 8 → ends (.answer n) (u.setEvq k { u.evq k with stray := (u.evq k).stray + 1 })) ∧
       (named = none → 8 ≤ k → ends (.answer n) u)) ∧
     (takes s n 11 → ((q 40).toNat % 64 ≠ 0 → haltsRing (.attest n) n 5 s) ∧
       ((q 40).toNat % 64 = 0 → ∃ (t : State) (bytes : List Byte), ends (.attest n) t ∧ t.hostMem = s.hostMem.putBytes (q 40).toNat bytes ∧
         bytes.length = 1696 ∧ t.mem = s.mem))) ∧
  (∀ (s : State),
     let fw := s.host.fw
     let leads := fun (i : Instr) (f : Firmware) => exec i s = .next { s with host := { s.host with fw := f } }
     (fw.load = none → ∃ code, leads .fwGo { fw with load := some (code, s.host.staging), code := 1 } ∧ (s.pkg.pwr ≠ 1 → code = 2) ∧
       (s.pkg.pwr = 1 → s.img 0 4 ≠ 0x57464C5A → code = 3)) ∧
     (fw.load ≠ none → exec .fwGo s = .next s) ∧
     (fw.load = none → exec .fwLoadDone s = .next s) ∧
     (∀ code image, fw.load = some (code, image) → code ≠ 0 → leads .fwLoadDone { fw with load := none, code }) ∧
     (∀ image, fw.load = some (0, image) → ∃ t : State, exec .fwLoadDone s = .next t ∧ t.host.fw.load = none ∧ t.host.fw.code = 0 ∧
       image.nat 4 1 ∈ t.host.fw.good ∧ (image.nat 5 1 = 1 → t.host.fw.min.getD (image.nat 4 1) 0 = image.nat 6 2) ∧
       (image.nat 5 1 ≠ 1 → t.host.fw.min = fw.min) ∧
       (image.nat 4 1 = 0 → t.oz.loaded = true ∧ (image.wf = true → ∀ k, k < min (image.nat 8 4) (2 ^ 22) →
         t.ozMem.byte k = image.byte (64 + k)))) ∧
     (fw.load ≠ none → exec .fwStart s = .next s) ∧
     (fw.load = none → s.pkg.pwr ≠ 1 → leads .fwStart { fw with code := 2 }) ∧
     (fw.load = none → s.pkg.pwr = 1 → fw.initBusy = false → 0 ∈ fw.good → 1 ∈ fw.good → s.poolValid = true → s.heatValid = true →
       leads .fwStart { fw with initBusy := true }) ∧
     (fw.load = none → s.pkg.pwr = 1 → fw.initBusy = false → (0 ∉ fw.good ∨ 1 ∉ fw.good ∨ s.poolValid = false ∨ s.heatValid = false) →
       leads .fwStart { fw with code := 7 }) ∧
     ∀ e rest n, s.pkg.linked = true → s.host.held = e :: rest → s.queueFor e.kind = some n → (s.evq n).unread < 2 ^ (s.evq n).log2 → ∃ t : State,
       exec .heldEventPost s = .next t ∧ t.host.held = rest ∧ (t.evq n).wp = (s.evq n).wp + 1 ∧ (t.evq n).seq = (s.evq n).seq + 1 ∧
       t.mem = s.mem ∧ (e.ask ≠ .none → ∃ r ∈ t.host.posted, r.queue = n ∧ r.seq = (s.evq n).seq ∧ r.ask = e.ask))

/-! ### The scheduler (R91 to R99, R101 to R110, R116, R120 to R123, R132 to R136, R172 to R174) -/

/-- R91 to R99, R136: grids. A waiting grid is ready once every predecessor has triggered, its releases performed, or is done; a grid that
is done has DONE_VAL written by a device agent (a write that fails is recorded) and is freed with its teams; a placement starts every team
of the next cluster on consecutive cores, every group with its number, its program counters at ENTRY and ARG in s1, and with the first of
them the grid takes its copies of MODE and of its context's tenant and quota; no cluster is placed where a partition would hold more than 32
groups or 4,096 registers; and a grid whose next team has found no core for 1 ms reserves. What a killed grid does is
the model's choice (log entry 30). -/
def Obligations.GridEvents : Prop :=
  ∀ (id core : Nat) (g : Grid) (s : State), s.grids.get? id = some g →
    let only := fun (i : Instr) (h : Grid) => ∃ t : State, exec i s = .next t ∧ { t with grids := s.grids } = s ∧
      t.grids.get? id = some h ∧ ∀ n, n ≠ id → t.grids.get? n = s.grids.get? n
    let passed := fun (x : Grid) => x.st = .triggered ∨ x.st = .done
    (g.st = .waiting → (∀ p ∈ g.preds, ∀ x, s.grids.get? p = some x → passed x ∧ ∀ t ∈ s.gridTeams p, s.released t = true) →
      only (.gridReady id) { g with st := .ready, since := s.pkg.now }) ∧
    (g.st = .waiting → (∃ p ∈ g.preds, ∃ x, s.grids.get? p = some x ∧ ¬ passed x) → exec (.gridReady id) s = .next s) ∧
    (g.st ≠ .waiting → exec (.gridReady id) s = .next s) ∧
    (let va := BitVec.ofNat 64 (recField g.record 56 8)
     let u0 := s.agentTouch (s.ctx g.ctx).asid va
     let write := u0.agentWrite (u0.ctx g.ctx).asid va (leBytes 8 (recField g.record 64 8))
     (s.canDone id = true → (va = 0 ∨ s.agentWaits (s.ctx g.ctx).asid 1 [va] = none) → ∃ t : State, exec (.gridDone id) s = .next t ∧ t.grids.get? id = none ∧ (∀ e ∈ t.teams, e.2.grid ≠ id) ∧
       (va = 0 → t.mem = s.mem ∧ t.ctxs = s.ctxs) ∧
       (∀ u, va ≠ 0 → write = .ok u → t.mem = u.mem ∧ t.l2 = u.l2 ∧ t.cores = u.cores) ∧
       (∀ code, va ≠ 0 → write = .error code → t.mem = u0.mem ∧ (t.ctx g.ctx).fault.2.2.1 = true)) ∧
     (g.st ≠ .triggered → exec (.gridDone id) s = .next s) ∧
     ((∃ t ∈ s.gridTeams id, (s.team t).st ≠ .exited) → exec (.gridDone id) s = .next s)) ∧
    (s.mayPlace id core = true → (∀ c, c < core → s.clusterFits id c [] = false) → ∃ t : State, exec (.teamPlace id core) s = .next t ∧ t.grid id = { g with
        mode := if g.placed = 0 then s.pkg.mode else g.mode, placed := g.nextCluster + 1, st := .running, reserving := false
        tenant := if g.placed = 0 then (s.ctx g.ctx).tenant else g.tenant
        lockq := if g.placed = 0 then (s.ctx g.ctx).lockq else g.lockq, since := s.pkg.now } ∧
      (∀ n, n < s.fresh → t.teams.get? n = s.teams.get? n ∧ t.groups.get? n = s.groups.get? n) ∧
      ∀ r, r < g.cluster → ∃ n tm, s.fresh ≤ n ∧ t.teams.get? n = some tm ∧ tm.grid = id ∧ tm.st = .resident ∧ tm.core = core + r ∧ tm.rank = r ∧
        tm.num = g.nextCluster / g.nsib * g.cluster + r ∧ tm.sib = g.nextCluster % g.nsib ∧
        tm.groups.length = (groupRoles g.record).length ∧
        ∀ k, k < tm.groups.length → ∃ gid, tm.groups[k]? = some gid ∧ ∃ h, t.groups.get? gid = some h ∧ h.team = n ∧ h.num = k ∧
          h.core = core + r ∧ h.part = k % 4 ∧ h.readS 1 = BitVec.ofNat 64 (recField g.record 8 8) ∧
          ∀ l, l < 16 → h.pc l = BitVec.ofNat 64 (recField g.record 0 8)) ∧
    (s.mayPlace id core = false → exec (.teamPlace id core) s = .next s) ∧
    ((∃ c, c < core ∧ s.clusterFits id c [] = true) → exec (.teamPlace id core) s = .next s) ∧
    (let total := fun (c : Nat) (f : List Byte → Nat) => ((s.residents c).map fun t => f (s.recordOf t)).sum + f g.record
     (∃ r p, r < g.cluster ∧ p < 4 ∧ (32 < total (core + r) (fun x => (partitionUse x p).1) ∨
        4096 < total (core + r) (fun x => (partitionUse x p).2))) → exec (.teamPlace id core) s = .next s) ∧
    (s.pkg.running = false → exec (.teamPlace id core) s = .next s) ∧
    (s.wants id = true → g.since + 1000000 ≤ s.pkg.now → (∀ d, d < 24 → s.fitsOnDie id d = false) →
      only (.reserveTimeout id) { g with reserving := true }) ∧
    ((s.wants id = false ∨ s.pkg.now < g.since + 1000000 ∨ ∃ d, d < 24 ∧ s.fitsOnDie id d = true) → exec (.reserveTimeout id) s = .next s)

/-- R105 to R108, R110, R172 to R174, R241: teams. After 50 µs without a core a pre-emption begins the save of the victims, or with MODE bit 11 waits for
them until PRE_BOUND expires, unless the teams already taken let it fit; a save stops every group of its team; a save that closes takes the team, its
buffers and its waiting commands off its core, and
writes each group's program counters and scalar registers at their places of Tables 8.6 and 8.7, and no byte outside the team's area, while a team whose
sibling is cancelled or whose context is killed exits; and the next saved team of a grid is placed again on the lowest core where it fits, in its grid's
turn, with its buffers at their indexes and its commands in the task table. What the save area leaves open, and which victims a cluster takes, are the
model's choice (log entries 26, 30). -/
def Obligations.TeamEvents : Prop :=
  ∀ (grid die team core : Nat) (s : State),
    let tm := s.team team
    let mine := fun (c : Cmd) => c.team = team
    ((s.grid grid).priority ≠ 3 → exec (.preemptTimeout grid die) s = .next s) ∧
    ((s.fitsOnDie grid die = true ∨ s.pkg.now < (s.grid grid).since + 50000) → exec (.preemptTimeout grid die) s = .next s) ∧
    (let fitsThen := ∃ c, c < 24 ∧ s.fitsNext grid (24 * die + c) (s.taken die) = true
     (fitsThen → exec (.preemptTimeout grid die) s = .next s) ∧
     (∀ ts, s.pkg.running = true → (s.grid grid).priority = 3 → s.wants grid = true → (s.grid grid).since + 50000 ≤ s.pkg.now →
      s.fitsOnDie grid die = false → ¬ fitsThen → s.chooseVictims grid die = some ts →
      ∃ t : State, exec (.preemptTimeout grid die) s = .next t ∧ (∀ n, (n ∉ ts ∨ n ∈ s.taken die) → (t.team n).st = (s.team n).st) ∧
        ∀ n ∈ ts, n ∉ s.taken die → (s.team n).st = .resident →
          ((s.grid (s.team n).grid).mode.getLsbD 11 = false → (t.team n).st = .saving) ∧
          ((s.grid (s.team n).grid).mode.getLsbD 11 = true → (t.team n).st = .resident ∧ (t.team n).waitOut = some s.pkg.now))) ∧
    (∀ t0, tm.waitOut = some t0 → t0 + s.preBound team ≤ s.pkg.now → tm.st = .resident → ∃ t : State, exec (.preBoundExpiry team) s = .next t ∧ (t.team team).st = .saving ∧
      (t.team team).waitOut = none ∧ ∀ gid ∈ tm.groups, s.groups.get? gid ≠ none → (t.group gid).saving = true) ∧
    ((tm.waitOut = none ∨ ∃ t0, tm.waitOut = some t0 ∧ s.pkg.now < t0 + s.preBound team) → exec (.preBoundExpiry team) s = .next s) ∧
    (s.canClose team = true → (tm.cancelled = true ∨ (s.ctx (s.grid tm.grid).ctx).killing = true) → ∃ t : State,
      exec (.saveClose team) s = .next t ∧ (t.team team).st = .exited ∧ (t.team team).saveUnits = 0) ∧
    (s.canClose team = true → tm.cancelled = false → (s.ctx (s.grid tm.grid).ctx).killing = false → ∃ t : State,
      exec (.saveClose team) s = .next t ∧ (t.team team).st = .saved ∧ t.cmds = s.cmds ∧
      (let nums := tm.groups.map fun n => (s.group n).num
       let records := s.areaOf team + 0x2000
       let size := (tm.groups.length * 0x2800 + 0xFFF) / 0x1000 * 0x1000 + 0x4000 * leNat (((s.grid tm.grid).record.drop 32).take 2) +
         0x8000 * min tm.ways.length (recField (s.grid tm.grid).record 34 1)
       nums.Nodup → (∀ n ∈ nums, n < tm.groups.length) → (∀ n ∈ tm.groups, (s.group n).team = team) →
         (∀ x, x < s.areaOf team ∨ records + size ≤ x → t.mem.byte x = s.mem.byte x) ∧
         ∀ n ∈ tm.groups, let place := records + 0x2800 * (s.group n).num
           (∀ l, l < 16 → t.mem.quad (place + 0x80 + 8 * l) = (s.group n).pc l) ∧
           ∀ r, r < 64 → t.mem.quad (place + 0x100 + 8 * r) = (s.group n).readS r) ∧
      (t.team team).keptBufs = (s.core tm.core).bufs.filter (fun e => e.2.live && e.2.owner == team) ∧
      (∀ e ∈ (t.core tm.core).bufs, e.2.live = true → e.2.owner ≠ team) ∧
      (∀ i ∈ (t.core tm.core).tasks, ∀ c, s.cmds.get? i = some c → ¬ mine c) ∧
      ∀ n g, s.groups.get? n = some g → t.groups.get? n = some (if g.team = team ∧ g.oz = false then { g with slot := none } else g)) ∧
    (tm.st ≠ .saving → exec (.saveClose team) s = .next s) ∧
    ((∃ i c, s.cmds.get? i = some c ∧ mine c ∧ c.st = .running ∧ c.cls < 3) → exec (.saveClose team) s = .next s) ∧
    (tm.cluster = 0 → tm.st = .saved → s.pkg.running = true → core < 576 → s.fitsSaved team core [] = true → s.nextSaved tm.grid = some team →
      s.turnOf tm.grid (core / 24) = true → (∀ c, c < core → s.savedFits team c [] = false) → (∃ gid ∈ tm.groups, (s.group gid).gone = false) → ∃ t : State,
      exec (.teamReplace team core) s = .next t ∧ (t.team team).st = .resident ∧ (t.team team).core = core ∧ t.mem = s.mem ∧
      ((tm.keptBufs.map (·.1)).Nodup → ∀ e ∈ tm.keptBufs, (t.core core).bufs.get? e.1 = some e.2) ∧
      (∀ i c, s.cmds.get? i = some c → mine c → c.st = .waiting → i ∈ (t.core core).tasks ∧ (t.cmd i).core = core) ∧
      ∀ gid ∈ tm.groups, ∀ g, s.groups.get? gid = some g → g.gone = false →
        (t.group gid).core = core ∧ (t.group gid).saving = false ∧ (t.group gid).slot = none) ∧
    ((tm.st ≠ .saved ∨ s.pkg.running = false ∨ s.nextSaved tm.grid ≠ some team ∨ ∃ c, c < core ∧ s.savedFits team c [] = true) →
      exec (.teamReplace team core) s = .next s)

/-- R101 to R104, R116, R117, R120 to R123, R169, R217: groups. The group that has been ready longest takes the lowest free active slot of its
partition, or the slot of the group that leaves it; a result that has returned after its run's end is written to its register, unless a command in the
task table still holds it, and lanes that read poison owe the poison fault; a record goes to its slot; and lanes that have all joined at one address move
on together, while with several addresses those at the lowest take the reconvergence fault. R132 to R136, R309: the debug unit. A group whose run would
open at an enabled breakpoint of its core stops before it, its place and cause 2 stand in the debug status, and with TEAM_STOP the other groups of its
team stop, at once at a run boundary, and otherwise at the end of their run or at a word at which they wait, whose run then ends; DBG_STEP lets the
stopped group that DBG_CTL names execute one issue, and DBG_RESUME lets it go on, past the address that it matched; neither does anything to a group that
is not stopped. The order of readiness and the victim of a swap, the order of commits to one register, and that DBG_RESUME passes the matched address, are
the model's choice (log entries 11, 31, 34). -/
def Obligations.GroupEvents : Prop :=
  (∀ (gid victim idx : Nat) (s : State), s.groups.get? gid ≠ none →
     let g := s.group gid
     let only := fun (i : Instr) (h : Group) => ∃ t : State, exec i s = .next t ∧ { t with groups := s.groups } = s ∧ t.group gid = h ∧
       ∀ n, n ≠ gid → t.group n = s.group n
     (∀ k, g.slot = none → s.waiting g.core g.part = some gid → s.freeSlot g.core g.part = some k →
       only (.groupActivate gid) { g with slot := some k } ∧ k < 8 ∧ (∀ e ∈ s.partition g.core g.part, e.2.slot ≠ some k) ∧
       (∀ j, j < k → ∃ e ∈ s.partition g.core g.part, e.2.slot = some j) ∧
       ∃ e ∈ s.partition g.core g.part, e.1 = gid ∧ ∀ f ∈ s.partition g.core g.part, f.2.slot = none → f.2.ready = true →
         e.2.readySince ≤ f.2.readySince) ∧
     (s.waiting g.core g.part ≠ some gid → exec (.groupActivate gid) s = .next s) ∧
     (let v := s.group victim
      (∀ k, g.slot = none → g.ready = true → g.oz = false → v.slot = some k → v.spent = true → v.runOpen = false → v.mayReopen = false → v.oz = false →
         v.core = g.core → v.part = g.part → s.waiting g.core g.part = some gid → s.freeSlot g.core g.part = none → ∃ t : State,
         exec (.groupSwap gid victim) s = .next t ∧ t.group gid = { g with slot := some k } ∧ (t.group victim).slot = none ∧
         ∀ n, n ≠ gid → n ≠ victim → t.group n = s.group n) ∧
      (v.runOpen = true → exec (.groupSwap gid victim) s = .next s)) ∧
     (∀ p, g.pend[idx]? = some p →
       let held := ∃ k, p.res.key = some k ∧ ∃ e ∈ s.cmds, e.2.gid = gid ∧ e.2.st = .waiting ∧ k ∈ e.2.holds
       ((p.ready = false ∨ held) → exec (.resultCommit gid idx) s = .next s) ∧
       (p.ready = true → p.ended = true → ¬ held → (∀ q ∈ g.pend.take idx, q.res.key = none ∨ q.res.key ≠ p.res.key) →
         ∃ t : State, exec (.resultCommit gid idx) s = .next t ∧ (t.group gid).pend = g.pend.eraseIdx idx ∧
           (∀ n, n ≠ gid → t.group n = s.group n) ∧ t.mem = s.mem ∧
           ((p.poisoned.map (·.1)).Nodup → ∀ x ∈ p.poisoned, (t.group gid).owed.get? x.1 = some (0x1A, x.2)) ∧
           (∀ d v, p.res = .scalar d v → ∀ r, (t.group gid).readS r = if r = d ∧ r ≠ 0 then v else g.readS r) ∧
           (∀ d vals, p.res = .lanes d vals → (vals.map (·.1)).Nodup → (∀ x ∈ vals, x.1 < 16) → ∀ r l, l < 16 →
             (∀ x, (l, x) ∈ vals → r = d → (t.group gid).readV r l = x) ∧
             ((r ≠ d ∨ ∀ x, (l, x) ∉ vals) → (t.group gid).readV r l = g.readV r l)) ∧
           (∀ slot bytes addr lanes rec, p.res = .record slot bytes addr lanes → tsrOf bytes = some rec → s.teams.get? g.team ≠ none →
             (t.team g.team).tsr.get? slot = some rec))) ∧
     (g.runOpen = true → exec (.joinComplete gid) s = .next s) ∧
     (g.runOpen = false → g.eligible = 0 → g.joined ≠ 0 → g.parked = 0 →
       (∀ pc : Quad, (∀ l, l < 16 → g.joined.getLsbD l = true → g.pc l = pc) → ∃ t : State, exec (.joinComplete gid) s = .next t ∧
         (t.group gid).joined = 0 ∧ (t.group gid).e = g.joined ∧ (∀ n, n ≠ gid → t.group n = s.group n) ∧
         ∀ l, l < 16 → (t.group gid).pc l = if g.joined.getLsbD l then pc + 4 else g.pc l) ∧
       (∀ l m, l < 16 → m < 16 → g.joined.getLsbD l = true → g.joined.getLsbD m = true → (g.pc l).toNat < (g.pc m).toNat →
         (∀ k, k < 16 → g.joined.getLsbD k = true → (g.pc l).toNat ≤ (g.pc k).toNat) → g.trapBase ≠ 0 → g.inTrap = 0 →
         ∃ t : State, exec (.joinComplete gid) s = .next t ∧ delivered { s with cur := gid } { t with cur := gid } l 0x06 0 ∧
           (t.group gid).joined.getLsbD l = false ∧ (t.group gid).joined.getLsbD m = true))) ∧
  (∀ (gid core : Nat) (s : State), s.groups.get? gid ≠ none →
     let g := s.group gid
     (g.runOpen = false → g.ready = true → g.fence = none → s.bpHit g g.minPc = true → ∃ t : State, exec (.breakpointMatch gid) s = .next t ∧
       t.group gid = { g with stopped := true, matched := true, skipBp := some g.minPc } ∧ (t.core g.core).dbgStat = (g.part, g.pos, 2) ∧ t.mem = s.mem ∧
       ((s.core g.core).dbgTeamStop = false → ∀ n, n ≠ gid → t.group n = s.group n) ∧
       ((s.core g.core).dbgTeamStop = true → (s.groups.map (·.1)).Nodup → ∀ n h, n ≠ gid → s.groups.get? n = some h → h.oz = false →
         let goes := h.team = g.team ∧ h.gone = false ∧ h.stopped = false ∧ h.exited ≠ allLanes
         let boundary := h.runOpen = false ∧ h.block = .none ∧ h.fence = none
         (goes → boundary → (t.group n).stopped = true) ∧
         (goes → ¬ boundary → (t.group n).stopDue = true ∧ (t.group n).stopped = false) ∧
         (goes → ¬ boundary → s.stopsAt n = true → (t.group n).runOpen = false ∧ (t.group n).block = .none) ∧
         (¬ goes → t.group n = h))) ∧
     (s.bpHit g g.minPc = false → exec (.breakpointMatch gid) s = .next s) ∧
     (s.debugged core = some gid → ∃ t u : State, exec (.dbgStep core) s = .next t ∧ exec (.dbgResume core) s = .next u ∧
       (∀ n, n ≠ gid → t.group n = s.group n ∧ u.group n = s.group n) ∧
       (g.stopped = true → t.group gid = { g with stopped := false, stepping := true, skipBp := none, matched := false } ∧
         u.group gid = { g with stopped := false, stepping := false, skipBp := if g.matched then g.skipBp else none, matched := false }) ∧
       (g.stopped = false → t.group gid = g ∧ u.group gid = g)) ∧
     (s.debugged core = none → exec (.dbgStep core) s = .next s ∧ exec (.dbgResume core) s = .next s))

/-! ### Coherence and translation on their own (R151 to R155, R161 to R167) -/

/-- R152, R155, R17, R22, R184: coherence. The oldest update on its path is applied to a held sector of its core, or leaves a core without the
sector as it is, and is acknowledged; a group of the core that has read the line past an incomplete fence goes back to the word after the fence, with
the registers that it had there, and no other group changes; a store with nothing left to acknowledge is performed, and one to another package is
acknowledged by it over a link that carries traffic; an entry of an atomic buffer is merged once at its place, and its groups wait for that store, or
stays, due, while its page or its place is not ready. What of later words a fence lets go ahead is the model's choice (log entry 7). -/
def Obligations.CoherenceEvents : Prop :=
  ∀ (slice core n asid : Nat) (va : Quad) (s : State),
    let mine := fun (u : Update) => homeSlice u.asid u.line == slice && u.core == core
    (takeFirst mine s.updates = none → exec (.writeUpdate slice core) s = .next s) ∧
    (∀ u rest, takeFirst mine s.updates = some (u, rest) → ∃ t : State, exec (.writeUpdate slice core) s = .next t ∧ t.updates = rest ∧
      t.mem = s.mem ∧ (∀ k, k ≠ core → t.core k = s.core k) ∧
      (∀ st, s.stores.get? u.store = some st → t.stores.get? u.store = some { st with acks := st.acks - 1 }) ∧
      (let key := lineKey u.asid u.line
       (∀ l, (s.core core).l1.get? key = some l → u.off < 512 → hasSector l.valid u.off = true → ∃ l', (t.core core).l1.get? key = some l' ∧
         l'.valid = l.valid ∧ (∀ k, k < u.bytes.length → some (l'.data.byte (u.off + k)) = u.bytes[k]?) ∧
         ∀ a, a < u.off ∨ u.off + u.bytes.length ≤ a → l'.data.byte a = l.data.byte a) ∧
       (∀ l, (s.core core).l1.get? key = some l → u.off < 512 → hasSector l.valid u.off = false → (t.core core).l1 = (s.core core).l1) ∧
       ((s.core core).l1.get? key = none → (t.core core).l1 = (s.core core).l1) ∧
       (∀ gid h, s.groups.get? gid = some h → (h.fence = none ∨ s.copyCore h.core u.line ≠ core ∨ ∃ f, h.fence = some f ∧ key ∉ f.lines) →
         t.groups.get? gid = some h) ∧
       ∀ gid h f b, s.groups.get? gid = some h → h.fence = some f → f.back = some b → key ∈ f.lines → s.copyCore h.core u.line = core →
         ∃ h', t.groups.get? gid = some h' ∧ h'.pcs = b.pcs ∧ h'.a = b.a ∧ h'.e = b.e ∧ h'.runOpen = b.runOpen ∧ h'.runLen = b.runLen ∧ h'.v = b.v ∧
           h'.s = b.s ∧ h'.p = b.p ∧ h'.pend = b.pend ∧ h'.block = .none ∧ h'.fence = some { f with lines := [] } ∧ h'.stores = h.stores)) ∧
    (∀ st, s.stores.get? n = some st →
      (st.acks = 0 → st.bank = false → st.peer = none → ∃ t : State, exec (.storeAck n) s = .next t ∧ t.stores.get? n = none ∧
        (∀ m, m ≠ n → t.stores.get? m = s.stores.get? m) ∧ t.mem = s.mem ∧
        ∀ m, n ∉ (t.group m).stores ++ (t.group m).observed ++ (t.group m).trigStores) ∧
      (st.peer = none → (st.acks ≠ 0 ∨ st.bank = true) → exec (.storeAck n) s = .next s) ∧
      (st.peer ≠ none →
        let carries := s.carries (homeDie st.asid (st.va / 512))
        (carries = false → exec (.storeAck n) s = .next s) ∧
        (carries = true → ∃ t : State, exec (.storeAck n) s = .next t ∧ { t with stores := s.stores, due := s.due } = s ∧
          t.stores.get? n = some { st with peer := none } ∧ ∀ m, m ≠ n → t.stores.get? m = s.stores.get? m))) ∧
    (let find := (s.core core).abuf.find? fun e => e.asid == asid && e.va == va.toNat
     (find = none → exec (.atomicMerge core asid va) s = .next s) ∧
     ∀ e, find = some e →
       (∀ s', s.translate asid va 1 = .asks s' → exec (.atomicMerge core asid va) s = .next (s'.markDue core e)) ∧
       ∀ s' attr, s.translate asid va 1 = .page s' attr →
         (∀ l, s'.placeRaw asid attr va = .asks l → exec (.atomicMerge core asid va) s = .next ((s'.owe l).markDue core e)) ∧
         ((∀ l, s'.placeRaw asid attr va ≠ .asks l) →
           let u := s'.dropEntry core e
           let r := (u.atomAt core e.gids true asid attr va (s'.placeRaw asid attr va) e.op e.uns e.val 0).2
           exec (.atomicMerge core asid va) s = .next (r.countCm core 0) ∧
           ∀ l v, s'.placeRaw asid attr va = .home → s'.line? asid va = some l → hasSector l.valid (lineOff va) = true →
             atomNew e.op e.uns (l.data.word (lineOff va)) e.val 0 = some v →
             ∀ gid ∈ e.gids, s.groups.get? gid ≠ none → s'.fresh ∈ (r.group gid).stores))

/-- R65, R162, R163, R165, R167, Table 8.4: translation. Nothing is translated while the memories are in self-refresh. A request that hits has the attributes returned; a miss walks and loads the page, or
with DUTY bit 1 asks the host once; returned attributes enter the core's cache; a light fault sets D in the leaf and lets the parked lanes
go on when the page is writable, gives them the write-protection fault when it is not, and with DUTY bit 0 asks the host once for the page;
a leaf that is gone makes the parks translation faults, which the host services with DUTY bit 1. What answer 0
to a light fault does is the model's choice (log entry 12). -/
def Obligations.TranslationEvents : Prop :=
  ∀ (die asid acc core : Nat) (va : Quad) (s : State),
    let req := Instr.translationRequest die asid va acc core
    let hit := findPage (s.tlbOf die va) asid va
    (s.pkg.memDown = true → exec req s = .next s ∧ exec (.attributeReturn core asid va) s = .next s) ∧
    (s.pkg.memDown = false →
    (hit ≠ none → exec req s = .next (s.owe [.attributeReturn core asid va])) ∧
    (hit = none → s.walkPending asid va = true → exec req s = .next s) ∧
    (hit = none → s.walkPending asid va = false →
      (∀ attr, s.hostWalksOn = false → s.walk asid va = .ok attr → ∃ t : State, exec req s = .next t ∧ t.mem = s.mem ∧
        findPage (t.tlbOf die va) asid va = some attr ∧ ∃ r ∈ t.rmap, r.asid = asid ∧ r.va = pageBase attr.big va.toNat) ∧
      (∀ code, s.hostWalksOn = false → s.walk asid va = .error code → exec req s = .next s) ∧
      (s.hostWalksOn = true → ∃ t : State, exec req s = .next t ∧
        t.hostWalks = (s.clearFail asid va).hostWalks ++ [⟨homeDie asid (lineOf va), asid, va, acc, false, none⟩] ∧
        t.tlb = s.tlb ∧ t.mem = s.mem)) ∧
    (let home := findPage (s.tlbOf (homeDie asid (lineOf va)) va) asid va
     (∀ attr, home = some attr → ∃ t : State, exec (.attributeReturn core asid va) s = .next t ∧ t.mem = s.mem ∧
       (findPac (s.core core).pac asid va = none → ∃ p, findPac (t.core core).pac asid va = some p ∧ p.w = attr.w ∧ p.x = attr.x ∧ p.d = attr.d ∧
         p.grain = attr.grain ∧ p.big = attr.big) ∧
       (findPac (s.core core).pac asid va ≠ none → t = s)) ∧
     (home = none → exec (.attributeReturn core asid va) s = .next s))) ∧
    (let light := Instr.lightFaultService asid va
     let noneSaved := ∀ e ∈ s.teams, e.2.st ≠ .saved
     let parked := fun (gid : Nat) (h : Group) (l : Nat) (a : Quad) => s.groups.get? gid = some h ∧ s.spaceOf h = some asid ∧ l < 16 ∧
       h.svc.get? l = some (0x12, a) ∧ samePage (s.isBig asid va) a va = true
     let alone := s.lightAsked asid va = false ∧ s.pkg.duty.getLsbD 0 = false
     (alone → ∀ a, s.leafOf asid va = some a → (s.physQuad a).getLsbD 2 = true → ∃ t : State, exec light s = .next t ∧
       (noneSaved → t.physQuad a = s.physQuad a ||| 0x10) ∧ ∀ gid h l x, parked gid h l x →
         (t.group gid).parked.getLsbD l = false ∧ (t.group gid).svc.get? l = none ∧ (t.group gid).pc l = h.pc l) ∧
     (alone → (∀ e ∈ s.groups, e.2.trapBase ≠ 0 ∧ e.2.inTrap = 0 ∧ (e.2.svc.map (·.1)).Nodup) →
       (((s.leafOf asid va = none ∧ s.hostWalksOn = false) ∨ ∃ a, s.leafOf asid va = some a ∧ (s.physQuad a).getLsbD 2 = false) → ∃ t : State, exec light s = .next t ∧
         (noneSaved → t.mem = s.mem) ∧ ∀ gid h l x, parked gid h l x → delivered { s with cur := gid } { t with cur := gid } l
           (if s.leafOf asid va = none then 0x10 else 0x11) x)) ∧
     (alone → s.leafOf asid va = none → s.hostWalksOn = true → ∃ t : State, exec light s = .next t ∧ t.mem = s.mem ∧
       ∀ gid h l x, parked gid h l x → (t.group gid).svc.get? l = some (0x10, x)) ∧
     (s.lightAsked asid va = true → exec light s = .next s) ∧
     (s.pkg.duty.getLsbD 0 = true → s.lightAsked asid va = false → ∃ t : State, exec light s = .next t ∧
       t.lightSvcs = s.lightSvcs ++ [⟨asid, va.toNat, s.isBig asid va, false, false⟩] ∧ t.groups = s.groups ∧ t.mem = s.mem))

/-! ### The ends of waits, the engines (R48, R147, R183, R189, R190, R216, R217, R219 to R222, R224, R229, R308, R344, R346) -/

/-- R147, R183, R184, R189, R190, R240, R308, R344, R346, R352, R378: a group that waits at a word goes on once what it waits for is there, with the
word's own effect and past it, and stays otherwise, also when its team leaves, at `q.pop`, `waitc` and `syw.wait`. A fence that completes has status 0, or
that of the first write it lost; one at domain or system scope whose writes to a peer leave by a link that is down, or still retrains after 50 µs, gives
them up and records them, and completes with status 1 or 2 when it waits for nothing else, while another group goes on waiting for them; a wait on a
buffer that has been freed faults. Which port the writes to a peer leave by, and how long a group waits for a lost write, are the model's choice (log
entry 33), and so is what the completion of a fence sends back (log entry 7). -/
def Obligations.WaitEnds : Prop :=
  ∀ (gid : Nat) (s : State),
    let g := s.group gid
    let stays := fun (e : Instr) => exec e s = .next s
    let status := fun (f : Fence) (v : Nat) (t : State) => (t.group gid).fence = none ∧ ((s.l2.map (·.1)).Nodup → t.mem = s.mem) ∧
      ∃ h : Group, (h = g ∨ h = g.rollback) ∧ (f.lines = [] → h = g) ∧ ∀ (idx : Nat) (p : Pending), h.pend[idx]? = some p →
        (t.group gid).pend[idx]? = some (if p.tag = fenceTag ∧ p.ready = false then { p with ready := true, res := match p.res with
          | .scalar d _ => .scalar d (BitVec.ofNat 64 v)
          | r => r } else p)
    (∀ f, g.fence = some f → s.fenceAsks g f.scope = none → ∃ t : State, exec (.fenceComplete gid) s = .next t ∧
      status f ((g.lost.map (·.1)).headD 0) t) ∧
    (∀ f asks, g.fence = some f → s.fenceAsks g f.scope = some asks → exec (.fenceComplete gid) s = .next (s.owe asks)) ∧
    (g.fence = none → stays (.fenceComplete gid)) ∧
    (∀ peer port,
      let lost := s.lostOn gid peer port
      let p := s.port port
      let fails := fun (since : Nat) => p.down = true ∨ (p.retrain = true ∧ since + 50000 ≤ s.pkg.now)
      (lost = [] ∨ g.waitsFar = none ∨ (∃ since, g.waitsFar = some since ∧ ¬ fails since) → stays (.fenceLinkTimeout gid peer port)) ∧
      ∀ f, g.fence = some f → 6 ≤ f.scope → fails f.since → lost ≠ [] → g.lost = [] → s.groups.get? gid ≠ none →
        (let code := if p.down then 1 else 2
         let vas := lost.filterMap fun n => (s.stores.get? n).map fun st => (code, peer, st.va)
         let u := (lost.foldl (fun s n => s.loseWrite gid n) s).updGroup gid fun g => { g with lost := vas }
         u.fenceAsks (u.group gid) f.scope = none → ∃ t : State, exec (.fenceLinkTimeout gid peer port) s = .next t ∧ status f code t ∧
          (t.ctx (s.ctxOf g)).ferrStat.getLsbD 0 = true ∧
          ∀ n ∈ lost, n ∈ (t.group gid).gaveUp ∧ ((∃ m h, m ≠ gid ∧ s.groups.get? m = some h ∧ h.waitsFor n = true) →
            (t.stores.get? n).map (·.peer) = (s.stores.get? n).map (·.peer)))) ∧
    (∀ d q, g.block = .pop d q → ((g.queue q).recs ≠ [] → g.fence = none → g.leaves = false → returns (.queuePopReturn gid) gid (·.popQueue d q) s) ∧
      (((g.queue q).recs = [] ∨ g.fence ≠ none ∨ g.leaves = true) → stays (.queuePopReturn gid))) ∧
    (∀ cls n, g.block = .waitc cls n →
      ((g.cmds.getD cls []).length ≤ n → g.leaves = false → returns (.waitcReturn gid) gid (fun s => if cls = 4 then s.acquire 6 else s) s) ∧
      ((n < (g.cmds.getD cls []).length ∨ g.leaves = true) → stays (.waitcReturn gid))) ∧
    (∀ n ph, g.block = .bar n ph → ((s.barrier g.team n).phase ≠ ph → returns (.barrierPhaseComplete gid) gid (fun s => s) s) ∧
      ((s.barrier g.team n).phase = ph → stays (.barrierPhaseComplete gid))) ∧
    (∀ row n, g.block = .sweepWait row n → (s.sweepSeen row n = true → returns (.sweepWaitReturn gid) gid (fun s => s) s) ∧
      (s.sweepSeen row n = false → stays (.sweepWaitReturn gid))) ∧
    (∀ d h v, g.block = .syw d h v →
      (∀ gen, s.sywGen g.team (BitVec.ofNat 64 h) = some gen →
        (1 ≤ (gen - v).toNat ∧ (gen - v).toNat ≤ 2 ^ 31 - 1 → g.leaves = false → returns (.sywWaitReturn gid) gid (fun s =>
          s.setGrp { s.grp with pend := s.grp.pend ++ [returned (.scalar d (gen.setWidth 64))] }) s) ∧
        ((¬ (1 ≤ (gen - v).toNat ∧ (gen - v).toNat ≤ 2 ^ 31 - 1) ∨ g.leaves = true) → stays (.sywWaitReturn gid))) ∧
      (s.buffer g.team (BitVec.ofNat 64 h) = none → g.oz = false → canTrap g → ∃ t : State, exec (.sywWaitReturn gid) s = .next t ∧
        ∀ l, l < 16 → g.e.getLsbD l = true → delivered { s with cur := gid } { t with cur := gid } l
          (if s.bufferFreed g.team (BitVec.ofNat 64 h) = true then 0x18 else 0x17) 0)) ∧
    (g.block = .none → stays (.queuePopReturn gid) ∧ stays (.waitcReturn gid) ∧
      stays (.barrierPhaseComplete gid) ∧ stays (.sweepWaitReturn gid) ∧ stays (.sywWaitReturn gid))

/-- R216, R217, R219 to R222, R224 to R226, R229, R364, R367 to R369: the engines. A command that can leave, and before which none can, leaves the
task table with its vector operands and the format registers read, an attention command whose handle fails its second check with STATUS 3; a
row request whose page is still to be walked for waits. A chunk of a `copy.in` goes to its buffer, with zeros for what is out of range; one of a
`copy.out` goes from its buffer to memory as a store; a `drain` reads its whole tile before its first chunk, clears it with `.z`, and stores
its elements in the form of its mode. A matrix command rewrites its tile, and no other element, in one step; `accst` writes the tile to its buffer; `attn`
takes the 32 rows of its tiles through R225 from its queries, keys and values, and `attn.fin` through R226. A command whose work is over
completes, and its record goes to its stream. How many commands an engine runs at once, and in how many steps they act, are the model's choice (log
entry 19); so is, in part, the arithmetic of a row of `attn` (log entry 14). -/
def Obligations.EngineEvents : Prop :=
  ∀ (id : Nat) (s : State),
    let c := s.cmd id
    let g := s.group c.gid
    let asid := c.asid
    (s.rowWalk c = true → exec (.taskLeave id) s = .next ((s.agentWait asid (c.block.getD 0 0) 0).getD s)) ∧
    (s.rowWalk c = false → s.canLeave id = false → exec (.taskLeave id) s = .next s) ∧
    (let bad := c.cls = 2 ∧ s.handleOk (s.tenantOf g) (c.block.getD 0 0) = false
     s.rowWalk c = false → s.canLeave id = true → s.cmds.get? id ≠ none → (∀ i ∈ (s.core c.core).tasks.takeWhile (· != id), s.canLeave i = false) →
      ∃ t : State, exec (.taskLeave id) s = .next t ∧ (t.cmd id).st = .running ∧
      (bad → (t.cmd id).progress = 1 ∧ (t.cmd id).status = 3) ∧ (¬ bad → (t.cmd id).progress = 0 ∧ (t.cmd id).status = 0) ∧
      (t.cmd id).fmts = (s.team c.team).fmt ∧ id ∉ (t.core c.core).tasks ∧ t.mem = s.mem ∧
      ∀ r ∈ c.holds, ∀ l, l < 16 → (t.cmd id).operands.get? (16 * r + l) = some (g.readV r l)) ∧
    (∀ rec, c.tsr = some rec →
      ((c.st ≠ .running ∨ c.cls ≠ 0 ∨ c.box.count ≤ c.progress) → exec (.copyChunkWrite id) s = .next s) ∧
      (c.st = .running → c.cls = 0 → c.progress < c.box.count → (∀ i ∈ c.after, s.cmdDone i = true) →
        (s.chunkAsks c rec asid ≠ [] → exec (.copyChunkWrite id) s = .next (s.owe (s.chunkAsks c rec asid))) ∧
        (s.chunkAsks c rec asid = [] → ∃ t : State, exec (.copyChunkWrite id) s = .next t ∧
          (t.cmd id).progress = c.progress + (c.nextChunk rec).length ∧ (t.cmd id).st = .running ∧
          ∀ b e, c.op = 0 → s.cmdBuffer c (((c.block.getD 0 0).extractLsb' 0 16).setWidth 64) = some b → c.nextChunk rec = [e] →
            (c.block.getD 1 0).getLsbD 44 = false → sywOf c.block = 0xFFFF → rec.esz ≤ 4 → s.teams.get? b.owner ≠ none → ∀ k, k < 2 ^ rec.esz →
              let at_ := b.off + bufPlace rec (2 ^ rec.esz) e 0 + k
              (c.box.addr rec e = none → (t.team b.owner).spByte at_ = 0) ∧
              ∀ va, c.box.addr rec e = some va → k < (s.engineRead asid va (2 ^ rec.esz)).2.1.length →
                some ((t.team b.owner).spByte at_) = (s.engineRead asid va (2 ^ rec.esz)).2.1[k]?)) ∧
        (s.chunkAsks c rec asid = [] →
          let tile := ((c.block.getD 0 0).extractLsb' 0 9).toNat
          let first := c.op = 7 ∧ c.progress = 0
          let read := if first then s.readTile id else s
          (first → ∃ t : State, exec (.copyChunkWrite id) s = .next t ∧ ∀ i j, i < 32 → j < 32 →
            (t.cmd id).operands.get? (32 * i + j) = some (toWord ((s.team c.team).tile g.part tile i j)) ∧
            ∀ p k, k < 512 → s.teams.get? c.team ≠ none → (t.team c.team).tile p k i j =
              if c.flag = 1 ∧ p = g.part ∧ k = tile then 0 else (s.team c.team).tile p k i j) ∧
          ∀ e va u attr, (c.nextChunk rec).filter (fun k => (c.box.addr rec k).isSome) = [e] → c.box.addr rec e = some va → va.toNat % 32 + 2 ^ rec.esz ≤ 32 → read.mayWrite c va = true →
            read.agentPage asid va = .ok (u, attr) →
            let stores := fun (bytes : List Byte) (pz : List Nat) => ∃ t : State, exec (.copyChunkWrite id) s = .next t ∧
              let r := u.storeTo c.core noGid asid attr va bytes pz
              t.mem = r.mem ∧ t.peerMem = r.peerMem ∧ t.bankq = r.bankq ∧ t.stores = r.stores ∧ ∀ x y, homeByte t x y = homeByte r x y
            (∀ b, c.op = 1 → s.cmdBuffer c (((c.block.getD 0 0).extractLsb' 0 16).setWidth 64) = some b → (c.block.getD 1 0).getLsbD 44 = false →
              rec.esz ≤ 4 →
              let at_ := b.off + bufPlace rec (2 ^ rec.esz) e 0
              stores ((s.team b.owner).spBytes at_ (2 ^ rec.esz)) ((List.range (2 ^ rec.esz)).filter fun k => (s.team b.owner).spPoisoned (at_ + k) 1)) ∧
            (c.op = 7 → e < 1024 →
              let x := ((read.cmd id).operands.getD e 0).toNat
              let mode := ((c.block.getD 0 0).extractLsb' 13 2).toNat
              (mode = 0 → rec.esz = 2 → stores (leBytes 4 x) []) ∧
              (mode = 1 → rec.esz = 1 → stores (leBytes 2 (Fmt.bf16.rne (Fmt.fp32.decode x))) []) ∧
              (mode = 2 → rec.esz = 1 → stores (leBytes 2 (Fmt.fp16.rne (Fmt.fp32.decode x))) [])))) ∧
    ((c.st ≠ .running ∨ c.progress ≠ 0) → exec (.matrixStepRun id) s = .next s) ∧
    (c.st = .running → c.cls = 1 → c.progress = 0 → s.teams.get? c.team ≠ none →
      let tile := ((c.block.getD 0 0).extractLsb' 0 9).toNat
      let old := s.team c.team
      let sat := (s.grid old.grid).mode.getLsbD 21
      let runs := fun (f : Nat → Nat → Nat) => ∃ t : State, exec (.matrixStepRun id) s = .next t ∧ (t.cmd id).progress = 1 ∧ t.mem = s.mem ∧
        ∀ p k i j, k < 512 → i < 32 → j < 32 → (t.team c.team).tile p k i j = if p = g.part ∧ k = tile then f i j % 2 ^ 32 else old.tile p k i j
      (c.op = 4 → runs fun _ _ => 0) ∧
      ((c.op = 2 ∨ c.op = 3) → runs fun i j => c.operandsOf.element sat (if (c.block.getD 1 0).getLsbD 6 then 0 else old.tile g.part tile i j) i j) ∧
      (∀ b, c.op = 5 → s.cmdBuffer c (((c.block.getD 0 0).extractLsb' 16 16).setWidth 64) = some b → (c.block.getD 1 0).extractLsb' 0 2 = 0 →
        runs fun i j => leNat ((s.team b.owner).spBytes (b.off + imageOff c.block + swz ((32 * i + j) * 4) (imageSpan c.block)) 4)) ∧
      (∀ b, c.op = 6 → s.cmdBuffer c (((c.block.getD 0 0).extractLsb' 16 16).setWidth 64) = some b → (c.block.getD 1 0).extractLsb' 0 2 = 0 →
        s.teams.get? b.owner ≠ none → ∃ t : State, exec (.matrixStepRun id) s = .next t ∧ (t.cmd id).progress = 1 ∧ t.mem = s.mem ∧
          (∀ n p k i j, (t.team n).tile p k i j = (s.team n).tile p k i j) ∧ ∀ i j, i < 32 → j < 32 →
            (t.team b.owner).spBytes (b.off + imageOff c.block + swz ((32 * i + j) * 4) (imageSpan c.block)) 4 = leBytes 4 (old.tile g.part tile i j))) ∧
    (c.st = .running → c.cls = 2 → c.progress = 0 → s.teams.get? c.team ≠ none →
      let d := c.headDim
      let old := s.team c.team
      let b1 := c.block.getD 1 0
      let b2 := c.block.getD 2 0
      let rows := fun (o : Nat) (row : Nat → Nat → Nat → Nat) (t : State) => exec (.matrixStepRun id) s = .next t ∧ (t.cmd id).progress = 1 ∧
        ∀ p k i j, k < 512 → i < 32 → j < 32 → (t.team c.team).tile p k i j =
          (if p = g.part ∧ o ≤ k ∧ k ≤ o + d / 32 then row i (k - o) j else old.tile p k i j) % 2 ^ 32
      (c.op = 0 →
        let o := (b2.extractLsb' 32 9).toNat
        let st := o + d / 32
        let fresh := c.flag = 1
        (s.attnAsks asid c ≠ [] → exec (.matrixStepRun id) s = .next (s.owe (s.attnAsks asid c))) ∧
        ∀ b, s.attnAsks asid c = [] → o + d / 32 < 512 → s.cmdBuffer c ((b1.extractLsb' 0 16).setWidth 64) = some b → ∃ (t : State) (a : AttnArgs),
          a.d = d ∧ a.n = c.keys.length ∧ a.p0 = (b1.extractLsb' 32 20).toNat ∧
          a.q0 = (if b2.getLsbD 41 then some (b2.extractLsb' 42 20).toNat else none) ∧ a.sigma = Fmt.fp32.decode (b2.extractLsb' 0 32).toNat ∧
          a.sat = (s.grid old.grid).mode.getLsbD 21 ∧
          (∀ i x, a.q i x = Fmt.bf16.decode (leNat ((s.team b.owner).spBytes (b.off + (b1.extractLsb' 16 16).toNat * 16 + (i * d + x) * 2) 2))) ∧
          (∀ j x, a.k j x = bf16At ((s.readKeys asid c).2.getD j []) x) ∧
          (∀ j x, a.v j x = if j < a.n then bf16At ((s.readKeys asid c).2.getD j []) (d + x) else .fin false 0 0) ∧
          rows o (fun i k j =>
            let r := a.row i (if fresh then 0xFF800000 else old.tile g.part st i 0) (if fresh then 0 else old.tile g.part st i 1) fun x =>
              if fresh then 0 else old.tile g.part (o + x / 32) i (x % 32)
            if k < d / 32 then r.2.2.getD (32 * k + j) 0
            else if j = 0 then r.1 else if j = 1 then r.2.1 else if fresh then 0 else old.tile g.part st i j) t) ∧
      (c.op = 1 → ((b1.extractLsb' 0 9).toNat + d / 32 < 512) → ∃ t : State,
        let o := (b1.extractLsb' 0 9).toNat
        let st := o + d / 32
        let m := fun (i : Nat) => Fmt.fp32.decode (old.tile g.part st i 0)
        let l := fun (i : Nat) => Fmt.fp32.decode (old.tile g.part st i 1)
        t.mem = s.mem ∧ (t.cmd id).status = (if (List.range 32).any fun i => (m i).isNan || (l i).isNan then 1 else 0) ∧
        (t.cmd id).flag = ((List.range 32).filter fun i => !(m i).isNan && (match l i with | .fin _ 0 _ => true | _ => false)).length ∧
        rows o (fun i k j =>
          let x := old.tile g.part (o + k) i j
          if (m i).isNan then x
          else match l i with
            | .fin _ 0 _ => if k < d / 32 then 0 else if j = 2 then 0xFF800000 else x
            | .fin false lm le =>
              if k < d / 32 then
                match Fmt.fp32.decode x with
                | .nan => Fmt.fp32.canonNaN
                | .inf n => Fmt.fp32.rne (.inf n)
                | .fin n om oe => Fmt.fp32.rne (.fin n (2 * (om * 2 ^ 60 / lm) + (if om * 2 ^ 60 % lm = 0 then 0 else 1)) (oe - le - 61))
              else if j = 2 then addLog2 (old.tile g.part st i 0) (old.tile g.part st i 1) else x
            | _ => x) t)) ∧
    (c.st ≠ .running → exec (.engineCommandComplete id) s = .next s) ∧
    (c.st = .running → (∀ n ∈ c.stores, ∀ st, s.stores.get? n = some st → st.performedAt 5 = true) → g.exited ≠ allLanes →
      let time := s.stampTime (s.source (c.core / 24) c.unit)
      let closes := fun (stream : Option Nat) (rec : Nat) => ∃ t : State, exec (.engineCommandComplete id) s = .next t ∧ t.cmdDone id = true ∧
        t.mem = s.mem ∧ ∀ n, (t.group c.gid).queue n = if stream ≠ none ∧ stream.bind g.boundTo = some n then
          (g.queue n).push (BitVec.ofNat 64 rec) else g.queue n
      (c.cls = 0 → c.box.count ≤ c.progress → closes (some 0) (c.tag.toNat % 65536 + c.status * 65536 + time % 2 ^ 40 * 2 ^ 24)) ∧
      (c.cls = 0 → c.progress < c.box.count → exec (.engineCommandComplete id) s = .next s) ∧
      (c.cls = 1 → 1 ≤ c.progress → closes none 0) ∧
      (c.cls = 2 → c.op = 0 → 1 ≤ c.progress → closes none 0) ∧
      (c.cls = 2 → c.op = 1 → 1 ≤ c.progress →
        closes (some 1) (c.tag.toNat % 65536 + c.status * 65536 + c.flag * 2 ^ 24 + time % 2 ^ 32 * 2 ^ 32)))

/-! ### Ballots and collectives (R231, R238 to R244, R382 to R388, R418, R419) -/

/-- R231, R235, R238 to R244: siblings. A post is decided at its time plus 1,024, when none at its home's unit is earlier in stamp order: recorded, counted while the ballot is open, and with the
quorum's vote the ballot ends (or the host is asked, DUTY bit 3); a group of a cancelled sibling stops at a cancellation point, which a
group with an incomplete fence does not reach (R184), its commands in the table dropped; what a program has stored to a ballot record leaves free values
there once; 100,000 ticks after the decision no hold defers; a cancelled sibling whose teams have exited and whose commands have
completed is released, its handles' slots cleared, or the host is asked unless the context is killed (R84); and a freed page whose users have completed goes onto FREE. Which commands a release
waits for is the model's choice (log entry 35). -/
def Obligations.SiblingEvents : Prop :=
  ∀ (id k slot page : Nat) (s : State),
    (∀ b, (s.grid id).ballot = some b →
      let free := fun (vas : List Quad) => s.agentWaits (s.ctx (s.grid id).ctx).asid 1 vas = none
      let unit := s.unitPost (s.grid id).home
      (b.nextPost = none → exec (.postDecide id) s = .next s) ∧
      (∀ p, b.nextPost = some p → (s.pkg.now < p.time + 1024 ∨ unit ≠ some p) → exec (.postDecide id) s = .next s) ∧
      (∀ p m n c q, unit = some p → s.grids.get? m = some n → n.num % 24 = (s.grid id).home → n.ballot = some c → q ∈ c.posts →
        p.time < q.time ∨ (p.time = q.time ∧ p.src ≤ q.src)) ∧
      (∀ p, b.nextPost = some p → p.time + 1024 ≤ s.pkg.now → unit = some p → p.sib < b.sibs.length → free (s.ballotLines id) → ∃ (t : State) (b' : Ballot), exec (.postDecide id) s = .next t ∧
        (t.grid id).ballot = some b' ∧ b'.posts = b.posts.filter (· != p) ∧ (b'.sib p.sib).posted = true ∧
        ((b.sib p.sib).posted = false → (b'.sib p.sib).hash = p.hash) ∧
        ((b.sib p.sib).posted = false → b.outcome = 0 → b.asked = false →
          let votes := (b.sibs.filter fun y => y.status == 1 && y.hash == p.hash).length + 1
          (b'.sib p.sib).status = 1 ∧ (votes < b.q → b'.outcome ≠ 1) ∧
          (b.q ≤ votes → b'.whash = p.hash ∧ b'.qstamp = (p.time, p.src) ∧ b'.completer = p.sib ∧
            (s.pkg.duty.getLsbD 3 = false → b'.outcome = 1 ∧ b'.decided = s.pkg.now) ∧
            (s.pkg.duty.getLsbD 3 = true → b'.outcome = 0 ∧ b'.asked = true))) ∧
        (b.outcome ≠ 0 → b'.outcome = b.outcome ∧ b'.completer = b.completer)) ∧
      (b.outcome = 1 → b.decided + 100000 ≤ s.pkg.now → ∃ t : State, exec (.holdTimeout id) s = .next t ∧ { t with groups := s.groups } = s ∧
        ∀ n g, s.groups.get? n = some g → t.groups.get? n =
          some (if (s.team g.team).grid = id ∧ g.oz = false then { g with deferred := false } else g)) ∧
      ((b.outcome ≠ 1 ∨ s.pkg.now < b.decided + 100000) → exec (.holdTimeout id) s = .next s) ∧
      (let quiet := (∀ x ∈ s.sibTeams id k, (s.team x).st = .exited) ∧ ∀ e ∈ s.cmds, e.2.team ∈ s.sibTeams id k → e.2.st = .done
       let asks := s.pkg.duty.getLsbD 3 = true ∧ (s.ctx (s.grid id).ctx).killing = false
       (¬ quiet → exec (.siblingRelease id k) s = .next s) ∧
       ((b.sib k).status ≠ 2 → exec (.siblingRelease id k) s = .next s) ∧
       (quiet → (b.sib k).status = 2 → (b.sib k).asked = false → k < b.n → k < b.sibs.length →
        (asks ∨ free (s.releaseNeeds id k)) → ∃ (t : State) (b' : Ballot),
         exec (.siblingRelease id k) s = .next t ∧ (t.grid id).ballot = some b' ∧
         (asks → (b'.sib k).asked = true ∧ (b'.sib k).status = 2) ∧
         (¬ asks → (b'.sib k).status = 3 ∧ (b'.sib k).hostReleased = false ∧ (b'.sib k).written = true ∧
           ∀ x ∈ b'.slots, x.2.1 ≠ k)))) ∧
    (let g := s.group id
     let atPoint := g.fence = none ∧ ((g.block = .none ∧ g.runOpen = false) ∨
       (g.block ≠ .none ∧ (∀ a b c, g.block ≠ .slice a b c) ∧ ∀ n ph, g.block = .bar n ph → (s.barrier g.team n).phase = ph))
     (s.cancelDue id = false → exec (.siblingCancelStop id) s = .next s) ∧
     (¬ atPoint → exec (.siblingCancelStop id) s = .next s) ∧
     (s.cancelDue id = true → atPoint → s.groups.get? id ≠ none → ∃ t : State, exec (.siblingCancelStop id) s = .next t ∧
       (t.group id).exited = allLanes ∧ ∀ i c, t.cmds.get? i = some c → c.gid = id → c.st ≠ .waiting)) ∧
    (let find := s.freedPages.find? fun f => f.ctx == slot && f.page == page
     (find = none → exec (.deferredPageFree slot page) s = .next s) ∧
     (∀ f, find = some f → (∃ i ∈ f.waits, s.cmdDone i = false) → exec (.deferredPageFree slot page) s = .next s) ∧
     ∀ f, find = some f → (∀ i ∈ f.waits, s.cmdDone i = true) →
       let asid := (s.ctx slot).asid
       let needs := s.pushNeeds slot
       let v := needs.foldl (fun t va => t.agentTouch asid va) s
       let u := { v with freedPages := v.freedPages.filter (· != f) }
       s.agentWaits asid 1 needs = none → ∃ t : State, exec (.deferredPageFree slot page) s = .next (needs.foldl (fun t va => t.clearFail asid va) t) ∧
         (u.arena slot = none → t = u) ∧
         ∀ a, u.arena slot = some a →
           t = (u.agentPut asid (a.free + BitVec.ofNat 64 (4 * a.top)) 4 page).agentPut asid (a.addr + 32) 4 (a.top + 1))

/-- R382 to R388, R418, R419: collectives. A round command at the head of its engine opens its round under the next number of its die's slot, from the
tick at which it left the task table; it completes with STATUS 4 where its slot is not set or is disabled, and waits while its member recovers. A
round that every member has joined completes, or with STATUS 4 when the commands or the slots disagree; integer sums are the sums over the members modulo
2³². A neighbour that has been silent for TMO, an abort, a probe, a re-form and a resume flit, and a flit that does not come back, change what
the slot holds at the die as said there: the re-formed table is written to memory, a flit goes on to the next die of this package, and none is taken over a
link that is down, by a disabled ring or after 2 × TMO. What other members send comes as arguments of the events, and the order in which a
sum is formed is the model's choice (log entry 18); so are the answer of a silent member of this package to a probe, and what a wait flit's sender is (log
entries 17, 18). -/
def Obligations.CollectiveEvents : Prop :=
  ∀ (id slot die : Nat) (s : State),
    let ends := fun (i : Nat) (status silent : Nat) (t : State) => t.cmdDone i = true ∧ ∀ n,
      let c := s.cmd i
      (s.group c.gid).exited ≠ allLanes → (s.group c.gid).boundTo 3 = some n → (t.group c.gid).queue n = ((s.group c.gid).queue n).push
        (BitVec.ofNat 64 (c.tag.toNat % 65536 + status * 2 ^ 16 + silent * 2 ^ 24 + s.stampTime (s.source (c.core / 24) c.unit) % 2 ^ 32 * 2 ^ 32))
    (let c := s.cmd id
     let ring := rndRing c.block
     let d := c.core / 24
     let at_ := s.ringAt ring ((s.slotOfAsid c.asid).getD (s.ctxOf (s.group c.gid))) d
     ((s.waitingRounds ring d).head? ≠ some id → exec (.collRoundOpen id) s = .next s) ∧
     (c.cls = 4 → (s.waitingRounds ring d).head? = some id →
       ((at_ = none ∨ ∃ m, at_ = some m ∧ m.disabled = true) → ∃ t, exec (.collRoundOpen id) s = .next t ∧ ends id 4 127 t) ∧
       ∀ m, at_ = some m → m.disabled = false →
         ((m.recovering ≠ none ∨ s.ringHeld m = true) → exec (.collRoundOpen id) s = .next s) ∧
         (m.recovering = none → s.ringHeld m = false → ∃ (t : State) (r r' : Ring), exec (.collRoundOpen id) s = .next t ∧ (t.cmd id).round = m.next ∧
           s.rings.get? ring = some r ∧ t.rings.get? ring = some r' ∧ r'.rounds = r.rounds ++ [⟨id, d, m.next, c.began⟩] ∧
           r'.seats.get? d = some { m with next := m.next + 1 }))) ∧
    (∀ (b : List Quad) (srcs : List (List Byte)) (e : Nat), rndType b ≤ 1 → rndOp b = 0 → 1 ≤ srcs.length →
      reduceElem b srcs e = (srcs.map fun x => srcElem b x e).foldl (· + ·) 0) ∧
    (∀ num agree given, s.rings.get? slot = none → exec (.collRoundComplete slot num agree given) s = .next s) ∧
    (s.seat? slot die = none → ∀ e status silent agree,
      e ∈ [Instr.collTimeout slot die, .collAbortFlit slot die status silent, .collWaitFlit slot die, .collProbe slot die,
        .collProbeTimeout slot die agree, .collReformFlit slot die status silent, .collResumeFlit slot die, .reformReturnTimeout slot die] →
      exec e s = .next s) ∧
    (∀ r num agree given, s.rings.get? slot = some r →
      ((∃ x ∈ r.numbered num, ∃ m p, r.seats.get? x.die = some m ∧ p ∈ m.members ∧ p.1 = s.pkg.id ∧ ∀ y ∈ r.numbered num, y.die ≠ p.2) ∨
        (∃ x m, (r.numbered num).head? = some x ∧ r.seats.get? x.die = some m ∧ s.ringHeld m = true)) →
      exec (.collRoundComplete slot num agree given) s = .next s) ∧
    (∀ r num given x m, s.rings.get? slot = some r → r.numbered num = [x] → r.seats.get? x.die = some m →
      (∀ p ∈ m.members, p.1 = s.pkg.id → p.2 = x.die) → s.ringHeld m = false →
      (∃ t, exec (.collRoundComplete slot num false given) s = .next t ∧ ends x.cmd 4 127 t) ∧
      (let c := s.cmd x.cmd
       let read := s.engineRead c.asid (rndSrc c.block) (rndSize c.block * rndCount c.block)
       let mine := read.2.1
       let srcs := m.members.zipIdx.map fun (p : (Nat × Nat) × Nat) => if p.1 = (s.pkg.id, x.die) then mine else given.getD p.2 []
       let out := roundResult c.op c.block srcs (s.memberIndex m x.die)
       m.members.Nodup → (s.pkg.id, x.die) ∈ m.members → s.roundAsks m [x] = [] → partOverlap c.block out.length = false →
         exec (.collRoundComplete slot num true given) s = .next ((read.1.putFor c (rndDst c.block) out).finishRound x.cmd 0 127))) ∧
    (∀ r num agree given x y m n, s.rings.get? slot = some r → r.numbered num = [x, y] → r.seats.get? x.die = some m → r.seats.get? y.die = some n →
      (∀ p, p ∈ m.members ∨ p ∈ n.members → p.1 = s.pkg.id → p.2 = x.die ∨ p.2 = y.die) → s.ringHeld m = false →
      (agree = false ∨ (s.cmd x.cmd).op ≠ (s.cmd y.cmd).op ∨ (s.cmd x.cmd).block.getD 2 0 ≠ (s.cmd y.cmd).block.getD 2 0 ∨ m.gen ≠ n.gen ∨
        m.members ≠ n.members) →
      exec (.collRoundComplete slot num agree given) s = .next ((s.finishRound x.cmd 4 127).finishRound y.cmd 4 127)) ∧
    ∀ r m, s.rings.get? slot = some r → r.seats.get? die = some m →
      let now := s.pkg.now
      let mine := fun (p : Nat × Nat) => p.1 = s.pkg.id
      let at_ := fun (k : Nat) => m.members.getD (k % m.members.length) (0, 0)
      let up := (s.memberIndex m die + m.members.length - 1) % m.members.length
      let barred := fun (p : Nat × Nat) => ¬ mine p ∧ (s.ports.getD die Port.init).down = true
      let upWaits := mine (at_ up) ∧ ∃ x ∈ r.rounds, x.die = (at_ up).2
      let lasts := fun (x : Round) => ¬ upWaits ∧ (barred (at_ up) ∨ max x.since m.heard + 1000 * m.tmo ≤ now)
      let becomes := fun (t : State) (P : Ring → Seat → Prop) => ∃ (r' : Ring) (m' : Seat), t.rings.get? slot = some r' ∧
        r'.seats.get? die = some m' ∧ P r' m'
      let leads := fun (e : Instr) (P : State → Ring → Seat → Prop) => ∃ t : State, exec e s = .next t ∧ becomes t (P t)
      let quiet := fun (r' : Ring) => ∀ x ∈ r'.rounds, x.die ≠ die
      let idle := fun (m' : Seat) => m'.recovering = none ∧ m'.probing = none ∧ m'.returning = none ∧ m'.reforming = none
      let late := ∃ sent, m.returning = some (true, sent) ∧ sent + 2000 * m.tmo ≤ now
      let before := fun (silent : Nat) => if up = silent then at_ (up + m.members.length - 1) else at_ up
      let next := fun (silent : Nat) =>
        let j := (s.memberIndex m die + 1) % m.members.length
        if j = silent then at_ (j + 1) else at_ j
      let takes := fun (silent : Nat) => m.disabled = false ∧ ¬ late ∧ ¬ barred (before silent)
      let passes := fun (t : State) (silent : Nat) (flit : Nat → Owed) => mine (next silent) → flit (next silent).2 ∈ t.due
      ((upWaits ∨ (¬ mine (at_ up) ∧ ¬ barred (at_ up))) → leads (.collWaitFlit slot die) fun _ r' m' =>
        m' = { m with heard := now } ∧ r'.rounds = r.rounds) ∧
      (¬ (upWaits ∨ (¬ mine (at_ up) ∧ ¬ barred (at_ up))) → exec (.collWaitFlit slot die) s = .next s) ∧
      ((∀ x ∈ r.rounds, x.die = die → ¬ lasts x) → exec (.collTimeout slot die) s = .next s) ∧
      ((∃ x ∈ r.rounds, x.die = die ∧ lasts x) → leads (.collTimeout slot die) fun t r' m' => quiet r' ∧ m'.members = m.members ∧
        m'.recovering = some up ∧ (s.pkg.duty.getLsbD 4 = false → m'.probing = some (1, now)) ∧
        (∀ k p, m.members[k]? = some p → mine p → p.2 ≠ die → k ≠ up → Owed.collAbort slot p.2 1 up ∈ t.due) ∧
        ∀ x ∈ r.rounds, x.die = die → t.cmdDone x.cmd = true) ∧
      (∀ status silent, leads (.collAbortFlit slot die status silent) fun t r' m' => quiet r' ∧
        (∀ x ∈ r.rounds, x.die = die → t.cmdDone x.cmd = true) ∧ m'.recovering = if status = 1 then some silent else m.recovering) ∧
      leads (.collProbe slot die) (fun _ r' m' => r'.rounds = r.rounds ∧
        m'.probing = match m.probing with | some (1, sent) => if sent + 5000 ≤ now then some (2, now) else some (1, sent) | p => p) ∧
      (∀ k sent answered, m.probing = some (k, sent) →
        let answers := answered = true ∨ ∃ i, m.recovering = some i ∧ mine (m.members.getD i (0, 0))
        (answers → now ≤ sent + 5000 → leads (.collProbeTimeout slot die answered) fun t _ m' => m'.probing = none ∧ m'.returning = some (false, now) ∧
          passes t 127 fun d => .collResume slot d) ∧
        (¬ answers → k = 2 → sent + 5000 ≤ now → leads (.collProbeTimeout slot die answered) fun t _ m' => m'.probing = none ∧
          m'.returning = some (true, now) ∧ passes t (m.recovering.getD 127) fun d => .collReform slot d m.gen (m.recovering.getD 127)) ∧
        (¬ (answers ∧ now ≤ sent + 5000) → ¬ (¬ answers ∧ k = 2 ∧ sent + 5000 ≤ now) → exec (.collProbeTimeout slot die answered) s = .next s)) ∧
      (∀ answered, m.probing = none → exec (.collProbeTimeout slot die answered) s = .next s) ∧
      (∀ gen silent,
        let t := s.reformFlit slot die gen silent
        let asid := (s.ctx r.ctx).asid
        let lines := linesFrom m.addr 520
        (mine (before silent) → exec (.collReformFlit slot die gen silent) s = .next s) ∧
        (¬ mine (before silent) → exec (.collReformFlit slot die gen silent) s = .next t) ∧
        (¬ takes silent → t = s) ∧
        (takes silent → m.gen = gen → s.agentWaits asid 1 lines ≠ none → becomes t fun r' m' => m' = { m with reforming := some (gen, silent) } ∧
          r'.rounds = r.rounds) ∧
        (takes silent → (m.gen ≠ gen ∨ s.agentWaits asid 1 lines = none) →
          becomes t (fun r' m' => idle m' ∧ m'.heard = now ∧ r'.rounds = r.rounds ∧ m'.addr = m.addr ∧ m'.tmo = m.tmo ∧
            (m.gen ≠ gen → m'.members = m.members ∧ m'.gen = m.gen ∧ m'.next = m.next ∧ m'.disabled = false) ∧
            (m.gen = gen → m'.members = m.members.eraseIdx silent ∧ m'.gen = (m.gen + 1) % 65536 ∧ m'.next = 0 ∧
              (m'.disabled = true ↔ m.members.length ≤ 2))) ∧
          (¬ (m.recovering = some silent ∧ ∃ sent, m.returning = some (true, sent)) → passes t silent fun d => .collReform slot d gen silent) ∧
          (m.gen = gen →
            let v := lines.foldl (fun u va => u.agentTouch asid va) s
            let left := m.members.eraseIdx silent
            let tmo := ((v.agentNat asid m.addr 8).toOption.getD 0) / 2 ^ 8 % 256
            let w := v.agentPutBytes asid m.addr (leBytes 8 (left.length + tmo * 2 ^ 8 + (m.gen + 1) % 65536 * 2 ^ 16) ++
              (left.flatMap fun p => leBytes 8 (p.1 + p.2 * 64)) ++ leBytes 8 0)
            t.mem = w.mem ∧ t.peerMem = w.peerMem ∧ ∀ x y, homeByte t x y = homeByte w x y))) ∧
      (let t := s.resumeFlit slot die
       (mine (before 127) → exec (.collResumeFlit slot die) s = .next s) ∧
       (¬ mine (before 127) → exec (.collResumeFlit slot die) s = .next t) ∧
       (¬ takes 127 → t = s) ∧
       (takes 127 → becomes t (fun r' m' => idle m' ∧ m'.heard = now ∧ m'.members = m.members ∧ m'.gen = m.gen ∧ r'.rounds = r.rounds) ∧
         ((¬ ∃ sent, m.returning = some (false, sent)) → passes t 127 fun d => .collResume slot d))) ∧
      (¬ late → exec (.reformReturnTimeout slot die) s = .next s) ∧
      (late → leads (.reformReturnTimeout slot die) fun t r' m' => idle m' ∧ quiet r' ∧ m'.disabled = true ∧
        ∀ x ∈ r.rounds, x.die = die → t.cmdDone x.cmd = true)

/-! ### Decoding, the step, reset (R1, R119, R130, R274 to R294, R397, R398) -/

/-- R1, R276 to R293: words written out field by field from the encoding tables decode to the instructions that they stand for, in one shape
each; a word of major 0x00, and a word whose reserved bit is 1, decode to none. -/
def Obligations.DecodedWords : Prop :=
  -- shape A, `add v7, v5, v6`: S, MAJOR, FUNC, LA, LB, D, A, B
  decodeWord (0#1 ++ 0x01#5 ++ 0#3 ++ 0#1 ++ 0#1 ++ 7#7 ++ 5#7 ++ 6#7) = some (.add false false false 7 5 6) ∧
  -- shape A over scalars, `sadd s5, s6, s7`
  decodeWord (0#1 ++ 0x0C#5 ++ 0#3 ++ 0#2 ++ 5#7 ++ 6#7 ++ 7#7) = some (.sadd false 5 6 7) ∧
  -- shape AI, `addi.S v7, v5, -2`: the immediate's bit 7 stands at [21]
  decodeWord (1#1 ++ 0x03#5 ++ 0#3 ++ 0#1 ++ 1#1 ++ 7#7 ++ 5#7 ++ 0x7E#7) = some (.addi true false 0xFE 7 5) ∧
  -- shape B, `br` to the word before
  decodeWord (0#1 ++ 0x0E#5 ++ 0#3 ++ 0#3 ++ 0xFFFFF#20) = some (.br false 0xFFFFF) ∧
  -- shape M, `ld.w v3, [s2 + v4!]`
  decodeWord (0#1 ++ 0x10#5 ++ 4#3 ++ 3#7 ++ 4#7 ++ 1#1 ++ 2#5 ++ 0#3) = some (.ldW false 3 4 true 2) ∧
  -- shape K, `waitc copy, 2`
  decodeWord (0#1 ++ 0x13#5 ++ 1#3 ++ 0#3 ++ 2#8 ++ 0#12) = some (.waitc false 0 2) ∧
  -- shape H, `nop`
  decodeWord (0#1 ++ 0x1F#5 ++ 0#4 ++ 0#22) = some (.nop false) ∧
  decodeWord 0 = none ∧
  decodeWord (0#1 ++ 0x0C#5 ++ 0#3 ++ 1#2 ++ 5#7 ++ 6#7 ++ 7#7) = none

/-- R274 to R294: the decoder and the encoder agree: a well-formed instruction with a word is read back from its word, with every operand,
and the word that is read as an instruction is that instruction's word. -/
def Obligations.DecodeEncode : Prop :=
  (∀ i : Instr, i.wf = true → i.isEvent = false → decodeWord (encode i) = some i) ∧
  (∀ (w : Word) (i : Instr), decodeWord w = some i → i.wf = true ∧ i.isEvent = false ∧ encode i = w) ∧
  ∀ (w : Word) (rest : List Byte), decodeBytes (bytesOfWord w ++ rest) = (decodeWord w).map fun i => (i, rest)

/-- R113, R119, R130, R294, R296, R397, R398, R401, log entry 2: a step runs the decoded instruction. The word at the address is that of the
instruction-cache line, which a fetch fills, or of the Ozyth core's private memory; when it decodes to an instruction, and no lane of the
issuing set owes a fault or fails the land check, the step is `exec` of that instruction at the state whose run is open, with the
bookkeeping of the issue slot around it; a word that decodes to none executes as the reserved encoding. Groups that gang (R128) have their
slots one after the other, in ascending group number (R192), but for one that an earlier member has stopped; while one of them waits at the word for
memory or for a release, the gang waits. Words that Table 17.16 fuses issue one after the other in one slot, unless one
of them would stall or fault (R296). With THROTTLE not 0, a slot is empty in which the partition would issue in more
than 8 − THROTTLE of eight (R401). An event of the agenda is `exec` of the event. Who gangs, and what a slot
leaves, are in part the model's choice (log entries 10, 11). -/
def Obligations.StepRunsDecoded : Prop :=
  ∀ (s : State) (ticks : Nat) (rest : List Agendum),
    let around := fun (o : Out) (f : State → State) => match o with
      | .next t => .next (f t).settle
      | .fault r => .fault r
      | .refused r => .refused r
    let start := ({ s with agenda := rest } : State).advance ticks
    (∀ i : Instr, s.agenda = ⟨ticks, .event i⟩ :: rest → i.isEvent = true → step s = around (exec i start) fun t => t) ∧
    (∀ (u : State) (va : Quad) (line : Memory) (attr : PacEntry), u.grp.oz = false → u.check va 2 = .ok attr →
      (u.core u.grp.core).icache.get? (icKey (u.asidOf u.grp) (va.toNat / 128)) = some line →
      u.fetchAt va = .word u (line.word (va.toNat % 128))) ∧
    (∀ (u : State) (va : Quad), u.grp.oz = true → isOzPrivate va = true → u.fetchAt va = .word u (u.ozMem.word (va.toNat - 0x0000E00000000000))) ∧
    let next := ({ start with fresh := start.fresh + 1 } : State)
    (∀ (x : State) (n gid : Nat) (w : Word) (u : State) (i : Instr),
      let slot := ({ x with cur := gid } : State).updGroup gid fun g => { g with lastIssue := n }
      let g := slot.grp
      let a := if g.runOpen then g.a else g.minPc
      let at_ := if g.runOpen then slot else slot.updGrp fun g => { g with a := g.minPc, e := g.openE g.minPc }
      g.block = .none → (g.runOpen = true ∨ slot.bpHit g g.minPc = false) → at_.fetchAt a = .word u w →
      let run := if g.runOpen then u else (if isLand w then u.updGrp fun h => { h with e := g.lanesAt a } else u).openRun
      run.grp.owing = [] → run.grp.landless w = [] → run.grp.e ≠ 0 →
      let goes := fun (e : Instr) =>
        (∀ t, exec e run = .next t → x.slotFor n gid = .next (t.afterIssue gid g)) ∧
        (x = next → n = start.fresh →
          ((∃ core part, s.agenda = ⟨ticks, .issue core part⟩ :: rest ∧ start.pkg.throttle = 0 ∧ start.gangOf gid = [gid] ∧ next.fuseLen gid = 1 ∧
              (start.favoured core part = none ∧ oldest (start.issuable core part) = some gid ∨
                start.favoured core part = some gid ∧
                  ∀ t, exec e run = .next t → ((t.afterIssue gid g).group gid).movedFrom (start.group gid) = true)) ∨
            s.agenda = ⟨ticks, .oz⟩ :: rest ∧ gid = ozGid ∧ start.ozReady = true ∧ start.irqDue = false ∧ start.oz.waiting = false) →
          step s = around (exec e run) fun t => t.afterIssue gid g)
      (decodeWord w = some i → goes i) ∧ (decodeWord w = none → goes (.reservedEncoding w))) ∧
    (∀ core part : Nat, s.agenda = ⟨ticks, .issue core part⟩ :: rest → start.pkg.throttle ≠ 0 →
      if 8 - start.pkg.throttle ≤ (start.recentSlots core part).count true then step s = .next (start.noteSlot core part false).settle
      else step s = around (start.openSlot core part) fun t => t.noteSlot core part (t.issuedIn start core part)) ∧
    (∀ (x : State) (core part gid : Nat), x.favoured core part = none → oldest (x.issuable core part) = some gid → x.gangOf gid = [gid] →
      x.openSlot core part = ({ x with fresh := x.fresh + 1 } : State).wordsFor x.fresh gid) ∧
    (∀ (core part gid : Nat), s.agenda = ⟨ticks, .issue core part⟩ :: rest → start.pkg.throttle = 0 → start.favoured core part = none →
      oldest (start.issuable core part) = some gid → 2 ≤ (start.gangOf gid).length →
      (next.gangWaits start.fresh (start.gangOf gid) = none →
        step s = around (next.gangSlots start.fresh (start.gangOf gid)) fun t => t.keepGang start.fresh (start.gangOf gid)) ∧
      ∀ t, next.gangWaits start.fresh (start.gangOf gid) = some t → step s = around (.next t) fun t => t) ∧
    ∀ (x t : State) (n gid : Nat), x.slotFor n gid = .next t →
      let goesOn := fun (u t : State) => (u.group gid).movedFrom (t.group gid) = true ∧
        (u.group gid).parked &&& ~~~(t.group gid).parked = 0 ∧ (u.group gid).inTrap &&& ~~~(t.group gid).inTrap = 0
      (x.fuseLen gid = 1 ∨ ¬ goesOn t x → x.wordsFor n gid = .next t) ∧
      (∀ k, x.fuseLen gid = k + 1 → goesOn t x → x.wordsFor n gid = .next ((t.fuseTail n gid k).getD t)) ∧
      t.fuseTail n gid 0 = some t ∧
      (∀ k u, t.slotFor n gid = .next u → t.fuseTail n gid (k + 1) = if goesOn u t then u.fuseTail n gid k else none) ∧
      x.gangSlots n [] = .next x ∧ x.gangWaits n [] = none ∧
      ∀ (u : State) (ms : List Nat), x.wordsFor n gid = .next u →
        let waits := (u.group gid).movedFrom (x.group gid) = false ∧ (u.due ≠ x.due ∨ (u.group gid).relWait ≠ none)
        (waits → x.gangWaits n (gid :: ms) = some u) ∧ (¬ waits → x.gangWaits n (gid :: ms) = x.gangWaits n ms) ∧
        (x.canIssue (x.group gid) = false → x.gangSlots n (gid :: ms) = x.gangSlots n ms) ∧
        (x.canIssue (x.group gid) = true → (waits → x.gangSlots n (gid :: ms) = .next u) ∧ (¬ waits → x.gangSlots n (gid :: ms) = u.gangSlots n ms))

/-- R11, R161, R177: every memory stays in its one canonical form through every step, whatever runs: addresses rise strictly, and no entry
is the value of an unlisted address. What an unlisted byte reads as is the model's choice (log entry 4). -/
def Obligations.MemoriesStayCanonical : Prop :=
  ∀ s t : State, s.memWf = true → stepsTo s t → t.memWf = true

/-- R23, R26, R66, R86, R166, R398, R422, Tables 1.4 to 1.6, 3.7, 4.8, 8.8, 12.8, 22.7, 22.9: what package reset leaves: MODE is 0x3120,
DUTY 0, the power state OFF with HOLD 10, the thermal thresholds 95 and 85, every other register of these tables 0, no context, grid, team,
command, ring or translation, the Ozyth core not running, and the memories in canonical form. The clauses on REJECT and on the running of
the image rest on values that the model chose (log entry 3). -/
def Obligations.ResetValues : Prop :=
  let s := State.reset
  s.memWf = true ∧ s.pkg.mode = 0x3120 ∧ s.pkg.duty = 0 ∧ s.pkg.reject = false ∧ s.pkg.pwr = 0 ∧ s.pkg.step = 0 ∧ s.pkg.hold = 10 ∧ s.pkg.auto = false ∧
  s.pkg.thermHi = 95 ∧ s.pkg.thermLo = 85 ∧ s.pkg.throttle = 0 ∧ s.pkg.id = 0 ∧ s.pkg.kvTbl = 0 ∧ s.pkg.pfxTbl = 0 ∧
  s.pkg.saveBase = 0 ∧ s.pkg.saveLen = 0 ∧ s.pkg.boCount = 0 ∧ s.kvAudit = (0, 0) ∧ s.pfxStat = (0, 0) ∧
  (∀ n, (s.ctx n).live = false ∧ (s.ctx n).fault = (0, 0, false, 0) ∧ (s.ctx n).ferrStat = 0 ∧ (s.ctx n).kva = 0) ∧
  (∀ n, (s.stack n).nextRow.getD 0 0 = 0 ∧ (s.stack n).hot = false ∧ (s.stack n).nbrSeed = 1 ∧ (s.stack n).regions = []) ∧
  (∀ n, (s.port n).up = false ∧ (s.port n).down = false) ∧
  (∀ c, (s.core c).dbgStat = (0, 0, 0) ∧ (s.core c).tasks = [] ∧ (s.core c).abuf = [] ∧ (s.core c).l1 = []) ∧
  s.oz.vbase = 0 ∧ s.oz.ien = 0 ∧ s.oz.ipend = 0 ∧ s.oz.epc = 0 ∧ s.oz.icause = 0 ∧ s.oz.ctx = 0 ∧ s.oz.tcmp = 0 ∧ s.oz.running = false ∧
  s.grids = [] ∧ s.teams = [] ∧ s.cmds = [] ∧ s.rings = [] ∧ s.tlb = [] ∧ s.arf = [] ∧ s.l2 = []
end

