-- ==== Sys2Proof/Laws/State.lean ====
section
/-! SUPPORT. Laws of the state's named updates: one lemma for each field that an update leaves alone, and what it does to the one that it
changes. -/

namespace Sys2Proof.Machine

variable (s : State)

/-! ### `setGrp` -/

@[simp] theorem State.setGrp_pkg (g : Group) : (s.setGrp g).pkg = s.pkg := rfl
@[simp] theorem State.setGrp_cur (g : Group) : (s.setGrp g).cur = s.cur := rfl
@[simp] theorem State.setGrp_teams (g : Group) : (s.setGrp g).teams = s.teams := rfl
@[simp] theorem State.setGrp_grids (g : Group) : (s.setGrp g).grids = s.grids := rfl
@[simp] theorem State.setGrp_cmds (g : Group) : (s.setGrp g).cmds = s.cmds := rfl
@[simp] theorem State.setGrp_cores (g : Group) : (s.setGrp g).cores = s.cores := rfl
@[simp] theorem State.setGrp_ctxs (g : Group) : (s.setGrp g).ctxs = s.ctxs := rfl
@[simp] theorem State.setGrp_oz (g : Group) : (s.setGrp g).oz = s.oz := rfl
@[simp] theorem State.setGrp_mem (g : Group) : (s.setGrp g).mem = s.mem := rfl
@[simp] theorem State.setGrp_poison (g : Group) : (s.setGrp g).poison = s.poison := rfl
@[simp] theorem State.setGrp_peerMem (g : Group) : (s.setGrp g).peerMem = s.peerMem := rfl
@[simp] theorem State.setGrp_peerPoison (g : Group) : (s.setGrp g).peerPoison = s.peerPoison := rfl
@[simp] theorem State.setGrp_ozMem (g : Group) : (s.setGrp g).ozMem = s.ozMem := rfl
@[simp] theorem State.setGrp_hostMem (g : Group) : (s.setGrp g).hostMem = s.hostMem := rfl
@[simp] theorem State.setGrp_host (g : Group) : (s.setGrp g).host = s.host := rfl
@[simp] theorem State.setGrp_dram (g : Group) : (s.setGrp g).dram = s.dram := rfl
@[simp] theorem State.setGrp_eccErr (g : Group) : (s.setGrp g).eccErr = s.eccErr := rfl
@[simp] theorem State.setGrp_l2 (g : Group) : (s.setGrp g).l2 = s.l2 := rfl
@[simp] theorem State.setGrp_tlb (g : Group) : (s.setGrp g).tlb = s.tlb := rfl
@[simp] theorem State.setGrp_rmap (g : Group) : (s.setGrp g).rmap = s.rmap := rfl
@[simp] theorem State.setGrp_hostWalks (g : Group) : (s.setGrp g).hostWalks = s.hostWalks := rfl
@[simp] theorem State.setGrp_lightSvcs (g : Group) : (s.setGrp g).lightSvcs = s.lightSvcs := rfl
@[simp] theorem State.setGrp_migHeat (g : Group) : (s.setGrp g).migHeat = s.migHeat := rfl
@[simp] theorem State.setGrp_migrs (g : Group) : (s.setGrp g).migrs = s.migrs := rfl
@[simp] theorem State.setGrp_freeFrames (g : Group) : (s.setGrp g).freeFrames = s.freeFrames := rfl
@[simp] theorem State.setGrp_migStat (g : Group) : (s.setGrp g).migStat = s.migStat := rfl
@[simp] theorem State.setGrp_migAbort (g : Group) : (s.setGrp g).migAbort = s.migAbort := rfl
@[simp] theorem State.setGrp_migSeq (g : Group) : (s.setGrp g).migSeq = s.migSeq := rfl
@[simp] theorem State.setGrp_ports (g : Group) : (s.setGrp g).ports = s.ports := rfl
@[simp] theorem State.setGrp_updates (g : Group) : (s.setGrp g).updates = s.updates := rfl
@[simp] theorem State.setGrp_stores (g : Group) : (s.setGrp g).stores = s.stores := rfl
@[simp] theorem State.setGrp_bankq (g : Group) : (s.setGrp g).bankq = s.bankq := rfl
@[simp] theorem State.setGrp_bankMsgs (g : Group) : (s.setGrp g).bankMsgs = s.bankMsgs := rfl
@[simp] theorem State.setGrp_arf (g : Group) : (s.setGrp g).arf = s.arf := rfl
@[simp] theorem State.setGrp_msc (g : Group) : (s.setGrp g).msc = s.msc := rfl
@[simp] theorem State.setGrp_mscStat (g : Group) : (s.setGrp g).mscStat = s.mscStat := rfl
@[simp] theorem State.setGrp_rounds (g : Group) : (s.setGrp g).rounds = s.rounds := rfl
@[simp] theorem State.setGrp_roundStall (g : Group) : (s.setGrp g).roundStall = s.roundStall := rfl
@[simp] theorem State.setGrp_pushes (g : Group) : (s.setGrp g).pushes = s.pushes := rfl
@[simp] theorem State.setGrp_sliceq (g : Group) : (s.setGrp g).sliceq = s.sliceq := rfl
@[simp] theorem State.setGrp_insertions (g : Group) : (s.setGrp g).insertions = s.insertions := rfl
@[simp] theorem State.setGrp_freedPages (g : Group) : (s.setGrp g).freedPages = s.freedPages := rfl
@[simp] theorem State.setGrp_kvAudit (g : Group) : (s.setGrp g).kvAudit = s.kvAudit := rfl
@[simp] theorem State.setGrp_pfxStat (g : Group) : (s.setGrp g).pfxStat = s.pfxStat := rfl
@[simp] theorem State.setGrp_rings (g : Group) : (s.setGrp g).rings = s.rings := rfl
@[simp] theorem State.setGrp_stamps (g : Group) : (s.setGrp g).stamps = s.stamps := rfl
@[simp] theorem State.setGrp_due (g : Group) : (s.setGrp g).due = s.due := rfl
@[simp] theorem State.setGrp_agenda (g : Group) : (s.setGrp g).agenda = s.agenda := rfl
@[simp] theorem State.setGrp_free (g : Group) : (s.setGrp g).free = s.free := rfl
@[simp] theorem State.setGrp_fresh (g : Group) : (s.setGrp g).fresh = s.fresh := rfl

/-! ### `updGrp` -/

@[simp] theorem State.updGrp_pkg (f : Group → Group) : (s.updGrp f).pkg = s.pkg := rfl
@[simp] theorem State.updGrp_cur (f : Group → Group) : (s.updGrp f).cur = s.cur := rfl
@[simp] theorem State.updGrp_teams (f : Group → Group) : (s.updGrp f).teams = s.teams := rfl
@[simp] theorem State.updGrp_grids (f : Group → Group) : (s.updGrp f).grids = s.grids := rfl
@[simp] theorem State.updGrp_cmds (f : Group → Group) : (s.updGrp f).cmds = s.cmds := rfl
@[simp] theorem State.updGrp_cores (f : Group → Group) : (s.updGrp f).cores = s.cores := rfl
@[simp] theorem State.updGrp_ctxs (f : Group → Group) : (s.updGrp f).ctxs = s.ctxs := rfl
@[simp] theorem State.updGrp_oz (f : Group → Group) : (s.updGrp f).oz = s.oz := rfl
@[simp] theorem State.updGrp_mem (f : Group → Group) : (s.updGrp f).mem = s.mem := rfl
@[simp] theorem State.updGrp_poison (f : Group → Group) : (s.updGrp f).poison = s.poison := rfl
@[simp] theorem State.updGrp_peerMem (f : Group → Group) : (s.updGrp f).peerMem = s.peerMem := rfl
@[simp] theorem State.updGrp_peerPoison (f : Group → Group) : (s.updGrp f).peerPoison = s.peerPoison := rfl
@[simp] theorem State.updGrp_ozMem (f : Group → Group) : (s.updGrp f).ozMem = s.ozMem := rfl
@[simp] theorem State.updGrp_hostMem (f : Group → Group) : (s.updGrp f).hostMem = s.hostMem := rfl
@[simp] theorem State.updGrp_host (f : Group → Group) : (s.updGrp f).host = s.host := rfl
@[simp] theorem State.updGrp_dram (f : Group → Group) : (s.updGrp f).dram = s.dram := rfl
@[simp] theorem State.updGrp_eccErr (f : Group → Group) : (s.updGrp f).eccErr = s.eccErr := rfl
@[simp] theorem State.updGrp_l2 (f : Group → Group) : (s.updGrp f).l2 = s.l2 := rfl
@[simp] theorem State.updGrp_tlb (f : Group → Group) : (s.updGrp f).tlb = s.tlb := rfl
@[simp] theorem State.updGrp_rmap (f : Group → Group) : (s.updGrp f).rmap = s.rmap := rfl
@[simp] theorem State.updGrp_hostWalks (f : Group → Group) : (s.updGrp f).hostWalks = s.hostWalks := rfl
@[simp] theorem State.updGrp_lightSvcs (f : Group → Group) : (s.updGrp f).lightSvcs = s.lightSvcs := rfl
@[simp] theorem State.updGrp_migHeat (f : Group → Group) : (s.updGrp f).migHeat = s.migHeat := rfl
@[simp] theorem State.updGrp_migrs (f : Group → Group) : (s.updGrp f).migrs = s.migrs := rfl
@[simp] theorem State.updGrp_freeFrames (f : Group → Group) : (s.updGrp f).freeFrames = s.freeFrames := rfl
@[simp] theorem State.updGrp_migStat (f : Group → Group) : (s.updGrp f).migStat = s.migStat := rfl
@[simp] theorem State.updGrp_migAbort (f : Group → Group) : (s.updGrp f).migAbort = s.migAbort := rfl
@[simp] theorem State.updGrp_migSeq (f : Group → Group) : (s.updGrp f).migSeq = s.migSeq := rfl
@[simp] theorem State.updGrp_ports (f : Group → Group) : (s.updGrp f).ports = s.ports := rfl
@[simp] theorem State.updGrp_updates (f : Group → Group) : (s.updGrp f).updates = s.updates := rfl
@[simp] theorem State.updGrp_stores (f : Group → Group) : (s.updGrp f).stores = s.stores := rfl
@[simp] theorem State.updGrp_bankq (f : Group → Group) : (s.updGrp f).bankq = s.bankq := rfl
@[simp] theorem State.updGrp_bankMsgs (f : Group → Group) : (s.updGrp f).bankMsgs = s.bankMsgs := rfl
@[simp] theorem State.updGrp_arf (f : Group → Group) : (s.updGrp f).arf = s.arf := rfl
@[simp] theorem State.updGrp_msc (f : Group → Group) : (s.updGrp f).msc = s.msc := rfl
@[simp] theorem State.updGrp_mscStat (f : Group → Group) : (s.updGrp f).mscStat = s.mscStat := rfl
@[simp] theorem State.updGrp_rounds (f : Group → Group) : (s.updGrp f).rounds = s.rounds := rfl
@[simp] theorem State.updGrp_roundStall (f : Group → Group) : (s.updGrp f).roundStall = s.roundStall := rfl
@[simp] theorem State.updGrp_pushes (f : Group → Group) : (s.updGrp f).pushes = s.pushes := rfl
@[simp] theorem State.updGrp_sliceq (f : Group → Group) : (s.updGrp f).sliceq = s.sliceq := rfl
@[simp] theorem State.updGrp_insertions (f : Group → Group) : (s.updGrp f).insertions = s.insertions := rfl
@[simp] theorem State.updGrp_freedPages (f : Group → Group) : (s.updGrp f).freedPages = s.freedPages := rfl
@[simp] theorem State.updGrp_kvAudit (f : Group → Group) : (s.updGrp f).kvAudit = s.kvAudit := rfl
@[simp] theorem State.updGrp_pfxStat (f : Group → Group) : (s.updGrp f).pfxStat = s.pfxStat := rfl
@[simp] theorem State.updGrp_rings (f : Group → Group) : (s.updGrp f).rings = s.rings := rfl
@[simp] theorem State.updGrp_stamps (f : Group → Group) : (s.updGrp f).stamps = s.stamps := rfl
@[simp] theorem State.updGrp_due (f : Group → Group) : (s.updGrp f).due = s.due := rfl
@[simp] theorem State.updGrp_agenda (f : Group → Group) : (s.updGrp f).agenda = s.agenda := rfl
@[simp] theorem State.updGrp_free (f : Group → Group) : (s.updGrp f).free = s.free := rfl
@[simp] theorem State.updGrp_fresh (f : Group → Group) : (s.updGrp f).fresh = s.fresh := rfl

/-! ### `updGroup` -/

@[simp] theorem State.updGroup_pkg (n : Nat) (f : Group → Group) : (s.updGroup n f).pkg = s.pkg := rfl
@[simp] theorem State.updGroup_cur (n : Nat) (f : Group → Group) : (s.updGroup n f).cur = s.cur := rfl
@[simp] theorem State.updGroup_teams (n : Nat) (f : Group → Group) : (s.updGroup n f).teams = s.teams := rfl
@[simp] theorem State.updGroup_grids (n : Nat) (f : Group → Group) : (s.updGroup n f).grids = s.grids := rfl
@[simp] theorem State.updGroup_cmds (n : Nat) (f : Group → Group) : (s.updGroup n f).cmds = s.cmds := rfl
@[simp] theorem State.updGroup_cores (n : Nat) (f : Group → Group) : (s.updGroup n f).cores = s.cores := rfl
@[simp] theorem State.updGroup_ctxs (n : Nat) (f : Group → Group) : (s.updGroup n f).ctxs = s.ctxs := rfl
@[simp] theorem State.updGroup_oz (n : Nat) (f : Group → Group) : (s.updGroup n f).oz = s.oz := rfl
@[simp] theorem State.updGroup_mem (n : Nat) (f : Group → Group) : (s.updGroup n f).mem = s.mem := rfl
@[simp] theorem State.updGroup_poison (n : Nat) (f : Group → Group) : (s.updGroup n f).poison = s.poison := rfl
@[simp] theorem State.updGroup_peerMem (n : Nat) (f : Group → Group) : (s.updGroup n f).peerMem = s.peerMem := rfl
@[simp] theorem State.updGroup_peerPoison (n : Nat) (f : Group → Group) : (s.updGroup n f).peerPoison = s.peerPoison := rfl
@[simp] theorem State.updGroup_ozMem (n : Nat) (f : Group → Group) : (s.updGroup n f).ozMem = s.ozMem := rfl
@[simp] theorem State.updGroup_hostMem (n : Nat) (f : Group → Group) : (s.updGroup n f).hostMem = s.hostMem := rfl
@[simp] theorem State.updGroup_host (n : Nat) (f : Group → Group) : (s.updGroup n f).host = s.host := rfl
@[simp] theorem State.updGroup_dram (n : Nat) (f : Group → Group) : (s.updGroup n f).dram = s.dram := rfl
@[simp] theorem State.updGroup_eccErr (n : Nat) (f : Group → Group) : (s.updGroup n f).eccErr = s.eccErr := rfl
@[simp] theorem State.updGroup_l2 (n : Nat) (f : Group → Group) : (s.updGroup n f).l2 = s.l2 := rfl
@[simp] theorem State.updGroup_tlb (n : Nat) (f : Group → Group) : (s.updGroup n f).tlb = s.tlb := rfl
@[simp] theorem State.updGroup_rmap (n : Nat) (f : Group → Group) : (s.updGroup n f).rmap = s.rmap := rfl
@[simp] theorem State.updGroup_hostWalks (n : Nat) (f : Group → Group) : (s.updGroup n f).hostWalks = s.hostWalks := rfl
@[simp] theorem State.updGroup_lightSvcs (n : Nat) (f : Group → Group) : (s.updGroup n f).lightSvcs = s.lightSvcs := rfl
@[simp] theorem State.updGroup_migHeat (n : Nat) (f : Group → Group) : (s.updGroup n f).migHeat = s.migHeat := rfl
@[simp] theorem State.updGroup_migrs (n : Nat) (f : Group → Group) : (s.updGroup n f).migrs = s.migrs := rfl
@[simp] theorem State.updGroup_freeFrames (n : Nat) (f : Group → Group) : (s.updGroup n f).freeFrames = s.freeFrames := rfl
@[simp] theorem State.updGroup_migStat (n : Nat) (f : Group → Group) : (s.updGroup n f).migStat = s.migStat := rfl
@[simp] theorem State.updGroup_migAbort (n : Nat) (f : Group → Group) : (s.updGroup n f).migAbort = s.migAbort := rfl
@[simp] theorem State.updGroup_migSeq (n : Nat) (f : Group → Group) : (s.updGroup n f).migSeq = s.migSeq := rfl
@[simp] theorem State.updGroup_ports (n : Nat) (f : Group → Group) : (s.updGroup n f).ports = s.ports := rfl
@[simp] theorem State.updGroup_updates (n : Nat) (f : Group → Group) : (s.updGroup n f).updates = s.updates := rfl
@[simp] theorem State.updGroup_stores (n : Nat) (f : Group → Group) : (s.updGroup n f).stores = s.stores := rfl
@[simp] theorem State.updGroup_bankq (n : Nat) (f : Group → Group) : (s.updGroup n f).bankq = s.bankq := rfl
@[simp] theorem State.updGroup_bankMsgs (n : Nat) (f : Group → Group) : (s.updGroup n f).bankMsgs = s.bankMsgs := rfl
@[simp] theorem State.updGroup_arf (n : Nat) (f : Group → Group) : (s.updGroup n f).arf = s.arf := rfl
@[simp] theorem State.updGroup_msc (n : Nat) (f : Group → Group) : (s.updGroup n f).msc = s.msc := rfl
@[simp] theorem State.updGroup_mscStat (n : Nat) (f : Group → Group) : (s.updGroup n f).mscStat = s.mscStat := rfl
@[simp] theorem State.updGroup_rounds (n : Nat) (f : Group → Group) : (s.updGroup n f).rounds = s.rounds := rfl
@[simp] theorem State.updGroup_roundStall (n : Nat) (f : Group → Group) : (s.updGroup n f).roundStall = s.roundStall := rfl
@[simp] theorem State.updGroup_pushes (n : Nat) (f : Group → Group) : (s.updGroup n f).pushes = s.pushes := rfl
@[simp] theorem State.updGroup_sliceq (n : Nat) (f : Group → Group) : (s.updGroup n f).sliceq = s.sliceq := rfl
@[simp] theorem State.updGroup_insertions (n : Nat) (f : Group → Group) : (s.updGroup n f).insertions = s.insertions := rfl
@[simp] theorem State.updGroup_freedPages (n : Nat) (f : Group → Group) : (s.updGroup n f).freedPages = s.freedPages := rfl
@[simp] theorem State.updGroup_kvAudit (n : Nat) (f : Group → Group) : (s.updGroup n f).kvAudit = s.kvAudit := rfl
@[simp] theorem State.updGroup_pfxStat (n : Nat) (f : Group → Group) : (s.updGroup n f).pfxStat = s.pfxStat := rfl
@[simp] theorem State.updGroup_rings (n : Nat) (f : Group → Group) : (s.updGroup n f).rings = s.rings := rfl
@[simp] theorem State.updGroup_stamps (n : Nat) (f : Group → Group) : (s.updGroup n f).stamps = s.stamps := rfl
@[simp] theorem State.updGroup_due (n : Nat) (f : Group → Group) : (s.updGroup n f).due = s.due := rfl
@[simp] theorem State.updGroup_agenda (n : Nat) (f : Group → Group) : (s.updGroup n f).agenda = s.agenda := rfl
@[simp] theorem State.updGroup_free (n : Nat) (f : Group → Group) : (s.updGroup n f).free = s.free := rfl
@[simp] theorem State.updGroup_fresh (n : Nat) (f : Group → Group) : (s.updGroup n f).fresh = s.fresh := rfl

/-! ### `updCore` -/

@[simp] theorem State.updCore_pkg (n : Nat) (f : Core → Core) : (s.updCore n f).pkg = s.pkg := rfl
@[simp] theorem State.updCore_cur (n : Nat) (f : Core → Core) : (s.updCore n f).cur = s.cur := rfl
@[simp] theorem State.updCore_groups (n : Nat) (f : Core → Core) : (s.updCore n f).groups = s.groups := rfl
@[simp] theorem State.updCore_teams (n : Nat) (f : Core → Core) : (s.updCore n f).teams = s.teams := rfl
@[simp] theorem State.updCore_grids (n : Nat) (f : Core → Core) : (s.updCore n f).grids = s.grids := rfl
@[simp] theorem State.updCore_cmds (n : Nat) (f : Core → Core) : (s.updCore n f).cmds = s.cmds := rfl
@[simp] theorem State.updCore_ctxs (n : Nat) (f : Core → Core) : (s.updCore n f).ctxs = s.ctxs := rfl
@[simp] theorem State.updCore_oz (n : Nat) (f : Core → Core) : (s.updCore n f).oz = s.oz := rfl
@[simp] theorem State.updCore_mem (n : Nat) (f : Core → Core) : (s.updCore n f).mem = s.mem := rfl
@[simp] theorem State.updCore_poison (n : Nat) (f : Core → Core) : (s.updCore n f).poison = s.poison := rfl
@[simp] theorem State.updCore_peerMem (n : Nat) (f : Core → Core) : (s.updCore n f).peerMem = s.peerMem := rfl
@[simp] theorem State.updCore_peerPoison (n : Nat) (f : Core → Core) : (s.updCore n f).peerPoison = s.peerPoison := rfl
@[simp] theorem State.updCore_ozMem (n : Nat) (f : Core → Core) : (s.updCore n f).ozMem = s.ozMem := rfl
@[simp] theorem State.updCore_hostMem (n : Nat) (f : Core → Core) : (s.updCore n f).hostMem = s.hostMem := rfl
@[simp] theorem State.updCore_host (n : Nat) (f : Core → Core) : (s.updCore n f).host = s.host := rfl
@[simp] theorem State.updCore_dram (n : Nat) (f : Core → Core) : (s.updCore n f).dram = s.dram := rfl
@[simp] theorem State.updCore_eccErr (n : Nat) (f : Core → Core) : (s.updCore n f).eccErr = s.eccErr := rfl
@[simp] theorem State.updCore_l2 (n : Nat) (f : Core → Core) : (s.updCore n f).l2 = s.l2 := rfl
@[simp] theorem State.updCore_tlb (n : Nat) (f : Core → Core) : (s.updCore n f).tlb = s.tlb := rfl
@[simp] theorem State.updCore_rmap (n : Nat) (f : Core → Core) : (s.updCore n f).rmap = s.rmap := rfl
@[simp] theorem State.updCore_hostWalks (n : Nat) (f : Core → Core) : (s.updCore n f).hostWalks = s.hostWalks := rfl
@[simp] theorem State.updCore_lightSvcs (n : Nat) (f : Core → Core) : (s.updCore n f).lightSvcs = s.lightSvcs := rfl
@[simp] theorem State.updCore_migHeat (n : Nat) (f : Core → Core) : (s.updCore n f).migHeat = s.migHeat := rfl
@[simp] theorem State.updCore_migrs (n : Nat) (f : Core → Core) : (s.updCore n f).migrs = s.migrs := rfl
@[simp] theorem State.updCore_freeFrames (n : Nat) (f : Core → Core) : (s.updCore n f).freeFrames = s.freeFrames := rfl
@[simp] theorem State.updCore_migStat (n : Nat) (f : Core → Core) : (s.updCore n f).migStat = s.migStat := rfl
@[simp] theorem State.updCore_migAbort (n : Nat) (f : Core → Core) : (s.updCore n f).migAbort = s.migAbort := rfl
@[simp] theorem State.updCore_migSeq (n : Nat) (f : Core → Core) : (s.updCore n f).migSeq = s.migSeq := rfl
@[simp] theorem State.updCore_ports (n : Nat) (f : Core → Core) : (s.updCore n f).ports = s.ports := rfl
@[simp] theorem State.updCore_updates (n : Nat) (f : Core → Core) : (s.updCore n f).updates = s.updates := rfl
@[simp] theorem State.updCore_stores (n : Nat) (f : Core → Core) : (s.updCore n f).stores = s.stores := rfl
@[simp] theorem State.updCore_bankq (n : Nat) (f : Core → Core) : (s.updCore n f).bankq = s.bankq := rfl
@[simp] theorem State.updCore_bankMsgs (n : Nat) (f : Core → Core) : (s.updCore n f).bankMsgs = s.bankMsgs := rfl
@[simp] theorem State.updCore_arf (n : Nat) (f : Core → Core) : (s.updCore n f).arf = s.arf := rfl
@[simp] theorem State.updCore_msc (n : Nat) (f : Core → Core) : (s.updCore n f).msc = s.msc := rfl
@[simp] theorem State.updCore_mscStat (n : Nat) (f : Core → Core) : (s.updCore n f).mscStat = s.mscStat := rfl
@[simp] theorem State.updCore_rounds (n : Nat) (f : Core → Core) : (s.updCore n f).rounds = s.rounds := rfl
@[simp] theorem State.updCore_roundStall (n : Nat) (f : Core → Core) : (s.updCore n f).roundStall = s.roundStall := rfl
@[simp] theorem State.updCore_pushes (n : Nat) (f : Core → Core) : (s.updCore n f).pushes = s.pushes := rfl
@[simp] theorem State.updCore_sliceq (n : Nat) (f : Core → Core) : (s.updCore n f).sliceq = s.sliceq := rfl
@[simp] theorem State.updCore_insertions (n : Nat) (f : Core → Core) : (s.updCore n f).insertions = s.insertions := rfl
@[simp] theorem State.updCore_freedPages (n : Nat) (f : Core → Core) : (s.updCore n f).freedPages = s.freedPages := rfl
@[simp] theorem State.updCore_kvAudit (n : Nat) (f : Core → Core) : (s.updCore n f).kvAudit = s.kvAudit := rfl
@[simp] theorem State.updCore_pfxStat (n : Nat) (f : Core → Core) : (s.updCore n f).pfxStat = s.pfxStat := rfl
@[simp] theorem State.updCore_rings (n : Nat) (f : Core → Core) : (s.updCore n f).rings = s.rings := rfl
@[simp] theorem State.updCore_stamps (n : Nat) (f : Core → Core) : (s.updCore n f).stamps = s.stamps := rfl
@[simp] theorem State.updCore_due (n : Nat) (f : Core → Core) : (s.updCore n f).due = s.due := rfl
@[simp] theorem State.updCore_agenda (n : Nat) (f : Core → Core) : (s.updCore n f).agenda = s.agenda := rfl
@[simp] theorem State.updCore_free (n : Nat) (f : Core → Core) : (s.updCore n f).free = s.free := rfl
@[simp] theorem State.updCore_fresh (n : Nat) (f : Core → Core) : (s.updCore n f).fresh = s.fresh := rfl

/-! ### `updTeam` -/

@[simp] theorem State.updTeam_pkg (n : Nat) (f : Team → Team) : (s.updTeam n f).pkg = s.pkg := rfl
@[simp] theorem State.updTeam_cur (n : Nat) (f : Team → Team) : (s.updTeam n f).cur = s.cur := rfl
@[simp] theorem State.updTeam_groups (n : Nat) (f : Team → Team) : (s.updTeam n f).groups = s.groups := rfl
@[simp] theorem State.updTeam_grids (n : Nat) (f : Team → Team) : (s.updTeam n f).grids = s.grids := rfl
@[simp] theorem State.updTeam_cmds (n : Nat) (f : Team → Team) : (s.updTeam n f).cmds = s.cmds := rfl
@[simp] theorem State.updTeam_cores (n : Nat) (f : Team → Team) : (s.updTeam n f).cores = s.cores := rfl
@[simp] theorem State.updTeam_ctxs (n : Nat) (f : Team → Team) : (s.updTeam n f).ctxs = s.ctxs := rfl
@[simp] theorem State.updTeam_oz (n : Nat) (f : Team → Team) : (s.updTeam n f).oz = s.oz := rfl
@[simp] theorem State.updTeam_mem (n : Nat) (f : Team → Team) : (s.updTeam n f).mem = s.mem := rfl
@[simp] theorem State.updTeam_poison (n : Nat) (f : Team → Team) : (s.updTeam n f).poison = s.poison := rfl
@[simp] theorem State.updTeam_peerMem (n : Nat) (f : Team → Team) : (s.updTeam n f).peerMem = s.peerMem := rfl
@[simp] theorem State.updTeam_peerPoison (n : Nat) (f : Team → Team) : (s.updTeam n f).peerPoison = s.peerPoison := rfl
@[simp] theorem State.updTeam_ozMem (n : Nat) (f : Team → Team) : (s.updTeam n f).ozMem = s.ozMem := rfl
@[simp] theorem State.updTeam_hostMem (n : Nat) (f : Team → Team) : (s.updTeam n f).hostMem = s.hostMem := rfl
@[simp] theorem State.updTeam_host (n : Nat) (f : Team → Team) : (s.updTeam n f).host = s.host := rfl
@[simp] theorem State.updTeam_dram (n : Nat) (f : Team → Team) : (s.updTeam n f).dram = s.dram := rfl
@[simp] theorem State.updTeam_eccErr (n : Nat) (f : Team → Team) : (s.updTeam n f).eccErr = s.eccErr := rfl
@[simp] theorem State.updTeam_l2 (n : Nat) (f : Team → Team) : (s.updTeam n f).l2 = s.l2 := rfl
@[simp] theorem State.updTeam_tlb (n : Nat) (f : Team → Team) : (s.updTeam n f).tlb = s.tlb := rfl
@[simp] theorem State.updTeam_rmap (n : Nat) (f : Team → Team) : (s.updTeam n f).rmap = s.rmap := rfl
@[simp] theorem State.updTeam_hostWalks (n : Nat) (f : Team → Team) : (s.updTeam n f).hostWalks = s.hostWalks := rfl
@[simp] theorem State.updTeam_lightSvcs (n : Nat) (f : Team → Team) : (s.updTeam n f).lightSvcs = s.lightSvcs := rfl
@[simp] theorem State.updTeam_migHeat (n : Nat) (f : Team → Team) : (s.updTeam n f).migHeat = s.migHeat := rfl
@[simp] theorem State.updTeam_migrs (n : Nat) (f : Team → Team) : (s.updTeam n f).migrs = s.migrs := rfl
@[simp] theorem State.updTeam_freeFrames (n : Nat) (f : Team → Team) : (s.updTeam n f).freeFrames = s.freeFrames := rfl
@[simp] theorem State.updTeam_migStat (n : Nat) (f : Team → Team) : (s.updTeam n f).migStat = s.migStat := rfl
@[simp] theorem State.updTeam_migAbort (n : Nat) (f : Team → Team) : (s.updTeam n f).migAbort = s.migAbort := rfl
@[simp] theorem State.updTeam_migSeq (n : Nat) (f : Team → Team) : (s.updTeam n f).migSeq = s.migSeq := rfl
@[simp] theorem State.updTeam_ports (n : Nat) (f : Team → Team) : (s.updTeam n f).ports = s.ports := rfl
@[simp] theorem State.updTeam_updates (n : Nat) (f : Team → Team) : (s.updTeam n f).updates = s.updates := rfl
@[simp] theorem State.updTeam_stores (n : Nat) (f : Team → Team) : (s.updTeam n f).stores = s.stores := rfl
@[simp] theorem State.updTeam_bankq (n : Nat) (f : Team → Team) : (s.updTeam n f).bankq = s.bankq := rfl
@[simp] theorem State.updTeam_bankMsgs (n : Nat) (f : Team → Team) : (s.updTeam n f).bankMsgs = s.bankMsgs := rfl
@[simp] theorem State.updTeam_arf (n : Nat) (f : Team → Team) : (s.updTeam n f).arf = s.arf := rfl
@[simp] theorem State.updTeam_msc (n : Nat) (f : Team → Team) : (s.updTeam n f).msc = s.msc := rfl
@[simp] theorem State.updTeam_mscStat (n : Nat) (f : Team → Team) : (s.updTeam n f).mscStat = s.mscStat := rfl
@[simp] theorem State.updTeam_rounds (n : Nat) (f : Team → Team) : (s.updTeam n f).rounds = s.rounds := rfl
@[simp] theorem State.updTeam_roundStall (n : Nat) (f : Team → Team) : (s.updTeam n f).roundStall = s.roundStall := rfl
@[simp] theorem State.updTeam_pushes (n : Nat) (f : Team → Team) : (s.updTeam n f).pushes = s.pushes := rfl
@[simp] theorem State.updTeam_sliceq (n : Nat) (f : Team → Team) : (s.updTeam n f).sliceq = s.sliceq := rfl
@[simp] theorem State.updTeam_insertions (n : Nat) (f : Team → Team) : (s.updTeam n f).insertions = s.insertions := rfl
@[simp] theorem State.updTeam_freedPages (n : Nat) (f : Team → Team) : (s.updTeam n f).freedPages = s.freedPages := rfl
@[simp] theorem State.updTeam_kvAudit (n : Nat) (f : Team → Team) : (s.updTeam n f).kvAudit = s.kvAudit := rfl
@[simp] theorem State.updTeam_pfxStat (n : Nat) (f : Team → Team) : (s.updTeam n f).pfxStat = s.pfxStat := rfl
@[simp] theorem State.updTeam_rings (n : Nat) (f : Team → Team) : (s.updTeam n f).rings = s.rings := rfl
@[simp] theorem State.updTeam_stamps (n : Nat) (f : Team → Team) : (s.updTeam n f).stamps = s.stamps := rfl
@[simp] theorem State.updTeam_due (n : Nat) (f : Team → Team) : (s.updTeam n f).due = s.due := rfl
@[simp] theorem State.updTeam_agenda (n : Nat) (f : Team → Team) : (s.updTeam n f).agenda = s.agenda := rfl
@[simp] theorem State.updTeam_free (n : Nat) (f : Team → Team) : (s.updTeam n f).free = s.free := rfl
@[simp] theorem State.updTeam_fresh (n : Nat) (f : Team → Team) : (s.updTeam n f).fresh = s.fresh := rfl

/-! ### `updGrid` -/

@[simp] theorem State.updGrid_pkg (n : Nat) (f : Grid → Grid) : (s.updGrid n f).pkg = s.pkg := rfl
@[simp] theorem State.updGrid_cur (n : Nat) (f : Grid → Grid) : (s.updGrid n f).cur = s.cur := rfl
@[simp] theorem State.updGrid_groups (n : Nat) (f : Grid → Grid) : (s.updGrid n f).groups = s.groups := rfl
@[simp] theorem State.updGrid_teams (n : Nat) (f : Grid → Grid) : (s.updGrid n f).teams = s.teams := rfl
@[simp] theorem State.updGrid_cmds (n : Nat) (f : Grid → Grid) : (s.updGrid n f).cmds = s.cmds := rfl
@[simp] theorem State.updGrid_cores (n : Nat) (f : Grid → Grid) : (s.updGrid n f).cores = s.cores := rfl
@[simp] theorem State.updGrid_ctxs (n : Nat) (f : Grid → Grid) : (s.updGrid n f).ctxs = s.ctxs := rfl
@[simp] theorem State.updGrid_oz (n : Nat) (f : Grid → Grid) : (s.updGrid n f).oz = s.oz := rfl
@[simp] theorem State.updGrid_mem (n : Nat) (f : Grid → Grid) : (s.updGrid n f).mem = s.mem := rfl
@[simp] theorem State.updGrid_poison (n : Nat) (f : Grid → Grid) : (s.updGrid n f).poison = s.poison := rfl
@[simp] theorem State.updGrid_peerMem (n : Nat) (f : Grid → Grid) : (s.updGrid n f).peerMem = s.peerMem := rfl
@[simp] theorem State.updGrid_peerPoison (n : Nat) (f : Grid → Grid) : (s.updGrid n f).peerPoison = s.peerPoison := rfl
@[simp] theorem State.updGrid_ozMem (n : Nat) (f : Grid → Grid) : (s.updGrid n f).ozMem = s.ozMem := rfl
@[simp] theorem State.updGrid_hostMem (n : Nat) (f : Grid → Grid) : (s.updGrid n f).hostMem = s.hostMem := rfl
@[simp] theorem State.updGrid_host (n : Nat) (f : Grid → Grid) : (s.updGrid n f).host = s.host := rfl
@[simp] theorem State.updGrid_dram (n : Nat) (f : Grid → Grid) : (s.updGrid n f).dram = s.dram := rfl
@[simp] theorem State.updGrid_eccErr (n : Nat) (f : Grid → Grid) : (s.updGrid n f).eccErr = s.eccErr := rfl
@[simp] theorem State.updGrid_l2 (n : Nat) (f : Grid → Grid) : (s.updGrid n f).l2 = s.l2 := rfl
@[simp] theorem State.updGrid_tlb (n : Nat) (f : Grid → Grid) : (s.updGrid n f).tlb = s.tlb := rfl
@[simp] theorem State.updGrid_rmap (n : Nat) (f : Grid → Grid) : (s.updGrid n f).rmap = s.rmap := rfl
@[simp] theorem State.updGrid_hostWalks (n : Nat) (f : Grid → Grid) : (s.updGrid n f).hostWalks = s.hostWalks := rfl
@[simp] theorem State.updGrid_lightSvcs (n : Nat) (f : Grid → Grid) : (s.updGrid n f).lightSvcs = s.lightSvcs := rfl
@[simp] theorem State.updGrid_migHeat (n : Nat) (f : Grid → Grid) : (s.updGrid n f).migHeat = s.migHeat := rfl
@[simp] theorem State.updGrid_migrs (n : Nat) (f : Grid → Grid) : (s.updGrid n f).migrs = s.migrs := rfl
@[simp] theorem State.updGrid_freeFrames (n : Nat) (f : Grid → Grid) : (s.updGrid n f).freeFrames = s.freeFrames := rfl
@[simp] theorem State.updGrid_migStat (n : Nat) (f : Grid → Grid) : (s.updGrid n f).migStat = s.migStat := rfl
@[simp] theorem State.updGrid_migAbort (n : Nat) (f : Grid → Grid) : (s.updGrid n f).migAbort = s.migAbort := rfl
@[simp] theorem State.updGrid_migSeq (n : Nat) (f : Grid → Grid) : (s.updGrid n f).migSeq = s.migSeq := rfl
@[simp] theorem State.updGrid_ports (n : Nat) (f : Grid → Grid) : (s.updGrid n f).ports = s.ports := rfl
@[simp] theorem State.updGrid_updates (n : Nat) (f : Grid → Grid) : (s.updGrid n f).updates = s.updates := rfl
@[simp] theorem State.updGrid_stores (n : Nat) (f : Grid → Grid) : (s.updGrid n f).stores = s.stores := rfl
@[simp] theorem State.updGrid_bankq (n : Nat) (f : Grid → Grid) : (s.updGrid n f).bankq = s.bankq := rfl
@[simp] theorem State.updGrid_bankMsgs (n : Nat) (f : Grid → Grid) : (s.updGrid n f).bankMsgs = s.bankMsgs := rfl
@[simp] theorem State.updGrid_arf (n : Nat) (f : Grid → Grid) : (s.updGrid n f).arf = s.arf := rfl
@[simp] theorem State.updGrid_msc (n : Nat) (f : Grid → Grid) : (s.updGrid n f).msc = s.msc := rfl
@[simp] theorem State.updGrid_mscStat (n : Nat) (f : Grid → Grid) : (s.updGrid n f).mscStat = s.mscStat := rfl
@[simp] theorem State.updGrid_rounds (n : Nat) (f : Grid → Grid) : (s.updGrid n f).rounds = s.rounds := rfl
@[simp] theorem State.updGrid_roundStall (n : Nat) (f : Grid → Grid) : (s.updGrid n f).roundStall = s.roundStall := rfl
@[simp] theorem State.updGrid_pushes (n : Nat) (f : Grid → Grid) : (s.updGrid n f).pushes = s.pushes := rfl
@[simp] theorem State.updGrid_sliceq (n : Nat) (f : Grid → Grid) : (s.updGrid n f).sliceq = s.sliceq := rfl
@[simp] theorem State.updGrid_insertions (n : Nat) (f : Grid → Grid) : (s.updGrid n f).insertions = s.insertions := rfl
@[simp] theorem State.updGrid_freedPages (n : Nat) (f : Grid → Grid) : (s.updGrid n f).freedPages = s.freedPages := rfl
@[simp] theorem State.updGrid_kvAudit (n : Nat) (f : Grid → Grid) : (s.updGrid n f).kvAudit = s.kvAudit := rfl
@[simp] theorem State.updGrid_pfxStat (n : Nat) (f : Grid → Grid) : (s.updGrid n f).pfxStat = s.pfxStat := rfl
@[simp] theorem State.updGrid_rings (n : Nat) (f : Grid → Grid) : (s.updGrid n f).rings = s.rings := rfl
@[simp] theorem State.updGrid_stamps (n : Nat) (f : Grid → Grid) : (s.updGrid n f).stamps = s.stamps := rfl
@[simp] theorem State.updGrid_due (n : Nat) (f : Grid → Grid) : (s.updGrid n f).due = s.due := rfl
@[simp] theorem State.updGrid_agenda (n : Nat) (f : Grid → Grid) : (s.updGrid n f).agenda = s.agenda := rfl
@[simp] theorem State.updGrid_free (n : Nat) (f : Grid → Grid) : (s.updGrid n f).free = s.free := rfl
@[simp] theorem State.updGrid_fresh (n : Nat) (f : Grid → Grid) : (s.updGrid n f).fresh = s.fresh := rfl

/-! ### `updCtx` -/

@[simp] theorem State.updCtx_pkg (n : Nat) (f : Ctx → Ctx) : (s.updCtx n f).pkg = s.pkg := rfl
@[simp] theorem State.updCtx_cur (n : Nat) (f : Ctx → Ctx) : (s.updCtx n f).cur = s.cur := rfl
@[simp] theorem State.updCtx_groups (n : Nat) (f : Ctx → Ctx) : (s.updCtx n f).groups = s.groups := rfl
@[simp] theorem State.updCtx_teams (n : Nat) (f : Ctx → Ctx) : (s.updCtx n f).teams = s.teams := rfl
@[simp] theorem State.updCtx_grids (n : Nat) (f : Ctx → Ctx) : (s.updCtx n f).grids = s.grids := rfl
@[simp] theorem State.updCtx_cmds (n : Nat) (f : Ctx → Ctx) : (s.updCtx n f).cmds = s.cmds := rfl
@[simp] theorem State.updCtx_cores (n : Nat) (f : Ctx → Ctx) : (s.updCtx n f).cores = s.cores := rfl
@[simp] theorem State.updCtx_oz (n : Nat) (f : Ctx → Ctx) : (s.updCtx n f).oz = s.oz := rfl
@[simp] theorem State.updCtx_mem (n : Nat) (f : Ctx → Ctx) : (s.updCtx n f).mem = s.mem := rfl
@[simp] theorem State.updCtx_poison (n : Nat) (f : Ctx → Ctx) : (s.updCtx n f).poison = s.poison := rfl
@[simp] theorem State.updCtx_peerMem (n : Nat) (f : Ctx → Ctx) : (s.updCtx n f).peerMem = s.peerMem := rfl
@[simp] theorem State.updCtx_peerPoison (n : Nat) (f : Ctx → Ctx) : (s.updCtx n f).peerPoison = s.peerPoison := rfl
@[simp] theorem State.updCtx_ozMem (n : Nat) (f : Ctx → Ctx) : (s.updCtx n f).ozMem = s.ozMem := rfl
@[simp] theorem State.updCtx_hostMem (n : Nat) (f : Ctx → Ctx) : (s.updCtx n f).hostMem = s.hostMem := rfl
@[simp] theorem State.updCtx_host (n : Nat) (f : Ctx → Ctx) : (s.updCtx n f).host = s.host := rfl
@[simp] theorem State.updCtx_dram (n : Nat) (f : Ctx → Ctx) : (s.updCtx n f).dram = s.dram := rfl
@[simp] theorem State.updCtx_eccErr (n : Nat) (f : Ctx → Ctx) : (s.updCtx n f).eccErr = s.eccErr := rfl
@[simp] theorem State.updCtx_l2 (n : Nat) (f : Ctx → Ctx) : (s.updCtx n f).l2 = s.l2 := rfl
@[simp] theorem State.updCtx_tlb (n : Nat) (f : Ctx → Ctx) : (s.updCtx n f).tlb = s.tlb := rfl
@[simp] theorem State.updCtx_rmap (n : Nat) (f : Ctx → Ctx) : (s.updCtx n f).rmap = s.rmap := rfl
@[simp] theorem State.updCtx_hostWalks (n : Nat) (f : Ctx → Ctx) : (s.updCtx n f).hostWalks = s.hostWalks := rfl
@[simp] theorem State.updCtx_lightSvcs (n : Nat) (f : Ctx → Ctx) : (s.updCtx n f).lightSvcs = s.lightSvcs := rfl
@[simp] theorem State.updCtx_migHeat (n : Nat) (f : Ctx → Ctx) : (s.updCtx n f).migHeat = s.migHeat := rfl
@[simp] theorem State.updCtx_migrs (n : Nat) (f : Ctx → Ctx) : (s.updCtx n f).migrs = s.migrs := rfl
@[simp] theorem State.updCtx_freeFrames (n : Nat) (f : Ctx → Ctx) : (s.updCtx n f).freeFrames = s.freeFrames := rfl
@[simp] theorem State.updCtx_migStat (n : Nat) (f : Ctx → Ctx) : (s.updCtx n f).migStat = s.migStat := rfl
@[simp] theorem State.updCtx_migAbort (n : Nat) (f : Ctx → Ctx) : (s.updCtx n f).migAbort = s.migAbort := rfl
@[simp] theorem State.updCtx_migSeq (n : Nat) (f : Ctx → Ctx) : (s.updCtx n f).migSeq = s.migSeq := rfl
@[simp] theorem State.updCtx_ports (n : Nat) (f : Ctx → Ctx) : (s.updCtx n f).ports = s.ports := rfl
@[simp] theorem State.updCtx_updates (n : Nat) (f : Ctx → Ctx) : (s.updCtx n f).updates = s.updates := rfl
@[simp] theorem State.updCtx_stores (n : Nat) (f : Ctx → Ctx) : (s.updCtx n f).stores = s.stores := rfl
@[simp] theorem State.updCtx_bankq (n : Nat) (f : Ctx → Ctx) : (s.updCtx n f).bankq = s.bankq := rfl
@[simp] theorem State.updCtx_bankMsgs (n : Nat) (f : Ctx → Ctx) : (s.updCtx n f).bankMsgs = s.bankMsgs := rfl
@[simp] theorem State.updCtx_arf (n : Nat) (f : Ctx → Ctx) : (s.updCtx n f).arf = s.arf := rfl
@[simp] theorem State.updCtx_msc (n : Nat) (f : Ctx → Ctx) : (s.updCtx n f).msc = s.msc := rfl
@[simp] theorem State.updCtx_mscStat (n : Nat) (f : Ctx → Ctx) : (s.updCtx n f).mscStat = s.mscStat := rfl
@[simp] theorem State.updCtx_rounds (n : Nat) (f : Ctx → Ctx) : (s.updCtx n f).rounds = s.rounds := rfl
@[simp] theorem State.updCtx_roundStall (n : Nat) (f : Ctx → Ctx) : (s.updCtx n f).roundStall = s.roundStall := rfl
@[simp] theorem State.updCtx_pushes (n : Nat) (f : Ctx → Ctx) : (s.updCtx n f).pushes = s.pushes := rfl
@[simp] theorem State.updCtx_sliceq (n : Nat) (f : Ctx → Ctx) : (s.updCtx n f).sliceq = s.sliceq := rfl
@[simp] theorem State.updCtx_insertions (n : Nat) (f : Ctx → Ctx) : (s.updCtx n f).insertions = s.insertions := rfl
@[simp] theorem State.updCtx_freedPages (n : Nat) (f : Ctx → Ctx) : (s.updCtx n f).freedPages = s.freedPages := rfl
@[simp] theorem State.updCtx_kvAudit (n : Nat) (f : Ctx → Ctx) : (s.updCtx n f).kvAudit = s.kvAudit := rfl
@[simp] theorem State.updCtx_pfxStat (n : Nat) (f : Ctx → Ctx) : (s.updCtx n f).pfxStat = s.pfxStat := rfl
@[simp] theorem State.updCtx_rings (n : Nat) (f : Ctx → Ctx) : (s.updCtx n f).rings = s.rings := rfl
@[simp] theorem State.updCtx_stamps (n : Nat) (f : Ctx → Ctx) : (s.updCtx n f).stamps = s.stamps := rfl
@[simp] theorem State.updCtx_due (n : Nat) (f : Ctx → Ctx) : (s.updCtx n f).due = s.due := rfl
@[simp] theorem State.updCtx_agenda (n : Nat) (f : Ctx → Ctx) : (s.updCtx n f).agenda = s.agenda := rfl
@[simp] theorem State.updCtx_free (n : Nat) (f : Ctx → Ctx) : (s.updCtx n f).free = s.free := rfl
@[simp] theorem State.updCtx_fresh (n : Nat) (f : Ctx → Ctx) : (s.updCtx n f).fresh = s.fresh := rfl

/-! ### `bumpFresh` -/

@[simp] theorem State.bumpFresh_pkg : (s.bumpFresh).pkg = s.pkg := rfl
@[simp] theorem State.bumpFresh_cur : (s.bumpFresh).cur = s.cur := rfl
@[simp] theorem State.bumpFresh_groups : (s.bumpFresh).groups = s.groups := rfl
@[simp] theorem State.bumpFresh_teams : (s.bumpFresh).teams = s.teams := rfl
@[simp] theorem State.bumpFresh_grids : (s.bumpFresh).grids = s.grids := rfl
@[simp] theorem State.bumpFresh_cmds : (s.bumpFresh).cmds = s.cmds := rfl
@[simp] theorem State.bumpFresh_cores : (s.bumpFresh).cores = s.cores := rfl
@[simp] theorem State.bumpFresh_ctxs : (s.bumpFresh).ctxs = s.ctxs := rfl
@[simp] theorem State.bumpFresh_oz : (s.bumpFresh).oz = s.oz := rfl
@[simp] theorem State.bumpFresh_mem : (s.bumpFresh).mem = s.mem := rfl
@[simp] theorem State.bumpFresh_poison : (s.bumpFresh).poison = s.poison := rfl
@[simp] theorem State.bumpFresh_peerMem : (s.bumpFresh).peerMem = s.peerMem := rfl
@[simp] theorem State.bumpFresh_peerPoison : (s.bumpFresh).peerPoison = s.peerPoison := rfl
@[simp] theorem State.bumpFresh_ozMem : (s.bumpFresh).ozMem = s.ozMem := rfl
@[simp] theorem State.bumpFresh_hostMem : (s.bumpFresh).hostMem = s.hostMem := rfl
@[simp] theorem State.bumpFresh_host : (s.bumpFresh).host = s.host := rfl
@[simp] theorem State.bumpFresh_dram : (s.bumpFresh).dram = s.dram := rfl
@[simp] theorem State.bumpFresh_eccErr : (s.bumpFresh).eccErr = s.eccErr := rfl
@[simp] theorem State.bumpFresh_l2 : (s.bumpFresh).l2 = s.l2 := rfl
@[simp] theorem State.bumpFresh_tlb : (s.bumpFresh).tlb = s.tlb := rfl
@[simp] theorem State.bumpFresh_rmap : (s.bumpFresh).rmap = s.rmap := rfl
@[simp] theorem State.bumpFresh_hostWalks : (s.bumpFresh).hostWalks = s.hostWalks := rfl
@[simp] theorem State.bumpFresh_lightSvcs : (s.bumpFresh).lightSvcs = s.lightSvcs := rfl
@[simp] theorem State.bumpFresh_migHeat : (s.bumpFresh).migHeat = s.migHeat := rfl
@[simp] theorem State.bumpFresh_migrs : (s.bumpFresh).migrs = s.migrs := rfl
@[simp] theorem State.bumpFresh_freeFrames : (s.bumpFresh).freeFrames = s.freeFrames := rfl
@[simp] theorem State.bumpFresh_migStat : (s.bumpFresh).migStat = s.migStat := rfl
@[simp] theorem State.bumpFresh_migAbort : (s.bumpFresh).migAbort = s.migAbort := rfl
@[simp] theorem State.bumpFresh_migSeq : (s.bumpFresh).migSeq = s.migSeq := rfl
@[simp] theorem State.bumpFresh_ports : (s.bumpFresh).ports = s.ports := rfl
@[simp] theorem State.bumpFresh_updates : (s.bumpFresh).updates = s.updates := rfl
@[simp] theorem State.bumpFresh_stores : (s.bumpFresh).stores = s.stores := rfl
@[simp] theorem State.bumpFresh_bankq : (s.bumpFresh).bankq = s.bankq := rfl
@[simp] theorem State.bumpFresh_bankMsgs : (s.bumpFresh).bankMsgs = s.bankMsgs := rfl
@[simp] theorem State.bumpFresh_arf : (s.bumpFresh).arf = s.arf := rfl
@[simp] theorem State.bumpFresh_msc : (s.bumpFresh).msc = s.msc := rfl
@[simp] theorem State.bumpFresh_mscStat : (s.bumpFresh).mscStat = s.mscStat := rfl
@[simp] theorem State.bumpFresh_rounds : (s.bumpFresh).rounds = s.rounds := rfl
@[simp] theorem State.bumpFresh_roundStall : (s.bumpFresh).roundStall = s.roundStall := rfl
@[simp] theorem State.bumpFresh_pushes : (s.bumpFresh).pushes = s.pushes := rfl
@[simp] theorem State.bumpFresh_sliceq : (s.bumpFresh).sliceq = s.sliceq := rfl
@[simp] theorem State.bumpFresh_insertions : (s.bumpFresh).insertions = s.insertions := rfl
@[simp] theorem State.bumpFresh_freedPages : (s.bumpFresh).freedPages = s.freedPages := rfl
@[simp] theorem State.bumpFresh_kvAudit : (s.bumpFresh).kvAudit = s.kvAudit := rfl
@[simp] theorem State.bumpFresh_pfxStat : (s.bumpFresh).pfxStat = s.pfxStat := rfl
@[simp] theorem State.bumpFresh_rings : (s.bumpFresh).rings = s.rings := rfl
@[simp] theorem State.bumpFresh_stamps : (s.bumpFresh).stamps = s.stamps := rfl
@[simp] theorem State.bumpFresh_due : (s.bumpFresh).due = s.due := rfl
@[simp] theorem State.bumpFresh_agenda : (s.bumpFresh).agenda = s.agenda := rfl
@[simp] theorem State.bumpFresh_free : (s.bumpFresh).free = s.free := rfl

/-! ### `bumpFree` -/

@[simp] theorem State.bumpFree_pkg : (s.bumpFree).pkg = s.pkg := rfl
@[simp] theorem State.bumpFree_cur : (s.bumpFree).cur = s.cur := rfl
@[simp] theorem State.bumpFree_groups : (s.bumpFree).groups = s.groups := rfl
@[simp] theorem State.bumpFree_teams : (s.bumpFree).teams = s.teams := rfl
@[simp] theorem State.bumpFree_grids : (s.bumpFree).grids = s.grids := rfl
@[simp] theorem State.bumpFree_cmds : (s.bumpFree).cmds = s.cmds := rfl
@[simp] theorem State.bumpFree_cores : (s.bumpFree).cores = s.cores := rfl
@[simp] theorem State.bumpFree_ctxs : (s.bumpFree).ctxs = s.ctxs := rfl
@[simp] theorem State.bumpFree_oz : (s.bumpFree).oz = s.oz := rfl
@[simp] theorem State.bumpFree_mem : (s.bumpFree).mem = s.mem := rfl
@[simp] theorem State.bumpFree_poison : (s.bumpFree).poison = s.poison := rfl
@[simp] theorem State.bumpFree_peerMem : (s.bumpFree).peerMem = s.peerMem := rfl
@[simp] theorem State.bumpFree_peerPoison : (s.bumpFree).peerPoison = s.peerPoison := rfl
@[simp] theorem State.bumpFree_ozMem : (s.bumpFree).ozMem = s.ozMem := rfl
@[simp] theorem State.bumpFree_hostMem : (s.bumpFree).hostMem = s.hostMem := rfl
@[simp] theorem State.bumpFree_host : (s.bumpFree).host = s.host := rfl
@[simp] theorem State.bumpFree_dram : (s.bumpFree).dram = s.dram := rfl
@[simp] theorem State.bumpFree_eccErr : (s.bumpFree).eccErr = s.eccErr := rfl
@[simp] theorem State.bumpFree_l2 : (s.bumpFree).l2 = s.l2 := rfl
@[simp] theorem State.bumpFree_tlb : (s.bumpFree).tlb = s.tlb := rfl
@[simp] theorem State.bumpFree_rmap : (s.bumpFree).rmap = s.rmap := rfl
@[simp] theorem State.bumpFree_hostWalks : (s.bumpFree).hostWalks = s.hostWalks := rfl
@[simp] theorem State.bumpFree_lightSvcs : (s.bumpFree).lightSvcs = s.lightSvcs := rfl
@[simp] theorem State.bumpFree_migHeat : (s.bumpFree).migHeat = s.migHeat := rfl
@[simp] theorem State.bumpFree_migrs : (s.bumpFree).migrs = s.migrs := rfl
@[simp] theorem State.bumpFree_freeFrames : (s.bumpFree).freeFrames = s.freeFrames := rfl
@[simp] theorem State.bumpFree_migStat : (s.bumpFree).migStat = s.migStat := rfl
@[simp] theorem State.bumpFree_migAbort : (s.bumpFree).migAbort = s.migAbort := rfl
@[simp] theorem State.bumpFree_migSeq : (s.bumpFree).migSeq = s.migSeq := rfl
@[simp] theorem State.bumpFree_ports : (s.bumpFree).ports = s.ports := rfl
@[simp] theorem State.bumpFree_updates : (s.bumpFree).updates = s.updates := rfl
@[simp] theorem State.bumpFree_stores : (s.bumpFree).stores = s.stores := rfl
@[simp] theorem State.bumpFree_bankq : (s.bumpFree).bankq = s.bankq := rfl
@[simp] theorem State.bumpFree_bankMsgs : (s.bumpFree).bankMsgs = s.bankMsgs := rfl
@[simp] theorem State.bumpFree_arf : (s.bumpFree).arf = s.arf := rfl
@[simp] theorem State.bumpFree_msc : (s.bumpFree).msc = s.msc := rfl
@[simp] theorem State.bumpFree_mscStat : (s.bumpFree).mscStat = s.mscStat := rfl
@[simp] theorem State.bumpFree_rounds : (s.bumpFree).rounds = s.rounds := rfl
@[simp] theorem State.bumpFree_roundStall : (s.bumpFree).roundStall = s.roundStall := rfl
@[simp] theorem State.bumpFree_pushes : (s.bumpFree).pushes = s.pushes := rfl
@[simp] theorem State.bumpFree_sliceq : (s.bumpFree).sliceq = s.sliceq := rfl
@[simp] theorem State.bumpFree_insertions : (s.bumpFree).insertions = s.insertions := rfl
@[simp] theorem State.bumpFree_freedPages : (s.bumpFree).freedPages = s.freedPages := rfl
@[simp] theorem State.bumpFree_kvAudit : (s.bumpFree).kvAudit = s.kvAudit := rfl
@[simp] theorem State.bumpFree_pfxStat : (s.bumpFree).pfxStat = s.pfxStat := rfl
@[simp] theorem State.bumpFree_rings : (s.bumpFree).rings = s.rings := rfl
@[simp] theorem State.bumpFree_stamps : (s.bumpFree).stamps = s.stamps := rfl
@[simp] theorem State.bumpFree_due : (s.bumpFree).due = s.due := rfl
@[simp] theorem State.bumpFree_agenda : (s.bumpFree).agenda = s.agenda := rfl
@[simp] theorem State.bumpFree_fresh : (s.bumpFree).fresh = s.fresh := rfl

/-! ### `owe` -/

@[simp] theorem State.owe_pkg (l : List Owed) : (s.owe l).pkg = s.pkg := rfl
@[simp] theorem State.owe_cur (l : List Owed) : (s.owe l).cur = s.cur := rfl
@[simp] theorem State.owe_groups (l : List Owed) : (s.owe l).groups = s.groups := rfl
@[simp] theorem State.owe_teams (l : List Owed) : (s.owe l).teams = s.teams := rfl
@[simp] theorem State.owe_grids (l : List Owed) : (s.owe l).grids = s.grids := rfl
@[simp] theorem State.owe_cmds (l : List Owed) : (s.owe l).cmds = s.cmds := rfl
@[simp] theorem State.owe_cores (l : List Owed) : (s.owe l).cores = s.cores := rfl
@[simp] theorem State.owe_ctxs (l : List Owed) : (s.owe l).ctxs = s.ctxs := rfl
@[simp] theorem State.owe_oz (l : List Owed) : (s.owe l).oz = s.oz := rfl
@[simp] theorem State.owe_mem (l : List Owed) : (s.owe l).mem = s.mem := rfl
@[simp] theorem State.owe_poison (l : List Owed) : (s.owe l).poison = s.poison := rfl
@[simp] theorem State.owe_peerMem (l : List Owed) : (s.owe l).peerMem = s.peerMem := rfl
@[simp] theorem State.owe_peerPoison (l : List Owed) : (s.owe l).peerPoison = s.peerPoison := rfl
@[simp] theorem State.owe_ozMem (l : List Owed) : (s.owe l).ozMem = s.ozMem := rfl
@[simp] theorem State.owe_hostMem (l : List Owed) : (s.owe l).hostMem = s.hostMem := rfl
@[simp] theorem State.owe_host (l : List Owed) : (s.owe l).host = s.host := rfl
@[simp] theorem State.owe_dram (l : List Owed) : (s.owe l).dram = s.dram := rfl
@[simp] theorem State.owe_eccErr (l : List Owed) : (s.owe l).eccErr = s.eccErr := rfl
@[simp] theorem State.owe_l2 (l : List Owed) : (s.owe l).l2 = s.l2 := rfl
@[simp] theorem State.owe_tlb (l : List Owed) : (s.owe l).tlb = s.tlb := rfl
@[simp] theorem State.owe_rmap (l : List Owed) : (s.owe l).rmap = s.rmap := rfl
@[simp] theorem State.owe_hostWalks (l : List Owed) : (s.owe l).hostWalks = s.hostWalks := rfl
@[simp] theorem State.owe_lightSvcs (l : List Owed) : (s.owe l).lightSvcs = s.lightSvcs := rfl
@[simp] theorem State.owe_migHeat (l : List Owed) : (s.owe l).migHeat = s.migHeat := rfl
@[simp] theorem State.owe_migrs (l : List Owed) : (s.owe l).migrs = s.migrs := rfl
@[simp] theorem State.owe_freeFrames (l : List Owed) : (s.owe l).freeFrames = s.freeFrames := rfl
@[simp] theorem State.owe_migStat (l : List Owed) : (s.owe l).migStat = s.migStat := rfl
@[simp] theorem State.owe_migAbort (l : List Owed) : (s.owe l).migAbort = s.migAbort := rfl
@[simp] theorem State.owe_migSeq (l : List Owed) : (s.owe l).migSeq = s.migSeq := rfl
@[simp] theorem State.owe_ports (l : List Owed) : (s.owe l).ports = s.ports := rfl
@[simp] theorem State.owe_updates (l : List Owed) : (s.owe l).updates = s.updates := rfl
@[simp] theorem State.owe_stores (l : List Owed) : (s.owe l).stores = s.stores := rfl
@[simp] theorem State.owe_bankq (l : List Owed) : (s.owe l).bankq = s.bankq := rfl
@[simp] theorem State.owe_bankMsgs (l : List Owed) : (s.owe l).bankMsgs = s.bankMsgs := rfl
@[simp] theorem State.owe_arf (l : List Owed) : (s.owe l).arf = s.arf := rfl
@[simp] theorem State.owe_msc (l : List Owed) : (s.owe l).msc = s.msc := rfl
@[simp] theorem State.owe_mscStat (l : List Owed) : (s.owe l).mscStat = s.mscStat := rfl
@[simp] theorem State.owe_rounds (l : List Owed) : (s.owe l).rounds = s.rounds := rfl
@[simp] theorem State.owe_roundStall (l : List Owed) : (s.owe l).roundStall = s.roundStall := rfl
@[simp] theorem State.owe_pushes (l : List Owed) : (s.owe l).pushes = s.pushes := rfl
@[simp] theorem State.owe_sliceq (l : List Owed) : (s.owe l).sliceq = s.sliceq := rfl
@[simp] theorem State.owe_insertions (l : List Owed) : (s.owe l).insertions = s.insertions := rfl
@[simp] theorem State.owe_freedPages (l : List Owed) : (s.owe l).freedPages = s.freedPages := rfl
@[simp] theorem State.owe_kvAudit (l : List Owed) : (s.owe l).kvAudit = s.kvAudit := rfl
@[simp] theorem State.owe_pfxStat (l : List Owed) : (s.owe l).pfxStat = s.pfxStat := rfl
@[simp] theorem State.owe_rings (l : List Owed) : (s.owe l).rings = s.rings := rfl
@[simp] theorem State.owe_stamps (l : List Owed) : (s.owe l).stamps = s.stamps := rfl
@[simp] theorem State.owe_agenda (l : List Owed) : (s.owe l).agenda = s.agenda := rfl
@[simp] theorem State.owe_free (l : List Owed) : (s.owe l).free = s.free := rfl
@[simp] theorem State.owe_fresh (l : List Owed) : (s.owe l).fresh = s.fresh := rfl

/-! ### `stamp` -/

@[simp] theorem State.stamp_pkg (n : Nat) : (s.stamp n).pkg = s.pkg := rfl
@[simp] theorem State.stamp_cur (n : Nat) : (s.stamp n).cur = s.cur := rfl
@[simp] theorem State.stamp_groups (n : Nat) : (s.stamp n).groups = s.groups := rfl
@[simp] theorem State.stamp_teams (n : Nat) : (s.stamp n).teams = s.teams := rfl
@[simp] theorem State.stamp_grids (n : Nat) : (s.stamp n).grids = s.grids := rfl
@[simp] theorem State.stamp_cmds (n : Nat) : (s.stamp n).cmds = s.cmds := rfl
@[simp] theorem State.stamp_cores (n : Nat) : (s.stamp n).cores = s.cores := rfl
@[simp] theorem State.stamp_ctxs (n : Nat) : (s.stamp n).ctxs = s.ctxs := rfl
@[simp] theorem State.stamp_oz (n : Nat) : (s.stamp n).oz = s.oz := rfl
@[simp] theorem State.stamp_mem (n : Nat) : (s.stamp n).mem = s.mem := rfl
@[simp] theorem State.stamp_poison (n : Nat) : (s.stamp n).poison = s.poison := rfl
@[simp] theorem State.stamp_peerMem (n : Nat) : (s.stamp n).peerMem = s.peerMem := rfl
@[simp] theorem State.stamp_peerPoison (n : Nat) : (s.stamp n).peerPoison = s.peerPoison := rfl
@[simp] theorem State.stamp_ozMem (n : Nat) : (s.stamp n).ozMem = s.ozMem := rfl
@[simp] theorem State.stamp_hostMem (n : Nat) : (s.stamp n).hostMem = s.hostMem := rfl
@[simp] theorem State.stamp_host (n : Nat) : (s.stamp n).host = s.host := rfl
@[simp] theorem State.stamp_dram (n : Nat) : (s.stamp n).dram = s.dram := rfl
@[simp] theorem State.stamp_eccErr (n : Nat) : (s.stamp n).eccErr = s.eccErr := rfl
@[simp] theorem State.stamp_l2 (n : Nat) : (s.stamp n).l2 = s.l2 := rfl
@[simp] theorem State.stamp_tlb (n : Nat) : (s.stamp n).tlb = s.tlb := rfl
@[simp] theorem State.stamp_rmap (n : Nat) : (s.stamp n).rmap = s.rmap := rfl
@[simp] theorem State.stamp_hostWalks (n : Nat) : (s.stamp n).hostWalks = s.hostWalks := rfl
@[simp] theorem State.stamp_lightSvcs (n : Nat) : (s.stamp n).lightSvcs = s.lightSvcs := rfl
@[simp] theorem State.stamp_migHeat (n : Nat) : (s.stamp n).migHeat = s.migHeat := rfl
@[simp] theorem State.stamp_migrs (n : Nat) : (s.stamp n).migrs = s.migrs := rfl
@[simp] theorem State.stamp_freeFrames (n : Nat) : (s.stamp n).freeFrames = s.freeFrames := rfl
@[simp] theorem State.stamp_migStat (n : Nat) : (s.stamp n).migStat = s.migStat := rfl
@[simp] theorem State.stamp_migAbort (n : Nat) : (s.stamp n).migAbort = s.migAbort := rfl
@[simp] theorem State.stamp_migSeq (n : Nat) : (s.stamp n).migSeq = s.migSeq := rfl
@[simp] theorem State.stamp_ports (n : Nat) : (s.stamp n).ports = s.ports := rfl
@[simp] theorem State.stamp_updates (n : Nat) : (s.stamp n).updates = s.updates := rfl
@[simp] theorem State.stamp_stores (n : Nat) : (s.stamp n).stores = s.stores := rfl
@[simp] theorem State.stamp_bankq (n : Nat) : (s.stamp n).bankq = s.bankq := rfl
@[simp] theorem State.stamp_bankMsgs (n : Nat) : (s.stamp n).bankMsgs = s.bankMsgs := rfl
@[simp] theorem State.stamp_arf (n : Nat) : (s.stamp n).arf = s.arf := rfl
@[simp] theorem State.stamp_msc (n : Nat) : (s.stamp n).msc = s.msc := rfl
@[simp] theorem State.stamp_mscStat (n : Nat) : (s.stamp n).mscStat = s.mscStat := rfl
@[simp] theorem State.stamp_rounds (n : Nat) : (s.stamp n).rounds = s.rounds := rfl
@[simp] theorem State.stamp_roundStall (n : Nat) : (s.stamp n).roundStall = s.roundStall := rfl
@[simp] theorem State.stamp_pushes (n : Nat) : (s.stamp n).pushes = s.pushes := rfl
@[simp] theorem State.stamp_sliceq (n : Nat) : (s.stamp n).sliceq = s.sliceq := rfl
@[simp] theorem State.stamp_insertions (n : Nat) : (s.stamp n).insertions = s.insertions := rfl
@[simp] theorem State.stamp_freedPages (n : Nat) : (s.stamp n).freedPages = s.freedPages := rfl
@[simp] theorem State.stamp_kvAudit (n : Nat) : (s.stamp n).kvAudit = s.kvAudit := rfl
@[simp] theorem State.stamp_pfxStat (n : Nat) : (s.stamp n).pfxStat = s.pfxStat := rfl
@[simp] theorem State.stamp_rings (n : Nat) : (s.stamp n).rings = s.rings := rfl
@[simp] theorem State.stamp_due (n : Nat) : (s.stamp n).due = s.due := rfl
@[simp] theorem State.stamp_agenda (n : Nat) : (s.stamp n).agenda = s.agenda := rfl
@[simp] theorem State.stamp_free (n : Nat) : (s.stamp n).free = s.free := rfl
@[simp] theorem State.stamp_fresh (n : Nat) : (s.stamp n).fresh = s.fresh := rfl

/-! ### `updStack` -/

@[simp] theorem State.updStack_pkg (n : Nat) (f : Stack → Stack) : (s.updStack n f).pkg = s.pkg := rfl
@[simp] theorem State.updStack_cur (n : Nat) (f : Stack → Stack) : (s.updStack n f).cur = s.cur := rfl
@[simp] theorem State.updStack_groups (n : Nat) (f : Stack → Stack) : (s.updStack n f).groups = s.groups := rfl
@[simp] theorem State.updStack_teams (n : Nat) (f : Stack → Stack) : (s.updStack n f).teams = s.teams := rfl
@[simp] theorem State.updStack_grids (n : Nat) (f : Stack → Stack) : (s.updStack n f).grids = s.grids := rfl
@[simp] theorem State.updStack_cmds (n : Nat) (f : Stack → Stack) : (s.updStack n f).cmds = s.cmds := rfl
@[simp] theorem State.updStack_cores (n : Nat) (f : Stack → Stack) : (s.updStack n f).cores = s.cores := rfl
@[simp] theorem State.updStack_ctxs (n : Nat) (f : Stack → Stack) : (s.updStack n f).ctxs = s.ctxs := rfl
@[simp] theorem State.updStack_oz (n : Nat) (f : Stack → Stack) : (s.updStack n f).oz = s.oz := rfl
@[simp] theorem State.updStack_mem (n : Nat) (f : Stack → Stack) : (s.updStack n f).mem = s.mem := rfl
@[simp] theorem State.updStack_poison (n : Nat) (f : Stack → Stack) : (s.updStack n f).poison = s.poison := rfl
@[simp] theorem State.updStack_peerMem (n : Nat) (f : Stack → Stack) : (s.updStack n f).peerMem = s.peerMem := rfl
@[simp] theorem State.updStack_peerPoison (n : Nat) (f : Stack → Stack) : (s.updStack n f).peerPoison = s.peerPoison := rfl
@[simp] theorem State.updStack_ozMem (n : Nat) (f : Stack → Stack) : (s.updStack n f).ozMem = s.ozMem := rfl
@[simp] theorem State.updStack_hostMem (n : Nat) (f : Stack → Stack) : (s.updStack n f).hostMem = s.hostMem := rfl
@[simp] theorem State.updStack_host (n : Nat) (f : Stack → Stack) : (s.updStack n f).host = s.host := rfl
@[simp] theorem State.updStack_eccErr (n : Nat) (f : Stack → Stack) : (s.updStack n f).eccErr = s.eccErr := rfl
@[simp] theorem State.updStack_l2 (n : Nat) (f : Stack → Stack) : (s.updStack n f).l2 = s.l2 := rfl
@[simp] theorem State.updStack_tlb (n : Nat) (f : Stack → Stack) : (s.updStack n f).tlb = s.tlb := rfl
@[simp] theorem State.updStack_rmap (n : Nat) (f : Stack → Stack) : (s.updStack n f).rmap = s.rmap := rfl
@[simp] theorem State.updStack_hostWalks (n : Nat) (f : Stack → Stack) : (s.updStack n f).hostWalks = s.hostWalks := rfl
@[simp] theorem State.updStack_lightSvcs (n : Nat) (f : Stack → Stack) : (s.updStack n f).lightSvcs = s.lightSvcs := rfl
@[simp] theorem State.updStack_migHeat (n : Nat) (f : Stack → Stack) : (s.updStack n f).migHeat = s.migHeat := rfl
@[simp] theorem State.updStack_migrs (n : Nat) (f : Stack → Stack) : (s.updStack n f).migrs = s.migrs := rfl
@[simp] theorem State.updStack_freeFrames (n : Nat) (f : Stack → Stack) : (s.updStack n f).freeFrames = s.freeFrames := rfl
@[simp] theorem State.updStack_migStat (n : Nat) (f : Stack → Stack) : (s.updStack n f).migStat = s.migStat := rfl
@[simp] theorem State.updStack_migAbort (n : Nat) (f : Stack → Stack) : (s.updStack n f).migAbort = s.migAbort := rfl
@[simp] theorem State.updStack_migSeq (n : Nat) (f : Stack → Stack) : (s.updStack n f).migSeq = s.migSeq := rfl
@[simp] theorem State.updStack_ports (n : Nat) (f : Stack → Stack) : (s.updStack n f).ports = s.ports := rfl
@[simp] theorem State.updStack_updates (n : Nat) (f : Stack → Stack) : (s.updStack n f).updates = s.updates := rfl
@[simp] theorem State.updStack_stores (n : Nat) (f : Stack → Stack) : (s.updStack n f).stores = s.stores := rfl
@[simp] theorem State.updStack_bankq (n : Nat) (f : Stack → Stack) : (s.updStack n f).bankq = s.bankq := rfl
@[simp] theorem State.updStack_bankMsgs (n : Nat) (f : Stack → Stack) : (s.updStack n f).bankMsgs = s.bankMsgs := rfl
@[simp] theorem State.updStack_arf (n : Nat) (f : Stack → Stack) : (s.updStack n f).arf = s.arf := rfl
@[simp] theorem State.updStack_msc (n : Nat) (f : Stack → Stack) : (s.updStack n f).msc = s.msc := rfl
@[simp] theorem State.updStack_mscStat (n : Nat) (f : Stack → Stack) : (s.updStack n f).mscStat = s.mscStat := rfl
@[simp] theorem State.updStack_rounds (n : Nat) (f : Stack → Stack) : (s.updStack n f).rounds = s.rounds := rfl
@[simp] theorem State.updStack_roundStall (n : Nat) (f : Stack → Stack) : (s.updStack n f).roundStall = s.roundStall := rfl
@[simp] theorem State.updStack_pushes (n : Nat) (f : Stack → Stack) : (s.updStack n f).pushes = s.pushes := rfl
@[simp] theorem State.updStack_sliceq (n : Nat) (f : Stack → Stack) : (s.updStack n f).sliceq = s.sliceq := rfl
@[simp] theorem State.updStack_insertions (n : Nat) (f : Stack → Stack) : (s.updStack n f).insertions = s.insertions := rfl
@[simp] theorem State.updStack_freedPages (n : Nat) (f : Stack → Stack) : (s.updStack n f).freedPages = s.freedPages := rfl
@[simp] theorem State.updStack_kvAudit (n : Nat) (f : Stack → Stack) : (s.updStack n f).kvAudit = s.kvAudit := rfl
@[simp] theorem State.updStack_pfxStat (n : Nat) (f : Stack → Stack) : (s.updStack n f).pfxStat = s.pfxStat := rfl
@[simp] theorem State.updStack_rings (n : Nat) (f : Stack → Stack) : (s.updStack n f).rings = s.rings := rfl
@[simp] theorem State.updStack_stamps (n : Nat) (f : Stack → Stack) : (s.updStack n f).stamps = s.stamps := rfl
@[simp] theorem State.updStack_due (n : Nat) (f : Stack → Stack) : (s.updStack n f).due = s.due := rfl
@[simp] theorem State.updStack_agenda (n : Nat) (f : Stack → Stack) : (s.updStack n f).agenda = s.agenda := rfl
@[simp] theorem State.updStack_free (n : Nat) (f : Stack → Stack) : (s.updStack n f).free = s.free := rfl
@[simp] theorem State.updStack_fresh (n : Nat) (f : Stack → Stack) : (s.updStack n f).fresh = s.fresh := rfl

/-! ### `updPort` -/

@[simp] theorem State.updPort_pkg (n : Nat) (f : Port → Port) : (s.updPort n f).pkg = s.pkg := rfl
@[simp] theorem State.updPort_cur (n : Nat) (f : Port → Port) : (s.updPort n f).cur = s.cur := rfl
@[simp] theorem State.updPort_groups (n : Nat) (f : Port → Port) : (s.updPort n f).groups = s.groups := rfl
@[simp] theorem State.updPort_teams (n : Nat) (f : Port → Port) : (s.updPort n f).teams = s.teams := rfl
@[simp] theorem State.updPort_grids (n : Nat) (f : Port → Port) : (s.updPort n f).grids = s.grids := rfl
@[simp] theorem State.updPort_cmds (n : Nat) (f : Port → Port) : (s.updPort n f).cmds = s.cmds := rfl
@[simp] theorem State.updPort_cores (n : Nat) (f : Port → Port) : (s.updPort n f).cores = s.cores := rfl
@[simp] theorem State.updPort_ctxs (n : Nat) (f : Port → Port) : (s.updPort n f).ctxs = s.ctxs := rfl
@[simp] theorem State.updPort_oz (n : Nat) (f : Port → Port) : (s.updPort n f).oz = s.oz := rfl
@[simp] theorem State.updPort_mem (n : Nat) (f : Port → Port) : (s.updPort n f).mem = s.mem := rfl
@[simp] theorem State.updPort_poison (n : Nat) (f : Port → Port) : (s.updPort n f).poison = s.poison := rfl
@[simp] theorem State.updPort_peerMem (n : Nat) (f : Port → Port) : (s.updPort n f).peerMem = s.peerMem := rfl
@[simp] theorem State.updPort_peerPoison (n : Nat) (f : Port → Port) : (s.updPort n f).peerPoison = s.peerPoison := rfl
@[simp] theorem State.updPort_ozMem (n : Nat) (f : Port → Port) : (s.updPort n f).ozMem = s.ozMem := rfl
@[simp] theorem State.updPort_hostMem (n : Nat) (f : Port → Port) : (s.updPort n f).hostMem = s.hostMem := rfl
@[simp] theorem State.updPort_host (n : Nat) (f : Port → Port) : (s.updPort n f).host = s.host := rfl
@[simp] theorem State.updPort_dram (n : Nat) (f : Port → Port) : (s.updPort n f).dram = s.dram := rfl
@[simp] theorem State.updPort_eccErr (n : Nat) (f : Port → Port) : (s.updPort n f).eccErr = s.eccErr := rfl
@[simp] theorem State.updPort_l2 (n : Nat) (f : Port → Port) : (s.updPort n f).l2 = s.l2 := rfl
@[simp] theorem State.updPort_tlb (n : Nat) (f : Port → Port) : (s.updPort n f).tlb = s.tlb := rfl
@[simp] theorem State.updPort_rmap (n : Nat) (f : Port → Port) : (s.updPort n f).rmap = s.rmap := rfl
@[simp] theorem State.updPort_hostWalks (n : Nat) (f : Port → Port) : (s.updPort n f).hostWalks = s.hostWalks := rfl
@[simp] theorem State.updPort_lightSvcs (n : Nat) (f : Port → Port) : (s.updPort n f).lightSvcs = s.lightSvcs := rfl
@[simp] theorem State.updPort_migHeat (n : Nat) (f : Port → Port) : (s.updPort n f).migHeat = s.migHeat := rfl
@[simp] theorem State.updPort_migrs (n : Nat) (f : Port → Port) : (s.updPort n f).migrs = s.migrs := rfl
@[simp] theorem State.updPort_freeFrames (n : Nat) (f : Port → Port) : (s.updPort n f).freeFrames = s.freeFrames := rfl
@[simp] theorem State.updPort_migStat (n : Nat) (f : Port → Port) : (s.updPort n f).migStat = s.migStat := rfl
@[simp] theorem State.updPort_migAbort (n : Nat) (f : Port → Port) : (s.updPort n f).migAbort = s.migAbort := rfl
@[simp] theorem State.updPort_migSeq (n : Nat) (f : Port → Port) : (s.updPort n f).migSeq = s.migSeq := rfl
@[simp] theorem State.updPort_updates (n : Nat) (f : Port → Port) : (s.updPort n f).updates = s.updates := rfl
@[simp] theorem State.updPort_stores (n : Nat) (f : Port → Port) : (s.updPort n f).stores = s.stores := rfl
@[simp] theorem State.updPort_bankq (n : Nat) (f : Port → Port) : (s.updPort n f).bankq = s.bankq := rfl
@[simp] theorem State.updPort_bankMsgs (n : Nat) (f : Port → Port) : (s.updPort n f).bankMsgs = s.bankMsgs := rfl
@[simp] theorem State.updPort_arf (n : Nat) (f : Port → Port) : (s.updPort n f).arf = s.arf := rfl
@[simp] theorem State.updPort_msc (n : Nat) (f : Port → Port) : (s.updPort n f).msc = s.msc := rfl
@[simp] theorem State.updPort_mscStat (n : Nat) (f : Port → Port) : (s.updPort n f).mscStat = s.mscStat := rfl
@[simp] theorem State.updPort_rounds (n : Nat) (f : Port → Port) : (s.updPort n f).rounds = s.rounds := rfl
@[simp] theorem State.updPort_roundStall (n : Nat) (f : Port → Port) : (s.updPort n f).roundStall = s.roundStall := rfl
@[simp] theorem State.updPort_pushes (n : Nat) (f : Port → Port) : (s.updPort n f).pushes = s.pushes := rfl
@[simp] theorem State.updPort_sliceq (n : Nat) (f : Port → Port) : (s.updPort n f).sliceq = s.sliceq := rfl
@[simp] theorem State.updPort_insertions (n : Nat) (f : Port → Port) : (s.updPort n f).insertions = s.insertions := rfl
@[simp] theorem State.updPort_freedPages (n : Nat) (f : Port → Port) : (s.updPort n f).freedPages = s.freedPages := rfl
@[simp] theorem State.updPort_kvAudit (n : Nat) (f : Port → Port) : (s.updPort n f).kvAudit = s.kvAudit := rfl
@[simp] theorem State.updPort_pfxStat (n : Nat) (f : Port → Port) : (s.updPort n f).pfxStat = s.pfxStat := rfl
@[simp] theorem State.updPort_rings (n : Nat) (f : Port → Port) : (s.updPort n f).rings = s.rings := rfl
@[simp] theorem State.updPort_stamps (n : Nat) (f : Port → Port) : (s.updPort n f).stamps = s.stamps := rfl
@[simp] theorem State.updPort_due (n : Nat) (f : Port → Port) : (s.updPort n f).due = s.due := rfl
@[simp] theorem State.updPort_agenda (n : Nat) (f : Port → Port) : (s.updPort n f).agenda = s.agenda := rfl
@[simp] theorem State.updPort_free (n : Nat) (f : Port → Port) : (s.updPort n f).free = s.free := rfl
@[simp] theorem State.updPort_fresh (n : Nat) (f : Port → Port) : (s.updPort n f).fresh = s.fresh := rfl

/-! ### `updRing` -/

@[simp] theorem State.updRing_pkg (n : Nat) (f : Ring → Ring) : (s.updRing n f).pkg = s.pkg := rfl
@[simp] theorem State.updRing_cur (n : Nat) (f : Ring → Ring) : (s.updRing n f).cur = s.cur := rfl
@[simp] theorem State.updRing_groups (n : Nat) (f : Ring → Ring) : (s.updRing n f).groups = s.groups := rfl
@[simp] theorem State.updRing_teams (n : Nat) (f : Ring → Ring) : (s.updRing n f).teams = s.teams := rfl
@[simp] theorem State.updRing_grids (n : Nat) (f : Ring → Ring) : (s.updRing n f).grids = s.grids := rfl
@[simp] theorem State.updRing_cmds (n : Nat) (f : Ring → Ring) : (s.updRing n f).cmds = s.cmds := rfl
@[simp] theorem State.updRing_cores (n : Nat) (f : Ring → Ring) : (s.updRing n f).cores = s.cores := rfl
@[simp] theorem State.updRing_ctxs (n : Nat) (f : Ring → Ring) : (s.updRing n f).ctxs = s.ctxs := rfl
@[simp] theorem State.updRing_oz (n : Nat) (f : Ring → Ring) : (s.updRing n f).oz = s.oz := rfl
@[simp] theorem State.updRing_mem (n : Nat) (f : Ring → Ring) : (s.updRing n f).mem = s.mem := rfl
@[simp] theorem State.updRing_poison (n : Nat) (f : Ring → Ring) : (s.updRing n f).poison = s.poison := rfl
@[simp] theorem State.updRing_peerMem (n : Nat) (f : Ring → Ring) : (s.updRing n f).peerMem = s.peerMem := rfl
@[simp] theorem State.updRing_peerPoison (n : Nat) (f : Ring → Ring) : (s.updRing n f).peerPoison = s.peerPoison := rfl
@[simp] theorem State.updRing_ozMem (n : Nat) (f : Ring → Ring) : (s.updRing n f).ozMem = s.ozMem := rfl
@[simp] theorem State.updRing_hostMem (n : Nat) (f : Ring → Ring) : (s.updRing n f).hostMem = s.hostMem := rfl
@[simp] theorem State.updRing_host (n : Nat) (f : Ring → Ring) : (s.updRing n f).host = s.host := rfl
@[simp] theorem State.updRing_dram (n : Nat) (f : Ring → Ring) : (s.updRing n f).dram = s.dram := rfl
@[simp] theorem State.updRing_eccErr (n : Nat) (f : Ring → Ring) : (s.updRing n f).eccErr = s.eccErr := rfl
@[simp] theorem State.updRing_l2 (n : Nat) (f : Ring → Ring) : (s.updRing n f).l2 = s.l2 := rfl
@[simp] theorem State.updRing_tlb (n : Nat) (f : Ring → Ring) : (s.updRing n f).tlb = s.tlb := rfl
@[simp] theorem State.updRing_rmap (n : Nat) (f : Ring → Ring) : (s.updRing n f).rmap = s.rmap := rfl
@[simp] theorem State.updRing_hostWalks (n : Nat) (f : Ring → Ring) : (s.updRing n f).hostWalks = s.hostWalks := rfl
@[simp] theorem State.updRing_lightSvcs (n : Nat) (f : Ring → Ring) : (s.updRing n f).lightSvcs = s.lightSvcs := rfl
@[simp] theorem State.updRing_migHeat (n : Nat) (f : Ring → Ring) : (s.updRing n f).migHeat = s.migHeat := rfl
@[simp] theorem State.updRing_migrs (n : Nat) (f : Ring → Ring) : (s.updRing n f).migrs = s.migrs := rfl
@[simp] theorem State.updRing_freeFrames (n : Nat) (f : Ring → Ring) : (s.updRing n f).freeFrames = s.freeFrames := rfl
@[simp] theorem State.updRing_migStat (n : Nat) (f : Ring → Ring) : (s.updRing n f).migStat = s.migStat := rfl
@[simp] theorem State.updRing_migAbort (n : Nat) (f : Ring → Ring) : (s.updRing n f).migAbort = s.migAbort := rfl
@[simp] theorem State.updRing_migSeq (n : Nat) (f : Ring → Ring) : (s.updRing n f).migSeq = s.migSeq := rfl
@[simp] theorem State.updRing_ports (n : Nat) (f : Ring → Ring) : (s.updRing n f).ports = s.ports := rfl
@[simp] theorem State.updRing_updates (n : Nat) (f : Ring → Ring) : (s.updRing n f).updates = s.updates := rfl
@[simp] theorem State.updRing_stores (n : Nat) (f : Ring → Ring) : (s.updRing n f).stores = s.stores := rfl
@[simp] theorem State.updRing_bankq (n : Nat) (f : Ring → Ring) : (s.updRing n f).bankq = s.bankq := rfl
@[simp] theorem State.updRing_bankMsgs (n : Nat) (f : Ring → Ring) : (s.updRing n f).bankMsgs = s.bankMsgs := rfl
@[simp] theorem State.updRing_arf (n : Nat) (f : Ring → Ring) : (s.updRing n f).arf = s.arf := rfl
@[simp] theorem State.updRing_msc (n : Nat) (f : Ring → Ring) : (s.updRing n f).msc = s.msc := rfl
@[simp] theorem State.updRing_mscStat (n : Nat) (f : Ring → Ring) : (s.updRing n f).mscStat = s.mscStat := rfl
@[simp] theorem State.updRing_rounds (n : Nat) (f : Ring → Ring) : (s.updRing n f).rounds = s.rounds := rfl
@[simp] theorem State.updRing_roundStall (n : Nat) (f : Ring → Ring) : (s.updRing n f).roundStall = s.roundStall := rfl
@[simp] theorem State.updRing_pushes (n : Nat) (f : Ring → Ring) : (s.updRing n f).pushes = s.pushes := rfl
@[simp] theorem State.updRing_sliceq (n : Nat) (f : Ring → Ring) : (s.updRing n f).sliceq = s.sliceq := rfl
@[simp] theorem State.updRing_insertions (n : Nat) (f : Ring → Ring) : (s.updRing n f).insertions = s.insertions := rfl
@[simp] theorem State.updRing_freedPages (n : Nat) (f : Ring → Ring) : (s.updRing n f).freedPages = s.freedPages := rfl
@[simp] theorem State.updRing_kvAudit (n : Nat) (f : Ring → Ring) : (s.updRing n f).kvAudit = s.kvAudit := rfl
@[simp] theorem State.updRing_pfxStat (n : Nat) (f : Ring → Ring) : (s.updRing n f).pfxStat = s.pfxStat := rfl
@[simp] theorem State.updRing_stamps (n : Nat) (f : Ring → Ring) : (s.updRing n f).stamps = s.stamps := rfl
@[simp] theorem State.updRing_due (n : Nat) (f : Ring → Ring) : (s.updRing n f).due = s.due := rfl
@[simp] theorem State.updRing_agenda (n : Nat) (f : Ring → Ring) : (s.updRing n f).agenda = s.agenda := rfl
@[simp] theorem State.updRing_free (n : Nat) (f : Ring → Ring) : (s.updRing n f).free = s.free := rfl
@[simp] theorem State.updRing_fresh (n : Nat) (f : Ring → Ring) : (s.updRing n f).fresh = s.fresh := rfl

/-! ### `updCmd` -/

@[simp] theorem State.updCmd_pkg (n : Nat) (f : Cmd → Cmd) : (s.updCmd n f).pkg = s.pkg := rfl
@[simp] theorem State.updCmd_cur (n : Nat) (f : Cmd → Cmd) : (s.updCmd n f).cur = s.cur := rfl
@[simp] theorem State.updCmd_groups (n : Nat) (f : Cmd → Cmd) : (s.updCmd n f).groups = s.groups := rfl
@[simp] theorem State.updCmd_teams (n : Nat) (f : Cmd → Cmd) : (s.updCmd n f).teams = s.teams := rfl
@[simp] theorem State.updCmd_grids (n : Nat) (f : Cmd → Cmd) : (s.updCmd n f).grids = s.grids := rfl
@[simp] theorem State.updCmd_cores (n : Nat) (f : Cmd → Cmd) : (s.updCmd n f).cores = s.cores := rfl
@[simp] theorem State.updCmd_ctxs (n : Nat) (f : Cmd → Cmd) : (s.updCmd n f).ctxs = s.ctxs := rfl
@[simp] theorem State.updCmd_oz (n : Nat) (f : Cmd → Cmd) : (s.updCmd n f).oz = s.oz := rfl
@[simp] theorem State.updCmd_mem (n : Nat) (f : Cmd → Cmd) : (s.updCmd n f).mem = s.mem := rfl
@[simp] theorem State.updCmd_poison (n : Nat) (f : Cmd → Cmd) : (s.updCmd n f).poison = s.poison := rfl
@[simp] theorem State.updCmd_peerMem (n : Nat) (f : Cmd → Cmd) : (s.updCmd n f).peerMem = s.peerMem := rfl
@[simp] theorem State.updCmd_peerPoison (n : Nat) (f : Cmd → Cmd) : (s.updCmd n f).peerPoison = s.peerPoison := rfl
@[simp] theorem State.updCmd_ozMem (n : Nat) (f : Cmd → Cmd) : (s.updCmd n f).ozMem = s.ozMem := rfl
@[simp] theorem State.updCmd_hostMem (n : Nat) (f : Cmd → Cmd) : (s.updCmd n f).hostMem = s.hostMem := rfl
@[simp] theorem State.updCmd_host (n : Nat) (f : Cmd → Cmd) : (s.updCmd n f).host = s.host := rfl
@[simp] theorem State.updCmd_dram (n : Nat) (f : Cmd → Cmd) : (s.updCmd n f).dram = s.dram := rfl
@[simp] theorem State.updCmd_eccErr (n : Nat) (f : Cmd → Cmd) : (s.updCmd n f).eccErr = s.eccErr := rfl
@[simp] theorem State.updCmd_l2 (n : Nat) (f : Cmd → Cmd) : (s.updCmd n f).l2 = s.l2 := rfl
@[simp] theorem State.updCmd_tlb (n : Nat) (f : Cmd → Cmd) : (s.updCmd n f).tlb = s.tlb := rfl
@[simp] theorem State.updCmd_rmap (n : Nat) (f : Cmd → Cmd) : (s.updCmd n f).rmap = s.rmap := rfl
@[simp] theorem State.updCmd_hostWalks (n : Nat) (f : Cmd → Cmd) : (s.updCmd n f).hostWalks = s.hostWalks := rfl
@[simp] theorem State.updCmd_lightSvcs (n : Nat) (f : Cmd → Cmd) : (s.updCmd n f).lightSvcs = s.lightSvcs := rfl
@[simp] theorem State.updCmd_migHeat (n : Nat) (f : Cmd → Cmd) : (s.updCmd n f).migHeat = s.migHeat := rfl
@[simp] theorem State.updCmd_migrs (n : Nat) (f : Cmd → Cmd) : (s.updCmd n f).migrs = s.migrs := rfl
@[simp] theorem State.updCmd_freeFrames (n : Nat) (f : Cmd → Cmd) : (s.updCmd n f).freeFrames = s.freeFrames := rfl
@[simp] theorem State.updCmd_migStat (n : Nat) (f : Cmd → Cmd) : (s.updCmd n f).migStat = s.migStat := rfl
@[simp] theorem State.updCmd_migAbort (n : Nat) (f : Cmd → Cmd) : (s.updCmd n f).migAbort = s.migAbort := rfl
@[simp] theorem State.updCmd_migSeq (n : Nat) (f : Cmd → Cmd) : (s.updCmd n f).migSeq = s.migSeq := rfl
@[simp] theorem State.updCmd_ports (n : Nat) (f : Cmd → Cmd) : (s.updCmd n f).ports = s.ports := rfl
@[simp] theorem State.updCmd_updates (n : Nat) (f : Cmd → Cmd) : (s.updCmd n f).updates = s.updates := rfl
@[simp] theorem State.updCmd_stores (n : Nat) (f : Cmd → Cmd) : (s.updCmd n f).stores = s.stores := rfl
@[simp] theorem State.updCmd_bankq (n : Nat) (f : Cmd → Cmd) : (s.updCmd n f).bankq = s.bankq := rfl
@[simp] theorem State.updCmd_bankMsgs (n : Nat) (f : Cmd → Cmd) : (s.updCmd n f).bankMsgs = s.bankMsgs := rfl
@[simp] theorem State.updCmd_arf (n : Nat) (f : Cmd → Cmd) : (s.updCmd n f).arf = s.arf := rfl
@[simp] theorem State.updCmd_msc (n : Nat) (f : Cmd → Cmd) : (s.updCmd n f).msc = s.msc := rfl
@[simp] theorem State.updCmd_mscStat (n : Nat) (f : Cmd → Cmd) : (s.updCmd n f).mscStat = s.mscStat := rfl
@[simp] theorem State.updCmd_rounds (n : Nat) (f : Cmd → Cmd) : (s.updCmd n f).rounds = s.rounds := rfl
@[simp] theorem State.updCmd_roundStall (n : Nat) (f : Cmd → Cmd) : (s.updCmd n f).roundStall = s.roundStall := rfl
@[simp] theorem State.updCmd_pushes (n : Nat) (f : Cmd → Cmd) : (s.updCmd n f).pushes = s.pushes := rfl
@[simp] theorem State.updCmd_sliceq (n : Nat) (f : Cmd → Cmd) : (s.updCmd n f).sliceq = s.sliceq := rfl
@[simp] theorem State.updCmd_insertions (n : Nat) (f : Cmd → Cmd) : (s.updCmd n f).insertions = s.insertions := rfl
@[simp] theorem State.updCmd_freedPages (n : Nat) (f : Cmd → Cmd) : (s.updCmd n f).freedPages = s.freedPages := rfl
@[simp] theorem State.updCmd_kvAudit (n : Nat) (f : Cmd → Cmd) : (s.updCmd n f).kvAudit = s.kvAudit := rfl
@[simp] theorem State.updCmd_pfxStat (n : Nat) (f : Cmd → Cmd) : (s.updCmd n f).pfxStat = s.pfxStat := rfl
@[simp] theorem State.updCmd_rings (n : Nat) (f : Cmd → Cmd) : (s.updCmd n f).rings = s.rings := rfl
@[simp] theorem State.updCmd_stamps (n : Nat) (f : Cmd → Cmd) : (s.updCmd n f).stamps = s.stamps := rfl
@[simp] theorem State.updCmd_due (n : Nat) (f : Cmd → Cmd) : (s.updCmd n f).due = s.due := rfl
@[simp] theorem State.updCmd_agenda (n : Nat) (f : Cmd → Cmd) : (s.updCmd n f).agenda = s.agenda := rfl
@[simp] theorem State.updCmd_free (n : Nat) (f : Cmd → Cmd) : (s.updCmd n f).free = s.free := rfl
@[simp] theorem State.updCmd_fresh (n : Nat) (f : Cmd → Cmd) : (s.updCmd n f).fresh = s.fresh := rfl

/-! ### `setLine` -/

@[simp] theorem State.setLine_pkg (n : Nat) (va : Quad) (l : L2Line) : (s.setLine n va l).pkg = s.pkg := rfl
@[simp] theorem State.setLine_cur (n : Nat) (va : Quad) (l : L2Line) : (s.setLine n va l).cur = s.cur := rfl
@[simp] theorem State.setLine_groups (n : Nat) (va : Quad) (l : L2Line) : (s.setLine n va l).groups = s.groups := rfl
@[simp] theorem State.setLine_teams (n : Nat) (va : Quad) (l : L2Line) : (s.setLine n va l).teams = s.teams := rfl
@[simp] theorem State.setLine_grids (n : Nat) (va : Quad) (l : L2Line) : (s.setLine n va l).grids = s.grids := rfl
@[simp] theorem State.setLine_cmds (n : Nat) (va : Quad) (l : L2Line) : (s.setLine n va l).cmds = s.cmds := rfl
@[simp] theorem State.setLine_cores (n : Nat) (va : Quad) (l : L2Line) : (s.setLine n va l).cores = s.cores := rfl
@[simp] theorem State.setLine_ctxs (n : Nat) (va : Quad) (l : L2Line) : (s.setLine n va l).ctxs = s.ctxs := rfl
@[simp] theorem State.setLine_oz (n : Nat) (va : Quad) (l : L2Line) : (s.setLine n va l).oz = s.oz := rfl
@[simp] theorem State.setLine_mem (n : Nat) (va : Quad) (l : L2Line) : (s.setLine n va l).mem = s.mem := rfl
@[simp] theorem State.setLine_poison (n : Nat) (va : Quad) (l : L2Line) : (s.setLine n va l).poison = s.poison := rfl
@[simp] theorem State.setLine_peerMem (n : Nat) (va : Quad) (l : L2Line) : (s.setLine n va l).peerMem = s.peerMem := rfl
@[simp] theorem State.setLine_peerPoison (n : Nat) (va : Quad) (l : L2Line) : (s.setLine n va l).peerPoison = s.peerPoison := rfl
@[simp] theorem State.setLine_ozMem (n : Nat) (va : Quad) (l : L2Line) : (s.setLine n va l).ozMem = s.ozMem := rfl
@[simp] theorem State.setLine_hostMem (n : Nat) (va : Quad) (l : L2Line) : (s.setLine n va l).hostMem = s.hostMem := rfl
@[simp] theorem State.setLine_host (n : Nat) (va : Quad) (l : L2Line) : (s.setLine n va l).host = s.host := rfl
@[simp] theorem State.setLine_dram (n : Nat) (va : Quad) (l : L2Line) : (s.setLine n va l).dram = s.dram := rfl
@[simp] theorem State.setLine_eccErr (n : Nat) (va : Quad) (l : L2Line) : (s.setLine n va l).eccErr = s.eccErr := rfl
@[simp] theorem State.setLine_tlb (n : Nat) (va : Quad) (l : L2Line) : (s.setLine n va l).tlb = s.tlb := rfl
@[simp] theorem State.setLine_rmap (n : Nat) (va : Quad) (l : L2Line) : (s.setLine n va l).rmap = s.rmap := rfl
@[simp] theorem State.setLine_hostWalks (n : Nat) (va : Quad) (l : L2Line) : (s.setLine n va l).hostWalks = s.hostWalks := rfl
@[simp] theorem State.setLine_lightSvcs (n : Nat) (va : Quad) (l : L2Line) : (s.setLine n va l).lightSvcs = s.lightSvcs := rfl
@[simp] theorem State.setLine_migHeat (n : Nat) (va : Quad) (l : L2Line) : (s.setLine n va l).migHeat = s.migHeat := rfl
@[simp] theorem State.setLine_migrs (n : Nat) (va : Quad) (l : L2Line) : (s.setLine n va l).migrs = s.migrs := rfl
@[simp] theorem State.setLine_freeFrames (n : Nat) (va : Quad) (l : L2Line) : (s.setLine n va l).freeFrames = s.freeFrames := rfl
@[simp] theorem State.setLine_migStat (n : Nat) (va : Quad) (l : L2Line) : (s.setLine n va l).migStat = s.migStat := rfl
@[simp] theorem State.setLine_migAbort (n : Nat) (va : Quad) (l : L2Line) : (s.setLine n va l).migAbort = s.migAbort := rfl
@[simp] theorem State.setLine_migSeq (n : Nat) (va : Quad) (l : L2Line) : (s.setLine n va l).migSeq = s.migSeq := rfl
@[simp] theorem State.setLine_ports (n : Nat) (va : Quad) (l : L2Line) : (s.setLine n va l).ports = s.ports := rfl
@[simp] theorem State.setLine_updates (n : Nat) (va : Quad) (l : L2Line) : (s.setLine n va l).updates = s.updates := rfl
@[simp] theorem State.setLine_stores (n : Nat) (va : Quad) (l : L2Line) : (s.setLine n va l).stores = s.stores := rfl
@[simp] theorem State.setLine_bankq (n : Nat) (va : Quad) (l : L2Line) : (s.setLine n va l).bankq = s.bankq := rfl
@[simp] theorem State.setLine_bankMsgs (n : Nat) (va : Quad) (l : L2Line) : (s.setLine n va l).bankMsgs = s.bankMsgs := rfl
@[simp] theorem State.setLine_arf (n : Nat) (va : Quad) (l : L2Line) : (s.setLine n va l).arf = s.arf := rfl
@[simp] theorem State.setLine_msc (n : Nat) (va : Quad) (l : L2Line) : (s.setLine n va l).msc = s.msc := rfl
@[simp] theorem State.setLine_mscStat (n : Nat) (va : Quad) (l : L2Line) : (s.setLine n va l).mscStat = s.mscStat := rfl
@[simp] theorem State.setLine_rounds (n : Nat) (va : Quad) (l : L2Line) : (s.setLine n va l).rounds = s.rounds := rfl
@[simp] theorem State.setLine_roundStall (n : Nat) (va : Quad) (l : L2Line) : (s.setLine n va l).roundStall = s.roundStall := rfl
@[simp] theorem State.setLine_pushes (n : Nat) (va : Quad) (l : L2Line) : (s.setLine n va l).pushes = s.pushes := rfl
@[simp] theorem State.setLine_sliceq (n : Nat) (va : Quad) (l : L2Line) : (s.setLine n va l).sliceq = s.sliceq := rfl
@[simp] theorem State.setLine_insertions (n : Nat) (va : Quad) (l : L2Line) : (s.setLine n va l).insertions = s.insertions := rfl
@[simp] theorem State.setLine_freedPages (n : Nat) (va : Quad) (l : L2Line) : (s.setLine n va l).freedPages = s.freedPages := rfl
@[simp] theorem State.setLine_kvAudit (n : Nat) (va : Quad) (l : L2Line) : (s.setLine n va l).kvAudit = s.kvAudit := rfl
@[simp] theorem State.setLine_pfxStat (n : Nat) (va : Quad) (l : L2Line) : (s.setLine n va l).pfxStat = s.pfxStat := rfl
@[simp] theorem State.setLine_rings (n : Nat) (va : Quad) (l : L2Line) : (s.setLine n va l).rings = s.rings := rfl
@[simp] theorem State.setLine_stamps (n : Nat) (va : Quad) (l : L2Line) : (s.setLine n va l).stamps = s.stamps := rfl
@[simp] theorem State.setLine_due (n : Nat) (va : Quad) (l : L2Line) : (s.setLine n va l).due = s.due := rfl
@[simp] theorem State.setLine_agenda (n : Nat) (va : Quad) (l : L2Line) : (s.setLine n va l).agenda = s.agenda := rfl
@[simp] theorem State.setLine_free (n : Nat) (va : Quad) (l : L2Line) : (s.setLine n va l).free = s.free := rfl
@[simp] theorem State.setLine_fresh (n : Nat) (va : Quad) (l : L2Line) : (s.setLine n va l).fresh = s.fresh := rfl

/-! ### `advance` -/

@[simp] theorem State.advance_cur (n : Nat) : (s.advance n).cur = s.cur := rfl
@[simp] theorem State.advance_groups (n : Nat) : (s.advance n).groups = s.groups := rfl
@[simp] theorem State.advance_teams (n : Nat) : (s.advance n).teams = s.teams := rfl
@[simp] theorem State.advance_grids (n : Nat) : (s.advance n).grids = s.grids := rfl
@[simp] theorem State.advance_cmds (n : Nat) : (s.advance n).cmds = s.cmds := rfl
@[simp] theorem State.advance_cores (n : Nat) : (s.advance n).cores = s.cores := rfl
@[simp] theorem State.advance_ctxs (n : Nat) : (s.advance n).ctxs = s.ctxs := rfl
@[simp] theorem State.advance_oz (n : Nat) : (s.advance n).oz = s.oz := rfl
@[simp] theorem State.advance_mem (n : Nat) : (s.advance n).mem = s.mem := rfl
@[simp] theorem State.advance_poison (n : Nat) : (s.advance n).poison = s.poison := rfl
@[simp] theorem State.advance_peerMem (n : Nat) : (s.advance n).peerMem = s.peerMem := rfl
@[simp] theorem State.advance_peerPoison (n : Nat) : (s.advance n).peerPoison = s.peerPoison := rfl
@[simp] theorem State.advance_ozMem (n : Nat) : (s.advance n).ozMem = s.ozMem := rfl
@[simp] theorem State.advance_hostMem (n : Nat) : (s.advance n).hostMem = s.hostMem := rfl
@[simp] theorem State.advance_host (n : Nat) : (s.advance n).host = s.host := rfl
@[simp] theorem State.advance_dram (n : Nat) : (s.advance n).dram = s.dram := rfl
@[simp] theorem State.advance_eccErr (n : Nat) : (s.advance n).eccErr = s.eccErr := rfl
@[simp] theorem State.advance_l2 (n : Nat) : (s.advance n).l2 = s.l2 := rfl
@[simp] theorem State.advance_tlb (n : Nat) : (s.advance n).tlb = s.tlb := rfl
@[simp] theorem State.advance_rmap (n : Nat) : (s.advance n).rmap = s.rmap := rfl
@[simp] theorem State.advance_hostWalks (n : Nat) : (s.advance n).hostWalks = s.hostWalks := rfl
@[simp] theorem State.advance_lightSvcs (n : Nat) : (s.advance n).lightSvcs = s.lightSvcs := rfl
@[simp] theorem State.advance_migHeat (n : Nat) : (s.advance n).migHeat = s.migHeat := rfl
@[simp] theorem State.advance_migrs (n : Nat) : (s.advance n).migrs = s.migrs := rfl
@[simp] theorem State.advance_freeFrames (n : Nat) : (s.advance n).freeFrames = s.freeFrames := rfl
@[simp] theorem State.advance_migStat (n : Nat) : (s.advance n).migStat = s.migStat := rfl
@[simp] theorem State.advance_migAbort (n : Nat) : (s.advance n).migAbort = s.migAbort := rfl
@[simp] theorem State.advance_migSeq (n : Nat) : (s.advance n).migSeq = s.migSeq := rfl
@[simp] theorem State.advance_ports (n : Nat) : (s.advance n).ports = s.ports := rfl
@[simp] theorem State.advance_updates (n : Nat) : (s.advance n).updates = s.updates := rfl
@[simp] theorem State.advance_stores (n : Nat) : (s.advance n).stores = s.stores := rfl
@[simp] theorem State.advance_bankq (n : Nat) : (s.advance n).bankq = s.bankq := rfl
@[simp] theorem State.advance_bankMsgs (n : Nat) : (s.advance n).bankMsgs = s.bankMsgs := rfl
@[simp] theorem State.advance_arf (n : Nat) : (s.advance n).arf = s.arf := rfl
@[simp] theorem State.advance_msc (n : Nat) : (s.advance n).msc = s.msc := rfl
@[simp] theorem State.advance_mscStat (n : Nat) : (s.advance n).mscStat = s.mscStat := rfl
@[simp] theorem State.advance_rounds (n : Nat) : (s.advance n).rounds = s.rounds := rfl
@[simp] theorem State.advance_roundStall (n : Nat) : (s.advance n).roundStall = s.roundStall := rfl
@[simp] theorem State.advance_pushes (n : Nat) : (s.advance n).pushes = s.pushes := rfl
@[simp] theorem State.advance_sliceq (n : Nat) : (s.advance n).sliceq = s.sliceq := rfl
@[simp] theorem State.advance_insertions (n : Nat) : (s.advance n).insertions = s.insertions := rfl
@[simp] theorem State.advance_freedPages (n : Nat) : (s.advance n).freedPages = s.freedPages := rfl
@[simp] theorem State.advance_kvAudit (n : Nat) : (s.advance n).kvAudit = s.kvAudit := rfl
@[simp] theorem State.advance_pfxStat (n : Nat) : (s.advance n).pfxStat = s.pfxStat := rfl
@[simp] theorem State.advance_rings (n : Nat) : (s.advance n).rings = s.rings := rfl
@[simp] theorem State.advance_stamps (n : Nat) : (s.advance n).stamps = s.stamps := rfl
@[simp] theorem State.advance_due (n : Nat) : (s.advance n).due = s.due := rfl
@[simp] theorem State.advance_agenda (n : Nat) : (s.advance n).agenda = s.agenda := rfl
@[simp] theorem State.advance_free (n : Nat) : (s.advance n).free = s.free := rfl
@[simp] theorem State.advance_fresh (n : Nat) : (s.advance n).fresh = s.fresh := rfl

end Sys2Proof.Machine
end

