-- ==== Sys2Proof/Laws/Tbl.lean ====
section
/-! SUPPORT. Laws of tables: reading after a write, and the rising order of the keys. -/

namespace Sys2Proof

variable {α : Type}

@[simp] theorem Tbl.get?_nil (k : Nat) : Tbl.get? ([] : Tbl α) k = none := rfl

theorem Tbl.get?_set_self (t : Tbl α) (k : Nat) (v : α) : (t.set k v).get? k = some v := by
  induction t with
  | nil => simp [Tbl.set, Tbl.get?]
  | cons e t ih =>
    obtain ⟨a, x⟩ := e
    simp only [Tbl.set]
    split
    · simp [Tbl.get?]
    · split
      · simp [Tbl.get?]
      · next h => simp [Tbl.get?, h, ih]

theorem Tbl.get?_set_ne (t : Tbl α) {k j : Nat} (v : α) (h : k ≠ j) : (t.set k v).get? j = t.get? j := by
  induction t with
  | nil => simp [Tbl.set, Tbl.get?, h]
  | cons e t ih =>
    obtain ⟨a, x⟩ := e
    simp only [Tbl.set]
    split
    · simp [Tbl.get?, h]
    · split
      · next h2 => subst h2; simp [Tbl.get?, h]
      · simp only [Tbl.get?, ih]

theorem Tbl.get?_set (t : Tbl α) (k j : Nat) (v : α) : (t.set k v).get? j = if k = j then some v else t.get? j := by
  by_cases h : k = j
  · subst h; simp [Tbl.get?_set_self]
  · simp [h, Tbl.get?_set_ne t v h]

@[simp] theorem Tbl.getD_set_self (t : Tbl α) (k : Nat) (v d : α) : (t.set k v).getD k d = v := by
  simp [Tbl.getD, Tbl.get?_set_self]

theorem Tbl.getD_set_ne (t : Tbl α) {k j : Nat} (v d : α) (h : k ≠ j) : (t.set k v).getD j d = t.getD j d := by
  simp [Tbl.getD, Tbl.get?_set_ne t v h]

theorem Tbl.get?_filter (t : Tbl α) (p : Nat → Bool) (k : Nat) :
    Tbl.get? (List.filter (fun e => p e.1) t) k = if p k then t.get? k else none := by
  induction t with
  | nil => simp [Tbl.get?]
  | cons e t ih =>
    obtain ⟨a, x⟩ := e
    by_cases ha : p a
    · simp only [List.filter_cons, ha, if_true, Tbl.get?]
      by_cases hk : a = k
      · subst hk; simp [ha]
      · simp [hk, ih]
    · simp only [List.filter_cons, ha, Tbl.get?]
      by_cases hk : a = k
      · subst hk; simp [ha, ih]
      · simp [hk, ih]

theorem Tbl.get?_del (t : Tbl α) (k j : Nat) : (t.del k).get? j = if j = k then none else t.get? j := by
  have h := Tbl.get?_filter t (fun a => a != k) j
  unfold Tbl.del
  rw [h]
  by_cases hj : j = k <;> simp [hj]

theorem Tbl.get?_modify_self (t : Tbl α) (k : Nat) (f : α → α) : (t.modify k f).get? k = (t.get? k).map f := by
  unfold Tbl.modify
  split
  · next x hx => simp [Tbl.get?_set_self, hx]
  · next hx => simp [hx]

theorem Tbl.get?_modify_ne (t : Tbl α) {k j : Nat} (f : α → α) (h : k ≠ j) : (t.modify k f).get? j = t.get? j := by
  unfold Tbl.modify
  split
  · exact Tbl.get?_set_ne t _ h
  · rfl

/-! ### Order -/

/-- Every key of a table lies above a number. -/
def Tbl.above (t : Tbl α) (n : Nat) : Bool := t.all fun e => n < e.1

theorem Tbl.sorted_cons (a : Nat) (x : α) (t : Tbl α) : Tbl.sorted ((a, x) :: t) = true ↔ t.above a = true ∧ t.sorted = true := by
  induction t generalizing a x with
  | nil => simp [Tbl.sorted, Tbl.above]
  | cons e t ih =>
    obtain ⟨b, y⟩ := e
    have hb := ih b y
    simp only [Tbl.sorted, Tbl.above, List.all_cons, Bool.and_eq_true, decide_eq_true_eq] at *
    constructor
    · rintro ⟨h1, h2⟩
      refine ⟨⟨h1, ?_⟩, h2⟩
      have h3 := (hb.mp h2).1
      rw [List.all_eq_true] at h3 ⊢
      intro e he
      have := h3 e he
      simp only [decide_eq_true_eq] at *
      omega
    · rintro ⟨⟨h1, _⟩, h2⟩
      exact ⟨h1, h2⟩

theorem Tbl.above_set (t : Tbl α) (k n : Nat) (v : α) (h : t.above n = true) (hk : n < k) : (t.set k v).above n = true := by
  induction t with
  | nil => simp [Tbl.set, Tbl.above, hk]
  | cons e t ih =>
    obtain ⟨a, x⟩ := e
    simp only [Tbl.above, List.all_cons, Bool.and_eq_true, decide_eq_true_eq] at h
    have ih := ih h.2
    simp only [Tbl.set]
    split
    · simp only [Tbl.above, List.all_cons, Bool.and_eq_true, decide_eq_true_eq]
      exact ⟨hk, h.1, h.2⟩
    · split
      · simp only [Tbl.above, List.all_cons, Bool.and_eq_true, decide_eq_true_eq]
        exact ⟨hk, h.2⟩
      · simp only [Tbl.above, List.all_cons, Bool.and_eq_true, decide_eq_true_eq]
        exact ⟨h.1, ih⟩

theorem Tbl.above_mono (t : Tbl α) {m n : Nat} (h : t.above n = true) (hm : m ≤ n) : t.above m = true := by
  unfold Tbl.above at *
  rw [List.all_eq_true] at *
  intro e he
  have := h e he
  simp only [decide_eq_true_eq] at *
  omega

/-- Storing a value keeps the order. -/
theorem Tbl.sorted_set (t : Tbl α) (k : Nat) (v : α) (h : t.sorted = true) : (t.set k v).sorted = true := by
  induction t with
  | nil => simp [Tbl.set, Tbl.sorted]
  | cons e t ih =>
    obtain ⟨a, x⟩ := e
    have ⟨h1, h2⟩ := (Tbl.sorted_cons a x t).mp h
    simp only [Tbl.set]
    split
    · next hk =>
      refine (Tbl.sorted_cons _ _ _).mpr ⟨?_, h⟩
      have := Tbl.above_mono t h1 (Nat.le_of_lt hk)
      simp only [Tbl.above, List.all_cons, Bool.and_eq_true, decide_eq_true_eq] at *
      exact ⟨hk, this⟩
    · split
      · next h3 => subst h3; exact (Tbl.sorted_cons _ _ _).mpr ⟨h1, h2⟩
      · exact (Tbl.sorted_cons _ _ _).mpr ⟨Tbl.above_set t k a v h1 (by omega), ih h2⟩

/-- Removing entries keeps the order. -/
theorem Tbl.sorted_filter (t : Tbl α) (p : Nat × α → Bool) (h : t.sorted = true) : Tbl.sorted (List.filter p t) = true := by
  induction t with
  | nil => simpa using h
  | cons e t ih =>
    obtain ⟨a, x⟩ := e
    have ⟨h1, h2⟩ := (Tbl.sorted_cons a x t).mp h
    simp only [List.filter_cons]
    split
    · refine (Tbl.sorted_cons _ _ _).mpr ⟨?_, ih h2⟩
      unfold Tbl.above at *
      rw [List.all_eq_true] at *
      intro e he
      exact h1 e (List.mem_filter.mp he).1
    · exact ih h2

theorem Tbl.sorted_del (t : Tbl α) (k : Nat) (h : t.sorted = true) : (t.del k).sorted = true := Tbl.sorted_filter t _ h

theorem Tbl.sorted_modify (t : Tbl α) (k : Nat) (f : α → α) (h : t.sorted = true) : (t.modify k f).sorted = true := by
  unfold Tbl.modify
  split
  · exact Tbl.sorted_set t k _ h
  · exact h

/-- A table followed by one whose keys all lie above it. -/
theorem Tbl.sorted_append (t u : Tbl α) (ht : t.sorted = true) (hu : u.sorted = true) (h : ∀ e ∈ t, u.above e.1 = true) :
    Tbl.sorted (t ++ u) = true := by
  induction t with
  | nil => exact hu
  | cons e t ih =>
    obtain ⟨a, x⟩ := e
    have ⟨h1, h2⟩ := (Tbl.sorted_cons a x t).mp ht
    have h3 := h (a, x) List.mem_cons_self
    refine (Tbl.sorted_cons _ _ _).mpr ⟨List.all_eq_true.mpr fun f hf => ?_, ih h2 fun e he => h e (List.mem_cons_of_mem _ he)⟩
    rcases List.mem_append.mp hf with hf | hf
    · exact List.all_eq_true.mp h1 f hf
    · exact List.all_eq_true.mp h3 f hf

/-- What a table gives for a key stands in it. -/
theorem Tbl.mem_of_get? (t : Tbl α) (k : Nat) (v : α) (h : t.get? k = some v) : (k, v) ∈ t := by
  induction t with
  | nil => simp at h
  | cons e t ih =>
    obtain ⟨a, x⟩ := e
    simp only [Tbl.get?] at h
    split at h
    · next ha => subst ha; simp_all
    · exact List.mem_cons_of_mem _ (ih h)

theorem Tbl.get?_append (t u : Tbl α) (k : Nat) : Tbl.get? (t ++ u) k = (t.get? k).or (u.get? k) := by
  induction t with
  | nil => simp [Tbl.get?]
  | cons e t ih =>
    obtain ⟨a, x⟩ := e
    simp only [List.cons_append, Tbl.get?]
    split
    · rfl
    · exact ih

/-- A property of every entry is kept by storing an entry that has it. -/
theorem Tbl.all_set (t : Tbl α) (k : Nat) (v : α) (p : Nat × α → Bool) (h : t.all p = true) (hv : p (k, v) = true) :
    List.all (t.set k v) p = true := by
  induction t with
  | nil => simp [Tbl.set, hv]
  | cons e t ih =>
    obtain ⟨a, x⟩ := e
    simp only [List.all_cons, Bool.and_eq_true] at h
    simp only [Tbl.set]
    split
    · simp only [List.all_cons, Bool.and_eq_true]; exact ⟨hv, h.1, h.2⟩
    · split
      · simp only [List.all_cons, Bool.and_eq_true]; exact ⟨hv, h.2⟩
      · simp only [List.all_cons, Bool.and_eq_true]; exact ⟨h.1, ih h.2⟩

theorem Tbl.all_filter (t : Tbl α) (p q : Nat × α → Bool) (h : t.all p = true) : List.all (List.filter q t) p = true := by
  rw [List.all_eq_true] at *
  intro e he
  exact h e (List.mem_filter.mp he).1

end Sys2Proof
end

