-- ==== Sys2Proof/Laws/Issue.lean ====
section
/-! SUPPORT. Laws of the issuing group's registers, of last-use frees, and of the issue of a word. -/

namespace Sys2Proof.Machine

/-! ### The issuing group -/

theorem tbl_set_set {α : Type} (t : Tbl α) (k : Nat) (a b : α) : (t.set k a).set k b = t.set k b := by
  induction t with
  | nil => simp [Tbl.set]
  | cons e t ih =>
    obtain ⟨j, x⟩ := e
    simp only [Tbl.set]
    split
    · simp [Tbl.set]
    · split
      · simp [Tbl.set]
      · next h1 h2 => simp [Tbl.set, h1, h2, ih]

@[simp] theorem State.grp_setGrp (s : State) (g : Group) : (s.setGrp g).grp = g := by
  simp [State.grp, State.setGrp]

@[simp] theorem State.setGrp_setGrp (s : State) (g h : Group) : (s.setGrp g).setGrp h = s.setGrp h := by
  simp [State.setGrp, tbl_set_set]

@[simp] theorem State.grp_updGrp (s : State) (f : Group → Group) : (s.updGrp f).grp = f s.grp := by
  simp [State.updGrp]

@[simp] theorem State.updGrp_updGrp (s : State) (f h : Group → Group) : (s.updGrp f).updGrp h = s.updGrp fun g => h (f g) := by
  simp [State.updGrp]

theorem State.group_setGrp_ne (s : State) (g : Group) (n : Nat) (h : n ≠ s.cur) : (s.setGrp g).group n = s.group n := by
  simp only [State.group, State.setGrp]
  exact Tbl.getD_set_ne _ _ _ (Ne.symm h)

/-! ### Registers of a group -/

theorem Group.readV_writeV (g : Group) (r l q k : Nat) (x : Word) (hl : l < 16) (hk : k < 16) :
    (g.writeV r l x).readV q k = if r = q ∧ l = k then x else g.readV q k := by
  simp only [Group.readV, Group.writeV, Tbl.get?_set]
  by_cases h : r = q ∧ l = k
  · obtain ⟨rfl, rfl⟩ := h; simp
  · have : ¬ (16 * r + l = 16 * q + k) := by omega
    simp [h, this]

theorem Group.readV_writeLanes (g : Group) (r : Nat) (f : Nat → Word) (ls : List Nat) (q k : Nat) (hls : ∀ l ∈ ls, l < 16)
    (hk : k < 16) : (g.writeLanes r f ls).readV q k = if r = q ∧ k ∈ ls then f k else g.readV q k := by
  unfold Group.writeLanes
  induction ls generalizing g with
  | nil => simp
  | cons l ls ih =>
    simp only [List.foldl_cons]
    rw [ih _ (fun x hx => hls x (List.mem_cons_of_mem _ hx)), Group.readV_writeV _ _ _ _ _ _ (hls l (List.mem_cons_self ..)) hk]
    by_cases h3 : r = q ∧ l = k
    · obtain ⟨rfl, rfl⟩ := h3
      simp
    · by_cases h2 : k ∈ ls
      · simp [h2, h3]
      · have h4 : ¬ (r = q ∧ k = l) := fun h => h3 ⟨h.1, h.2.symm⟩
        have h5 : ¬ (r = q ∧ k ∈ l :: ls) := by
          rintro ⟨h, h'⟩
          rcases List.mem_cons.mp h' with h' | h'
          · exact h4 ⟨h, h'⟩
          · exact h2 h'
        rw [if_neg h3, if_neg h5, if_neg (fun h => h2 h.2)]

/-- The lanes of a mask. -/
theorem mem_lanesOf (m : Mask) (l : Nat) : l ∈ lanesOf m ↔ l < 16 ∧ m.getLsbD l = true := by
  simp [lanesOf]

theorem lanesOf_lt (m : Mask) : ∀ l ∈ lanesOf m, l < 16 := fun l h => ((mem_lanesOf m l).mp h).1

theorem lanesOf_eq_nil (m : Mask) : lanesOf m = [] ↔ m = 0 := by
  constructor
  · intro h
    apply BitVec.eq_of_getLsbD_eq
    intro i hi
    cases hb : m.getLsbD i with
    | false => exact (BitVec.getLsbD_zero).symm
    | true =>
      have : i ∈ lanesOf m := (mem_lanesOf m i).mpr ⟨hi, hb⟩
      rw [h] at this
      exact absurd this (List.not_mem_nil)
  · intro h
    subst h
    decide

@[simp] theorem Group.readS_zero (g : Group) : g.readS 0 = 0 := rfl

theorem Group.readS_writeS (g : Group) (r q : Nat) (x : Quad) :
    (g.writeS r x).readS q = if r = q ∧ r ≠ 0 then x else g.readS q := by
  unfold Group.writeS Group.readS
  by_cases hr : r = 0
  · simp [hr]
  · by_cases hq : q = 0
    · subst hq; simp [hr]
    · by_cases h : r = q
      · subst h; simp [hr]
      · simp [hr, hq, h, Tbl.getD_set_ne _ _ _ h]

theorem Group.readP_writeP (g : Group) (r q l : Nat) (m x : Mask) (hl : l < 16) :
    (g.writeP r m x).readP q l = if r = q ∧ m.getLsbD l = true then x.getLsbD l else g.readP q l := by
  unfold Group.readP Group.writeP Group.pred
  rw [Tbl.get?_set]
  by_cases h : r = q
  · subst h
    simp only [if_true, true_and, BitVec.getLsbD_or, BitVec.getLsbD_and, BitVec.getLsbD_not, hl, decide_true, Bool.true_and]
    cases m.getLsbD l <;> simp
  · simp [h]

/-- The members of a mask built from a list of lanes. -/
theorem getLsbD_maskOf (ls : List Nat) (l : Nat) (hl : l < 16) : (maskOf ls).getLsbD l = decide (l ∈ ls) := by
  have key : ∀ (ls : List Nat) (m : Mask), (ls.foldl (fun m k => m ||| laneBit k) m).getLsbD l = (m.getLsbD l || decide (l ∈ ls)) := by
    intro ls
    induction ls with
    | nil => simp
    | cons k ls ih =>
      intro m
      simp only [List.foldl_cons]
      rw [ih, BitVec.getLsbD_or]
      have : (laneBit k).getLsbD l = decide (l = k) := by
        unfold laneBit
        rw [BitVec.getLsbD_ofNat]
        simp only [hl, decide_true, Bool.true_and]
        rw [Nat.testBit_two_pow]
        simp [eq_comm]
      rw [this]
      by_cases h1 : l = k <;> by_cases h2 : l ∈ ls <;> simp [h1, h2]
  rw [maskOf, key]
  simp

/-! ### The end of a word -/

/-- What the end of a word without faults does to its group. -/
def Group.wordEnd (g : Group) (fin ctl : Bool) : Group :=
  ((if ctl then g else g.advance []).countWord.dropHints).onward (fin || ctl)

theorem State.finish_nil (s : State) (w : WordInfo) (ctl : Bool) : s.finish w [] ctl = s.updGrp fun g => g.wordEnd w.fin ctl := by
  simp [State.finish, State.meetFaults, State.takeFaults, Group.wordEnd]

@[simp] theorem Group.onward_v (g : Group) (b : Bool) : (g.onward b).v = g.v := by
  unfold Group.onward
  split
  · rfl
  · split <;> rfl
@[simp] theorem Group.onward_vseed (g : Group) (b : Bool) : (g.onward b).vseed = g.vseed := by
  unfold Group.onward
  split
  · rfl
  · split <;> rfl
@[simp] theorem Group.onward_tseed (g : Group) (b : Bool) : (g.onward b).tseed = g.tseed := by
  unfold Group.onward
  split
  · rfl
  · split <;> rfl
@[simp] theorem Group.onward_seed (g : Group) (b : Bool) : (g.onward b).seed = g.seed := by
  unfold Group.onward
  split
  · rfl
  · split <;> rfl
@[simp] theorem Group.onward_s (g : Group) (b : Bool) : (g.onward b).s = g.s := by
  unfold Group.onward
  split
  · rfl
  · split <;> rfl
@[simp] theorem Group.onward_p (g : Group) (b : Bool) : (g.onward b).p = g.p := by
  unfold Group.onward
  split
  · rfl
  · split <;> rfl
@[simp] theorem Group.onward_g (g : Group) (b : Bool) : (g.onward b).g = g.g := by
  unfold Group.onward
  split
  · rfl
  · split <;> rfl
@[simp] theorem Group.onward_q (g : Group) (b : Bool) : (g.onward b).q = g.q := by
  unfold Group.onward
  split
  · rfl
  · split <;> rfl
@[simp] theorem Group.onward_freed (g : Group) (b : Bool) : (g.onward b).freed = g.freed := by
  unfold Group.onward
  split
  · rfl
  · split <;> rfl
@[simp] theorem Group.onward_parked (g : Group) (b : Bool) : (g.onward b).parked = g.parked := by
  unfold Group.onward
  split
  · rfl
  · split <;> rfl
@[simp] theorem Group.onward_exited (g : Group) (b : Bool) : (g.onward b).exited = g.exited := by
  unfold Group.onward
  split
  · rfl
  · split <;> rfl
@[simp] theorem Group.onward_joined (g : Group) (b : Bool) : (g.onward b).joined = g.joined := by
  unfold Group.onward
  split
  · rfl
  · split <;> rfl
@[simp] theorem Group.wordEnd_v (g : Group) (f c : Bool) : (g.wordEnd f c).v = g.v := by
  cases c <;> exact Group.onward_v _ _
@[simp] theorem Group.wordEnd_vseed (g : Group) (f c : Bool) : (g.wordEnd f c).vseed = g.vseed := by
  cases c <;> exact Group.onward_vseed _ _
@[simp] theorem Group.wordEnd_tseed (g : Group) (f c : Bool) : (g.wordEnd f c).tseed = g.tseed := by
  cases c <;> exact Group.onward_tseed _ _
@[simp] theorem Group.wordEnd_seed (g : Group) (f c : Bool) : (g.wordEnd f c).seed = g.seed := by
  cases c <;> exact Group.onward_seed _ _
@[simp] theorem Group.wordEnd_s (g : Group) (f c : Bool) : (g.wordEnd f c).s = g.s := by
  cases c <;> exact Group.onward_s _ _
@[simp] theorem Group.wordEnd_p (g : Group) (f c : Bool) : (g.wordEnd f c).p = g.p := by
  cases c <;> exact Group.onward_p _ _
@[simp] theorem Group.wordEnd_g (g : Group) (f c : Bool) : (g.wordEnd f c).g = g.g := by
  cases c <;> exact Group.onward_g _ _
@[simp] theorem Group.wordEnd_q (g : Group) (f c : Bool) : (g.wordEnd f c).q = g.q := by
  cases c <;> exact Group.onward_q _ _
@[simp] theorem Group.wordEnd_freed (g : Group) (f c : Bool) : (g.wordEnd f c).freed = g.freed := by
  cases c <;> exact Group.onward_freed _ _
@[simp] theorem Group.wordEnd_parked (g : Group) (f c : Bool) : (g.wordEnd f c).parked = g.parked := by
  cases c <;> exact Group.onward_parked _ _
@[simp] theorem Group.wordEnd_exited (g : Group) (f c : Bool) : (g.wordEnd f c).exited = g.exited := by
  cases c <;> exact Group.onward_exited _ _
@[simp] theorem Group.wordEnd_joined (g : Group) (f c : Bool) : (g.wordEnd f c).joined = g.joined := by
  cases c <;> exact Group.onward_joined _ _
theorem Group.onward_pcs (g : Group) (b : Bool) : (g.onward b).pcs = g.pcs := by
  unfold Group.onward
  split
  · rfl
  · split <;> rfl
theorem Group.onward_hints (g : Group) (b : Bool) (h : g.hx = none ∧ g.hm = none ∧ g.hg = none) :
    (g.onward b).hx = none ∧ (g.onward b).hm = none ∧ (g.onward b).hg = none := by
  unfold Group.onward
  split
  · exact ⟨rfl, rfl, rfl⟩
  · split
    · exact ⟨rfl, rfl, rfl⟩
    · exact h
@[simp] theorem Group.wordEnd_hints (g : Group) (f c : Bool) :
    (g.wordEnd f c).hx = none ∧ (g.wordEnd f c).hm = none ∧ (g.wordEnd f c).hg = none :=
  Group.onward_hints _ _ ⟨rfl, rfl, rfl⟩
@[simp] theorem Group.wordEnd_readV (g : Group) (f c : Bool) (r l : Nat) : (g.wordEnd f c).readV r l = g.readV r l := by
  simp [Group.readV]
@[simp] theorem Group.wordEnd_readS (g : Group) (f c : Bool) (r : Nat) : (g.wordEnd f c).readS r = g.readS r := by
  simp [Group.readS]
@[simp] theorem Group.wordEnd_readP (g : Group) (f c : Bool) (r l : Nat) : (g.wordEnd f c).readP r l = g.readP r l := by
  simp [Group.readP, Group.pred]

/-- The program counters that a word leaves in its group. -/
theorem Group.wordEnd_pcs (g : Group) (f : Bool) :
    (g.wordEnd f false).pcs = (lanesOf g.e).foldl (fun t k => t.set k (g.a + 4)) g.pcs := by
  refine (Group.onward_pcs _ _).trans ?_
  simp [Group.advance, Group.countWord, Group.dropHints]

/-- The lanes of E stand past the word, and the others where they stood. -/
theorem Group.pc_wordEnd (g : Group) (f : Bool) (l : Nat) :
    (g.wordEnd f false).pc l = if l ∈ lanesOf g.e then g.a + 4 else g.pc l := by
  have key : ∀ (ls : List Nat) (t : Tbl Quad), (ls.foldl (fun t k => t.set k (g.a + 4)) t).getD l 0 =
      if l ∈ ls then g.a + 4 else t.getD l 0 := by
    intro ls
    induction ls with
    | nil => simp
    | cons k ls ih =>
      intro t
      simp only [List.foldl_cons]
      rw [ih]
      by_cases h1 : l ∈ ls
      · simp [h1]
      · by_cases h2 : k = l
        · subst h2; simp
        · simp [h1, Ne.symm h2, Tbl.getD_set_ne _ _ _ h2]
  unfold Group.pc
  rw [Group.wordEnd_pcs]
  exact key _ _

/-! ### Last-use frees -/

@[simp] theorem State.freeRegs_nil (s : State) (w : WordInfo) (m : Mask) (h : w.frees = []) : s.freeRegs w m = s := by
  simp [State.freeRegs, h]

/-- Seeds of lanes of one register leave every other key alone. -/
theorem getD_foldl_seed (ls : List Nat) (t : Tbl Nat) (r seed k d : Nat) (h : ∀ l ∈ ls, 16 * r + l ≠ k) :
    (ls.foldl (fun t l => t.set (16 * r + l) seed) t).getD k d = t.getD k d := by
  induction ls generalizing t with
  | nil => rfl
  | cons l ls ih =>
    simp only [List.foldl_cons]
    rw [ih _ fun x hx => h x (List.mem_cons_of_mem _ hx), Tbl.getD_set_ne _ _ _ (h l (List.mem_cons_self ..))]

/-- What forgetting lanes of a register leaves: every other lane and register. -/
theorem Group.forget_readV (g : Group) (r seed : Nat) (m : Mask) (q l : Nat) (hl : l < 16) (h : q ≠ r ∨ m.getLsbD l = false) :
    (g.forget r seed m).readV q l = g.readV q l := by
  have e : (16 * q + l) / 16 = q := by omega
  have e2 : (16 * q + l) % 16 = l := by omega
  have hg := Tbl.get?_filter g.v (fun k => k / 16 != r || !m.getLsbD (k % 16)) (16 * q + l)
  have hc : (q != r || !m.getLsbD l) = true := by
    rcases h with h | h
    · simp [h]
    · simp [h]
  simp only [e, e2, hc, if_true] at hg
  have hs : ∀ d, ((lanesOf m).foldl (fun t k => t.set (16 * r + k) seed) g.vseed).getD (16 * q + l) d = g.vseed.getD (16 * q + l) d := by
    intro d
    refine getD_foldl_seed _ _ _ _ _ _ fun k hk => ?_
    have hk' := (mem_lanesOf m k).mp hk
    rcases h with h | h
    · omega
    · intro hc'
      have : k = l := by omega
      rw [this, h] at hk'
      exact absurd hk'.2 (by decide)
  simp only [Group.readV, Group.forget, hg, hs]

/-- What a free does to the issuing group's vector registers: every other register holds its values, and so does a lane that it does not free or that
the word has written. -/
theorem State.freeReg_readV (s : State) (r : Nat) (freed keep : Mask) (q l : Nat) (hl : l < 16)
    (h : q ≠ r ∨ (freed &&& ~~~keep).getLsbD l = false) : (s.freeReg r freed keep).grp.readV q l = s.grp.readV q l := by
  unfold State.freeReg
  split
  · simp only [State.grp_updGrp]
    exact Group.forget_readV s.grp r s.free (freed &&& ~~~keep) q l hl h
  · rfl

/-- A free changes nothing of the machine but the issuing group's vector registers, the number of the next free value, and the commands
that hold the register. -/
theorem State.freeReg_frame (s : State) (r : Nat) (freed keep : Mask) :
    { (s.freeReg r freed keep) with groups := s.groups, free := s.free, cmds := s.cmds } = s := by
  unfold State.freeReg
  split <;> rfl

/-! ### The issue of a word -/

theorem issue_fault (w : WordInfo) (body : State → Did) (s : State) (code : Nat) (h : s.checkWord w = some code) (hf : s.grp.fence = none) :
    issue w body s = .next (s.finish w (s.grp.faultAll code 0) false) := by
  simp [issue, h, hf]

theorem issue_stall (w : WordInfo) (body : State → Did) (s : State) (h : s.checkWord w = none) (hs : s.mustStall w = true) :
    issue w body s = .next s := by
  simp [issue, h, hs]

/-- A word that passes its checks, does not stall and has no fault takes its effect. -/
theorem issue_did (w : WordInfo) (body : State → Did) (s t : State) (ctl : Bool) (h : s.checkWord w = none)
    (hs : s.mustStall w = false) (hb : body s = .did t [] ctl) :
    issue w body s = .next (((t.freeRegs w 0).allocAll w.vw).finish w [] ctl) := by
  simp only [issue, h, hs, hb, List.isEmpty_nil, Bool.not_true, Bool.false_and]
  have : ¬ ((t.grp.e != 0 && ([] : List LaneFault).length == (lanesOf t.grp.e).length) = true) := by
    intro hc
    simp only [Bool.and_eq_true, bne_iff_ne, ne_eq, List.length_nil, beq_iff_eq] at hc
    have := List.length_eq_zero_iff.mp hc.2.symm
    exact hc.1 ((lanesOf_eq_nil _).mp this)
  rw [if_neg this]
  rfl

theorem issueOk_next (w : WordInfo) (eff : State → State) (s : State) (h : s.checkWord w = none) (hs : s.mustStall w = false) :
    issueOk w eff s = .next ((((eff s).freeRegs w 0).allocAll w.vw).finish w [] false) :=
  issue_did w _ s _ false h hs rfl

/-! ### What a whole word leaves -/

/-- A group with the vector registers, their seeds and their freed marks of another. -/
def Group.withV (g h : Group) : Group := { g with v := h.v, vseed := h.vseed, freed := h.freed }

theorem Claims.othersSame.refl (s : State) : Claims.othersSame s s := ⟨rfl, fun _ _ => rfl, fun _ => rfl⟩

theorem Claims.othersSame.cur {s t : State} (h : Claims.othersSame s t) : t.cur = s.cur := by
  have := congrArg State.cur h.1
  exact this

theorem Claims.othersSame.trans {s t u : State} (h : Claims.othersSame s t) (k : Claims.othersSame t u) : Claims.othersSame s u := by
  refine ⟨?_, fun n hn => ?_, fun n => (k.2.2 n).trans (h.2.2 n)⟩
  · have h1 := h.1
    have k1 := k.1
    rw [← h1, ← k1]
  · rw [k.2.1 n (by rw [h.cur]; exact hn), h.2.1 n hn]

theorem Claims.othersSame.setGrp (s : State) (g : Group) : Claims.othersSame s (s.setGrp g) :=
  ⟨rfl, fun n hn => State.group_setGrp_ne s g n hn, fun _ => rfl⟩

/-- A last-use free touches the vector registers of the issuing group, the number of the next free value, and the notes of commands that
hold the register; nothing else. -/
theorem State.freeReg_spec (s : State) (r : Nat) (freed keep : Mask) :
    Claims.othersSame s (s.freeReg r freed keep) ∧ (s.freeReg r freed keep).grp = s.grp.withV (s.freeReg r freed keep).grp := by
  unfold State.freeReg
  split
  · refine ⟨⟨rfl, fun n hn => ?_, fun _ => rfl⟩, ?_⟩
    · exact State.group_setGrp_ne _ _ n hn
    · rw [State.grp_updGrp]
      rfl
  · refine ⟨⟨rfl, fun n _ => rfl, fun n => ?_⟩, rfl⟩
    have key : ∀ (cs : List Nat) (t : Tbl Cmd),
        (Tbl.get? (cs.foldl (fun t c => t.modify c fun x =>
            { x with freeAfter := x.freeAfter.set r (x.freeAfter.getD r 0 ||| freed) }) t) n).map
          (fun c => ({ c with freeAfter := [] } : Cmd)) = (t.get? n).map (fun c => { c with freeAfter := [] }) := by
      intro cs
      induction cs with
      | nil => intro t; rfl
      | cons c cs ih =>
        intro t
        simp only [List.foldl_cons]
        rw [ih]
        by_cases hc : c = n
        · subst hc
          rw [Tbl.get?_modify_self, Option.map_map]
          rfl
        · rw [Tbl.get?_modify_ne _ _ hc]
    exact key _ _

theorem Group.withV_readS (g h : Group) (r : Nat) : (g.withV h).readS r = g.readS r := rfl

/-- The frees of a word, in the fields that they leave alone. -/
theorem State.freeRegs_spec (s : State) (w : WordInfo) (m : Mask) :
    Claims.othersSame s (s.freeRegs w m) ∧ (s.freeRegs w m).grp = s.grp.withV (s.freeRegs w m).grp := by
  unfold State.freeRegs
  generalize w.frees = rs
  induction rs generalizing s with
  | nil => exact ⟨Claims.othersSame.refl s, rfl⟩
  | cons r rs ih =>
    simp only [List.foldl_cons]
    have h1 := State.freeReg_spec s r ((if w.freesAll then allLanes else s.grp.e) &&& ~~~m) (if w.vw.contains r then s.grp.e else 0)
    have h2 := ih (s.freeReg r ((if w.freesAll then allLanes else s.grp.e) &&& ~~~m) (if w.vw.contains r then s.grp.e else 0))
    refine ⟨h1.1.trans h2.1, ?_⟩
    rw [h2.2, h1.2]
    rfl

/-- What no last-use bit frees holds its value, and so do the written lanes of a destination. -/
theorem State.freeRegs_readV (s : State) (w : WordInfo) (q l : Nat) (hl : l < 16)
    (h : Claims.notFreed w s q l ∨ (q ∈ w.vw ∧ s.grp.e.getLsbD l = true)) :
    (s.freeRegs w 0).grp.readV q l = s.grp.readV q l := by
  have key : ∀ (rs : List Nat) (s : State),
      ((q ∉ rs ∨ (w.freesAll = false ∧ s.grp.e.getLsbD l = false)) ∨ (q ∈ w.vw ∧ s.grp.e.getLsbD l = true)) →
      (rs.foldl (fun s r => s.freeReg r ((if w.freesAll then allLanes else s.grp.e) &&& ~~~(0 : Mask)) (if w.vw.contains r then s.grp.e else 0))
        s).grp.readV q l = s.grp.readV q l := by
    intro rs
    induction rs with
    | nil => intro s _; rfl
    | cons r rs ih =>
      intro s h
      simp only [List.foldl_cons]
      have hk : q ≠ r ∨ (((if w.freesAll then allLanes else s.grp.e) &&& ~~~(0 : Mask)) &&&
          ~~~(if w.vw.contains r then s.grp.e else 0)).getLsbD l = false := by
        by_cases hq : q = r
        · right
          rcases h with (h | h) | h
          · exact absurd (hq ▸ List.mem_cons_self ..) h
          · simp [h.1, h.2]
          · subst hq
            simp [h.1, h.2]
        · exact .inl hq
      have hg := (State.freeReg_spec s r ((if w.freesAll then allLanes else s.grp.e) &&& ~~~(0 : Mask)) (if w.vw.contains r then s.grp.e else 0)).2
      rw [ih, State.freeReg_readV s r _ _ q l hl hk]
      have he : (s.freeReg r ((if w.freesAll then allLanes else s.grp.e) &&& ~~~(0 : Mask)) (if w.vw.contains r then s.grp.e else 0)).grp.e = s.grp.e := by
        rw [hg]
        rfl
      rw [he]
      rcases h with (h | h) | h
      · exact .inl (.inl fun hc => h (List.mem_cons_of_mem _ hc))
      · exact .inl (.inr h)
      · exact .inr h
  exact key w.frees s h

/-- The allocation of destinations touches freed marks alone. -/
theorem State.allocAll_grp (s : State) (rs : List Nat) : ∃ f, s.allocAll rs = s.setGrp { s.grp with freed := f } := by
  unfold State.allocAll State.updGrp
  have key : ∀ (rs : List Nat) (g : Group), ∃ f, rs.foldl (fun g r => if r < 120 then g.allocate r else g) g = { g with freed := f } := by
    intro rs
    induction rs with
    | nil => intro g; exact ⟨g.freed, rfl⟩
    | cons r rs ih =>
      intro g
      simp only [List.foldl_cons]
      split
      · obtain ⟨f, hf⟩ := ih (g.allocate r)
        exact ⟨f, hf⟩
      · exact ih g
  obtain ⟨f, hf⟩ := key rs s.grp
  exact ⟨f, congrArg s.setGrp hf⟩

/-- The end of a word after its frees: the issuing group is the one that the word's effect left, but for its vector registers' frees, taken
past the word. -/
theorem State.after_spec (u : State) (w : WordInfo) (ctl : Bool) :
    Claims.othersSame u ((((u.freeRegs w 0).allocAll w.vw)).finish w [] ctl) ∧
    (∃ h : Group, h = u.grp.withV h ∧ ((((u.freeRegs w 0).allocAll w.vw)).finish w [] ctl).grp = h.wordEnd w.fin ctl ∧
      ∀ q l, l < 16 → (Claims.notFreed w u q l ∨ (q ∈ w.vw ∧ u.grp.e.getLsbD l = true)) → h.readV q l = u.grp.readV q l) := by
  have h1 := State.freeRegs_spec u w 0
  obtain ⟨f, hf⟩ := State.allocAll_grp (u.freeRegs w 0) w.vw
  rw [hf, State.finish_nil]
  refine ⟨(h1.1.trans (Claims.othersSame.setGrp _ _)).trans (Claims.othersSame.setGrp _ _), { (u.freeRegs w 0).grp with freed := f }, ?_, ?_, ?_⟩
  · conv => lhs; rw [h1.2]
    rfl
  · simp
  · intro q l hl h
    exact State.freeRegs_readV u w q l hl h

end Sys2Proof.Machine
end

