-- ==== Sys2Proof/Laws/Memory.lean ====
section
/-! SUPPORT. Laws of memory: reading after a write, and the canonical form, which every memory operation keeps. -/

namespace Sys2Proof

@[simp] theorem Memory.byte_put_self (m : Memory) (a : Nat) (v : Byte) : (m.put a v).byte a = v := by
  unfold Memory.put Memory.byte
  split
  · next h => subst h; simp [Tbl.getD, Tbl.get?_del]
  · simp

theorem Memory.byte_put_ne (m : Memory) {a b : Nat} (v : Byte) (h : a ≠ b) : (m.put a v).byte b = m.byte b := by
  unfold Memory.put Memory.byte
  split
  · simp [Tbl.getD, Tbl.get?_del, Ne.symm h]
  · exact Tbl.getD_set_ne m v _ h

/-- Bytes stored are read back. -/
theorem Memory.byte_putBytes (m : Memory) (a : Nat) (bs : List Byte) (x : Nat) :
    (m.putBytes a bs).byte x = if a ≤ x ∧ x < a + bs.length then bs.getD (x - a) 0 else m.byte x := by
  induction bs generalizing m a with
  | nil =>
    have h : ¬ (a ≤ x ∧ x < a + ([] : List Byte).length) := by
      rintro ⟨h1, h2⟩
      rw [List.length_nil] at h2
      omega
    rw [if_neg h]
    rfl
  | cons b bs ih =>
    simp only [Memory.putBytes, ih, List.length_cons]
    by_cases hx : x = a
    · subst hx
      have h1 : ¬ (x + 1 ≤ x ∧ x < x + 1 + bs.length) := by omega
      have h2 : x ≤ x ∧ x < x + (bs.length + 1) := by omega
      rw [if_neg h1, if_pos h2, Nat.sub_self]
      exact Memory.byte_put_self m x b
    · by_cases h1 : a + 1 ≤ x ∧ x < a + 1 + bs.length
      · have h2 : a ≤ x ∧ x < a + (bs.length + 1) := by omega
        obtain ⟨d, rfl⟩ : ∃ d, x = a + 1 + d := ⟨x - (a + 1), by omega⟩
        have e1 : a + 1 + d - (a + 1) = d := by omega
        have e2 : a + 1 + d - a = d + 1 := by omega
        simp [h1, h2, e1, e2]
      · have h2 : ¬ (a ≤ x ∧ x < a + (bs.length + 1)) := by omega
        rw [if_neg h1, if_neg h2]
        exact Memory.byte_put_ne m b (Ne.symm hx)

/-- A store leaves every byte outside it alone. -/
theorem Memory.byte_putBytes_outside (m : Memory) (a : Nat) (bs : List Byte) (x : Nat) (h : x < a ∨ a + bs.length ≤ x) :
    (m.putBytes a bs).byte x = m.byte x := by
  rw [Memory.byte_putBytes, if_neg (by omega)]

/-- A load of what a store wrote gives it back. -/
theorem Memory.bytes_putBytes (m : Memory) (a : Nat) (bs : List Byte) : (m.putBytes a bs).bytes a bs.length = bs := by
  apply List.ext_getElem
  · simp [Memory.bytes]
  · intro k h1 h2
    have hk : a ≤ a + k ∧ a + k < a + bs.length := by omega
    simp [Memory.bytes, Memory.byte_putBytes, h2]

/-! ### The canonical form -/

theorem Memory.wf_nil : Memory.wf [] = true := by decide

theorem Memory.wf_put (m : Memory) (a : Nat) (v : Byte) (h : m.wf = true) : (m.put a v).wf = true := by
  unfold Memory.wf at *
  simp only [Bool.and_eq_true] at *
  unfold Memory.put
  split
  · exact ⟨Tbl.sorted_del m a h.1, Tbl.all_filter m _ _ h.2⟩
  · next hv => exact ⟨Tbl.sorted_set m a v h.1, Tbl.all_set m a v _ h.2 (by simpa using hv)⟩

theorem Memory.wf_putBytes (m : Memory) (a : Nat) (bs : List Byte) (h : m.wf = true) : (m.putBytes a bs).wf = true := by
  induction bs generalizing m a with
  | nil => exact h
  | cons b bs ih => exact ih _ _ (Memory.wf_put m a b h)

theorem Memory.wf_putNat (m : Memory) (a n v : Nat) (h : m.wf = true) : (m.putNat a n v).wf = true :=
  Memory.wf_putBytes m a _ h

theorem Memory.wf_filter (m : Memory) (p : Nat × Byte → Bool) (h : m.wf = true) : Memory.wf (List.filter p m) = true := by
  unfold Memory.wf at *
  simp only [Bool.and_eq_true] at *
  exact ⟨Tbl.sorted_filter m p h.1, Tbl.all_filter m _ p h.2⟩

/-- The cells of a block lie in it. -/
theorem Memory.mem_ofBytes (a : Nat) (bs : List Byte) (e : Nat × Byte) (h : e ∈ Memory.ofBytes a bs) :
    a ≤ e.1 ∧ e.1 < a + bs.length ∧ e.2 ≠ Memory.dflt := by
  induction bs generalizing a with
  | nil => simp [Memory.ofBytes] at h
  | cons b bs ih =>
    simp only [Memory.ofBytes] at h
    split at h
    · have ⟨h1, h2, h3⟩ := ih _ h
      simp only [List.length_cons]
      exact ⟨by omega, by omega, h3⟩
    · next hb =>
      rcases List.mem_cons.mp h with h | h
      · subst h; simp [hb]
      · have ⟨h1, h2, h3⟩ := ih _ h
        simp only [List.length_cons]
        exact ⟨by omega, by omega, h3⟩

theorem Memory.wf_ofBytes (a : Nat) (bs : List Byte) : (Memory.ofBytes a bs).wf = true := by
  unfold Memory.wf
  simp only [Bool.and_eq_true]
  refine ⟨?_, List.all_eq_true.mpr fun e he => by simpa using (Memory.mem_ofBytes a bs e he).2.2⟩
  induction bs generalizing a with
  | nil => rfl
  | cons b bs ih =>
    simp only [Memory.ofBytes]
    split
    · exact ih _
    · refine (Tbl.sorted_cons _ _ _).mpr ⟨List.all_eq_true.mpr fun e he => ?_, ih _⟩
      have := Memory.mem_ofBytes _ bs e he
      simp only [decide_eq_true_eq]
      omega

theorem Memory.wf_lay (m : Memory) (a : Nat) (bs : List Byte) (h : m.wf = true) : (m.lay a bs).wf = true := by
  have h1 := Memory.wf_filter m (fun c => c.1 < a) h
  have h2 := Memory.wf_ofBytes a bs
  have h3 := Memory.wf_filter m (fun c => a + bs.length ≤ c.1) h
  unfold Memory.wf Memory.lay at *
  simp only [Bool.and_eq_true, List.all_append] at *
  refine ⟨Tbl.sorted_append _ _ h1.1 (Tbl.sorted_append _ _ h2.1 h3.1 fun e he => ?_) fun e he => ?_, h1.2, h2.2, h3.2⟩
  · have := Memory.mem_ofBytes a bs e he
    refine List.all_eq_true.mpr fun f hf => ?_
    have := (List.mem_filter.mp hf).2
    simp only [decide_eq_true_eq] at *
    omega
  · have := (List.mem_filter.mp he).2
    simp only [decide_eq_true_eq] at this
    refine List.all_eq_true.mpr fun f hf => ?_
    simp only [decide_eq_true_eq]
    rcases List.mem_append.mp hf with hf | hf
    · have := Memory.mem_ofBytes a bs f hf
      omega
    · have := (List.mem_filter.mp hf).2
      simp only [decide_eq_true_eq] at this
      omega

theorem Memory.byte_ofBytes (a : Nat) (bs : List Byte) (x : Nat) :
    Memory.byte (Memory.ofBytes a bs) x = if a ≤ x then bs.getD (x - a) Memory.dflt else Memory.dflt := by
  induction bs generalizing a with
  | nil => simp [Memory.ofBytes, Memory.byte, Tbl.getD]
  | cons b bs ih =>
    have ih := ih (a + 1)
    simp only [Memory.ofBytes]
    by_cases hx : x = a
    · subst hx
      rw [if_neg (by omega)] at ih
      split
      · next hb => simp [ih, hb]
      · simp [Memory.byte, Tbl.getD, Tbl.get?]
    · have e : Memory.byte (if b = Memory.dflt then Memory.ofBytes (a + 1) bs else (a, b) :: Memory.ofBytes (a + 1) bs) x =
          Memory.byte (Memory.ofBytes (a + 1) bs) x := by
        split
        · rfl
        · simp [Memory.byte, Tbl.getD, Tbl.get?, Ne.symm hx]
      rw [e, ih]
      by_cases h : a ≤ x
      · obtain ⟨d, rfl⟩ : ∃ d, x = a + 1 + d := ⟨x - (a + 1), by omega⟩
        have e1 : a + 1 + d - (a + 1) = d := by omega
        have e2 : a + 1 + d - a = d + 1 := by omega
        rw [if_pos (by omega), if_pos h, e1, e2, List.getD_cons_succ]
      · rw [if_neg (by omega), if_neg h]

/-- A block that is laid into a memory is read back, and every other byte stands. -/
theorem Memory.byte_lay (m : Memory) (a : Nat) (bs : List Byte) (x : Nat) :
    (m.lay a bs).byte x = if a ≤ x ∧ x < a + bs.length then bs.getD (x - a) Memory.dflt else m.byte x := by
  have hb := Memory.byte_ofBytes a bs x
  unfold Memory.lay Memory.byte Tbl.getD at *
  rw [Tbl.get?_append, Tbl.get?_append, Tbl.get?_filter m (fun k => decide (k < a)), Tbl.get?_filter m (fun k => decide (a + bs.length ≤ k))]
  by_cases h1 : x < a
  · have h2 : ¬ (a ≤ x ∧ x < a + bs.length) := by omega
    have h4 : ¬ (a + bs.length ≤ x) := by omega
    have h5 : Tbl.get? (Memory.ofBytes a bs) x = none := by
      cases h : Tbl.get? (Memory.ofBytes a bs) x with
      | none => rfl
      | some v =>
        exact absurd (Memory.mem_ofBytes a bs (x, v) (Tbl.mem_of_get? _ _ _ h)) (by simp only; omega)
    simp only [h1, h2, h4, h5, decide_true, decide_false, if_true, if_false]
    cases Tbl.get? m x <;> rfl
  · by_cases h4 : a + bs.length ≤ x
    · have h2 : ¬ (a ≤ x ∧ x < a + bs.length) := by omega
      have h5 : Tbl.get? (Memory.ofBytes a bs) x = none := by
        cases h : Tbl.get? (Memory.ofBytes a bs) x with
        | none => rfl
        | some v =>
          exact absurd (Memory.mem_ofBytes a bs (x, v) (Tbl.mem_of_get? _ _ _ h)) (by simp only; omega)
      simp [h1, h2, h4, h5]
    · have h2 : a ≤ x ∧ x < a + bs.length := by omega
      rw [if_pos h2.1] at hb
      simp only [h1, h2, h4, decide_false]
      simpa using hb

theorem Memory.wf_clear (m : Memory) (a n : Nat) (h : m.wf = true) : (m.clear a n).wf = true := Memory.wf_filter m _ h

theorem Memory.wf_overlay (m src : Memory) (h : m.wf = true) : (m.overlay src).wf = true := by
  unfold Memory.overlay
  induction src generalizing m with
  | nil => exact h
  | cons c src ih => exact ih _ (Memory.wf_put m c.1 c.2 h)

theorem Memory.wf_copyFrom (m src : Memory) (a b n : Nat) (h : m.wf = true) : (m.copyFrom src a b n).wf = true :=
  Memory.wf_overlay _ _ (Memory.wf_clear m b n h)

/-- Canonical memories that read alike are equal data. -/
theorem Memory.ext (m n : Memory) (hm : m.wf = true) (hn : n.wf = true) (h : ∀ a, m.byte a = n.byte a) : m = n := by
  induction m generalizing n with
  | nil =>
    cases n with
    | nil => rfl
    | cons e n =>
      obtain ⟨b, y⟩ := e
      unfold Memory.wf at hn
      simp only [Bool.and_eq_true, List.all_cons] at hn
      have := h b
      simp [Memory.byte, Tbl.getD, Tbl.get?] at this
      simp [← this] at hn
  | cons e m ih =>
    obtain ⟨a, x⟩ := e
    have low : ∀ (t : Memory) (k : Nat), Tbl.above t k = true → ∀ j, j ≤ k → t.byte j = Memory.dflt := by
      intro t k ht j hj
      induction t with
      | nil => rfl
      | cons e t iht =>
        obtain ⟨c, z⟩ := e
        simp only [Tbl.above, List.all_cons, Bool.and_eq_true, decide_eq_true_eq] at ht
        have hc : ¬ c = j := by omega
        have := iht (by simpa [Tbl.above] using ht.2)
        simpa [Memory.byte, Tbl.getD, Tbl.get?, hc] using this
    unfold Memory.wf at hm hn
    simp only [Bool.and_eq_true, List.all_cons] at hm
    have ⟨m1, m2⟩ := (Tbl.sorted_cons a x m).mp hm.1
    have hx : x ≠ Memory.dflt := by simpa using hm.2.1
    cases n with
    | nil =>
      have := h a
      simp [Memory.byte, Tbl.getD, Tbl.get?] at this
      exact absurd this hx
    | cons f n =>
      obtain ⟨b, y⟩ := f
      simp only [Bool.and_eq_true, List.all_cons] at hn
      have ⟨n1, n2⟩ := (Tbl.sorted_cons b y n).mp hn.1
      have hy : y ≠ Memory.dflt := by simpa using hn.2.1
      have hab : a = b := by
        rcases Nat.lt_trichotomy a b with hlt | heq | hgt
        · have h1 := h a
          have h2 := low n b n1 a (by omega)
          have hb : ¬ b = a := by omega
          have : (Memory.byte ((b, y) :: n) a) = Memory.byte n a := by simp [Memory.byte, Tbl.getD, Tbl.get?, hb]
          rw [this, h2] at h1
          simp [Memory.byte, Tbl.getD, Tbl.get?] at h1
          exact absurd h1 hx
        · exact heq
        · have h1 := h b
          have h2 := low m a m1 b (by omega)
          have ha : ¬ a = b := by omega
          have : (Memory.byte ((a, x) :: m) b) = Memory.byte m b := by simp [Memory.byte, Tbl.getD, Tbl.get?, ha]
          rw [this, h2] at h1
          simp [Memory.byte, Tbl.getD, Tbl.get?] at h1
          exact absurd h1.symm hy
      subst hab
      have hxy : x = y := by
        have := h a
        simpa [Memory.byte, Tbl.getD, Tbl.get?] using this
      subst hxy
      congr 1
      apply ih
      · unfold Memory.wf; simp only [Bool.and_eq_true]; exact ⟨m2, hm.2.2⟩
      · unfold Memory.wf; simp only [Bool.and_eq_true]; exact ⟨n2, hn.2.2⟩
      · intro j
        by_cases hj : a = j
        · subst hj; rw [low m a m1 a (Nat.le_refl _), low n a n1 a (Nat.le_refl _)]
        · have := h j
          simpa [Memory.byte, Tbl.getD, Tbl.get?, hj] using this

@[simp] theorem length_leBytes (n v : Nat) : (leBytes n v).length = n := by
  induction n generalizing v with
  | zero => rfl
  | succ n ih => simp [leBytes, ih]

/-- The bytes of a value give it back, as far as they reach. -/
theorem leNat_leBytes (n v : Nat) : leNat (leBytes n v) = v % 256 ^ n := by
  induction n generalizing v with
  | zero => simp [leBytes, leNat, Nat.mod_one]
  | succ n ih =>
    have h : v % 256 ^ (n + 1) = v % 256 + 256 * (v / 256 % 256 ^ n) := by rw [Nat.pow_succ, Nat.mul_comm, Nat.mod_mul]
    rw [h, ← ih]
    rfl

end Sys2Proof
end

