-- ==== Sys2Proof/Laws/Words.lean ====
section
/-! SUPPORT. What each shape of word does when it is clear to issue: one lemma for each shared operation of Operands. -/

namespace Sys2Proof.Machine

theorem Group.wordEnd_true (g : Group) (f c : Bool) (h : (f || c || g.e == 0) = true) :
    g.wordEnd f c = ({ (if c then g else g.advance []).countWord.dropHints with a := g.a + 4 } : Group).endRun := by
  cases c <;> simp only [Group.wordEnd, Group.onward, Group.advance, Group.countWord, Group.dropHints, if_true, Bool.false_eq_true, if_false] at h ⊢ <;>
    rw [if_pos h]

theorem Group.wordEnd_false (g : Group) (f : Bool) (h : (f || g.e == 0) = false) :
    g.wordEnd f false = if g.split then (g.advance []).countWord.dropHints.recompute else { (g.advance []).countWord.dropHints with a := g.a + 4 } := by
  have h' : ¬ (f || g.e == 0) = true := by rw [h]; exact Bool.false_ne_true
  simp only [Group.wordEnd, Group.onward, Group.advance, Group.countWord, Group.dropHints, Bool.false_eq_true, if_false, Bool.or_false]
  rw [if_neg h']

/-- A recompute depends on the lanes, their program counters and E alone. -/
theorem Group.minPc_congr (g h : Group) (he : h.eligible = g.eligible) (hp : h.pcs = g.pcs) : h.minPc = g.minPc := by
  unfold Group.minPc Group.pc
  rw [he, hp]

theorem Group.openE_congr (g h : Group) (a : Quad) (he : h.eligible = g.eligible) (hp : h.pcs = g.pcs) (hE : h.e = g.e) :
    h.openE a = g.openE a := by
  unfold Group.openE Group.lanesAt Group.pc
  rw [he, hp, hE]

theorem Group.recompute_stands (g k : Group) (he : k.eligible = g.eligible) (hE : k.e = g.e) :
    k.recompute.a = ({ g with pcs := k.recompute.pcs } : Group).minPc ∧
      k.recompute.e = ({ g with pcs := k.recompute.pcs } : Group).openE k.recompute.a :=
  ⟨Group.minPc_congr { g with pcs := k.recompute.pcs } k he rfl, Group.openE_congr { g with pcs := k.recompute.pcs } k _ he rfl hE⟩

theorem Claims.standsAt_congr (f : Bool) (g h k : Group) (he : h.e = g.e) (ha : h.a = g.a) (hs : h.split = g.split)
    (hl : h.eligible = g.eligible) (hk : Claims.standsAt f h k) : Claims.standsAt f g k := by
  have e1 : ({ h with pcs := k.pcs } : Group).minPc = ({ g with pcs := k.pcs } : Group).minPc := Group.minPc_congr _ _ hl rfl
  have e2 : ({ h with pcs := k.pcs } : Group).openE k.a = ({ g with pcs := k.pcs } : Group).openE k.a := Group.openE_congr _ _ _ hl rfl he
  unfold Claims.standsAt Claims.ends at *
  rw [e1, e2, he, ha, hs] at hk
  exact hk

theorem Claims.past_congr (f : Bool) (g h k : Group) (he : h.e = g.e) (ha : h.a = g.a) (hp : h.pcs = g.pcs) (hw : h.words = g.words)
    (ho : h.runOpen = g.runOpen) (hr : h.runLen = g.runLen) (hs : h.split = g.split) (hl : h.eligible = g.eligible)
    (hk : Claims.past f h k) : Claims.past f g k := by
  obtain ⟨h1, h2, h3⟩ := hk
  have e1 : h.pc = g.pc := funext fun l => by unfold Group.pc; rw [hp]
  refine ⟨?_, Claims.standsAt_congr f g h k he ha hs hl h2, ?_⟩
  · rw [he, ha, e1] at h1
    exact h1
  · unfold Claims.ends at *
    rw [he, hw, ho, hr] at h3
    exact h3

/-- A word's own counting and hints do not touch what a recompute looks at. -/
theorem Group.advance_e (g : Group) : (g.advance []).countWord.dropHints.e = g.e := rfl
theorem Group.advance_eligible (g : Group) : (g.advance []).countWord.dropHints.eligible = g.eligible := rfl

theorem Group.wordEnd_standsAt (g : Group) (f : Bool) : Claims.standsAt f g (g.wordEnd f false) := by
  unfold Claims.standsAt Claims.ends
  cases h : (f || g.e == 0) with
  | true =>
    rw [Group.wordEnd_true g f false (by rw [Bool.or_false]; exact h)]
    exact ⟨rfl, rfl⟩
  | false =>
    rw [Group.wordEnd_false g f h, Bool.false_or]
    cases hsp : g.split with
    | false =>
      rw [Bool.not_false, if_pos (rfl : true = true), if_neg Bool.false_ne_true]
      exact ⟨rfl, rfl⟩
    | true =>
      rw [Bool.not_true, if_neg Bool.false_ne_true, if_pos (rfl : true = true)]
      exact Group.recompute_stands g _ (Group.advance_eligible g) (Group.advance_e g)

theorem Group.wordEnd_counts (g : Group) (f : Bool) : (g.wordEnd f false).words = g.words + 1 ∧
    (g.wordEnd f false).runOpen = (g.runOpen && !Claims.ends f g) ∧
    (g.wordEnd f false).runLen = if Claims.ends f g then 0 else g.runLen + 1 := by
  unfold Claims.ends
  cases h : (f || g.e == 0) with
  | true =>
    rw [Group.wordEnd_true g f false (by rw [Bool.or_false]; exact h), Bool.not_true, Bool.and_false]
    exact ⟨rfl, rfl, rfl⟩
  | false =>
    rw [Group.wordEnd_false g f h, Bool.not_false, Bool.and_true]
    cases g.split <;> simp only [Bool.false_eq_true, if_false, if_true, Group.recompute, Group.dropHints, Group.countWord, Group.advance, and_self]

/-- A word that is not a control word takes its group past itself. -/
theorem Group.wordEnd_past (g : Group) (f : Bool) : Claims.past f g (g.wordEnd f false) := by
  have hh := Group.wordEnd_hints g f false
  refine ⟨fun l hl => ?_, Group.wordEnd_standsAt g f, hh.1, hh.2.1, hh.2.2, Group.wordEnd_counts g f⟩
  rw [Group.pc_wordEnd]
  simp only [mem_lanesOf, hl, true_and]

/-- The end of a word leaves alone what the group's place in its run does not touch. -/
theorem Group.wordEnd_rest (g : Group) (f c : Bool) :
    { (g.wordEnd f c) with
      pend := g.pend, pcs := g.pcs, arrived := g.arrived, a := g.a
      runOpen := g.runOpen, runLen := g.runLen, words := g.words, hx := g.hx, hm := g.hm, hg := g.hg, trail := g.trail
      stopped := g.stopped, stopDue := g.stopDue, stepping := g.stepping, stopNote := g.stopNote, e := g.e, split := g.split, gang := g.gang
      relWait := g.relWait } = g := by
  have ho : ∀ k : Group, k.onward (f || c) = { k with a := k.a + 4 }.endRun ∨ k.onward (f || c) = k.recompute ∨
      k.onward (f || c) = { k with a := k.a + 4 } := by
    intro k
    unfold Group.onward
    split
    · exact .inl rfl
    · split
      · exact .inr (.inl rfl)
      · exact .inr (.inr rfl)
  unfold Group.wordEnd
  rcases ho (if c then g else g.advance []).countWord.dropHints with h | h | h <;> rw [h] <;> cases c <;>
    simp only [Group.endRun, Group.recompute, Group.dropHints, Group.countWord, Group.advance, if_true, Bool.false_eq_true, if_false]

theorem Group.wordEnd_pend (g : Group) (f : Bool) : (g.wordEnd f false).pend = Claims.pendAfter f g [] := by
  cases h : (f || g.e == 0) with
  | true =>
    rw [Group.wordEnd_true g f false (by simpa using h)]
    simp only [Claims.pendAfter, Claims.ends, h, if_true, List.append_nil]
    rfl
  | false =>
    rw [Group.wordEnd_false g f h]
    simp only [Claims.pendAfter, Claims.ends, h, Bool.false_eq_true, if_false, List.append_nil]
    split <;> rfl

theorem Claims.pendAfter_append (f : Bool) (g : Group) (new : List Pending) :
    Claims.pendAfter f { g with pend := g.pend ++ new } [] = Claims.pendAfter f g new := by
  simp [Claims.pendAfter, Claims.ends]

/-- The effect of a word, from what its own part did to the issuing group's registers. -/
theorem issue_completes (i : Instr) (w : WordInfo) (body : State → Did) (s : State) (g : Group) (new : List Pending)
    (hi : exec i s = issue w body s) (hc : Claims.clear w s) (hb : body s = .did (s.setGrp g) [] false)
    (hg : g = { s.grp with v := g.v, s := g.s, p := g.p, pend := s.grp.pend ++ new }) :
    ∃ t, Claims.completes i w (fun _ => new) s t ∧ t.grp.s = g.s ∧ t.grp.p = g.p ∧
      ∀ q l, l < 16 → (Claims.notFreed w s q l ∨ (q ∈ w.vw ∧ s.grp.e.getLsbD l = true)) → t.grp.readV q l = g.readV q l := by
  have h1 := issue_did w body s (s.setGrp g) false hc.1 hc.2 hb
  obtain ⟨ho, h, hh, hgrp, hv⟩ := State.after_spec (s.setGrp g) w false
  simp only [State.grp_setGrp] at hh hv
  have he : g.e = s.grp.e := by rw [hg]
  refine ⟨_, ⟨hi.trans h1, (Claims.othersSame.setGrp s g).trans ho, ?_, ?_, ?_⟩, ?_, ?_, ?_⟩
  · rw [hgrp]
    have hr := Group.wordEnd_rest h w.fin false
    unfold Claims.groupRest
    have e1 : ∀ (k m : Group), ({ k with pend := m.pend, pcs := m.pcs, arrived := m.arrived, a := m.a
                                         runOpen := m.runOpen, runLen := m.runLen, words := m.words, hx := m.hx, hm := m.hm, hg := m.hg, trail := m.trail
                                         stopped := m.stopped, stopDue := m.stopDue, stepping := m.stepping, stopNote := m.stopNote, e := m.e, split := m.split
                                         gang := m.gang, relWait := m.relWait } : Group) = m →
        ∀ g0 : Group, ({ m with
            v := g0.v, vseed := g0.vseed, freed := g0.freed, s := g0.s, p := g0.p, pend := g0.pend } : Group) = g0 →
          ({ k with
            v := g0.v, vseed := g0.vseed, freed := g0.freed, s := g0.s, p := g0.p, pend := g0.pend, pcs := g0.pcs, arrived := g0.arrived, a := g0.a
            runOpen := g0.runOpen, runLen := g0.runLen, words := g0.words, hx := g0.hx, hm := g0.hm, hg := g0.hg, trail := g0.trail
            stopped := g0.stopped, stopDue := g0.stopDue, stepping := g0.stepping, stopNote := g0.stopNote, e := g0.e, split := g0.split
            gang := g0.gang, relWait := g0.relWait } : Group) = g0 := by
      intro k m hk g0 hm
      rw [← hm, ← hk]
    refine e1 _ h hr _ ?_
    rw [hh, hg]
    rfl
  · rw [hgrp]
    refine Claims.past_congr w.fin _ h _ ?_ ?_ ?_ ?_ ?_ ?_ ?_ ?_ (Group.wordEnd_past h w.fin) <;> rw [hh, hg] <;> rfl
  · rw [hgrp, Group.wordEnd_pend]
    have e1 : h.e = s.grp.e := by rw [hh, hg]; rfl
    have e2 : h.pend = s.grp.pend ++ new := by rw [hh, hg]; rfl
    have e3 : h.trail = s.grp.trail := by rw [hh, hg]; rfl
    simp only [Claims.pendAfter, Claims.ends, List.append_nil, e1, e2, Group.endRun, e3]
  · rw [hgrp, Group.wordEnd_s, hh]; rfl
  · rw [hgrp, Group.wordEnd_p, hh]; rfl
  · intro q l hl hq
    rw [hgrp, Group.wordEnd_readV]
    exact hv q l hl (by unfold Claims.notFreed at *; rw [State.grp_setGrp, he]; exact hq)

/-- The end of a word leaves alone what a register word leaves alone. -/
theorem groupRest_wordEnd (u h : Group) (f c : Bool) (hh : h = u.withV h) : Claims.groupRest u (h.wordEnd f c) := by
  have hr := Group.wordEnd_rest h f c
  unfold Claims.groupRest
  have e1 : ∀ (k m : Group), ({ k with pend := m.pend, pcs := m.pcs, arrived := m.arrived, a := m.a
                                       runOpen := m.runOpen, runLen := m.runLen, words := m.words, hx := m.hx, hm := m.hm, hg := m.hg, trail := m.trail
                                       stopped := m.stopped, stopDue := m.stopDue, stepping := m.stepping, stopNote := m.stopNote, e := m.e, split := m.split
                                       gang := m.gang, relWait := m.relWait } : Group) = m →
      ∀ g0 : Group, ({ m with
          v := g0.v, vseed := g0.vseed, freed := g0.freed, s := g0.s, p := g0.p, pend := g0.pend } : Group) = g0 →
        ({ k with
          v := g0.v, vseed := g0.vseed, freed := g0.freed, s := g0.s, p := g0.p, pend := g0.pend, pcs := g0.pcs, arrived := g0.arrived, a := g0.a
          runOpen := g0.runOpen, runLen := g0.runLen, words := g0.words, hx := g0.hx, hm := g0.hm, hg := g0.hg, trail := g0.trail
          stopped := g0.stopped, stopDue := g0.stopDue, stepping := g0.stepping, stopNote := g0.stopNote, e := g0.e, split := g0.split
          gang := g0.gang, relWait := g0.relWait } : Group) = g0 := by
    intro k m hk g0 hm
    rw [← hm, ← hk]
  refine e1 _ h hr _ ?_
  rw [hh]
  rfl

/-- The effect of a word, from the state `u` that its own part left. -/
theorem issue_effect (i : Instr) (w : WordInfo) (body : State → Did) (s u : State)
    (hi : exec i s = issue w body s) (hc : Claims.clear w s) (hb : body s = .did u [] false) : Claims.effect i w u s := by
  have h1 := issue_did w body s u false hc.1 hc.2 hb
  obtain ⟨ho, h, hh, hgrp, hv⟩ := State.after_spec u w false
  refine ⟨_, hi.trans h1, ho, ?_, ?_, ?_, ?_, ?_, ?_⟩
  · rw [hgrp]; exact groupRest_wordEnd _ _ _ _ hh
  · rw [hgrp]
    refine Claims.past_congr w.fin _ h _ ?_ ?_ ?_ ?_ ?_ ?_ ?_ ?_ (Group.wordEnd_past h w.fin) <;> rw [hh] <;> rfl
  · rw [hgrp, Group.wordEnd_pend]
    have e1 : h.e = u.grp.e := by rw [hh]; rfl
    have e2 : h.pend = u.grp.pend := by rw [hh]; rfl
    have e3 : h.trail = u.grp.trail := by rw [hh]; rfl
    simp only [Claims.pendAfter, Claims.ends, List.append_nil, e1, e2, Group.endRun, e3]
  · intro q l hl hq _
    rw [hgrp, Group.wordEnd_readV]
    exact hv q l hl (.inl hq)
  · rw [hgrp, Group.wordEnd_s, hh]; rfl
  · rw [hgrp, Group.wordEnd_p, hh]; rfl

/-- A fold of program counters. -/
theorem pc_foldl (f : Nat → Quad) (ls : List Nat) (t : Tbl Quad) (l : Nat) :
    (ls.foldl (fun t k => t.set k (f k)) t).getD l 0 = if l ∈ ls then f l else t.getD l 0 := by
  induction ls generalizing t with
  | nil => simp
  | cons k ls ih =>
    simp only [List.foldl_cons]
    rw [ih]
    by_cases h1 : l ∈ ls
    · simp [h1]
    · by_cases h2 : k = l
      · subst h2; simp
      · simp [h1, Ne.symm h2, Tbl.getD_set_ne _ _ _ h2]

/-- The effect of a control word, from the group `g` that its own part left. -/
theorem issue_transfer (i : Instr) (w : WordInfo) (body : State → Did) (s : State) (g : Group) (target : Nat → Quad)
    (hi : exec i s = issue w body s) (hc : Claims.clear w s) (hb : body s = .did (s.setGrp g) [] true)
    (hg : g = { s.grp with v := g.v, pcs := g.pcs, arrived := g.arrived })
    (hp : ∀ l, l < 16 → g.pc l = if s.grp.e.getLsbD l then target l else s.grp.pc l)
    (hk : ∀ r l, l < 16 → (r ∉ w.vw ∨ s.grp.e.getLsbD l = false) → g.readV r l = s.grp.readV r l)
    (hv : ∀ r l, l < 16 → r ∈ w.vw → s.grp.e.getLsbD l = true → g.readV r l = (s.grp.a + 4).extractLsb' 0 32) :
    Claims.transfer i w target g.arrived s := by
  have h1 := issue_did w body s (s.setGrp g) true hc.1 hc.2 hb
  obtain ⟨ho, h, hh, hgrp, hr⟩ := State.after_spec (s.setGrp g) w true
  simp only [State.grp_setGrp] at hh hr
  have he : g.e = s.grp.e := by rw [hg]
  have hw : h.wordEnd w.fin true = ({ h.countWord.dropHints with a := h.a + 4 } : Group).endRun := by
    rw [Group.wordEnd_true h w.fin true (by simp)]; rfl
  refine ⟨_, hi.trans h1, (Claims.othersSame.setGrp s g).trans ho, ?_, ?_, ?_, ?_, ?_, ?_, ?_, ?_, ?_, ?_, ?_, ?_, ?_, ?_⟩
  · rw [hgrp]
    have h2 := groupRest_wordEnd _ _ w.fin true hh
    have : Claims.groupRest s.grp g := by
      unfold Claims.groupRest
      rw [hg]
    unfold Claims.groupRest at *
    conv => rhs; rw [← this, ← h2]
  · intro l hl
    have e1 : h.pcs = g.pcs := by rw [hh]; rfl
    have e2 := hp l hl
    rw [hgrp, hw]
    unfold Group.pc at e2
    simp only [Group.pc, Group.endRun, Group.dropHints, Group.countWord, e1]
    exact e2
  · have e1 : h.arrived = g.arrived := by rw [hh]; rfl
    rw [hgrp, hw]
    simp only [Group.endRun, Group.dropHints, Group.countWord, e1]
  · have e1 : h.e = s.grp.e := by rw [hh]; exact he
    rw [hgrp, hw]
    simp only [Group.endRun, Group.dropHints, Group.countWord, e1]
  · rw [hgrp, hw]; rfl
  · rw [hgrp, hw]; rfl
  · rw [hgrp, hw]; rfl
  · rw [hgrp, hw]; rfl
  · rw [hgrp, hw]; rfl
  · have e1 : h.pend = s.grp.pend := by rw [hh, hg]; rfl
    have e2 : h.trail = s.grp.trail := by rw [hh, hg]; rfl
    rw [hgrp, hw]
    simp only [Claims.pendAfter, Claims.ends, List.append_nil, Bool.true_or, if_true, Group.endRun, Group.dropHints, Group.countWord, e1, e2]
  · intro q l hl hq hd
    rw [hgrp, Group.wordEnd_readV, hr q l hl (.inl (by unfold Claims.notFreed at *; rw [State.grp_setGrp, he]; exact hq)), hk q l hl hd]
  · rw [hgrp, Group.wordEnd_s, hh, hg]; rfl
  · rw [hgrp, Group.wordEnd_p, hh, hg]; rfl
  · intro r l hl hw' hel
    rw [hgrp, Group.wordEnd_readV, hr r l hl (.inr ⟨hw', by rw [he]; exact hel⟩), hv r l hl hw' hel]

theorem writeLanes_only (g : Group) (r : Nat) (f : Nat → Word) (ls : List Nat) :
    g.writeLanes r f ls = { g with v := (g.writeLanes r f ls).v } := by
  unfold Group.writeLanes
  induction ls generalizing g with
  | nil => rfl
  | cons l ls ih =>
    simp only [List.foldl_cons]
    conv => lhs; rw [ih]
    rfl

theorem writeLanes_listed (g : Group) (r : Nat) (f : Nat → Word) (ls : List Nat) (l : Nat) (h : l ∈ ls) :
    ((g.writeLanes r f ls).v.get? (16 * r + l)).isSome := by
  unfold Group.writeLanes
  have mono : ∀ (ls : List Nat) (g : Group), (g.v.get? (16 * r + l)).isSome →
      ((ls.foldl (fun g l => g.writeV r l (f l)) g).v.get? (16 * r + l)).isSome := by
    intro ls
    induction ls with
    | nil => intro g h; exact h
    | cons k ls ih =>
      intro g h
      simp only [List.foldl_cons]
      apply ih
      simp only [Group.writeV, Tbl.get?_set]
      split
      · rfl
      · exact h
  induction ls generalizing g with
  | nil => simp at h
  | cons k ls ih =>
    simp only [List.foldl_cons]
    by_cases hk : l = k
    · subst hk
      apply mono
      simp [Group.writeV, Tbl.get?_set]
    · exact ih _ (by simpa [hk] using h)

/-- A fixed-latency vector word. -/
theorem vecWord_result (i : Instr) (w : WordInfo) (d : BitVec 7) (f : Group → Nat → Word) (s : State)
    (hi : exec i s = vecWord w d f s) (hd : w.vw = [d.toNat]) : Claims.vectorResult i w d.toNat f s := by
  intro hc
  obtain ⟨t, ht, hs, hp, hv⟩ := issue_completes i w
    (fun s => .did (s.updGrp fun g => g.writeLanes d.toNat (f g) (lanesOf g.e)) [] false) s (s.grp.writeLanes d.toNat (f s.grp) (lanesOf s.grp.e)) [] hi hc rfl
    (by conv => lhs; rw [writeLanes_only]
        simp only [List.append_nil]
        rw [writeLanes_only])
  rw [writeLanes_only] at hs hp
  refine ⟨t, ht, ?_, hs, hp, ?_⟩
  · intro r l hl hr hd'
    rw [hv r l hl (.inl hr), Group.readV_writeLanes _ _ _ _ _ _ (lanesOf_lt _) hl]
    rw [if_neg]
    rintro ⟨h1, h2⟩
    rcases hd' with hd' | hd'
    · exact hd' (h1 ▸ List.mem_cons_self ..)
    · rw [((mem_lanesOf _ _).mp h2).2] at hd'
      exact absurd hd' (by decide)
  · intro l hl he
    have hm : l ∈ lanesOf s.grp.e := (mem_lanesOf _ _).mpr ⟨hl, he⟩
    rw [hv d.toNat l hl (.inr ⟨by rw [hd]; exact List.mem_cons_self .., he⟩),
      Group.readV_writeLanes _ _ _ _ _ _ (lanesOf_lt _) hl, if_pos ⟨rfl, hm⟩]

/-- A long-latency vector word. -/
theorem vecLong_result (i : Instr) (w : WordInfo) (d : BitVec 7) (f : Group → Nat → Word) (s : State)
    (hi : exec i s = vecLong w d f s) : Claims.vectorLong i w d.toNat f s := by
  intro hc
  obtain ⟨t, ht, hs, hp, hv⟩ := issue_completes i w
    (fun s => .did (s.updGrp fun g => g.addPending (.lanes d.toNat ((lanesOf g.e).map fun l => (l, f g l)))) [] false) s
    (s.grp.addPending (.lanes d.toNat ((lanesOf s.grp.e).map fun l => (l, f s.grp l))))
    [⟨.lanes d.toNat ((lanesOf s.grp.e).map fun l => (l, f s.grp l)), true, false, false, [], 0⟩] hi hc rfl rfl
  exact ⟨t, ht, fun r l hl hr _ => hv r l hl (.inl hr), hs, hp⟩

/-- A scalar word. -/
theorem scalarWord_result (i : Instr) (w : WordInfo) (d : BitVec 6) (f : Group → Quad) (s : State)
    (hi : exec i s = scalarWord w d f s) : Claims.scalarResult i w d.toNat f s := by
  intro hc
  obtain ⟨t, ht, hs, hp, hv⟩ := issue_completes i w
    (fun s => .did (s.updGrp fun g => g.writeS d.toNat (f g)) [] false) s (s.grp.writeS d.toNat (f s.grp)) [] hi hc rfl
    (by unfold Group.writeS
        simp only [List.append_nil]
        split <;> rfl)
  refine ⟨t, ht, fun r l hl hr _ => ?_, ?_, ?_⟩
  · rw [hv r l hl (.inl hr)]
    unfold Group.writeS
    split <;> rfl
  · rw [hp]
    unfold Group.writeS
    split <;> rfl
  · intro r
    have h2 : t.grp.readS r = (s.grp.writeS d.toNat (f s.grp)).readS r := by
      unfold Group.readS
      rw [hs]
    rw [h2, Group.readS_writeS]
    by_cases h : r = d.toNat
    · subst h
      by_cases h0 : d.toNat = 0
      · simp [h0]
      · simp [h0]
    · simp [h, Ne.symm h]

/-- A predicate word. -/
theorem predWord_result (i : Instr) (w : WordInfo) (d : BitVec 3) (f : Group → Nat → Bool) (s : State)
    (hi : exec i s = predWord w d f s) : Claims.predResult i w d.toNat f s := by
  intro hc
  obtain ⟨t, ht, hs, hp, hv⟩ := issue_completes i w
    (fun s => .did (s.updGrp fun g => g.writeP d.toNat g.e (maskOf ((lanesOf g.e).filter (f g)))) [] false) s
    (s.grp.writeP d.toNat s.grp.e (maskOf ((lanesOf s.grp.e).filter (f s.grp)))) [] hi hc rfl
    (by simp only [List.append_nil]; rfl)
  refine ⟨t, ht, fun r l hl hr _ => ?_, hs, ?_⟩
  · rw [hv r l hl (.inl hr)]
    rfl
  · intro q l hl
    have h2 : t.grp.readP q l = (s.grp.writeP d.toNat s.grp.e (maskOf ((lanesOf s.grp.e).filter (f s.grp)))).readP q l := by
      have hseed : t.grp.seed = s.grp.seed := by
        have := congrArg Group.seed ht.2.2.1
        exact this
      unfold Group.readP Group.pred
      rw [hp, hseed]
      rfl
    rw [h2, Group.readP_writeP _ _ _ _ _ _ hl]
    by_cases h : d.toNat = q
    · subst h
      by_cases he : s.grp.e.getLsbD l = true
      · simp only [he, and_self, if_true]
        rw [getLsbD_maskOf _ _ hl]
        have hm : l ∈ lanesOf s.grp.e := (mem_lanesOf _ _).mpr ⟨hl, he⟩
        simp [hm]
      · simp [he]
    · simp [h, Ne.symm h]

end Sys2Proof.Machine
end

