-- ==== Sys2Proof/Tests/Slice0.lean ====
section
/-! SUPPORT. Tests: words written out from the spec's encodings, ill-formed terms, single steps on small states, and for every statement a state and operands that
meet its hypotheses. -/

namespace Sys2Proof.Tests

set_option Elab.async false

open Sys2Proof Sys2Proof.Machine Sys2Proof.Machine.Claims

/-! ### Small states -/

/-- A group of 16 lanes at 0x10000 inside a run, with a vector table. -/
def tg : Group := { Group.init with
  team := 5, pcs := (List.range 16).map fun l => (l, 0x10000), a := 0x10000, e := 0xFFFF, runOpen := true, trapBase := 0x20000, slot := some 0 }

/-- A page of address space 1 that may be read, written and fetched: addresses 0 to 0xFFFF at frame 0. -/
def tpage : PageAttr := { w := true, x := true, d := true, grain := 1, nomig := false, round := none, nc := false, big := false, pa := 0 }

/-- Its entry in a core's page-attribute cache. -/
def tpac : PacEntry := ⟨1, 0, true, true, true, 1, false⟩

/-- One team of one group on core 0, in a grid of context 1. -/
def ts (g : Group) : State := { State.reset with
  cur := 7
  pkg := { Pkg.init with pwr := 2 }
  groups := [(7, g)]
  teams := [(5, { Team.init with grid := 3, st := .resident, groups := [7] })]
  grids := [(3, { Grid.init with ctx := 1, num := 9, st := .running })]
  ctxs := [(1, { Ctx.init with live := true, asid := 1 })]
  cores := [(0, { Core.init with pac := [tpac] })]
  tlb := (List.range 24).map fun d => (d, [⟨1, 0, tpage⟩]) }

/-- The Ozyth core's group inside a run. -/
def tz : State := { State.reset with groups := [(0, { tg with oz := true, core := 576, exited := 0xFFFE, e := 1 })] }

/-- A decidable list of facts about a word that is clear to issue. -/
theorem clear_of (w : WordInfo) (s : State) (h : (s.checkWord w == none && !s.mustStall w) = true) : clear w s := by
  simp [clear] at h ⊢
  exact h

/-! ### Witnesses: the hypotheses of each statement are met -/

-- VectorWords, FloatWords: the ends of the register file, both last-use bits, an extended immediate
theorem witness_VectorWords : clear (infoA true true false 0 119 127) (ts tg) ∧
    clear { infoU false false 119 0 with hx := true } (ts { tg with hx := some 0x3FFFFF }) ∧
    clear (infoU true true 119 0) (ts tg) ∧ clear { fin := true, vw := [127], hx := true } (ts tg) :=
  ⟨clear_of _ _ (by decide), clear_of _ _ (by decide), clear_of _ _ (by decide), clear_of _ _ (by decide)⟩

theorem witness_FloatWords : clear (infoA true true true 119 0 1) (ts tg) ∧ clear (infoAD false true true 119 0 1) (ts tg) ∧
    clear (infoU false true 0 119) (ts tg) ∧ clear (infoU false false 0 119) tz :=
  ⟨clear_of _ _ (by decide), clear_of _ _ (by decide), clear_of _ _ (by decide), clear_of _ _ (by decide)⟩

theorem witness_PredicateWords :
    clear { fin := true, vr := [119, 0], frees := freeIf true 119 ++ freeIf false 0 } (ts tg) ∧ clear { fin := false } (ts tg) :=
  ⟨clear_of _ _ (by decide), clear_of _ _ (by decide)⟩

theorem witness_MoveWords : clear (infoU true true 127 119) (ts tg) ∧ clear { fin := false, vw := [0], sn := [63] } (ts tg) ∧
    clear (infoS false [63, 0]) (ts tg) ∧ clear { fin := false, vr := [119], sn := [0], frees := freeIf true 119 } (ts tg) :=
  ⟨clear_of _ _ (by decide), clear_of _ _ (by decide), clear_of _ _ (by decide), clear_of _ _ (by decide)⟩

theorem witness_SpecialFunctionWords : clear (infoU true true 119 0) (ts tg) ∧ clear (infoA false true true 0 119 1) (ts tg) :=
  ⟨clear_of _ _ (by decide), clear_of _ _ (by decide)⟩

-- the divider's clauses at their edges: 1 and the most negative divisor, 0, and −2³¹ by −1
theorem witness_DividerResults : ((1 : Word) ≠ 0 ∧ ¬ ((0x80000000 : Word) = 0x80000000 ∧ (1 : Word) = 0xFFFFFFFF)) ∧ (0x80000000 : Word) ≠ 0 := by
  decide

theorem witness_ScalarWords : clear (infoS true [0, 63, 1]) (ts tg) ∧ clear (infoS false [63, 0] true) (ts { tg with hx := some 0x3FFFFF }) ∧
    clear (infoS false [0] true) (ts tg) ∧
    ((0x30200000 : Word).extractLsb' 26 5 = 0x0C ∧ (0x30200000 : Word).extractLsb' 21 2 ≠ 0) ∧
    ((0x37800000 : Word).extractLsb' 26 5 = 0x0D ∧ ((0x37800000 : Word).extractLsb' 23 3).toNat = 7) :=
  ⟨clear_of _ _ (by decide), clear_of _ _ (by decide), clear_of _ _ (by decide), by decide, by decide⟩

-- an `hm` with XBV and XB = v2
theorem witness_ShuffleWords :
    let g := { tg with hm := some 0x104000 }
    clear { fin := true, vr := [1, hmXB g], vw := [0], frees := freeIf true 1 ++ freeIf (hmLB g) (hmXB g), hm := hmLaneOk } (ts g) ∧
      noAbsent false 7 g ∧ noAbsent true 0 { g with e := 1 } := by
  refine ⟨clear_of _ _ (by decide), Or.inr ?_, Or.inl rfl⟩
  intro l m _ hm _ _
  exact (by decide : ∀ m, m < 16 → (0xFFFF : Mask).getLsbD m = true) m hm

theorem witness_AbsentMemberFaults :
    let g := { tg with hm := some 0x104000, e := 0x00FE }
    clear { fin := false, vr := [1, hmXB g], vw := [0], frees := freeIf (hmLB g) (hmXB g), hm := hmLaneOk } (ts g) ∧ canTrap g ∧
      (hmLB g = true → hmXB g ≠ 0) ∧ (∃ m, m < 16 ∧ m / g.subWidth 0 = 7 / g.subWidth 0 ∧ g.e.getLsbD m = false) := by
  exact ⟨clear_of _ _ (by decide), ⟨by decide, by decide⟩, by decide, 0, by decide⟩

theorem witness_VoteWords : (ts tg).grp.e ≠ 0 ∧ noAbsent true 0 tg ∧ clear (infoS true [63]) (ts tg) ∧ clear { fin := false } (ts tg) ∧
    (2 : BitVec 3).toNat < 3 ∧ 3 ≤ (3 : BitVec 3).toNat ∧ (1 : BitVec 1) ≠ 0 :=
  ⟨by decide, Or.inl rfl, clear_of _ _ (by decide), clear_of _ _ (by decide), by decide, by decide, by decide⟩

theorem witness_ReductionWords : noAbsent true 7 { tg with e := 0x8000 } ∧ clear (infoU true true 0 119) (ts { tg with e := 0x8000 }) :=
  ⟨Or.inl rfl, clear_of _ _ (by decide)⟩

theorem witness_BranchWords : clear { fin := true, ctl := true } (ts tg) ∧ clear { infoS false [0, 63] with ctl := true } (ts tg) :=
  ⟨clear_of _ _ (by decide), clear_of _ _ (by decide)⟩

-- a target per lane that is a multiple of 4; lanes that join with others outside, and as the last
theorem witness_JumpWords :
    let g := { tg with v := (List.range 16).map fun l => (16 * 119 + l, 0xFFFFFFFC) }
    clear { fin := true, vr := [119], vw := [0], frees := freeIf true 119, ctl := true } (ts g) ∧ clear { fin := true, vw := [0], ctl := true } (ts g) ∧
      ∀ l, l < 16 → g.e.getLsbD l = true → (g.readV 119 l).toNat % 4 = 0 :=
  ⟨clear_of _ _ (by decide), clear_of _ _ (by decide), by decide⟩

theorem witness_JoinWord :
    (clear { fin := false, waits := true, ctl := true } (ts { tg with e := 1 }) ∧ ~~~(0 ||| 0 ||| (1 : Mask)) ≠ 0) ∧
    (clear { fin := false, waits := true, ctl := true } (ts { tg with e := 1, joined := 0xFFFE }) ∧ ~~~(0 ||| 0xFFFE ||| (1 : Mask)) = 0) ∧
    ∀ l, l < 16 → ((0xFFFE ||| 1 : Mask)).getLsbD l = true → tg.pc l = tg.a :=
  ⟨⟨clear_of _ _ (by decide), by decide⟩, ⟨clear_of _ _ (by decide), by decide⟩, by decide⟩

theorem witness_ExitWord :
    clear { fin := false, waits := true, ctl := true } (ts tg) ∧ (tg.exited ||| tg.e = allLanes ∧ tg.joined = 0 ∧ tg.oz = false ∧ tg.gone = false ∧
      (∀ c ∈ tg.cmds, c.1 ≠ 3 → c.2 = []) ∧ tg.bumping = false) ∧
    tg.num < 64 ∧ (ts tg).teams.get? 5 ≠ none ∧ clear { fin := false, waits := true, ctl := true } (ts { tg with e := 0x7FFF }) ∧ ~~~(0 ||| 0 ||| (0x7FFF : Mask)) ≠ 0 :=
  ⟨clear_of _ _ (by decide), by decide, by decide, by decide, clear_of _ _ (by decide), by decide⟩

theorem witness_HintWords :
    clear { fin := false } (ts tg) ∧ tg.e ≠ 0 ∧ tg.trail = none ∧ clear { fin := false } (ts { tg with trail := some [1] }) ∧ canTrap tg ∧
    ({ tg with runLen := 23 } : Group).runLen < 24 ∧ tg.hx = none ∧ tg.hm = none ∧ tg.hg = none := by
  exact ⟨clear_of _ _ (by decide), by decide, rfl, clear_of _ _ (by decide), ⟨by decide, by decide⟩, by decide, rfl, rfl, rfl⟩

-- Table 17.15: each row fails by itself: a hint that is not accepted, the 25th word, a register outside the budget, a freed register
theorem witness_OrderOfChecks :
    canTrap tg ∧ ¬ (({ tg with hg := some 0 } : Group).hg = none) ∧ (24 ≤ ({ tg with runLen := 24 } : Group).runLen) ∧
    ¬ (8 < ({ tg with budget := 8 } : Group).budget ∨ 120 ≤ 8) ∧
    (((ts tg).modeOf tg).getLsbD 10 = false ∧ (((ts tg).updGrid 3 fun g => { g with mode := 0x400 }).modeOf tg).getLsbD 10 = true) ∧
    ({ tg with freed := [(1, 0x8000)] } : Group).isFreed 1 = true :=
  ⟨⟨by decide, by decide⟩, by decide, by decide, by decide, by decide, by decide⟩

theorem witness_TerminatingFaults :
    ({ tg with e := 0x8000, trapBase := 0 } : Group).e = BitVec.ofNat 16 (2 ^ 15) ∧
    (({ tg with e := 1, inTrap := 1 } : Group).inTrap.getLsbD 0 = true) ∧ (ts tg).teams.get? tg.team ≠ none ∧ (ts tg).groups.get? 7 ≠ none ∧ tg.fence = none := by
  decide

theorem witness_TrapAndControlWords :
    clear { fin := true, waits := true } (ts tg) ∧ clear { fin := true } (ts tg) ∧ canTrap tg ∧
    ({ tg with inTrap := 0xFFFF } : Group).e &&& ~~~({ tg with inTrap := 0xFFFF } : Group).inTrap = 0 ∧
    clear { fin := false } tz ∧ tz.grp.oz = true ∧ clear { fin := true, grp := false, waits := true } tz ∧
    ({ tz with oz := { tz.oz with inIrq := true } } : State).oz.inIrq = true ∧ tz.oz.inIrq = false ∧ canTrap tz.grp ∧ (ts tg).grp.oz = false :=
  ⟨clear_of _ _ (by decide), clear_of _ _ (by decide), ⟨by decide, by decide⟩, by decide, clear_of _ _ (by decide), by decide, clear_of _ _ (by decide), by decide, by decide,
    ⟨by decide, by decide⟩, by decide⟩

-- a group and the Ozyth core; a value with and without low bits; registers that are read only (ts.now, core.id), the last of them, a per-lane one
theorem witness_SpecialRegisters :
    clear { fin := true, vw := [0] } (ts tg) ∧ clear { fin := false, sn := [63], grp := true } (ts tg) ∧ clear { fin := false, sn := [63], grp := false } tz ∧
    clear { fin := false, sn := [63], grp := true, waits := true } (ts tg) ∧ clear { fin := false, sn := [63], grp := false, waits := true } tz ∧
    (ts tg).grp.oz = false ∧ tz.grp.oz = true ∧ (ts tg).myGrid.ballot = none ∧ ((0x20000 : Quad).extractLsb' 0 12 = 0) ∧ ((0x20800 : Quad).extractLsb' 0 12 ≠ 0) ∧
    (0x109#10 ∉ [0x108#10, 0x10C#10, 0x10D#10, 0x300#10, 0x301#10, 0x302#10, 0x303#10, 0x305#10, 0x306#10]) ∧ canTrap tg ∧ canTrap tz.grp ∧
    0x300 ≤ (0x3FF#10).toNat ∧ 0x003#10 ≠ 0x002 ∧
    clear { fin := false, vr := [119], frees := freeIf true 119, waits := true } (ts tg) :=
  ⟨clear_of _ _ (by decide), clear_of _ _ (by decide), clear_of _ _ (by decide), clear_of _ _ (by decide), clear_of _ _ (by decide), by decide, by decide, by decide, by decide,
    by decide, by decide, ⟨by decide, by decide⟩, ⟨by decide, by decide⟩, by decide, by decide, clear_of _ _ (by decide)⟩

theorem witness_StampAndRandomWords : clear { infoS true [0] with waits := true } (ts tg) ∧ clear { fin := false, vw := [119] } (ts tg) :=
  ⟨clear_of _ _ (by decide), clear_of _ _ (by decide)⟩

/-- A launch record of one team of one group: ENTRY 0x4000, ARG 77, TEAMS 1, GROUPS 1, CLUSTER 1, one role of one group and 8 registers, number 5. -/
def trec : List Byte :=
  leBytes 8 0x4000 ++ leBytes 8 77 ++ leBytes 4 1 ++ [1, 1, 0, 1] ++ leBytes 2 0x0101 ++ List.replicate 6 0 ++ leBytes 2 0 ++ [0, 0] ++ leBytes 4 5 ++
    List.replicate 40 0 ++ List.replicate 48 0

theorem witness_LaunchWord :
    let s := { ts { tg with s := [(1, 0x100)] } with mem := Memory.putBytes [] 0x100 trec }
    let v := { s with l2 := [(lineKey 1 0, { newLine tpage 0 with valid := 0xFFFF, data := Memory.putBytes [] 0x100 trec })] }
    let w : WordInfo := { infoS true [0, 1] with waits := true }
    clear w s ∧ s.grp.oz = false ∧ (s.grp.readS 1).toNat % 128 = 0 ∧ (∃ attr, s.check 0x100 0 = .ok attr) ∧ recordOk trec = true ∧
    s.engineAsks 1 0x100 = [.l2Miss 1 0x100 0] ∧
    (v.engineAsks 1 0x100 = [] ∧ v.agentWaits 1 1 (ballotLinesOf (v.groupRead 1 0x100 128).2.1) = none ∧
     (v.groupRead 1 0x100 128).1.launchStatus 1 (v.groupRead 1 0x100 128).2.1 = 0 ∧ v.releaseAsks s.grp 5 = none) ∧
    clear w tz ∧ tz.oz.ctx.getLsbD 8 = false :=
  ⟨clear_of _ _ (by decide), by decide, by decide, ⟨tpac, by rfl⟩, by decide, by decide, ⟨by decide +kernel, by decide +kernel, by decide +kernel, by decide +kernel⟩, clear_of _ _ (by decide), by decide⟩

-- a full grid table, and a number in use
theorem witness_LaunchRefused :
    4096 ≤ ({ ts tg with grids := (List.range 4096).map fun n => (n, Grid.init) } : State).grids.length ∧
    (ts tg).grids.get? 3 ≠ none ∧ ((ts tg).grid 3).ctx = (ts tg).ctxOf tg ∧ ((ts tg).grid 3).num = 9 ∧ (ts tg).grids.length < 4096 :=
  ⟨by simp, by decide, by decide, by decide, by decide⟩

theorem witness_CinvWord : clear { infoS true [1, 2] with waits := true } (ts tg) ∧ (ts tg).releaseAsks tg 5 = none ∧ (ts tg).spaceOf tg = some 1 :=
  ⟨clear_of _ _ (by decide), by decide, by decide⟩

/-- A store under way at a bank. -/
def tstore : Store := 
  { gid := 7, asid := 1, va := 0, len := 4, pa := 0, core := 0, acks := 0, bank := true, peer := none, home := false, merged := false }

/-- A group with an incomplete fence, which it has gone past. -/
def tfence : Group := { tg with fence := some ⟨5, 0, none, []⟩ }

theorem witness_FenceWord :
    clear { fin := true, sn := [0], waits := true } (ts tg) ∧ ((ts tg).core 0).abuf = [] ∧ (∀ p ∈ tg.pend, p.ready = true ∨ p.tag = fenceTag) ∧
    (let s := { ts { tg with stores := [4] } with stores := [(4, tstore)] }
     clear { fin := false, sn := [63], waits := true } s ∧ ¬ tstore.performedAt 5 = true ∧ s.stores.get? 4 = some tstore) ∧
    (ts tfence).grp.fence ≠ none ∧ (ts tfence).checkWord { fin := true } = none ∧ (ts tfence).checkWord { fin := true, sn := [63] } = none :=
  ⟨clear_of _ _ (by decide), by decide, by decide, ⟨clear_of _ _ (by decide), by decide, by decide⟩, by decide, by decide, by decide⟩

theorem witness_WaitcWord :
    clear { fin := true, waits := true } (ts tg) ∧ (4 : BitVec 3).toNat < 5 ∧ (tg.cmds.getD 4 []).length ≤ 0 ∧
    clear { fin := false, waits := true } (ts { tg with cmds := [(0, [8, 9])] }) ∧ 1 < (({ tg with cmds := [(0, [8, 9])] } : Group).cmds.getD 0 []).length ∧
    clear { fin := false, waits := true } tz :=
  ⟨clear_of _ _ (by decide), by decide, by decide, clear_of _ _ (by decide), by decide, clear_of _ _ (by decide)⟩

theorem witness_TrigWord :
    clear { fin := true, waits := true } (ts tg) ∧ tg.oz = false ∧ tg.triggered = false ∧ tg.bumping = false ∧ ((ts tg).core 0).abuf = [] ∧ (ts tg).teams.get? 5 ≠ none ∧
    clear { fin := true, waits := true } (ts { tg with triggered := true }) ∧ ({ tg with triggered := true } : Group).triggered = true :=
  ⟨clear_of _ _ (by decide), by decide, by decide, by decide, by decide, by decide, clear_of _ _ (by decide), by decide⟩

-- the last participant, and one of two
theorem witness_BarrierWords :
    let two := { ts tg with
      teams := [(5, { Team.init with grid := 3, st := .resident, groups := [7, 8] })], groups := [(7, tg), (8, { tg with num := 1, part := 1 })] }
    (clear { fin := true, waits := true } (ts tg) ∧ 7 ∈ (ts tg).participants 5 0 ∧ 7 ∉ ((ts tg).barrier 5 0).arrived ∧ (ts tg).releaseAsks tg (barScope 0) = none ∧
      (ts tg).teams.get? ((ts tg).barHome 5 0) ≠ none ∧ ∀ g ∈ (ts tg).participants 5 0, ((ts tg).group g).exited = allLanes ∨ g ∈ ((ts tg).barrier 5 0).arrived ∨ g = 7) ∧
    (clear { fin := true, waits := true } two ∧ 7 ∈ two.participants 5 14 ∧ 7 ∉ (two.barrier 5 14).arrived ∧ two.releaseAsks two.grp (barScope 14) = none ∧
      ¬ ∀ g ∈ two.participants 5 14, (two.group g).exited = allLanes ∨ g ∈ (two.barrier 5 14).arrived ∨ g = 7) ∧
    7 ∈ (ts tg).participants 5 15 ∧ clear { fin := true, waits := true } tz :=
  ⟨⟨clear_of _ _ (by decide), by decide, by decide, by decide, by decide, by decide⟩,
    ⟨clear_of _ _ (by decide), by decide, by decide, by decide, by decide⟩, by decide, clear_of _ _ (by decide)⟩

-- an unbound register, one bound to the same stream, one bound to another; one, no and sixteen records, and the random stream
theorem witness_QueueWords :
    let b := fun (st : Nat) (recs : List Quad) => { tg with q := [(7, ⟨some st, recs, [9]⟩)] }
    clear { fin := true, waits := true } (ts tg) ∧ (5 : BitVec 4).toNat < 6 ∧ (tg.queue 0).stream = none ∧ tg.boundTo 5 = none ∧
    ((b 3 [1]).queue 7).stream = some 3 ∧ (b 3 [1]).boundTo 3 ≠ none ∧ canTrap (b 3 [1]) ∧
    clear { fin := true, sn := [0] } (ts (b 3 [1])) ∧ ((b 3 [1]).queue 7).recs = 1 :: [] ∧ ((b 5 [1]).queue 7).stream = some 5 ∧
    clear { fin := true, sn := [63] } (ts (b 0 [])) ∧ ((b 0 []).queue 7).stream ≠ none ∧ ((b 0 []).queue 7).recs = [] ∧ clear (infoS true [63]) (ts tg) ∧ (b 3 [1]).fence = none ∧
    tfence.fence ≠ none :=
  ⟨clear_of _ _ (by decide), by decide, by decide, by decide, by decide, by decide, ⟨by decide, by decide⟩, clear_of _ _ (by decide), by decide, by decide,
    clear_of _ _ (by decide), by decide, by decide, clear_of _ _ (by decide), by decide, by decide⟩

/-- A buffer of 256 bytes that team 5 holds, at the start of its one way. -/
def tbuf : Buf := ⟨true, 0, 5, 5, 0, 256, some 240⟩

/-- `ts` with that buffer, whose handle is 0, in entry 0. -/
def tb (g : Group) : State := { ts g with
  teams := [(5, { Team.init with grid := 3, st := .resident, groups := [7], ways := [15] })]
  cores := [(0, { Core.init with pac := [tpac], bufs := [(0, tbuf)] })] }

-- offsets of all lanes at the last word of the buffer; a misaligned lane, one before the start and one past the end
theorem witness_ScratchpadWords :
    let g := { tg with v := (List.range 16).map fun l => (16 + l, 252) }
    let o := fun (v : Word) (h : Option (BitVec 22)) => ((v.toNat : Int) + memImm { g with hx := h })
    g.oz = false ∧ (tb g).buffer 5 0 = some (0, 0, tbuf) ∧ (tb g).teams.get? tbuf.owner ≠ none ∧
    (∀ l, l < 16 → g.e.getLsbD l = true → ((g.readV 1 l).toNat : Int) % 4 = 0 ∧ 0 ≤ ((g.readV 1 l).toNat : Int) ∧ ((g.readV 1 l).toNat : Int) + 4 ≤ tbuf.size) ∧
    (∀ l, l < 16 → g.e.getLsbD l = true → ((tb g).team 5).spPoisoned 252 4 = false) ∧
    clear { fin := true, vr := [1], vw := [127], sn := [2], frees := freeIf true 1, hx := true, waits := true } (tb g) ∧
    clear { fin := true, vr := [1, 0], sn := [2], frees := freeIf true 0, hx := true, waits := true } (tb g) ∧ canTrap g ∧
    o 253 none % 4 ≠ 0 ∧ (o 0 (some 0x3FFFFC) % 4 = 0 ∧ o 0 (some 0x3FFFFC) < 0) ∧ (o 256 none % 4 = 0 ∧ (tbuf.size : Int) < o 256 none + 4) ∧
    (ts g).buffer 5 0 = none :=
  ⟨by decide, by decide, by decide, by decide, by decide, clear_of _ _ (by decide), clear_of _ _ (by decide), ⟨by decide, by decide⟩, by decide, by decide,
    by decide, by decide⟩

-- a size of 0, one above 512 KiB and 1 byte; one way to take, none left, one to return, in use and not
theorem witness_WayWords :
    let g := { tg with s := [(1, 1)] }
    clear { infoS true [63, 1] with waits := true } (tb g) ∧ 0 < (g.readS 1).toNat ∧ (g.readS 1).toNat ≤ 524288 ∧ ((((tb g).core 0).bufs.get? 0).map (·.live)) = some true ∧
    ((tb g).core 0).bufs.get? 1 = none ∧ (tb g).findSpace 5 256 = some 256 ∧ (ts g).findSpace 5 256 = none ∧
    524288 < (({ tg with s := [(1, 524289)] } : Group).readS 1).toNat ∧
    clear { fin := true, sn := [0], waits := true } (tb g) ∧ (tb g).teams.get? 5 ≠ none ∧ 1 ≤ ((tb g).cacheWays 0).length ∧ ((tb g).cacheWays 0).length < 16 ∧
    1 ≤ ((tb g).team 5).ways.length ∧ (∃ e ∈ (tb g).extents 5, (1 - 1) * 32768 < e.2) ∧ (¬ ∃ e ∈ (ts g).extents 5, (1 - 1) * 32768 < e.2) ∧
    ((ts g).team 5).ways.length < 1 :=
  ⟨clear_of _ _ (by decide), by decide, by decide, by decide, by decide, by decide, by decide, by decide, clear_of _ _ (by decide), by decide, by decide, by decide,
    by decide, by decide, by decide, by decide⟩

-- the buffer idle; a sync word in its last place; GEN one ahead of the value waited for, and equal to it; a hand-over to the team itself
theorem witness_BufferWords :
    let g := { tg with s := [(1, 0xFFFFFFFF), (2, 0)] }
    g.oz = false ∧ (tb g).buffer 5 0 = some (0, 0, tbuf) ∧ clear { infoS true [2] with waits := true } (tb g) ∧ (tb g).bufferBusy 5 0 = false ∧
    ((tb g).peers 5).find? (fun u => ((tb g).team u).rank == 0) = some 5 ∧ clear { infoS true [2, 1] with waits := true, hx := true } (tb g) ∧ 16 * 15 + 16 ≤ tbuf.size ∧
    tbuf.syw = some 240 ∧ clear { infoS true [0, 2, 1] with waits := true } (tb g) ∧ ((tb g).team 5).spWord (0 + 240 + 8) = 0 ∧
    (let ahead := (0 + 2 ^ 32 - 0xFFFFFFFF) % 2 ^ 32
     1 ≤ ahead ∧ ahead < 2 ^ 31) ∧ ¬ (1 ≤ (0 + 2 ^ 32 - 0) % 2 ^ 32) ∧ (tb g).buffer 5 0xFF = none :=
  ⟨by decide, by decide, clear_of _ _ (by decide), by decide, by decide, clear_of _ _ (by decide), by decide, by decide, clear_of _ _ (by decide), by decide,
    by decide, by decide, by decide⟩

/-- `ts` whose home slice holds line 0 whole. -/
def tl (g : Group) : State :=
  { ts g with l2 := [(lineKey 1 0, { newLine tpage 0 with valid := 0xFFFF })], grids := [(3, { Grid.init with ctx := 1, num := 9, st := .running, lockq := 1 })] }

/-- The one line that `lock` names in `tl`. -/
theorem tl_lines : (tl { tg with s := [(2, 1)] }).lockLines 1 0 1 = [0] := by decide +kernel

-- one line within the quota of one; a quota of none
theorem witness_LockWords :
    let g := { tg with s := [(2, 1)] }
    let news := ((tl g).lockLines 1 0 1).filter fun x => !((((tl g).line? 1 x).map (·.locked.isSome)).getD false)
    (g.readS 1).toNat % 512 = 0 ∧ (∀ x ∈ pagesOf 0 512, ∃ attr, (tl g).checkMany x 0 = .ok attr) ∧ clear { infoS true [0, 1, 2] with waits := true } (tl g) ∧ 0 < 1 ∧ 1 ≤ 2 ^ 20 ∧
    (tl g).pageNeeds 1 0 (pagesOf 0 512) = [] ∧
    (∀ x ∈ (tl g).lockLines 1 0 1, (tl g).wholeLineAsks 1 x = [] ∧ ∃ l, (tl g).line? 1 x = some l ∧ ∀ k, k < 16 → l.valid.getLsbD k = true) ∧
    ((tl g).ctx 1).lockUsed + news.length ≤ (tl g).lockqOf g ∧ (ts g).lockqOf g < ((ts g).ctx 1).lockUsed + news.length ∧ clear { infoS true [1, 2] with waits := true } (tl g) := by
  intro g news
  refine ⟨by decide, ?_, clear_of _ _ (by decide), by decide, by decide, by decide +kernel, ?_, by decide +kernel, by decide +kernel, clear_of _ _ (by decide)⟩
  · intro x hx
    have h : pagesOf 0 512 = [0] := by decide
    rw [h] at hx
    rw [List.mem_singleton.1 hx]
    exact ⟨tpac, by rfl⟩
  · intro x hx
    rw [tl_lines] at hx
    rw [List.mem_singleton.1 hx]
    exact ⟨by decide +kernel, _, by rfl, by decide +kernel⟩

/-- A group whose v1 holds 4·l in lane l. -/
def tv : Group := { tg with v := (List.range 16).map fun l => (16 + l, BitVec.ofNat 32 (4 * l)) }

/-- A copy in the core's cache, filled at round 5 of counter 9. -/
def tcopy : L1Line := { valid := 1, data := [], poison := [], round := some 9, fills := [(0, 5)], sidecar := none, way := 15 }

-- lanes at the words of a line that the home holds; one lane at its last byte, and a quad at its start; a load past an incomplete fence
theorem witness_LoadWords :
    (let s := tl tv
     let c := s.checkLanes (memAddr s.grp 0 1) 4 0
     let r := s.readLanes c.good 4 (loadBound s) State.ozRead
     clear { fin := true, vr := [1], vw := [127], sn := [0], frees := freeIf true 1, hx := true, hm := hmLoadOk } s ∧ c.asks = [] ∧ c.bad = [] ∧
       s.loadWaits c.good = false ∧ s.readNeeds c.good 4 (loadBound s) = [] ∧ r.asks = [] ∧ r.waits = []) ∧
    (let s := tl { tv with e := 1, hx := some 0, v := [(16, 511)] }
     let c := s.checkLanes (memAddr s.grp 0 1) 1 0
     let r := s.readLanes c.good 1 (loadBound s) State.ozRead
     c.asks = [] ∧ c.bad = [] ∧ s.loadWaits c.good = false ∧ s.readNeeds c.good 1 (loadBound s) = [] ∧ r.asks = [] ∧ r.waits = []) ∧
    (let x := tl { tv with e := 0xFF, fence := tfence.fence }
     let s := { x with cores := [(0, { Core.init with pac := [tpac], l1 := [(lineKey 1 0, { tcopy with round := none })] })] }
     let c := s.checkLanes (memAddr s.grp 0 1) 4 0
     clear { fin := true, vr := [1], vw := [127], sn := [0], frees := freeIf true 1, hx := true, hm := hmLoadOk } s ∧ c.asks = [] ∧ c.bad = [] ∧
       s.loadWaits c.good = false ∧ s.readNeeds c.good 4 (loadBound s) = [] ∧ (s.readLanes c.good 4 (loadBound s) State.ozRead).asks = []) ∧
    (let s := tl { tv with e := 1 }
     let c := s.checkLanes (memAddr s.grp 0 1) 16 0
     let r := s.readLanes c.good 16 (loadBound s) State.ozRead
     clear { fin := false, vr := [1], vw := [2, 3, 4, 5], sn := [31], frees := freeIf false 1, hx := true, hm := hmLoadOk } s ∧ c.asks = [] ∧ c.bad = [] ∧
       s.loadWaits c.good = false ∧ s.readNeeds c.good 16 (loadBound s) = [] ∧ r.asks = [] ∧ r.waits = []) :=
  ⟨⟨clear_of _ _ (by decide), by decide +kernel⟩, by decide +kernel, ⟨clear_of _ _ (by decide), by decide +kernel⟩, ⟨clear_of _ _ (by decide), by decide +kernel⟩⟩

/-- `tl` with a copy of its line filled at round 5 of counter 9, and counter 9 at 7 in the core's round table. -/
def tr : State :=
  let s := tl tv
  { s with cores := [(0, { Core.init with pac := [tpac], l1 := [(lineKey 1 0, tcopy)], rtab := [(9, 7)] })] }

/-- `tr` whose home's line is round-managed by counter 9. -/
def trh : State := { tr with l2 := [(lineKey 1 0, { newLine tpage 0 with valid := 0xFFFF, round := some 9 })] }

-- a copy that holds the sector, none, a home with every grain; a round-managed copy two rounds old under bounds 2 and 1, and at a home without and with STALL
theorem witness_LaneReads :
    tpage.nc = false ∧ tpage.round = none ∧ tr.readL1 0 1 0 = some tcopy ∧ (tl tv).readL1 0 1 0 = none ∧ (tl tv).homeAsks 1 0 0 = [] ∧
    ((tl tv).line? 1 0).map (·.grain) = some 1 ∧ ({ tpage with round := some 9 } : PageAttr).nc = false ∧ tr.roundValue 0 9 = some 7 ∧
    tcopy.fills.get? 0 = some 5 ∧ ((7 : Word) - 5).toNat ≤ 2 ∧ 1 < ((7 : Word) - 5).toNat ∧ tr.roundStall.getD 9 false = false ∧ tr.homeAsks 1 0 0 = [] ∧
    (tr.line? 1 0).isSome = true ∧ ((tl tv).cacheWays 0).length = 16 ∧
    trh.readL1 0 1 0 = some tcopy ∧ trh.homeAsks 1 0 0 = [] ∧ (trh.line? 1 0).map (fun h => (h.round, h.grain)) = some (some 9, 1) ∧ trh.roundValue 0 9 = some 7 ∧
    trh.roundStall.getD 9 false = false ∧ ({ trh with roundStall := [(9, true)] } : State).roundStall.getD 9 false = true ∧
    ({ trh with cores := [(0, { Core.init with rtab := [(9, 7)] })] } : State).readL1 0 1 0 = none := by
  decide +kernel

theorem witness_StoreWords :
    (let s := tl tv
     let c := s.checkLanes (memAddr s.grp 0 1) 4 1
     clear { fin := true, vr := [1, 2], sn := [0], frees := [2], hx := true, hm := hmStoreOk, waits := true } s ∧ c.asks = [] ∧ c.bad = [] ∧ s.relAsks = none ∧
       s.recordLoss.storeNeeds c.good 4 = []) ∧
    (let s := tl { tv with e := 1 }
     let c := s.checkLanes (memAddr s.grp 0 1) 16 1
     clear { fin := false, vr := [1, 2, 3, 4, 5], sn := [0], frees := [], hx := true, hm := hmStoreOk, waits := true } s ∧ c.asks = [] ∧ c.bad = [] ∧ s.relAsks = none ∧
       s.recordLoss.storeNeeds c.good 16 = []) :=
  ⟨⟨clear_of _ _ (by decide), by decide +kernel, by decide +kernel, by decide +kernel, by decide +kernel⟩,
    ⟨clear_of _ _ (by decide), by decide +kernel, by decide +kernel, by decide +kernel, by decide +kernel⟩⟩

/-- A ballot of two siblings. -/
def tballot : Ballot := 
  ⟨2, 1, 0, 0, (0, 0), 0, 0, false, List.replicate 2 ⟨0, false, false, 0, false, false, false⟩, [], [], 0, false, false⟩

-- the last bytes of a line; a line with two sharers, one with a coarse record, a round-managed one and a comb-target one; an NC page; a page of another
-- package; a line that its home does not hold, and is brought there; a ballot record that the store reaches
theorem witness_LaneStores :
    let l := fun (x : L2Line) => { ts tv with l2 := [(lineKey 1 0, x)] }
    let x := { newLine tpage 0 with valid := 0xFFFF }
    ((508 : Quad).toNat % 512 + [1, 2, 3, 4].length ≤ 512 ∧ (ts tv).isMine (pageAddr tpage 508) = true) ∧
    (∃ y, (l x).line? 1 508 = some y ∧ y.comb = false ∧ y.round = none) ∧
    (∃ y, (l { x with sharers := [(15, .precise [3, 4])] }).line? 1 508 = some y ∧ y.sharersAt (508 % 512) = .precise [3, 4]) ∧
    (∃ y, (l { x with sharers := [(15, .coarse 0x800000)] }).line? 1 508 = some y ∧ y.sharersAt (508 % 512) = .coarse 0x800000) ∧
    (∃ y, (l { x with round := some 9 }).line? 1 508 = some y ∧ y.round ≠ none) ∧ (∃ y, (l { x with comb := true }).line? 1 508 = some y ∧ y.comb = true) ∧
    (({ tpage with nc := true } : PageAttr).nc = true ∧ (ts tv).isMine (pageAddr { tpage with pa := 2 ^ 49 } 508) = false) ∧
    (let s := { ts tv with dram := [(0, { Stack.init with openRow := [(0, rowIndex 0)] })] }
     let held := fun (s : State) => (s.line? 1 508).any fun l => l.valid.getLsbD 15
     held s = false ∧ held (s.bring 1 508 1) = true ∧ s.spoil 1 508 4 = s ∧ (s.bring 1 508 1).spoil 1 508 4 = s.bring 1 508 1) ∧
    (let s := { ts tv with grids := [(3, { Grid.init with ctx := 1, num := 9, st := .running, ballot := some { tballot with addr := 509 } })] }
     s.grids.get? 3 ≠ none ∧ (s.grid 3).st ≠ .done ∧ (s.ctx (s.grid 3).ctx).asid = 1 ∧ (s.grid 3).ballot = some { tballot with addr := 509 } ∧
     (508 : Quad).toNat < (509 : Quad).toNat + 4096 ∧ (509 : Quad).toNat < (508 : Quad).toNat + 4) := by
  exact ⟨⟨by decide, by decide +kernel⟩, ⟨_, rfl, rfl, rfl⟩, ⟨_, rfl, by decide +kernel⟩, ⟨_, rfl, by decide +kernel⟩, ⟨_, rfl, by decide⟩, ⟨_, rfl, rfl⟩, ⟨rfl, by decide +kernel⟩, ⟨by decide +kernel, by decide +kernel, by decide +kernel, by decide +kernel⟩,
    by decide +kernel⟩

-- each operation at a line whose old value is the least integer, with a matching and a different comparand for `atom.cas`
theorem witness_AtomicWords :
    (let s := tl { tv with hm := some 0x1060 }
     let c := s.checkLanes (memAddr s.grp 0 1) 4 1
     let r := s.atomLanes c.good 0 true false 2
     clear { fin := true, vr := [1, 2], vw := [3], sn := [0], frees := freeIf true 2 ++ [], hx := true, hm := hmAtomOk true (0 == 8), waits := true } s ∧ c.asks = [] ∧ c.bad = [] ∧
       s.relAsks = none ∧ r.asks = []) ∧
    (0 : Quad).toNat % 4 = 0 ∧ (1 : Nat) < 2 ^ 16 ∧ (∃ l, (tl tv).line? 1 0 = some l) ∧ (0x80000000 : Word) ≠ 0x7FFFFFFF :=
  ⟨⟨clear_of _ _ (by decide +kernel), by decide +kernel, by decide +kernel, by decide +kernel, by decide +kernel⟩, by decide, by decide, ⟨_, rfl⟩,
    by decide⟩

/-- Group 7 with counter 9 in its core's round table, a bump of counter 9 under way, and a push on its way. -/
def tround : State :=
  let s := ts { tg with s := [(1, 9)], pend := [⟨.scalar 0 9, false, false, false, [], bumpTag⟩] }
  { s with cores := [(0, { Core.init with pac := [tpac], rtab := [(9, 7)] })], pushes := [⟨0, 9, 8, bumpTag, 7⟩] }

-- counter 9, in the table and outside; a bump under way; a push that reaches an entry
theorem witness_RoundWords :
    clear { infoS true [0, 1] with waits := true } tround ∧ tround.roundValue 0 9 = some 7 ∧ (∀ p ∈ (ts tg).pushes, ¬ (p.core = 0 ∧ p.counter = 9)) ∧
    clear { infoS true [0, 1] with waits := true } (ts { tg with s := [(1, 4095)] }) ∧ (ts tg).roundValue 0 4095 = none ∧
    (∃ p, (tround.group 7).pend.find? (fun p => bumpTag ≤ p.tag && !p.ready) = some p ∧ p.tag % 2 = 0 ∧ p.res = .scalar 0 (BitVec.ofNat 64 9)) ∧ (9 : Nat) < 4096 ∧
    tround.cumulative (tround.group 7) 5 = none ∧ (∃ p, tround.pushes.find? (fun p => p.core == 0) = some p) :=
  ⟨clear_of _ _ (by decide), by decide, by decide, clear_of _ _ (by decide), by decide, ⟨_, rfl, rfl, rfl⟩, by decide, by decide, ⟨_, rfl⟩⟩

-- the shapes: reserved source, two containers, four-bit with SC16, granted; formats of 2 and 8 bits, and of 1; a record at address 64 and a misaligned one
theorem witness_RecordWords :
    let fmt := fun (e m p : Nat) => BitVec.ofNat 64 (1 + 2 * e + 32 * m + 2 ^ 24 * p)
    let t := fun (w : Quad) (x : Quad) => { ts { tg with s := [(1, x)] } with teams := [(5, { Team.init with grid := 3, st := .resident, groups := [7], fmt := [(0, w)] })] }
    clear { fin := true, sn := [0, 1], oz := false, waits := true } (ts tg) ∧ (ts tg).grp.oz = false ∧
    ((3 : Quad).extractLsb' 0 2).toNat = 3 ∧ ((2 : Quad).extractLsb' 0 2).toNat ≠ ((2 : Quad).extractLsb' 6 2).toNat ∧
    ((fmt 1 2 1 + 2 ^ 26).getLsbD 26 = true ∧ 1 + ((fmt 1 2 1 + 2 ^ 26).extractLsb' 1 4).toNat + ((fmt 1 2 1 + 2 ^ 26).extractLsb' 5 4).toNat = 4) ∧
    clear { fin := false, sn := [1], oz := false, waits := true } (t 0 (fmt 4 3 1)) ∧ fmtValid (fmt 4 3 1) = true ∧ fmtValid (fmt 0 1 2) = true ∧ fmtValid (fmt 0 0 2) = false ∧
    (ts tg).teams.get? 5 ≠ none ∧ canTrap tg ∧ (64 : Quad).toNat % 64 = 0 ∧ (∃ attr, (tl { tg with s := [(1, 64)] }).check 64 0 = .ok attr) ∧
    (pieces 64 64).flatMap (fun y => (tl { tg with s := [(1, 64)] }).engineAsks 1 y.1) = [] ∧ (63 : Quad).toNat % 64 ≠ 0 :=
  ⟨clear_of _ _ (by decide), by decide, by decide, by decide, by decide, clear_of _ _ (by decide), by decide, by decide, by decide, by decide, ⟨by decide, by decide⟩,
    by decide, ⟨tpac, rfl⟩, by decide +kernel, by decide⟩

/-- A team with 8 accumulator tiles, a buffer of 32 KiB, tensor records of rank 1 and 2, and a handle table whose entry 1 is a live sequence of no positions. -/
def te (g : Group) : State :=
  let s := ts g
  { s with
    pkg := { s.pkg with kvTbl := 0x100001 }
    mem := Memory.putBytes [] 0x100020 [1]
    teams := [(5, { Team.init with
      grid := 3, st := .resident, groups := [7], ways := [15], tsr := [(0, ⟨0, 1, 0, 0, [256, 1, 1, 1, 1], [0, 0, 0, 0]⟩), (1, ⟨0, 2, 2, 0, [1, 1, 1, 1, 1], [128, 0, 0, 0]⟩)] })]
    grids := [(3, { Grid.init with ctx := 1, num := 9, st := .running, record := List.replicate 32 0 ++ [8, 0] })]
    cores := [(0, { Core.init with pac := [tpac], bufs := [(0, ⟨true, 0, 5, 5, 0, 32768, none⟩)] })] }

-- a block of each command that passes its checks, at the last accumulator tile where it names one; a full task table
theorem witness_EngineWords :
    let s := te tg
    clear { fin := true, sn := [0, 1], hg := true, out := outOk s.grp 0, oz := false, waits := true } s ∧
    (mmaHolds tg false [7, 0x20] ≠ [] ∧ tg.uncommitted (mmaHolds tg false [7, 0x20]) = false ∧ (s.modeOf tg).getLsbD 10 = false) ∧
    (let dead := ({ s with grids := s.grids.map fun e => (e.1, { e.2 with mode := 0x400 }) } : State)
     (dead.modeOf tg).getLsbD 10 = true ∧ (∃ r ∈ mmaHolds tg false [7, 0x20], r < 120 ∧ ({ tg with freed := (mmaHolds tg false [7, 0x20]).map (·, 1) } : Group).freed.getD r 0 ≠ 0)) ∧
    ({ tg with pend := (mmaHolds tg false [7, 0x20]).map fun r => ⟨.lanes r [], false, true, false, [], 0⟩ } : Group).uncommitted (mmaHolds tg false [7, 0x20]) = true ∧
    s.mmaCheck false [7, 0x20] = .pass ∧ s.acczCheck [7] = .pass ∧ s.acczCheck [8] = .fault fRegRange 0 false ∧ s.accMoveCheck [7, 0] = .pass ∧ s.drainCheck [0x207, 0] = .pass ∧
    s.copyCheck 0 [0xFFFF00000000, 0, 0, 0] = .pass ∧ s.copyCheck 1 [0xFFFF00000000, 0, 0, 0] = .pass ∧ s.copyCheck 2 [0xFFFF00000000, 0, 0, 0] = .pass ∧
    s.attnCheck [kvHandle 0 0 1 0, 0, 0x500000000, 0] = .pass ∧ s.attnFinCheck [kvHandle 0 0 1 0, 5] = .pass ∧
    s.attnFinCheck [kvHandle 0 0 1 0, 6] = .fault fRegRange 0 false ∧ s.rowreqCheck [0, 0, 0, 0] = .pass ∧
    s.roundCheck 0 [0, 64, 1, 0] = .pass ∧ s.roundCheck 3 [0, 64, 0x1000000001, 0] = .pass ∧ s.mergesOf 0 = [] ∧ (s.core 0).tasks.length < 64 ∧ canTrap tg ∧
    64 ≤ ({ Core.init with tasks := List.replicate 64 0 } : Core).tasks.length :=
  by
  repeat' apply And.intro
  all_goals decide +kernel

-- a scaled shape of two E8M0 scales
theorem witness_ScaledStep :
    let s := te { tg with grant := 0x8411 + 2 ^ 14 }
    (grantNsa s.grp.grant ≠ 0 ∨ grantNsb s.grp.grant ≠ 0) ∧ s.mmaCheck true [7, 0x20, 0] = .pass := by
  decide +kernel

-- blocks with and without reserved bits; a live handle and none; no arena; each bound's two sides
theorem witness_HandleWords :
    let s := te tg
    clear { fin := true, sn := [0, 1], oz := false, waits := true } s ∧ s.grp.oz = false ∧ s.sliceq = [] ∧ ((2 : Quad).extractLsb' 1 5 ≠ 0) ∧
    ((0xFFFFF : Quad).extractLsb' 20 44 = 0) ∧ ((0x100000 : Quad).extractLsb' 20 44 ≠ 0) ∧ canTrap tg ∧ s.handleOk 0 (kvHandle 0 0 1 5) = true ∧
    s.handleOk 0 (kvHandle 0 1 1 5) = false ∧ s.arena 1 = none ∧ (∃ v u, s.sliceAnswer 7 0 [1] = .val u v ∧ u.cur = s.cur) ∧
    (∃ code addr, s.sliceAnswer 7 1 [0, 0] = .fault code addr) ∧ s.pkg.kvTbl.getLsbD 0 = true ∧ ({ s with pkg := Pkg.init } : State).pkg.kvTbl.getLsbD 0 = false ∧
    (let x := ({ s with l2 := [(lineKey 1 0, { newLine tpage 0 with valid := 0xFFFF })], sliceq := [7] } : State)
     let u := x.setGrp { s.grp with block := .slice 0 0 [0] }
     let t := x.setGrp { s.grp with block := .slice 1 0 [0, 0] }
     let at_ := fun (u : State) (op : Nat) (b : List Quad) => ((u.sliceNeeds 7 op b).foldl (fun t va => t.agentTouch 1 va) u).grp = u.grp ∧ u.agentWaits 1 1 (u.sliceNeeds 7 op b) = none
     at_ u 0 [0] ∧ at_ t 1 [0, 0]) ∧ s.grp.leaves = false ∧ s.grp.saving = false := by
  refine ⟨clear_of _ _ (by decide), by decide, by decide, by decide, by decide, by decide, ⟨by decide, by decide⟩, by decide +kernel, by decide +kernel, by decide,
    ⟨0, te tg, by rfl, rfl⟩, ⟨0x19, 0, by rfl⟩, by decide, by decide, ⟨⟨by decide +kernel, by decide +kernel⟩, by decide +kernel, by decide +kernel⟩, by decide, by decide⟩

/-- `te` whose context has an arena with one free page on its stack. -/
def tarena : State :=
  let s := te tg
  { s with ctxs := [(1, { Ctx.init with live := true, asid := 1, kva := 1 })], mem := Memory.putBytes s.mem 32 [1] }

theorem witness_HandleLengths :
    let h := kvHandle 0 0 1 5
    let e := tarena.hEntry 1
    tarena.handleOk 0 h = true ∧ (∃ a, tarena.arena 1 = some a ∧ a.top < e.pagesFor 3 - e.npage + 1) ∧ 5 < e.len + 6 ∧ e.len + 5 ≤ 5 ∧ e.pagesFor (e.len + 0) ≤ e.npage ∧ e.len < 1 ∧
    0 ≤ e.len := by
  refine ⟨by decide +kernel, ⟨_, by rfl, by decide +kernel⟩, by decide +kernel, by decide +kernel, by decide +kernel, by decide +kernel, by decide⟩

/-- `te` with a prefix table at 0x200000 of one set, the line of the handle's list whole at its home, and register s2 = the handle of entry 1. -/
def tpfx : State :=
  let s := te { tg with s := [(2, kvHandle 0 0 1 5)] }
  { s with
    l2 := [(lineKey 1 0, { newLine tpage 0 with valid := 0xFFFF })]
    pkg := { s.pkg with pfxTbl := 0x200001, now := 2000 }, insertions := [⟨7, 3, 0, kvHandle 0 0 1 5, (976, 4), 0, false⟩] }

-- a handle that passes and one that fails; a stamp exactly 1,024 ticks old, and one younger; a vacant slot
theorem witness_PrefixInsertion :
    clear { fin := true, sn := [3, 0, 1, 2], oz := false, waits := true } tpfx ∧ tpfx.handleOk 0 (kvHandle 0 0 1 5) = true ∧ tpfx.handleOk 0 0 = false ∧ canTrap tg ∧
    tpfx.pkg.pfxTbl.getLsbD 0 = true ∧ (te tg).pkg.pfxTbl.getLsbD 0 = false ∧ 976 + 1024 ≤ tpfx.pkg.now ∧ tpfx.pkg.now < 977 + 1024 ∧
    tpfx.pfxLookup 0 0 = none ∧ tpfx.agentWaits 1 1 (tpfx.insertNeeds 7 (kvHandle 0 0 1 5) 0) = none ∧
    (tpfx.insertNeeds 7 (kvHandle 0 0 1 5) 0).foldl (fun t va => t.agentTouch 1 va) tpfx = tpfx ∧ tpfx.grp.leaves = false ∧ tpfx.grp.saving = false ∧ (∃ k, k < 8 ∧ tpfx.pfxVacant (tpfx.pfxAddr (tpfx.pfxSet 0 0) k) = true) ∧ tpfx.pkg.duty.getLsbD 7 = false :=
  ⟨clear_of _ _ (by decide), by decide +kernel, by decide +kernel, ⟨by decide, by decide⟩, by decide, by decide, by decide, by decide, by decide +kernel, by decide +kernel, by decide +kernel,
    by decide, by decide, ⟨0, by decide, by decide +kernel⟩, by decide⟩

/-- A descriptor of the row at address 0, for function 0. -/
def tdesc : List Byte := leBytes 8 0 ++ leBytes 8 1024 ++ leBytes 4 1 ++ leBytes 4 0 ++ leBytes 8 (65535 * 64)

/-- That descriptor's fields. -/
def tdescOf : Desc := ⟨0, 1024, 1, 0, 0, 0, false, 65535⟩

/-- `tl` whose line 0 begins with that descriptor, and a second one, of zeros, at address 32. -/
def tsweep (x : Quad) : State :=
  let s := tl { tg with s := [(1, x)] }
  { s with l2 := [(lineKey 1 0, { newLine tpage 0 with valid := 0xFFFF, data := Memory.putBytes [] 0 tdesc })] }

-- an address off its alignment; a good descriptor and a bad one
theorem witness_SweepAllWords :
    clear { infoS true [0, 1] with waits := true } (tsweep 0) ∧ (1 : Quad).toNat % 32 ≠ 0 ∧ canTrap tg ∧ (tsweep 0).pageVerdict 0 0 = .pass ∧ (tsweep 0).engineAsks 1 0 = [] ∧
    descOf ((tsweep 32).groupRead 1 32 32).2.1 = none ∧ descOf ((tsweep 0).groupRead 1 0 32).2.1 = some tdescOf :=
  ⟨clear_of _ _ (by decide), by decide, ⟨by decide, by decide⟩, by decide +kernel, by decide +kernel, by decide +kernel, by decide +kernel⟩

-- its page has one mapping, or two
theorem witness_SweepRegistration :
    let q := ((tsweep 0).groupRead 1 0 32).1.bringPages 1 [0]
    let x := { q with rmap := [⟨2, 0, tpage⟩, ⟨1, 0, tpage⟩] }
    tdescOf.pages = [0] ∧ (tsweep 0).rowVerdict 1 0 = .pass ∧ (tsweep 0).migratingAt (dpaLocal ((tsweep 0).checkedAddr 0)) = none ∧
    q.manyMaps (q.checkedAddr 0) = false ∧ (tdescOf.pieces q.checkedAddr).all (fun p => !q.clashes p) = true ∧
      (q.placePieces (tdescOf.pieces q.checkedAddr) []).isSome = true ∧ x.manyMaps (x.checkedAddr 0) = true := by
  exact ⟨by decide +kernel, by decide +kernel, by decide +kernel, by decide +kernel, by decide +kernel, by decide +kernel, by decide +kernel⟩

-- an address of HBM, one of LP6 and one of another package; a row that is restored, and one that is not
theorem witness_SweepPosition :
    (∃ attr, (tsweep 0).pageAt 0 0 = .ok attr ∧ (tsweep 0).isMine attr.pa = true ∧ isHbm (dpaLocal attr.pa) = true) ∧
    ((tsweep 0).isMine (2 ^ 49) = false ∧ isHbm (2 ^ 41) = false) ∧
    ({ tsweep 0 with dram := [(0, { Stack.init with nextRow := [(0, 1)] })] } : State).sweepSeen 0 0 = true ∧ (tsweep 0).sweepSeen 0 0 = false := by
  exact ⟨⟨tpage, by rfl, by decide, by decide⟩, by decide +kernel, by decide +kernel, by decide +kernel⟩

-- a region of its own ID in this address space, and none
theorem witness_SweepDeregistration :
    let r : Region := ⟨6, 0, false, false, 65535, 65535, none, (23, 255), 1, 0, 0, 64, 0, 1, [], 0, none, []⟩
    let s := { tsweep 0 with dram := [(23, { Stack.init with regions := [(255, r)] })] }
    let x : Quad := BitVec.ofNat 64 (23 + 32 * 255)
    x.extractLsb' 13 51 = 0 ∧ (x.extractLsb' 0 5).toNat < 24 ∧ (s.ctx (s.ctxOf s.grp)).live = true ∧
    (∃ q, (s.stack 23).regions.get? (x.extractLsb' 5 8).toNat = some q ∧ q.first = (23, 255) ∧ s.spaceOf s.grp = some q.asid) ∧
    s.dram.get? 23 ≠ none ∧ ¬ ((24 : Quad).extractLsb' 0 5).toNat < 24 ∧ s.grp.exited ≠ allLanes ∧ ({ tg with q := [(2, ⟨some 4, [], []⟩)] } : Group).boundTo 4 = some 2 :=
  ⟨by decide, by decide, by decide, ⟨_, rfl, rfl, by decide⟩, by decide, by decide, by decide, by decide⟩

/-- `ts` in a grid with that ballot. -/
def tsib (g : Group) (b : Ballot) : State := { ts g with grids := [(3, { Grid.init with ctx := 1, num := 9, st := .running, ballot := some b })] }

theorem witness_SiblingWords :
    clear { fin := true, oz := false, waits := true } (ts tg) ∧ (ts tg).cancelDue 7 = false ∧ (ts tg).myGrid.ballot = none ∧ canTrap tg ∧
    clear { fin := true, sn := [63], oz := false, waits := true } (tsib tg tballot) ∧ (tsib tg tballot).myGrid.ballot = some tballot ∧ (tsib tg tballot).releaseAsks tg 5 = none :=
  ⟨clear_of _ _ (by decide), by decide, by decide, ⟨by decide, by decide⟩, clear_of _ _ (by decide), by rfl, by decide⟩

/-- The place of die 0 in a ring of two dies. -/
def tseat : Seat := Seat.of 0 20 0 [(0, 0), (0, 1)]

/-- That ring, slot 63, set at die 0 by context 1. -/
def tring : Ring := { ctx := 1, seats := [(0, tseat)], rounds := [] }

/-- A round of die 0. -/
def topened : Round := ⟨2, 0, 0, 0⟩

/-- A line that begins with the table of that ring. -/
def tcoll (rs : Tbl Ring) : State :=
  let s := tl { tg with s := [(2, 63), (3, 63)] }
  { s with rings := rs, l2 := [(lineKey 1 0, { newLine tpage 0 with valid := 0xFFFF, data := Memory.putBytes [] 0 (leBytes 8 2 ++ leBytes 8 0 ++ leBytes 8 64) })] }

-- each status: a slot of another live context, a valid table, an open round; an unset slot
theorem witness_RingWords :
    let other := { tcoll [(63, { tring with ctx := 2 })] with ctxs := [(1, { Ctx.init with live := true, asid := 1 }), (2, { Ctx.init with live := true, asid := 2 })] }
    clear { fin := true, sn := [0, 1, 2], oz := false, waits := true } (tcoll []) ∧ (63 : Quad).extractLsb' 6 58 = 0 ∧ (tcoll []).pageVerdict 0 0 = .pass ∧
    (tcoll []).engineAsks 1 0 = [] ∧
    leNat ((tcoll []).engineRead 1 0 8).2.1 = 2 ∧ (tcoll []).pagesVerdict 0 none (pagesOf 0 (8 + 8 * 2)) = .pass ∧
    ((pieces 0 (8 + 8 * 2)).flatMap fun y => (tcoll []).engineAsks 1 y.1) = [] ∧ membersOf (((tcoll []).groupRead 1 0 24).2.1.drop 8) 2 = [(0, 0), (0, 1)] ∧
    (∃ x, other.rings.get? 63 = some x ∧ x.ctx ≠ other.ctxOf tg ∧ (other.ctx x.ctx).live = true) ∧
    (∃ x, (tcoll [(63, { tring with rounds := [topened] })]).rings.get? 63 = some x ∧ ∃ y ∈ x.rounds, y.die = tg.core / 24) ∧
    (tcoll []).rings.get? 63 = none ∧ (tcoll [(63, tring)]).ringAt 63 1 0 = some tseat ∧ (tcoll [(63, tring)]).rings.get? 63 = some tring ∧
    clear { fin := true, sn := [3], oz := false, waits := true } (tcoll []) ∧ (tcoll []).ringAt 63 1 0 = none :=
  ⟨clear_of _ _ (by decide), by decide, by decide +kernel, by decide +kernel, by decide +kernel, by decide +kernel, by decide +kernel, by decide +kernel,
    ⟨_, rfl, by decide, by decide⟩, ⟨_, rfl, _, List.mem_singleton.2 rfl, rfl⟩, by decide, by decide, by decide, clear_of _ _ (by decide), by decide⟩

-- refused by each reason, accepted; HI just above LO, and equal; the last stack
theorem witness_PackageRegisterWrites :
    3 ≤ ({ Pkg.init with pwr := 3 } : Pkg).pwr ∧ (3 : Quad).extractLsb' 0 2 = 3 ∧ (0x60 : Quad).extractLsb' 5 2 = 3 ∧ 5 ≤ ((0x280 : Quad).extractLsb' 7 3).toNat ∧
    ((0x3130 : Quad).getLsbD 4 ≠ Pkg.init.mode.getLsbD 4 ∧ ∃ e ∈ (ts tg).ctxs, e.2.live = true) ∧
    ¬ (3 ≤ Pkg.init.pwr ∨ (0x3121 : Quad).extractLsb' 0 2 = 3 ∨ (0x3121 : Quad).extractLsb' 5 2 = 3 ∨ 5 ≤ ((0x3121 : Quad).extractLsb' 7 3).toNat ∨
      ((0x3121 : Quad).getLsbD 4 ≠ Pkg.init.mode.getLsbD 4 ∧ (Pkg.init.mode.getLsbD 63 = true ∨ ∃ e ∈ State.reset.ctxs, e.2.live = true))) ∧
    ((0x5455 : Quad).extractLsb' 8 8).toNat < ((0x5455 : Quad).extractLsb' 0 8).toNat ∧ ((0x5555 : Quad).extractLsb' 0 8).toNat ≤ ((0x5555 : Quad).extractLsb' 8 8).toNat ∧
    ({ Ozyth.init with running := true } : Ozyth).running = true ∧ Ozyth.init.running = false ∧ (23 : Nat) < 24 := by
  decide

-- the write pointer: one entry beyond the ring, the full ring, one back; the configuration's bounds; the read pointer at WP and beyond
theorem witness_RegisterWrites :
    let r := { HostRing.init with rp := 0xFFFFFFFF, wp := 1 }
    r.state ≠ 2 ∧ ({ r with state := 2 } : HostRing).state = 2 ∧ 2 ^ r.log2 < ((16 : Word) - r.rp).toNat ∧ ((15 : Word) - r.rp).toNat ≤ 2 ^ r.log2 ∧ ((15 : Word) - r.wp).toNat < 2 ^ 31 ∧
    (((0 : Word) - r.rp).toNat ≤ 2 ^ r.log2 ∧ 2 ^ 31 ≤ ((0 : Word) - r.wp).toNat) ∧ (r.phase = .none ∧ ({ r with phase := .kill 1 } : HostRing).phase ≠ .none ∧ ∀ va x, ({ r with phase := .kill 1 } : HostRing).phase ≠ .wait va x) ∧
    ((3 : Quad).extractLsb' 0 4).toNat < 4 ∧ (4 ≤ ((0x14 : Quad).extractLsb' 0 4).toNat ∧ (0x14 : Quad).getLsbD 4 = true ∧ r.enable = false) ∧
    (((5 : Word) - 0).toNat ≤ ((5 : Word) - 0).toNat ∧ ((5 : Word) - 0).toNat < ((6 : Word) - 0).toNat) ∧ (0x7F8 < 0x800 ∧ 0x7F8 % 8 = 0) ∧ (0x41 % 8 ≠ 0) ∧
    ((State.reset.arf.getD 63 (0, 0, 0, 0)).1.getLsbD 0 = false ∧ (1 : Quad).getLsbD 0 = true) := by
  refine ⟨by decide, by decide, by decide, by decide, by decide, by decide, ⟨rfl, by decide, by simp⟩, by decide, by decide, by decide, by decide, by decide, by decide⟩

-- an open port and a closed one; a good and a bad header; in sequence, and not; the eighth request; offsets at both edges of the step
theorem witness_LinkEvents :
    let p := { Port.init with up := true, expect := 4095, unanswered := 7 }
    (p.up = true ∧ p.retrain = false) ∧ ¬ (Port.init.up = true ∧ Port.init.retrain = false) ∧ (1 : Quad).extractLsb' 0 20 ≠ 0 ∧
    ((0xFFF0000000000000 : Quad).extractLsb' 0 20 = 0 ∧ (0xFFF0000000000000 : Quad).extractLsb' 20 12 = 0 ∧ ((0xFFF0000000000000 : Quad).extractLsb' 52 12).toNat = p.expect) ∧
    8 ≤ p.unanswered + 1 ∧ p.discard = false ∧ p.down = false ∧ ({ p with retrain := true } : Port).retrain = true ∧
    (let g := { Pkg.init with joined := true, master := 1, live := [1], now := 100 }
     g.joined = true ∧ ¬ (g.joined = true ∧ g.master = g.id) ∧ ({ g with master := 0 } : Pkg).master = g.id ∧ Pkg.init.joined = false ∧ ((100 : Int) - 109 < -8) ∧ (8 < (100 : Int) - 91) ∧
     ((100 : Int) - 108).natAbs ≤ 8 ∧ ({ g with rejoin := true } : Pkg).rejoin = true ∧ ({ g with joining := true } : Pkg).joining = true ∧
     (¬ (g.pwr = 3 ∧ 8 ≤ g.step) ∧ g.pwr ≠ 4 ∧ ¬ (g.pwr = 5 ∧ g.back < 2)) ∧ ({ g with pwr := 3, step := 8 } : Pkg).step = 8 ∧
     g.heardAt + 10000 ≤ ({ g with clock := 10000 } : Pkg).clock ∧ ¬ g.heardAt + 10000 ≤ ({ g with clock := 9999 } : Pkg).clock) ∧
    ((50000 : Nat) ≤ Port.init.since + 50000 ∧ Port.init.since + 50000 < 50001) ∧ ([] : List Nat).filter (· ≠ 0) = [] ∧ [0, 2, 1].filter (· ≠ 0) = [2, 1] := by
  decide

-- a package in initialisation with both tables valid
theorem witness_MemoryInitialisation :
    let s := { State.reset with
      pkg := { Pkg.init with pwr := 1, kvTbl := 0x100001, pfxTbl := 0x0001000000200001 }
      host := { State.reset.host with fw := { Firmware.init with initBusy := true } } }
    s.pkg.pwr = 1 ∧ s.host.fw.initBusy = true ∧ s.pkg.kvTbl.getLsbD 0 = true ∧ s.pkg.pfxTbl.getLsbD 0 = true := by
  decide

theorem witness_ResetAndPowerEvents :
    ({ Pkg.init with pwr := 1 } : Pkg).pwr = 1 ∧ ({ Firmware.init with initBusy := true } : Firmware).initBusy = true ∧ State.reset.pkg.pwr ≠ 1 ∧
    (let p := { Pkg.init with pwr := 3, step := 1 }
     p.pwr = 3 ∧ p.vetoWait = false ∧ p.duty.getLsbD 8 = false ∧ p.step = 1) ∧
    (∃ e ∈ (ts tg).teams, (e.2.st = .resident ∨ e.2.st = .saving) ∧ (ts tg).atBoundary e.1 = false) ∧ ({ Pkg.init with pwr := 4, auto := true } : Pkg).auto = true ∧
    ({ Pkg.init with vetoWait := true } : Pkg).vetoWait = true ∧ (({ ts tg with cmds := [(2, { Cmd.init with st := .running })] } : State).cmd 2).st = .running := by
  decide

-- the hottest just above HI and just below LO, after a sample at the bound; the timer reached and one tick short; sources 0 and 4
theorem witness_OzythEvents :
    (List.replicate 24 96).length = 24 ∧ (∀ x ∈ List.replicate 24 96, x < 256) ∧ Pkg.init.thermHi < (List.replicate 24 96).foldl max 0 ∧
    ((List.replicate 24 84).foldl max 0 < Pkg.init.thermLo ∧ Pkg.init.thermLo ≤ Pkg.init.thermHi) ∧ State.reset.pkg.duty.getLsbD 5 = false ∧
    (let o := { Ozyth.init with running := true, ien := 0x10, ipend := 0x11, armed := true, tcmp := 0 }
     o.armed = true ∧ o.tcmp.toNat ≤ State.reset.pkg.now ∧ o.running = true ∧ o.halted = false ∧ o.inIrq = false ∧ (o.ien.getLsbD 4 = true ∧ o.ipend.getLsbD 4 = true) ∧
     (∀ m, m < 4 → ¬ (o.ien.getLsbD m = true ∧ o.ipend.getLsbD m = true))) ∧
    (State.reset.group ozGid).runOpen = false ∧ State.reset.groups.get? ozGid ≠ none := by
  decide

/-- A running row command of group 7 for the row at address 0, numbered 4. -/
def trow : State := { ts tg with pkg := { Pkg.init with pwr := 2, memInit := true }, cmds := [(4, { Cmd.init with cls := 3, op := 2, gid := 7, team := 5, st := .running, block := [0, 0, 0, 0] })] }

/-- A request of that command at stack 0. -/
def treq (applied : Bool) (store : Nat) : RowReq := ⟨4, 4, 7, 1, 0, 0, 2, 0, false, 1, 0, 0, 2, applied, store, 0, false⟩

/-- A message from a bank with the first 512 bytes of the row at address 0, after an application. -/
def tmsg : BankMsg := ⟨1, 0, 0, List.replicate 512 1, [], 0, true⟩

-- the last row of a pass and the boundary; a page of LP6, and one of another package; a request that is refused, one that is accepted and one that finds no slot; a `.hurry` request; an applied one
theorem witness_RowEvents :
    (23 : Nat) < 24 ∧ (63 : Nat) < 64 ∧ (State.reset.stack 23).nextRow.getD 63 0 < 32768 ∧
    (({ State.reset with dram := [(23, { Stack.init with nextRow := [(63, 32768)] })] } : State).stack 23).nextRow.getD 63 0 = 32768 ∧
    trow.sweeping = true ∧ State.reset.sweeping = false ∧ (trow.cmd 4).st = .running ∧ (trow.cmd 4).progress = 0 ∧
    trow.agentWaits (trow.asidOf (trow.group 7)) 1 [0] = none ∧ (∃ u, trow.agentPage (trow.asidOf (trow.group 7)) 0 = .ok (u, tpage)) ∧
    (trow.isMine (pageAddr tpage 0) = true ∧ isHbm (dpaLocal (pageAddr tpage 0)) = true ∧ isHbm (2 ^ 41) = false ∧ trow.isMine (2 ^ 49) = false) ∧
    trow.migratingAt (dpaLocal (pageAddr tpage 0)) = none ∧ trow.manyMaps (pageAddr tpage 0) = false ∧ combRefused 0 0 0 0 = false ∧ combRefused 0 3 0 0 = true ∧
    (trow.stack 0).reqs.length < 4096 ∧ ([treq false 0].find? (fun r => r.id == 4) = some (treq false 0) ∧ (treq false 0).urg = 2) ∧
    ((treq true 9).applied = true ∧ (treq true 9).store ≠ 0 ∧ trow.stores.get? 9 = none) ∧
    (let r := treq false 0
     [r].filter (fun q => q.pa == r.pa && !q.applied && q.urg != 1) = [r] ∧ r.pa / 2 ^ 36 = 0 ∧ r.func < 8 ∧ r.typ < 3 ∧ r.lost = false ∧ trow.mem.wf = true ∧
       trow.bankq = [] ∧ trow.eccErr = [] ∧ ({ r with urg := 0 } : RowReq).urg = 0 ∧
       ({ trow with host := { HostIf.init with rings := [(31, { HostRing.init with phase := .purge 1 0 65536 })] } } : State).unmapping 1 0 1024 = true) ∧
    (({ trow with bankMsgs := [tmsg] } : State).nextMsg 1 0 true = some (tmsg, []) ∧ tmsg.bytes.length = 512) :=
  ⟨by decide, by decide, by decide, by decide, by decide, by decide, by decide, by decide, by decide +kernel, ⟨trow, by rfl⟩, by decide, by decide +kernel, by decide +kernel, by decide, by decide, by decide,
    by decide +kernel, by decide, by decide +kernel, by decide +kernel, List.length_replicate⟩

/-- A migration of the page in frame 0 to frame 0x10000. -/
def tmigr : Migr := ⟨0, 1, 0, 0, 0x10000, false, true⟩

theorem witness_BankEvents :
    takeFirst (fun (b : BankAccess) => sameBank b.pa 0) [⟨1, 0, 0, [1], [], 3⟩] = some (⟨1, 0, 0, [1], [], 3⟩, []) ∧ isHbm 0 = true ∧
    (({ State.reset with dram := [(0, { Stack.init with openRow := [(0, rowIndex 0)] })] } : State).stack 0).openRow.get? 0 = some (rowIndex 0) ∧
    ({ State.reset with bankMsgs := [⟨1, 508, 508, [1, 2, 3, 4], [], 3, false⟩] } : State).nextMsg 1 508 false = some (⟨1, 508, 508, [1, 2, 3, 4], [], 3, false⟩, []) ∧
    (508 % 512 + 4 ≤ 512) ∧ (∃ u, (ts tg).bankAsks 1 0 = [] ∧ (ts tg).translate 1 0 0 = .page u tpage ∧ u.line? 1 0 = none) ∧ ((ts tg).setLines 1 0).length < 16 ∧
    (let s := { ts tg with l2 := (List.range 16).map fun k => (lineKey 1 (294912 * (k + 1)), newLine tpage 0) }
     (s.setLines 1 0).length = 16 ∧ s.l2.get? (lineKey 1 294912) = some (newLine tpage 0) ∧ (newLine tpage 0).mayGo = true) ∧ (tpage.grain = 1 ∧ Memory.wf [] = true) ∧
    ([tmigr].find? (fun m => m.src == 0) = some tmigr ∧ ∀ o ∈ [tmigr], o.src ≠ tmigr.dst) ∧
    ((ts tg).pkg.memDown = false ∧ ({ Pkg.init with pwr := 4 } : Pkg).memDown = true ∧ (ts tg).isMine (2 ^ 49) = false) ∧
    (let s := { ts tg with dram := [(0, { Stack.init with openRow := [(0, rowIndex 0)] })] }
     let u := (s.touchMsc 0 32).bankOpen 0
     u.bankAsks 1 0 = [] ∧ { u with bankMsgs := [tmsg] }.bankAsks 1 0 ≠ []) :=
  ⟨by decide, by decide, by decide, by decide, by decide, ⟨ts tg, by decide, by rfl, by rfl⟩, by decide, by decide +kernel, by decide, by decide, by decide, by decide +kernel⟩

/-- `ts` with an enabled admin ring 31 of context 1 whose next entry has these bytes. -/
def thost (bs : List Byte) (phase : Phase) : State :=
  { ts tg with
    hostMem := Memory.putBytes [] 0 bs, host := { HostIf.init with rings := [(31, { HostRing.init with enable := true, admin := true, ctx := 1, wp := 1, state := 1, phase })] } }

-- an entry of every operation, one with a reserved field and one of no operation; a full queue's last slot
theorem witness_HostRingEvents :
    (takes (thost [1] .none) 31 1 ∧ takes (thost [2] .none) 31 2 ∧ takes (thost [3, 0, 0, 0, 0, 0, 0, 0, 8] .none) 31 3 ∧ takes (thost [4] .none) 31 4 ∧
      takes (thost [5, 0, 0, 0, 0, 0, 0, 0, 0, 0, 0, 0, 0, 0, 0, 0, 0, 0, 0, 0, 0, 0, 0, 0, 64] .none) 31 5 ∧ takes (thost [6, 0, 0, 0, 0, 0, 0, 0, 2, 0, 2] .none) 31 6 ∧
      takes (thost [7, 0, 0, 0, 0, 0, 0, 0, 1] .none) 31 7 ∧ takes (thost [8] .none) 31 8 ∧ takes (thost [9] .none) 31 9 ∧ takes (thost [10] .none) 31 10 ∧
      takes (thost [11] .none) 31 11) ∧
    (entryReserved ((thost [1, 0, 1, 0, 1] .none).entryBytes 31) = true ∧ usedBytes 12 = none ∧ (thost [1] (.wait 0 1)).mayTake 31 = false) ∧
    ((ts tg).ctx 1).live = true ∧ ((ts tg).ctx 1).killing = false ∧ (∃ x, (thost [4] .none).agentNat 1 0 8 = .ok x ∧ (0 : Quad).toNat ≤ x) ∧
    (thost [5] .none).agentPages 1 0 64 true = true ∧ ((thost [] (.copy 0 0 64 true)).ring 31).phase = .copy 0 0 64 true ∧
    (thost [] (.purge 1 0 65536)).purgeReady 1 0 65536 = true ∧ Firmware.init.load = none ∧ ({ Firmware.init with load := some (0, []) } : Firmware).load = some (0, []) ∧ ((0 : Nat), ([] : Memory)) ≠ (3, []) ∧
    Memory.wf [] = true := by
  refine ⟨⟨?_, ?_, ?_, ?_, ?_, ?_, ?_, ?_, ?_, ?_, ?_⟩, by decide +kernel, by decide, by decide, ⟨0, by rfl, by decide⟩, by decide +kernel, by decide, by decide +kernel, by decide, by decide, by decide, by decide⟩
  all_goals (unfold takes; decide +kernel)

/-- A launch record of one team of one group of 8 registers, priority 3. -/
def tlaunch : List Byte := leBytes 8 0x4000 ++ leBytes 8 77 ++ leBytes 4 1 ++ [1, 1, 3, 1] ++ leBytes 2 0x0101 ++ List.replicate 102 0

/-- A package that runs, with a save area, and grid 3 of that record and state, nothing placed. -/
def tgrid (st : GridState) : State :=
  { State.reset with
    pkg := { Pkg.init with pwr := 2, saveBase := 0x1000000, saveLen := 1 }
    grids := [(3, { Grid.init with ctx := 1, num := 9, st, record := tlaunch })], ctxs := [(1, { Ctx.init with live := true, asid := 1 })], fresh := 100 }

theorem witness_GridEvents :
    (tgrid .waiting).grids.get? 3 ≠ none ∧ ((tgrid .waiting).grid 3).st = .waiting ∧ ((tgrid .waiting).grid 3).preds = [] ∧ (tgrid .triggered).canDone 3 = true ∧
    (tgrid .ready).mayPlace 3 0 = true ∧ (tgrid .ready).mayPlace 3 575 = true ∧ (tgrid .waiting).mayPlace 3 575 = false ∧ (tgrid .ready).clusterFits 3 0 [] = true ∧ (tgrid .ready).hasUnplaced 3 = true ∧ ((tgrid .ready).grid 3).cluster = 1 ∧
    (groupRoles tlaunch).length = 1 :=
  ⟨by decide, by decide, by decide, by decide +kernel, by decide +kernel, by decide +kernel, by decide +kernel, by decide +kernel, by decide +kernel, by decide +kernel, by decide +kernel⟩

/-- A team of priority 0 that fills core 0 with its ways, in a state, and a grid of priority 3 that needs one. -/
def tteam (st : TeamState) (wait : Option Nat) : State :=
  let s := ts { tg with runOpen := false }
  { s with teams := [(5, { Team.init with grid := 3, st, groups := [7], waitOut := wait })] }

theorem witness_TeamEvents :
    (((tteam .resident (some 0)).team 5).waitOut = some 0 ∧ 0 + (tteam .resident (some 0)).preBound 5 ≤ 16000 ∧ 0 < (tteam .resident (some 0)).preBound 5) ∧ ((tteam .resident none).team 5).waitOut = none ∧ (tteam .saving none).canClose 5 = true ∧
    ((tteam .saved none).team 5).st = .saved ∧ ((tteam .saved none).team 5).cluster = 0 ∧ (tteam .saved none).pkg.pwr = 2 ∧ ((tteam .saved none).fitsSaved 5 575 [] = true ∧ (tteam .saved none).fitsSaved 5 0 [] = true ∧ (tteam .saved none).turnOf 3 0 = true) ∧
    ((tteam .saved none).nextSaved 3 = some 5 ∧ ((tteam .saved none).group 7).gone = false ∧ (tteam .saved none).savedFits 5 0 [] = true) ∧
    ((tteam .saved none).team 5).keptBufs.map (·.1) = [] ∧
    ((tteam .saving none).team 5).groups.map (fun n => ((tteam .saving none).group n).num) = [0] ∧ (((tteam .saving none).team 5).cancelled = false ∧ ∀ n ∈ ((tteam .saving none).team 5).groups, ((tteam .saving none).group n).team = 5) ∧
    ((tteam .saving none).ctx ((tteam .saving none).grid 3).ctx).killing = false :=
  ⟨by decide +kernel, by decide, by decide +kernel, by decide, by decide, by decide, by decide +kernel, by decide +kernel, by decide, by decide, by decide, by decide⟩

/-- Die 0 with a team of grid 4 on each core, which holds all of its core's accumulator tiles; grid 3, of priority 3, needs one. -/
def tfull : State :=
  { tgrid .ready with
    pkg := { (tgrid .ready).pkg with now := 50000 }
    grids := [(3, { Grid.init with ctx := 1, num := 9, st := .ready, record := tlaunch.set 32 1 }), (4, { Grid.init with ctx := 1, num := 8, st := .running, record := List.replicate 32 0 ++ [0, 2] })]
    teams := (List.range 24).map fun c => (c + 1, { Team.init with grid := 4, st := .resident, core := c }) }

theorem witness_Preemption :
    tfull.pkg.running = true ∧ (tfull.grid 3).priority = 3 ∧ tfull.wants 3 = true ∧ (tfull.grid 3).since + 50000 ≤ tfull.pkg.now ∧ tfull.fitsOnDie 3 0 = false ∧
    (tfull.victims 0 3).length = 24 ∧ (tfull.team 1).st = .resident ∧ tfull.takeVictims 3 0 [1] [] = some [1] ∧ tfull.taken 0 = [] ∧
    tfull.fitsNext 3 0 [] = false ∧ tfull.chooseVictims 3 0 = some [1] := by
  decide +kernel

-- a pre-emption under way on core 0, after which the cluster fits
theorem witness_PreemptionTaken :
    let s := { tfull with teams := tfull.teams.set 1 { (tfull.team 1) with st := .saving } }
    s.taken 0 = [1] ∧ s.fitsNext 3 0 (s.taken 0) = true ∧ s.fitsOnDie 3 0 = false := by
  decide +kernel

/-- A group that is pending and ready, and one in the slot that it may take. -/
def tpair : State :=
  { ts { tg with runOpen := false, slot := none } with
    groups := [(7, { tg with runOpen := false, slot := none })] ++ (List.range 8).map fun k => (k + 8, { tg with runOpen := false, slot := some k, spent := k == 7 }) }

-- a free slot, none; a result of each kind that commits; lanes joined at one address, and at two; a breakpoint that is hit
theorem witness_GroupEvents :
    (let s := ts { tg with runOpen := false, slot := none }
     s.groups.get? 7 ≠ none ∧ s.waiting 0 0 = some 7 ∧ s.freeSlot 0 0 = some 0) ∧
    (tpair.waiting 0 0 = some 7 ∧ tpair.freeSlot 0 0 = none ∧ (tpair.group 15).slot = some 7 ∧ (tpair.group 15).spent = true ∧ (tpair.group 7).ready = true) ∧
    (let p := { returned (.scalar 63 5) with ended := true }
     ([p][0]? = some p ∧ p.ready = true ∧ p.ended = true) ∧ ∀ q ∈ [p].take 0, q.res.key = none) ∧
    (let g := { tg with runOpen := false, joined := 0xFFFF }
     g.eligible = 0 ∧ g.joined ≠ 0 ∧ g.parked = 0 ∧ (∀ l, l < 16 → g.joined.getLsbD l = true → g.pc l = 0x10000)) ∧
    (let g := { tg with runOpen := false, joined := 0xFFFF, pcs := (15, 0xFFFC) :: tg.pcs.filter (·.1 != 15) }
     g.eligible = 0 ∧ (g.pc 15).toNat < (g.pc 0).toNat ∧ (∀ k, k < 16 → (g.pc 15).toNat ≤ (g.pc k).toNat) ∧ g.trapBase ≠ 0 ∧ g.inTrap = 0) ∧
    (let s := { ts { tg with runOpen := false } with cores := [(0, { Core.init with dbgAsid := 1, dbgBp := [(0, 0x10001)] })] }
     s.grp.ready = true ∧ s.bpHit s.grp s.grp.minPc = true ∧ s.debugged 0 = some 7 ∧ (ts tg).debugged 1 = none ∧ s.grp.fence = none) ∧
    (let h := { tg with runOpen := false, part := 1, num := 1 }
     let s := { ts { tg with runOpen := false } with
       groups := [(7, { tg with runOpen := false }), (8, h), (9, { h with runOpen := true, part := 2, block := .waitc 0 0 })]
       cores := [(0, { Core.init with dbgTeamStop := true })] }
     (s.core 0).dbgTeamStop = true ∧ (s.groups.map (·.1)).Nodup ∧ (h.runOpen = false ∧ h.block = .none ∧ h.fence = none ∧ h.gone = false ∧ h.stopped = false) ∧ s.stopsAt 9 = true ∧
       ({ h with stopped := true, matched := true, skipBp := some 0x10000 } : Group).stopped = true) :=
  ⟨by decide +kernel, by decide +kernel, by decide, by decide +kernel, by decide +kernel, by decide +kernel, by decide +kernel⟩

/-- `tl` with an update of four bytes at line 0's start on its way to core 0, a store with nothing left to acknowledge, and a buffered addition. -/
def tcoh : State :=
  { tl { tg with fence := some ⟨5, 0, some tg.snap, [lineKey 1 0]⟩ } with
    updates := [⟨1, 0, 0, 0, [1, 2, 3, 4], [], 4⟩], stores := [(4, { tstore with bank := false })]
    cores := [(0, { Core.init with pac := [tpac], abuf := [⟨1, 0, 0, false, 1, [7], false⟩] })] }

theorem witness_CoherenceEvents :
    (∃ h f b, tcoh.groups.get? 7 = some h ∧ h.fence = some f ∧ f.back = some b ∧ lineKey 1 0 ∈ f.lines ∧ tcoh.copyCore h.core 0 = 0) ∧
    (let l : L1Line := { valid := 1, data := [], poison := [], round := none, fills := [], sidecar := none, way := 15 }
     let s := { tcoh with cores := [(0, { Core.init with l1 := [(lineKey 1 0, l)] })] }
     (s.core 0).l1.get? (lineKey 1 0) = some l ∧ hasSector l.valid 0 = true ∧ hasSector l.valid 508 = false ∧ (tcoh.core 0).l1.get? (lineKey 1 0) = none) ∧
    (tcoh.carries 0 = true ∧ ({ tcoh with pkg := { tcoh.pkg with sync := true } } : State).carries 0 = false ∧ ({ tstore with peer := some 1 } : Store).peer ≠ none) ∧
    (∃ u, takeFirst (fun (u : Update) => homeSlice u.asid u.line == homeSlice 1 0 && u.core == 0) tcoh.updates = some (u, []) ∧ u.bytes = [1, 2, 3, 4]) ∧
    takeFirst (fun (u : Update) => homeSlice u.asid u.line == homeSlice 1 0 && u.core == 1) tcoh.updates = none ∧
    (∃ st, tcoh.stores.get? 4 = some st ∧ st.acks = 0 ∧ st.bank = false ∧ st.peer = none) ∧ tstore.bank = true ∧
    (∃ e, (tcoh.core 0).abuf.find? (fun e => e.asid == 1 && e.va == (0 : Quad).toNat) = some e) ∧ (∃ u, tcoh.translate 1 0 1 = .page u tpage ∧ u.placeRaw 1 tpage 0 = .home) :=
  ⟨⟨_, _, _, rfl, rfl, rfl, by decide, by decide⟩, by decide, by decide, ⟨_, rfl, rfl⟩, by decide, ⟨_, rfl, rfl, rfl, rfl⟩, rfl, ⟨_, rfl⟩, ⟨tcoh, by rfl, by rfl⟩⟩

/-- `ts` whose TLBs are empty, with page tables at 0x10000 to 0x13000 that map address 0 of address space 1 with V, L and W, and lane 15 parked at a light fault. -/
def ttr : State :=
  let s := ts { tg with parked := 0x8000, svc := [(15, (0x12, 8))] }
  let q := fun (m : Memory) (a v : Nat) => m.putNat a 8 v
  { s with tlb := [], ctxs := [(1, { Ctx.init with live := true, asid := 1, root := 0x10000 })], mem := q (q (q (q [] 0x10000 0x11001) 0x11000 0x12001) 0x12000 0x13001) 0x13000 7 }

theorem witness_TranslationEvents :
    ((ts tg).pkg.memDown = false ∧ ({ Pkg.init with pwr := 4 } : Pkg).memDown = true) ∧
    (findPac [tpac] 1 0 ≠ none ∧ findPac [] 1 0 = none ∧ ttr.lightAsked 1 0 = false ∧ ttr.hostWalksOn = false ∧ (ttr.grp.svc.map (·.1)).Nodup ∧
      ∀ e ∈ ttr.teams, e.2.st ≠ .saved) ∧
    findPage ((ts tg).tlbOf 0 0) 1 0 ≠ none ∧ findPage (ttr.tlbOf 0 0) 1 0 = none ∧ ttr.walkPending 1 0 = false ∧ (match ttr.walk 1 0 with | .ok _ => true | .error _ => false) = true ∧
    (match ttr.walk 1 (1 <<< 47) with | .ok _ => false | .error _ => true) = true ∧
    ttr.pkg.duty.getLsbD 0 = false ∧ ttr.leafOf 1 0 = some 0x13000 ∧ (ttr.physQuad 0x13000).getLsbD 2 = true ∧ ttr.leafOf 1 (1 <<< 47) = none ∧
    ttr.spaceOf ttr.grp = some 1 ∧ ttr.grp.svc.get? 15 = some (0x12, 8) ∧ samePage false 8 0 = true ∧ (∀ e ∈ [(7, ttr.grp)], e.2.trapBase ≠ 0 ∧ e.2.inTrap = 0) :=
  ⟨by decide, by decide, by decide, by decide, by decide, by decide +kernel, by decide +kernel, by decide, by decide +kernel, by decide +kernel, by decide +kernel, by decide, by decide, by decide, by decide⟩

/-- A group with an incomplete fence of a scope, and a store. -/
def twaits (sc : Nat) : Group := { tg with fence := some ⟨sc, 0, none, []⟩, stores := [4], pend := [⟨.scalar 63 0, false, false, false, [], fenceTag⟩] }

-- what each wait is for: there, and not there; a store to a peer that no fence still waits for when it is lost
theorem witness_WaitEnds :
    (ts (twaits 5)).fenceAsks (twaits 5) 5 = none ∧ ({ ts (twaits 5) with stores := [(4, tstore)] } : State).fenceAsks (twaits 5) 5 ≠ none ∧
    (let x := ts (twaits 6)
     let s := { x with stores := [(4, { tstore with bank := false, peer := some 1 })] }
     let lost := s.lostOn 7 1 (homeDie 1 0)
     let p := { Port.init with down := true }
     let vas := lost.filterMap fun n => (s.stores.get? n).map fun st => (1, 1, st.va)
     let u := (lost.foldl (fun s n => s.loseWrite 7 n) s).updGroup 7 fun g => { g with lost := vas }
     lost = [4] ∧ (s.l2.map (·.1)).Nodup ∧ u.fenceAsks (u.group 7) 6 = none ∧ s.lostOn 7 2 (homeDie 1 0) = [] ∧ (twaits 6).waitsFar = some 0 ∧ p.down = true ∧ (twaits 6).lost = [] ∧
       ({ p with down := false, retrain := true }).retrain = true ∧ 0 + 50000 ≤ ({ x.pkg with now := 50000 }).now ∧ (twaits 5).waitsFar = none ∧
       ({ s with groups := s.groups ++ [(8, { tg with stores := [4] })] } : State).groups.get? 8 ≠ none ∧ ({ tg with stores := [4] } : Group).waitsFor 4 = true) ∧
    (tg.leaves = false ∧ ({ tg with ending := true } : Group).leaves = true) ∧
    (({ tg with q := [(7, ⟨some 5, [1], []⟩)] } : Group).queue 7).recs ≠ [] ∧ (tg.queue 7).recs = [] ∧ ((tg.cmds.getD 4 []).length ≤ 0) ∧
    0 < (({ tg with cmds := [(0, [8])] } : Group).cmds.getD 0 []).length ∧ ((ts tg).barrier 5 14).phase ≠ 1 ∧
    (let s := tb tg
     (∃ gen, ({ s with cores := [(0, { Core.init with bufs := [(0, tbuf)] })] } : State).sywGen 5 (BitVec.ofNat 64 0) = some gen ∧ 1 ≤ (gen - 0xFFFFFFFF).toNat ∧
       (gen - 0xFFFFFFFF).toNat ≤ 2 ^ 31 - 1 ∧ ¬ (1 ≤ (gen - gen).toNat)) ∧ s.buffer 5 (BitVec.ofNat 64 255) = none) :=
  ⟨by decide +kernel, by decide +kernel, by decide +kernel, by decide, by decide, by decide, by decide, by decide, by decide, ⟨0, by decide +kernel, by decide, by decide, by decide⟩, by decide⟩

/-- `te` with the command `c` of group 7, numbered 4, in the task table. -/
def tcmd (c : Cmd) : State :=
  let s := te { tg with cmds := [(c.cls, [4])] }
  { s with
    cmds := [(4, { c with gid := 7, team := 5 })], l2 := [(lineKey 1 0, { newLine tpage 0 with valid := 0xFFFF })]
    cores := s.cores.map fun e => (e.1, { e.2 with tasks := if c.st = .waiting then [4] else [] }) }

/-- A record of an array of 256 one-byte elements at address 0. -/
def tarr (esz : Nat) : Tsr := ⟨0, esz, 0, 0, [256, 1, 1, 1, 1], [0, 0, 0, 0]⟩

/-- A running command of the copy engine that names that array. -/
def tcopies (op esz : Nat) (block : List Quad) : Cmd := { Cmd.init with asid := 1, st := .running, cls := 0, op, tsr := some (tarr esz), block }

-- a command that can leave, with none before it; a row request whose page is not walked for; a handle that fails
theorem witness_TaskEvents :
    (let s := tcmd { Cmd.init with asid := 1, st := .waiting, cls := 1, op := 4 }
     s.rowWalk (s.cmd 4) = false ∧ s.canLeave 4 = true ∧ s.cmds.get? 4 ≠ none ∧ ∀ i ∈ (s.core (s.cmd 4).core).tasks.takeWhile (· != 4), s.canLeave i = false) ∧
    (tcmd { Cmd.init with st := .running }).canLeave 4 = false ∧ (tcmd Cmd.init).handleOk 0 0 = false ∧
    (let x := tcmd { Cmd.init with asid := 1, st := .waiting, cls := 3, op := 2, block := [0, 0, 0, 0] }
     let s := { x with pkg := { x.pkg with duty := 2 }, tlb := [] }
     s.rowWalk (s.cmd 4) = true) := by
  decide +kernel

-- the first element of a copy in, of a copy out and of a drain, and of a copy that has had it
theorem witness_CopyEvents :
    (let s := tcmd (tcopies 0 0 [0xFFFF00000000, 0, 0, 0])
     let c := s.cmd 4
     c.tsr = some (tarr 0) ∧ c.progress < c.box.count ∧ s.chunkAsks c (tarr 0) 1 = [] ∧ c.nextChunk (tarr 0) = [0] ∧
       (s.cmdBuffer c 0).isSome = true ∧ c.box.addr (tarr 0) 0 = some 0 ∧ 0 < (s.engineRead 1 0 1).2.1.length ∧ (c.block.getD 1 0).getLsbD 44 = false ∧
       sywOf c.block = 0xFFFF) ∧
    ((tcmd { tcopies 0 0 [0xFFFF00000000, 0, 0, 0] with progress := 1 }).cmd 4).box.count ≤ 1 ∧
    (let s := tcmd (tcopies 1 0 [0xFFFF00000000, 0, 0, 0])
     let c := s.cmd 4
     s.chunkAsks c (tarr 0) 1 = [] ∧ (c.nextChunk (tarr 0)).filter (fun k => (c.box.addr (tarr 0) k).isSome) = [0] ∧ c.box.addr (tarr 0) 0 = some 0 ∧ s.mayWrite c 0 = true ∧
       (∃ u, s.agentPage 1 0 = .ok (u, tpage)) ∧ (s.cmdBuffer c 0).isSome = true) := by
  exact ⟨by decide +kernel, by decide +kernel, ⟨by decide +kernel, by decide +kernel, by decide +kernel, by decide +kernel, ⟨_, by rfl⟩, by decide +kernel⟩⟩

-- a drain of 32-bit elements, of which one is in range
theorem witness_DrainEvents :
    let r : Tsr := ⟨0, 2, 0, 0, [1, 1, 1, 1, 1], [0, 0, 0, 0]⟩
    let d : Cmd := { tcopies 7 2 [0, 0, 0, 0] with tsr := some r }
    (let s := tcmd d
     (s.cmd 4).progress < (s.cmd 4).box.count ∧ s.chunkAsks (s.cmd 4) r 1 = []) ∧
    (let s := tcmd { d with operands := [(0, 5)] }
     let c := s.cmd 4
     (c.nextChunk r).filter (fun k => (c.box.addr r k).isSome) = [0] ∧ c.box.addr r 0 = some 0 ∧ s.mayWrite c 0 = true ∧
       (match s.agentPage 1 0 with | .ok _ => true | .error _ => false) = true ∧ ((c.block.getD 0 0).extractLsb' 13 2).toNat = 0) := by
  exact ⟨by decide +kernel, by decide +kernel⟩

-- a tile's clear; a load and a store of a tile with a buffer; an attention command with no keys, its end; commands of every class whose work is over
theorem witness_EngineEvents :
    (let s := tcmd { Cmd.init with asid := 1, st := .running, cls := 1, op := 4, block := [7] }
     (s.cmd 4).st = .running ∧ (s.cmd 4).progress = 0 ∧ s.teams.get? 5 ≠ none ∧ (s.group 7).exited ≠ allLanes ∧ (s.cmd 4).stores = []) ∧
    (let s := tcmd { Cmd.init with asid := 1, st := .running, cls := 1, op := 6, block := [0, 0, 0, 0] }
     (s.cmdBuffer (s.cmd 4) (((s.cmd 4).block.getD 0 0).extractLsb' 16 16 |>.setWidth 64)).isSome = true ∧ ((s.cmd 4).block.getD 1 0).extractLsb' 0 2 = 0) ∧
    (let s := tcmd { Cmd.init with asid := 1, st := .running, cls := 2, op := 0, block := [0, 0, 0, 0] }
     s.attnAsks 1 (s.cmd 4) = [] ∧ 0 + (s.cmd 4).headDim / 32 < 512 ∧ (s.cmdBuffer (s.cmd 4) 0).isSome = true) ∧
    (tcmd { Cmd.init with asid := 1, st := .running, cls := 2, op := 0, keys := [some 512] }).attnAsks 1 { Cmd.init with keys := [some 512] } ≠ [] := by
  exact ⟨by decide +kernel, by decide +kernel, by decide +kernel, by decide +kernel⟩

/-- A ballot with a post of sibling 1 at time 976, and sibling 0 cancelled. -/
def tvote : Ballot := { tballot with posts := [⟨1, 5, 976, 4⟩], sibs := [⟨2, false, false, 0, false, false, false⟩, ⟨0, false, false, 0, false, false, false⟩] }

/-- `tsib` at tick 2,000, with its one group at a run boundary and its team cancelled. -/
def tcancel (b : Ballot) : State :=
  let s := tsib { tg with runOpen := false } b
  { s with
    pkg := { s.pkg with now := 2000 }, teams := [(5, { Team.init with grid := 3, st := .resident, groups := [7], cancelled := true })], freedPages := [⟨1, 0, [4]⟩] }

-- a post exactly 1,024 ticks old; the first vote of a quorum of one; a group to stop; a cancelled sibling whose teams are all gone
theorem witness_SiblingEvents :
    (tcancel tvote).grids.get? 3 ≠ none ∧ ((tcancel tvote).grid 3).ballot = some tvote ∧ tvote.nextPost = some ⟨1, 5, 976, 4⟩ ∧ 976 + 1024 ≤ (tcancel tvote).pkg.now ∧
    (1 : Nat) < tvote.sibs.length ∧ (tvote.sib 1).posted = false ∧ tvote.outcome = 0 ∧ tvote.asked = false ∧ tballot.nextPost = none ∧
    ((tcancel tvote).cancelDue 7 = true ∧ (tcancel tvote).grp.block = .none ∧ (tcancel tvote).grp.runOpen = false) ∧
    (let s := tgrid .running
     s.sibTeams 3 0 = [] ∧ s.cmds = [] ∧ (s.pkg.duty.getLsbD 3 = false ∧ ({ s.pkg with duty := 8 } : Pkg).duty.getLsbD 3 = true ∧ (s.ctx (s.grid 3).ctx).killing = false) ∧ (tvote.sib 0).status = 2 ∧ (tvote.sib 0).asked = false) ∧
    ((tcancel tvote).freedPages.find? (fun f => f.ctx == 1 && f.page == 0) = some ⟨1, 0, [4]⟩ ∧ (∀ i ∈ [4], (tcancel tvote).cmdDone i = true) ∧ (tcancel tvote).arena 1 = none) ∧
    (let b := { tballot with outcome := 1 }
     b.outcome = 1 ∧ b.decided + 100000 ≤ 100000) := by
  decide +kernel

/-- `tcmd` with a running round command at slot 63, whose ring has one member in this package, and the rounds `rs` open. -/
def tcollective (m : Seat) (rs : List Round) : State :=
  { tcmd { Cmd.init with asid := 1, st := .running, cls := 4, op := 0, block := [0, 64, 1 + 63 * 2 ^ 42, 0] } with
    rings := [(63, { ctx := 1, seats := [(0, m)], rounds := rs })] }

/-- Die 0's place in a ring with a die of package 1; what its upstream neighbour last sent came at tick 0. -/
def tmember : Seat := Seat.of 0 20 0 [(0, 0), (1, 0)]

-- a command at the head of its engine, whose slot is set, is not, is disabled, or recovers; a round that its only member here has joined
theorem witness_CollectiveRounds :
    (let s := tcollective tmember []
     rndRing (s.cmd 4).block = 63 ∧ (s.cmd 4).cls = 4 ∧ (s.waitingRounds 63 0).head? = some 4 ∧ s.ringAt 63 1 0 = some tmember ∧ tmember.disabled = false ∧
       tmember.recovering = none ∧ s.ringHeld tmember = false ∧ s.slotOfAsid 1 = some 1 ∧ ({ s with rings := [] } : State).ringAt 63 1 0 = none ∧
       ({ tmember with disabled := true, recovering := some 1 } : Seat).disabled = true) ∧
    (let x : Round := ⟨4, 0, 0, 0⟩
     let s := tcollective tmember [x]
     (∃ r, s.rings.get? 63 = some r ∧ r.numbered 0 = [x] ∧ r.seats.get? 0 = some tmember) ∧ (∀ m ∈ tmember.members, m.1 = s.pkg.id → m.2 = 0) ∧
       tmember.members.Nodup ∧ (s.pkg.id, 0) ∈ tmember.members ∧ s.roundAsks tmember [x] = [] ∧ partOverlap (s.cmd 4).block 4 = false) ∧
    (rndType [0, 64, 1 + 63 * 2 ^ 42, 0] ≤ 1 ∧ rndOp [0, 64, 1 + 63 * 2 ^ 42, 0] = 0) ∧ (tcollective tmember []).rings.get? 0 = none ∧
    ((tcollective tmember []).seat? 63 1 = none ∧ (tcollective tmember []).seat? 63 0 = some tmember) := by
  refine ⟨by decide +kernel, ⟨⟨_, by rfl, by decide, by decide⟩, by decide +kernel, by decide +kernel, by decide +kernel, by decide +kernel, by decide +kernel⟩, by decide, by decide,
    by decide +kernel, by decide +kernel⟩

/-- Dies 0 and 1 of one ring. -/
def tpairs : State :=
  let s := tcollective (Seat.of 0 20 0 [(0, 0), (0, 1)]) [⟨4, 0, 0, 0⟩, ⟨5, 1, 0, 0⟩]
  { s with rings := [(63, { ctx := 1, seats := [(0, Seat.of 0 20 0 [(0, 0), (0, 1)]), (1, Seat.of 64 20 1 [(0, 0), (0, 1)])], rounds := [⟨4, 0, 0, 0⟩, ⟨5, 1, 0, 0⟩] })] }

-- two members here whose slots differ; a silent upstream neighbour at TMO and a tick before it, and one that waits; flits taken, late and over a link that is down;
-- probes answered, and not; the table at hand, and not
theorem witness_CollectiveEvents :
    (∃ r, tpairs.rings.get? 63 = some r ∧ r.numbered 0 = [⟨4, 0, 0, 0⟩, ⟨5, 1, 0, 0⟩] ∧ ((tpairs.seat? 63 0).map (·.gen)) ≠ ((tpairs.seat? 63 1).map (·.gen)) ∧
      tpairs.ringHeld (Seat.of 0 20 0 [(0, 0), (0, 1)]) = false ∧ r.rounds.any (fun x => x.die == 1) = true) ∧
    (let at_ := fun (k : Nat) => tmember.members.getD (k % tmember.members.length) (0, 0)
     let s := tcollective tmember [⟨4, 0, 0, 0⟩]
     (s.memberIndex tmember 0 + tmember.members.length - 1) % tmember.members.length = 1 ∧ at_ 1 = (1, 0) ∧ (s.ports.getD 0 Port.init).down = false ∧
       max (0 : Nat) tmember.heard + 1000 * tmember.tmo ≤ 20000 ∧ ¬ max (0 : Nat) tmember.heard + 1000 * tmember.tmo ≤ 19999 ∧ s.pkg.duty.getLsbD 4 = false ∧
       ({ Port.init with down := true } : Port).down = true ∧ ({ s with bankMsgs := [tmsg] } : State).agentWaits 1 1 (linesFrom tmember.addr 520) ≠ none ∧
       s.agentWaits 1 1 (linesFrom tmember.addr 520) = none) ∧
    (let m := { tmember with recovering := some 1, probing := some (2, 0), returning := some (true, 0) }
     m.probing = some (2, 0) ∧ (5000 : Nat) ≤ 0 + 5000 ∧ m.returning = some (true, 0) ∧ 0 + 2000 * m.tmo ≤ 40000 ∧ ¬ 0 + 2000 * m.tmo ≤ 39999) := by
  refine ⟨⟨_, by rfl, by decide, by decide +kernel, by decide, by decide⟩, by decide +kernel, by decide⟩

theorem witness_DecodeEncode : (Instr.sadd true 63 0 63).wf = true ∧ (Instr.sadd true 63 0 63).isEvent = false ∧ decodeWord 0x30014307 = some (.sadd false 5 6 7) := by decide

/-- The machine right after reset with a word where a step fetches. -/
def tfetch (w : Nat) : State := State.reset.withFetchWord 32 w

/-- `lid v1`, and `shli v2, v1, 2` behind it in the instruction cache (Tables 18.6, 17.16). -/
def tfused : State :=
  let s := tfetch 0x2D204000
  let va := (s.group s.fresh.pred).minPc.toNat
  s.updCore 0 fun c => { c with icache := c.icache.map fun e => (e.1, e.2.putBytes (va % 128 + 4) (leBytes 4 0x0E008082)) }

/-- The state after a slot of `tfused`'s group, if its words are fused. -/
def tfusedAfter : Option State := match tfused.wordsFor 9 tfused.fresh.pred with | .next t => some t | _ => none

theorem test_fused_words : tfused.fuseLen tfused.fresh.pred = 2 ∧ (tfusedAfter.map fun t => ((t.group tfused.fresh.pred).words, (t.group tfused.fresh.pred).readV 2 3)) =
    some ((tfused.group tfused.fresh.pred).words + 2, 12) := by decide +kernel

-- the agenda's issue slot picks the group, which stands at no breakpoint; the word of its line is the word placed
theorem witness_StepRunsDecoded :
    let s := tfetch 0x30014307
    let start := ({ s with agenda := [] } : State).advance 0
    s.agenda = ⟨0, .issue 0 0⟩ :: [] ∧ start.favoured 0 0 = none ∧ oldest (start.issuable 0 0) = some s.fresh.pred ∧
    start.gangOf s.fresh.pred = [s.fresh.pred] ∧ start.issues (start.group s.fresh.pred) = true ∧ (start.group s.fresh.pred).oz = false ∧
    start.bpHit (start.group s.fresh.pred) (start.group s.fresh.pred).minPc = false ∧
    (∃ line, (start.core 0).icache.get? (icKey 1 ((start.group s.fresh.pred).minPc.toNat / 128)) = some line ∧ line.word ((start.group s.fresh.pred).minPc.toNat % 128) = 0x30014307) ∧
    (let u := ({ start with pkg := { start.pkg with throttle := 7 } } : State).noteSlot 0 0 true
     u.throttled 0 0 = true ∧ (u.noteSlot 0 0 false).recentSlots 0 0 = [false, true]) ∧ start.pkg.throttle = 0 ∧
    ({ start with fresh := start.fresh + 1 } : State).fuseLen s.fresh.pred = 1 ∧
    Instr.clkStable.isEvent = true := by
  exact ⟨by decide +kernel, by decide +kernel, by decide +kernel, by decide +kernel, by decide +kernel, by decide +kernel, by decide +kernel, ⟨_, rfl, by decide +kernel⟩, by decide +kernel, by decide +kernel, by decide +kernel, rfl⟩

/-- `tfetch` with a second group of the team at the same address, and the cores' instruction caches as given. -/
def tgang (cached : Bool) : State :=
  let s := tfetch 0x30014307
  let s := { s with groups := s.groups ++ [(s.fresh, { s.group s.fresh.pred with num := 1, slot := some 1 })], fresh := s.fresh + 1 }
  if cached then s else s.updCore (s.group s.fresh.pred).core fun c => { c with icache := [] }

-- two groups that issue as one, and whose word waits for its line
theorem witness_Gangs :
    (let s := { tgang true with agenda := [] }
     oldest (s.issuable 0 0) ≠ none ∧ (s.gangOf (s.fresh - 2)).length = 2 ∧ s.gangWaits s.fresh (s.gangOf (s.fresh - 2)) = none) ∧
    (let s := { tgang false with agenda := [] }
     (s.gangOf (s.fresh - 2)).length = 2 ∧ (s.gangWaits s.fresh (s.gangOf (s.fresh - 2))).isSome = true) := by
  exact ⟨by decide +kernel, by decide +kernel⟩

theorem witness_MemoriesStayCanonical : State.reset.memWf = true ∧ ∃ t, step (tfetch 0x30014307) = .next t := ⟨by decide, _, rfl⟩

/-! ### Clauses on completion and on what is at hand -/

/-- A flit of this header, with a payload of zeros and its CRC. -/
def tflit (h : Nat) : List Byte :=
  let bs := leBytes 8 h ++ List.replicate 256 0
  bs ++ leBytes 8 (crc64 bs).toNat

theorem tflit_good (h : Nat) : (tflit h).length = 272 ∧ leNat ((tflit h).drop 264) = (crc64 ((tflit h).take 264)).toNat := by
  have n : (leBytes 8 h ++ List.replicate 256 (0 : Byte)).length = 264 := by
    rw [List.length_append, length_leBytes, List.length_replicate]
  refine ⟨by rw [tflit, List.length_append, n, length_leBytes], ?_⟩
  unfold tflit
  dsimp only
  rw [List.drop_left' n, List.take_left' n, leNat_leBytes]
  exact Nat.mod_eq_of_lt (BitVec.isLt _)

theorem tflit_header (h : Nat) (b : h < 2 ^ 64) : leNat ((tflit h).take 8) = h := by
  rw [tflit, List.append_assoc, List.take_left' (length_leBytes 8 h), leNat_leBytes]
  exact Nat.mod_eq_of_lt b

-- headers: a DATA flit of sequence number 4095 and channel 3; IDLE, RETRY and TIME flits; a reserved bit set; RSEQ in an IDLE flit. A short flit is bad
theorem witness_Flits :
    let field := fun (h lo len : Nat) => ((BitVec.ofNat 64 h : Quad).extractLsb' lo len).toNat
    (field 0xFFF000C000000000 52 12 = 4095 ∧ field 0xFFF000C000000000 38 2 = 3 ∧ field 0xFFF000C000000000 36 2 = 0 ∧ field 0xFFF000C000000000 0 20 = 0) ∧
    (field 0x1000000000 36 2 = 1 ∧ field 0x2000100000 36 2 = 2 ∧ field 0x2000100000 20 12 = 1 ∧ field 0x3000000000 36 2 = 3) ∧ field 1 0 20 ≠ 0 ∧
    field 0x1000100000 20 12 ≠ 0 ∧ ([] : List Byte).length ≠ 272 := by
  decide

-- HOLD just reached, and a tick short of it; the veto wait; the steps of entry and of resumption
theorem witness_PowerTimes :
    (let p := { Pkg.init with pwr := 4, auto := true, lowFor := 10000000 }
     p.pwr = 4 ∧ p.auto = true ∧ p.warn = false ∧ p.hold * 1000000 ≤ p.lowFor ∧ p.duty.getLsbD 8 = false ∧ ({ p with lowFor := 9999999 }).lowFor < p.hold * 1000000) ∧
    ({ Pkg.init with pwr := 5, back := 1 } : Pkg).back = 1 ∧ ({ Pkg.init with pwr := 3, step := 8 } : Pkg).step = 8 ∧
    (let r := { HostRing.init with enable := true, phase := .wait 0 1 }
     (r.phase = .none ∨ r.phase = .wait 0 1) ∧ 4 ≤ ((4 : Quad).extractLsb' 0 4).toNat ∧ r.state ≠ 2 ∧ (4 : Quad).getLsbD 4 = false ∧ ({ r with phase := .kill 1 }).phase ≠ .wait 0 1) ∧
    Pkg.init.hottest.getD Pkg.init.thermHi ≤ Pkg.init.thermHi := by
  decide

/-- `thost` at an entry of operation `op` that names address 0x80 and address 8 of context 1, with that launch record at 0x80. -/
def tentry (op : Byte) : State :=
  let s := thost (op :: List.replicate 7 0 ++ leBytes 8 0x80 ++ leBytes 8 8 ++ [1]) .none
  { s with mem := Memory.putBytes [] 0x80 trec }

-- what each entry accesses is at hand; the launch record is accepted; a WAIT that ends; a REGION descriptor whose page may be registered
theorem witness_AtHand :
    (∀ w ∈ (tentry 2).hostWalks, w.failed = none) ∧ (∀ e ∈ (tentry 2).launchNeeds 31 0x80, (tentry 2).agentWait e.asid e.va e.acc = none) ∧
    (taken (tentry 2) 31).gridsFull = false ∧ (taken (tentry 2) 31).launchStatus 1 trec = 0 ∧ (tentry 2).pkg.fetches = true ∧
    (∀ e ∈ needAll 1 1 [0x80], (tentry 3).agentWait e.asid e.va e.acc = none) ∧ (∀ e ∈ needAll 1 0 [0x80], (tentry 4).agentWait e.asid e.va e.acc = none) ∧
    (∀ e ∈ needAll 1 1 (linesFrom 0x80 64), (tentry 5).agentWait e.asid e.va e.acc = none) ∧ (tentry 7).ring 31 = (tentry 2).ring 31 ∧ (tentry 2).slotOfAsid 1 = some 1 ∧
    (let s := { tentry 8 with mem := Memory.putBytes [] 0x80 tdesc }
     s.regionMove 31 = none ∧ (∀ e ∈ s.regionNeeds 31 (s.entryBytes 31), s.agentWait e.asid e.va e.acc = none) ∧ s.regionLight 31 = none) := by
  repeat' apply And.intro
  all_goals decide +kernel

theorem witness_AgentBytes : ∃ r, (taken (tentry 2) 31).agentBytes 1 0x80 128 = .ok r ∧ r = trec := ⟨_, by rfl, by decide +kernel⟩

theorem witness_RegionPages : ∃ u, (taken (tentry 8) 31).regionPages 1 tdescOf.pages = some u := ⟨_, by rfl⟩

-- an answered record, and a held event of kind 0 whose queue has room
theorem witness_Records :
    (let s := { tentry 10 with host := { (tentry 10).host with posted := [⟨0, 0x80, .brown⟩] } }
     s.host.posted.find? (fun r => r.queue == 0 && r.seq == 0x80) = some ⟨0, 0x80, .brown⟩) ∧
    (let s := { tentry 1 with host := { (tentry 1).host with evqs := [(7, { Evq.init with enable := true, kinds := 1, log2 := 4 })] } }
     s.pkg.linked = true ∧ s.queueFor 0 = some 7 ∧ (s.evq 7).unread < 2 ^ (s.evq 7).log2) := by
  decide +kernel

-- a grid whose DONE_VAL's page is at hand; one that reserves after 1 ms; a move into a frame that no other leaves; a bank's words before a fill
theorem witness_Times :
    (tgrid .waiting).agentWaits 1 1 [0] = none ∧ ({ tfull with pkg := { tfull.pkg with now := 1000000 } } : State).wants 3 = true ∧ (tfull.grid 3).since + 1000000 ≤ 1000000 ∧
    ({ ts tg with migrs := [tmigr] } : State).canMigrate tmigr = true ∧ (ts tg).pkg.sync = false ∧
    (∃ b ∈ [(⟨1, 0, 0, [1], [], 3⟩ : BankAccess)], b.asid = 1 ∧ b.va / 512 = lineOf 0) := by
  decide +kernel

/-- `tl` with a copy without poison of the words at line 0's start in the core's cache. -/
def tnear : State :=
  { tl tv with cores := [(0, { Core.init with pac := [tpac], l1 := [(lineKey 1 0, { tcopy with round := none })] })] }

-- loads that hit in the core's own cache; the buffer of `witness_BufferWords`; a line to lock that is whole and not locked
theorem witness_WordsComplete :
    clear { fin := true, vr := [1], vw := [127], sn := [0], frees := freeIf true 1, hx := true, hm := hmLoadOk } tnear ∧
    (∀ l, l < 8 → (memAddr tnear.grp 0 1 l).toNat % 4 = 0 ∧ (tnear.readL1 0 1 (memAddr tnear.grp 0 1 l)).isSome = true) ∧
    (∀ x ∈ (tl { tg with s := [(2, 1)] }).lockLines 1 0 1, ∃ l, (tl { tg with s := [(2, 1)] }).line? 1 x = some l ∧ l.locked = none) ∧
    (tarena.arena 1).isSome = true ∧ tarena.freeEntry = some 2 ∧ tarena.siblingOf tarena.cur = none ∧ tarena.sliceq = [] ∧
    (∀ n ∈ tarena.grids, n.2.ballot = none) ∧ tg.acq = none ∧ tg.fence = none ∧ tg.leaves = false ∧ tg.saving = false ∧ tarena.pkg.kvTbl.getLsbD 0 = true ∧ (tarena.hEntry 1).npage = 0 ∧ (tarena.hEntry 1).pagesFor 0 ≤ 0 ∧
    ({ tpfx with insertions := [] } : State).insertions = [] ∧ (let s := { te tg with l2 := [(lineKey 1 0, { newLine tpage 0 with valid := 0xFFFF })] }
     s.agentWaits 1 1 (s.sliceNeeds 7 0 [0]) = none ∧ (s.sliceNeeds 7 0 [0]).foldl (fun t va => t.agentTouch 1 va) s = s) ∧
    (tl { tg with s := [(2, 1)] }).pageNeeds 1 0 (pagesOf 0 512) = [] := by
  refine ⟨clear_of _ _ (by decide), by decide +kernel, ?_, ?_⟩
  · intro x hx
    rw [tl_lines] at hx
    rw [List.mem_singleton.1 hx]
    exact ⟨_, by rfl, by decide⟩
  · repeat' apply And.intro
    all_goals decide +kernel

/-! ### Words written out from the encoding tables (Tables 17.3, 17.4, 17.7 to 17.13), one for each major -/

-- S, MAJOR, FUNC, LA, LB, D, A, B
theorem test_word_sra : decodeWord (1#1 ++ 0x01#5 ++ 7#3 ++ 1#1 ++ 0#1 ++ 127#7 ++ 119#7 ++ 120#7) = some (.sra true true false 127 119 120) := by decide
theorem test_word_mulh_n : decodeWord (0#1 ++ 0x02#5 ++ 2#3 ++ 0#1 ++ 1#1 ++ 1#7 ++ 2#7 ++ 3#7) = some (.mulhN false false true 1 2 3) := by decide
-- the immediate's bit 7 at [21], A = 0 for `movi`
theorem test_word_movi : decodeWord (0#1 ++ 0x03#5 ++ 7#3 ++ 0#1 ++ 1#1 ++ 9#7 ++ 0#7 ++ 0x01#7) = some (.movi false 0x81 9) := by decide
-- the rounding mode in B[1:0]
theorem test_word_frnd : decodeWord (0#1 ++ 0x04#5 ++ 7#3 ++ 1#1 ++ 0#1 ++ 4#7 ++ 5#7 ++ 3#7) = some (.frnd false true 4 5 3) := by decide
theorem test_word_hfma : decodeWord (0#1 ++ 0x05#5 ++ 3#3 ++ 0#1 ++ 1#1 ++ 1#7 ++ 2#7 ++ 3#7) = some (.hfma false false true 1 2 3) := by decide
-- pD, COND, X, LA, LB, A, B
theorem test_word_fcmp : decodeWord (0#1 ++ 0x06#5 ++ 1#3 ++ 5#3 ++ 4#3 ++ 1#1 ++ 0#1 ++ 1#1 ++ 6#7 ++ 7#7) = some (.fcmp false 5 4 true false true 6 7) := by decide
-- LA, TD, TA, D, A: to .bf16 from .s8
theorem test_word_cvt : decodeWord (0#1 ++ 0x07#5 ++ 2#3 ++ 1#1 ++ 8#4 ++ 0#4 ++ 3#7 ++ 4#7) = some (.cvt false 2 true 8 0 3 4) := by decide
theorem test_word_log2 : decodeWord (0#1 ++ 0x08#5 ++ 4#3 ++ 0#1 ++ 0#1 ++ 3#7 ++ 4#7 ++ 0#7) = some (.log2 false false 3 4) := by decide
theorem test_word_rem_s : decodeWord (0#1 ++ 0x09#5 ++ 2#3 ++ 0#1 ++ 0#1 ++ 3#7 ++ 4#7 ++ 5#7) = some (.remS false false false 3 4 5) := by decide
-- OP, PART, G, D, A, LA, T
theorem test_word_red_max : decodeWord (0#1 ++ 0x0A#5 ++ 10#4 ++ 1#1 ++ 6#3 ++ 8#7 ++ 9#7 ++ 1#1 ++ 2#3) = some (.redMax false true 6 8 9 true 2) := by decide
-- OP, X, Y, LY, LANE
theorem test_word_vtos : decodeWord (0#1 ++ 0x0B#5 ++ 0#1 ++ 4#4 ++ 63#7 ++ 119#7 ++ 1#1 ++ 15#4 ++ 0#2) = some (.vtos false 63 119 true 15) := by decide
-- bit 25, D, A, B, pC, LA
theorem test_word_sel :
    decodeWord (0#1 ++ 0x0B#5 ++ 1#1 ++ 1#7 ++ 2#7 ++ 3#7 ++ 7#3 ++ 1#1) = some (.sel false 1 2 3 7 true) := by decide
theorem test_word_smul : decodeWord (0#1 ++ 0x0C#5 ++ 7#3 ++ 0#2 ++ 63#7 ++ 1#7 ++ 2#7) = some (.smul false 63 1 2) := by decide
-- sD, sA, IMM
theorem test_word_saddi : decodeWord (0#1 ++ 0x0D#5 ++ 0#3 ++ 4#6 ++ 5#6 ++ 0x7FF#11) = some (.saddi false 4 5 0x7FF) := by decide
-- sA, sB, OFF
theorem test_word_sblt : decodeWord (0#1 ++ 0x0E#5 ++ 5#3 ++ 4#6 ++ 5#6 ++ 0x400#11) = some (.sblt false 4 5 0x400) := by decide
-- A, LA
theorem test_word_callr : decodeWord (0#1 ++ 0x0F#5 ++ 2#3 ++ 6#7 ++ 1#1 ++ 0#15) = some (.callr false 6 true) := by decide
-- DATA, OFF, LU, BASE, MOD; a quad names a multiple of 4
theorem test_word_ld_q : decodeWord (0#1 ++ 0x10#5 ++ 6#3 ++ 116#7 ++ 119#7 ++ 1#1 ++ 31#5 ++ 0#3) = some (.ldQ false 116 119 true 31) := by decide
theorem test_word_st_d : decodeWord (0#1 ++ 0x11#5 ++ 3#3 ++ 118#7 ++ 3#7 ++ 0#1 ++ 1#5 ++ 0#3) = some (.stD false 118 3 false 1) := by decide
-- OPC 8: MOD[2] = 1, RET = 1
theorem test_word_atom_cas : decodeWord (0#1 ++ 0x12#5 ++ 0#3 ++ 2#7 ++ 3#7 ++ 1#1 ++ 4#5 ++ 7#3) = some (.atomCas false 2 3 true 4 true) := by decide
-- SCOPE, sD
theorem test_word_fence : decodeWord (0#1 ++ 0x13#5 ++ 0#3 ++ 5#3 ++ 7#6 ++ 0#14) = some (.fence false 5 7) := by decide
-- SUB, X, Y, RANK
theorem test_word_bhand : decodeWord (0#1 ++ 0x14#5 ++ 2#3 ++ 3#2 ++ 9#6 ++ 0#6 ++ 11#4 ++ 0#5) = some (.bhand false 9 11) := by decide
-- U, sD, sA, sB; L, sD, N − 1
theorem test_word_lock : decodeWord (0#1 ++ 0x14#5 ++ 5#3 ++ 0#1 ++ 3#6 ++ 4#6 ++ 5#6 ++ 0#4) = some (.lock false 3 4 5) ∧
    decodeWord (0#1 ++ 0x14#5 ++ 6#3 ++ 1#1 ++ 3#6 ++ 15#4 ++ 0#12) = some (.l1cvt false 3 15) := by decide
theorem test_word_racq : decodeWord (0#1 ++ 0x15#5 ++ 2#3 ++ 3#6 ++ 4#6 ++ 0#11) = some (.racq false 3 4) := by decide
-- sP, FLAG, OUT
theorem test_word_drain : decodeWord (0#1 ++ 0x16#5 ++ 7#3 ++ 62#6 ++ 1#1 ++ 0#8 ++ 200#8) = some (.drain false 62 true 200) := by decide
-- SLOT, sA
theorem test_word_tsr_set : decodeWord (0#1 ++ 0x17#5 ++ 3#3 ++ 15#4 ++ 7#6 ++ 0#13) = some (.tsrSet false 15 7) := by decide
-- SUB, sD, sP
theorem test_word_pfx_ins : decodeWord (0#1 ++ 0x18#5 ++ 3#3 ++ 1#3 ++ 7#6 ++ 61#6 ++ 0#8) = some (.pfxIns false 7 61) := by decide
-- sP, URG, OUT
theorem test_word_rowreq : decodeWord (0#1 ++ 0x19#5 ++ 2#3 ++ 60#6 ++ 2#2 ++ 0#7 ++ 1#8) = some (.rowreq false 60 2 1) := by decide
theorem test_word_sib_stat : decodeWord (0#1 ++ 0x1A#5 ++ 3#3 ++ 9#6 ++ 0#17) = some (.sibStat false 9) := by decide
theorem test_word_coll_ring : decodeWord (0#1 ++ 0x1B#5 ++ 5#3 ++ 9#6 ++ 62#6 ++ 0#11) = some (.collRing false 9 62) := by decide
-- sD, Q
theorem test_word_qpeek : decodeWord (0#1 ++ 0x1C#5 ++ 3#3 ++ 9#6 ++ 7#3 ++ 0#14) = some (.qpeek false 9 7) := by decide
-- KIND, D, SPR; SUB alone, with S = 1
theorem test_word_sget : decodeWord (0#1 ++ 0x1D#5 ++ 1#3 ++ 1#1 ++ 63#7 ++ 0x109#10 ++ 0#5) = some (.sget false true 63 0x109) ∧
    decodeWord (1#1 ++ 0x1D#5 ++ 4#3 ++ 4#3 ++ 0#20) = some .wfi ∧ decodeWord (0#1 ++ 0x1D#5 ++ 4#3 ++ 4#3 ++ 0#20) = none := by decide
-- KIND, then reserved, OUTV, IN1V, IN0V, IN1, IN0
theorem test_word_hg : decodeWord (0#1 ++ 0x1F#5 ++ 5#4 ++ 0#3 ++ 1#1 ++ 0#1 ++ 1#1 ++ 9#8 ++ 8#8) = some (.hg true false true 9 8) ∧
    decodeWord (0#1 ++ 0x1F#5 ++ 2#4 ++ 0#1 ++ 127#7 ++ 5#7 ++ 119#7) = some (.trail false 127 5 119) := by decide

-- the reserved majors and the reserved values of each kind (R294)
theorem test_word_reserved : decodeWord 0 = none ∧ decodeWord (0#1 ++ 0x1E#5 ++ 0#26) = none ∧ decodeWord (0#1 ++ 0x05#5 ++ 6#3 ++ 0#23) = none ∧
    decodeWord (0#1 ++ 0x0A#5 ++ 12#4 ++ 0#22) = none ∧ decodeWord (0#1 ++ 0x0B#5 ++ 0#1 ++ 10#4 ++ 0#21) = none ∧ decodeWord (0#1 ++ 0x1F#5 ++ 7#4 ++ 0#22) = none ∧
    decodeWord (0#1 ++ 0x12#5 ++ 1#3 ++ 0#20 ++ 4#3) = none ∧ decodeWord (0#1 ++ 0x12#5 ++ 1#3 ++ 0#20 ++ 1#3) = none := by decide

-- the table's words: the examples that it prints
theorem test_table_words : decodeTableWord 32 0x2C010280 = some (.movV false 4 5 false) ∧ decodeTableWord 32 0x4C800000 = some (.waitc false 0 0) ∧
    decodeTableWord 32 0x70340000 = some (.qbind false 3 4) ∧ decodeTableWord 32 0x18140103 = some (.icmp false 1 2 false false false 2 3) ∧
    decodeTableWord 32 0x3C060000 = some (.jr false 6 false) ∧ decodeTableWord 32 0x1AC20000 = some (.pnot false 4 1) ∧
    decodeTableWord 32 0x648A3000 = some (.sweepDereg false 5 6) ∧ decodeTableWord 32 0x4E000000 = some (.trig false) := by decide

/-! ### Ill-formed instructions: a term that each check refuses, at the first value beyond its limit -/

theorem test_illformed_last_use : (Instr.add false true false 0 120 0).wf = false ∧ (Instr.add false true false 0 119 120).wf = true := by decide
theorem test_illformed_pair : (Instr.ldD false 1 0 false 0).wf = false := by decide
theorem test_illformed_quad : (Instr.stQ false 2 0 false 0).wf = false := by decide
theorem test_illformed_cond : (Instr.icmp false 0 6 false false false 0 0).wf = false := by decide
theorem test_illformed_type : (Instr.cvt false 0 false 9 0 0 0).wf = false ∧ (Instr.cvt false 0 false 0 9 0 0).wf = false := by decide
theorem test_illformed_class : (Instr.waitc false 5 0).wf = false := by decide
theorem test_illformed_stream : (Instr.qbind false 0 6).wf = false := by decide
theorem test_illformed_urgency : (Instr.rowreq false 1 3 0).wf = false := by decide
theorem test_illformed_rank : (Instr.bhand false 1 12).wf = false := by decide
theorem test_illformed_width : (Instr.part false 0 3).wf = false := by decide
theorem test_illformed_lane_type : (Instr.scanAdd false false 0 0 0 false 3).wf = false := by decide
theorem test_illformed_block : (Instr.mma false 63 0).wf = false ∧ (Instr.mma false 0 0).wf = false ∧ (Instr.mma false 62 0).wf = true := by decide
theorem test_illformed_trail : (Instr.trail false 127 127 127).wf = false ∧ (Instr.trail false 0 120 0).wf = false := by decide
theorem test_illformed_sget : (Instr.sget false false 0 6).wf = false ∧ (Instr.sget false true 64 0x100).wf = false ∧ (Instr.sget false true 0 0x112).wf = false := by decide
theorem test_illformed_sset : (Instr.sset false false 0 0 false).wf = false ∧ (Instr.sset false true 1 0x108 true).wf = false := by decide

/-! ### Single steps on small states; the expected values are calculated by hand from the rules named -/

/-- What holds of the next state. -/
def after (o : Host.Outcome State Fault Refusal) (f : State → Bool) : Bool :=
  match o with
  | .next t => f t
  | _ => false

/-- A group of lane 0 alone in E, with registers v1 = x and v2 = y. -/
def t2 (x y : Word) : State := ts { tg with e := 1, v := [(16, x), (32, y)], p := [(1, 0)] }

-- R315: the sum modulo 2³²; the program counter of lane 0 alone moves
theorem test_add_wraps : after (exec (.add false false false 3 1 2) (t2 0xFFFFFFFF 2)) (fun t =>
    t.grp.readV 3 0 == 1 && t.grp.pc 0 == 0x10004 && t.grp.pc 1 == 0x10000) = true := by decide +kernel
-- the destination is a source
theorem test_sub_in_place : after (exec (.sub false false false 1 2 1) (t2 1 0)) (fun t => t.grp.readV 1 0 == 0xFFFFFFFF) = true := by decide +kernel
-- a shift takes the amount modulo 32, and `sra` copies the sign
theorem test_sra_sign : after (exec (.sra false false false 3 1 2) (t2 0x80000000 33)) (fun t => t.grp.readV 3 0 == 0xC0000000) = true := by decide +kernel
-- the high half of (−1) × (−1) is 0 as signed numbers, and 0xFFFFFFFE as natural ones
theorem test_mulh_s : after (exec (.mulhS false false false 3 1 2) (t2 0xFFFFFFFF 0xFFFFFFFF)) (fun t => t.grp.readV 3 0 == 0) = true := by decide +kernel
theorem test_mulh_n : after (exec (.mulhN false false false 3 1 2) (t2 0xFFFFFFFF 0xFFFFFFFF)) (fun t => t.grp.readV 3 0 == 0xFFFFFFFE) = true := by decide +kernel
-- R209: −2³¹ by −1, and a divisor of 0
theorem test_div_overflow : after (exec (.divS false false false 3 1 2) (t2 0x80000000 0xFFFFFFFF)) (fun t =>
    t.grp.pend == [returned (.lanes 3 [(0, 0x80000000)])]) = true := by decide +kernel
-- 1.0 + 2.0 = 3.0; 1.0 + 2⁻²⁴ ties to even
theorem test_fadd : after (exec (.fadd false false false 3 1 2) (t2 0x3F800000 0x40000000)) (fun t => t.grp.readV 3 0 == 0x40400000) = true := by decide +kernel
theorem test_fadd_tie : after (exec (.fadd false false false 3 1 2) (t2 0x3F800000 0x33800000)) (fun t => t.grp.readV 3 0 == 0x3F800000) = true := by decide +kernel
-- 3.0 × 0.5 + (−1.5) is +0
theorem test_ffma_cancels : after (exec (.ffma false false false 3 1 2) (ts { tg with e := 1, v := [(16, 0x40400000), (32, 0x3F000000), (48, 0xBFC00000)] })) (fun t =>
    t.grp.readV 3 0 == 0) = true := by decide +kernel
-- a signed and an unsigned comparison of the same words
theorem test_icmp_signed : after (exec (.icmp false 1 2 false false false 1 2) (t2 0x80000000 1)) (fun t => t.grp.readP 1 0) = true := by decide +kernel
theorem test_icmp_natural : after (exec (.icmp false 1 2 true false false 1 2) (t2 0x80000000 1)) (fun t => !t.grp.readP 1 0) = true := by decide +kernel
-- s0 reads 0 and discards writes (R275)
theorem test_sadd_s0 : after (exec (.sadd false 0 1 1) (ts { tg with s := [(1, 5)] })) (fun t => t.grp.readS 0 == 0) = true := by decide +kernel
-- R298: back by one word, and the run ends
theorem test_br_back : after (exec (.br false 0xFFFFF) (ts tg)) (fun t => t.grp.pc 15 == 0xFFFC && !t.grp.runOpen) = true := by decide +kernel
-- R300: `call` leaves the address after the word in v0
theorem test_call_link : after (exec (.call false 1) (ts tg)) (fun t => t.grp.readV 0 15 == 0x10004 && t.grp.pc 0 == 0x10004) = true := by decide +kernel
-- a word whose encoding is reserved raises fault 1 in every lane of E: the lanes stand at their vector
theorem test_reserved_encoding : after (exec (.reservedEncoding 0) (ts tg)) (fun t => t.grp.pc 15 == 0x20040 && t.grp.inTrap == 0xFFFF && t.grp.epc.getD 15 0 == 0x10000) = true := by
  decide +kernel
-- a store of four bytes at the end of a line, and the load of the byte 0x80 there as signed
theorem test_store_low_byte_first : after (exec (.stW false 2 1 false 0) (tl { tg with e := 1, v := [(16, 508), (32, 0x80030201)] })) (fun t =>
    homeByte t 1 508 == some 1 && homeByte t 1 511 == some 0x80 && homeByte t 1 507 == some 0) = true := by decide +kernel
theorem test_load_signed_byte :
    let s := tl { tg with e := 1, v := [(16, 511)] }
    after (exec (.ldBs false 2 1 false 0) { s with l2 := [(lineKey 1 0, { newLine tpage 0 with valid := 0xFFFF, data := [(511, 0x80)] })] }) (fun t =>
      t.grp.pend == [returned (.lanes 2 [(0, 0xFFFFFF80)])]) = true := by decide +kernel
-- a whole step fetches, decodes and runs the word at the program counter, right after reset: s5 := s6 + s7
theorem test_step_after_reset : after (step (tfetch 0x30014307)) (fun t => (t.group (tfetch 0).fresh.pred).pc 0 == (fetchPc + 4)) = true := by decide +kernel

/-- Table 8.7: number 3, role 1, budget 40, lane 15 exited, lane 1 parked, lane 2 joined, lane 0 in a handler, WIDTH 2. -/
theorem test_saved_lanes :
    ({ Group.init with num := 3, role := 1, budget := 40, exited := 0x8000, parked := 2, joined := 4, inTrap := 1 } : Group).savedLanes =
      [0x43, 0x05, 0xFF, 0x7F, 2, 0, 4, 0, 1, 0, 0, 0, 0xAA, 0xAA, 0, 0] := by decide

end Sys2Proof.Tests
end

/-! PROOFS of the family 00_scope: a fault that every lane of a word takes, the end of a wait at a word, and with them the insertion words and events (O33);
words written out from the encoding tables (O56). -/

section
namespace Sys2Proof.Machine

open Claims

/-! ### A fault that every lane of E takes -/

/-- The group whose lane `l` has taken a delivered fault (R170). -/
def Group.trapLane (g : Group) (code : Nat) (addr : Quad) (l : Nat) : Group :=
  { g with
    epc := g.epc.set l (g.pc l)
    cause := g.cause.set l (BitVec.ofNat 64 code)
    taddr := g.taddr.set l addr
    inTrap := g.inTrap ||| laneBit l
    pcs := g.pcs.set l (g.trapBase + BitVec.ofNat 64 (0x40 * code))
    parked := g.parked &&& ~~~laneBit l
    e := g.e &&& ~~~laneBit l
    arrived := g.arrived ||| laneBit l
    fence := g.fence.map fun f => f.moved l (g.trapBase + BitVec.ofNat 64 (0x40 * code))
    owed := g.owed.del l }

theorem State.deliver_of_trapBase (s : State) (code : Nat) (addr : Quad) (l : Nat) (hb : s.grp.trapBase ≠ 0)
    (hl : s.grp.inTrap.getLsbD l = false) : s.deliver l code addr = s.setGrp (s.grp.trapLane code addr l) := by
  have h : ¬ (s.grp.inTrap.getLsbD l || s.grp.trapBase == 0) = true := by
    rw [hl, Bool.false_or, beq_iff_eq]
    exact hb
  unfold State.deliver
  exact if_neg h

/-- What a delivered fault decides of a lane: its saved program counter, cause and address, in.trap, its program counter, and whether it is parked
or in E. -/
def Group.trapView (g : Group) (l : Nat) : Quad × Quad × Quad × Bool × Quad × Bool × Bool :=
  (g.epc.getD l 0, g.cause.getD l 0, g.taddr.getD l 0, g.inTrap.getLsbD l, g.pc l, g.parked.getLsbD l, g.e.getLsbD l)

theorem getLsbD_laneBit (k l : Nat) (hl : l < 16) : (laneBit k).getLsbD l = decide (k = l) := by
  have h := getLsbD_maskOf [k] l hl
  simpa [maskOf, eq_comm] using h

theorem Group.trapView_trapLane_self (g : Group) (code : Nat) (addr : Quad) (l : Nat) (hl : l < 16) :
    (g.trapLane code addr l).trapView l =
      (g.pc l, BitVec.ofNat 64 code, addr, true, g.trapBase + BitVec.ofNat 64 (0x40 * code), false, false) := by
  simp [Group.trapView, Group.trapLane, Group.pc, getLsbD_laneBit, hl, -BitVec.getLsbD_eq_getElem]

theorem Group.trapView_trapLane_ne (g : Group) (code : Nat) (addr : Quad) (k l : Nat) (hl : l < 16) (h : k ≠ l) :
    (g.trapLane code addr k).trapView l = g.trapView l := by
  simp [Group.trapView, Group.trapLane, Group.pc, getLsbD_laneBit, hl, h, Tbl.getD_set_ne, -BitVec.getLsbD_eq_getElem]

/-- The group whose lanes `ls` have taken a delivered fault. -/
def Group.trapLanes (g : Group) (code : Nat) (addr : Quad) (ls : List Nat) : Group := ls.foldl (Group.trapLane · code addr ·) g

/-- Faults leave the registers alone. -/
theorem Group.trapLanes_registers (g : Group) (code : Nat) (addr : Quad) (ls : List Nat) :
    (g.trapLanes code addr ls).v = g.v ∧ (g.trapLanes code addr ls).s = g.s ∧ (g.trapLanes code addr ls).p = g.p := by
  unfold Group.trapLanes
  induction ls generalizing g with
  | nil => exact ⟨rfl, rfl, rfl⟩
  | cons k ls ih => exact ih (g.trapLane code addr k)

theorem Group.trapView_trapLanes_of_not_mem (g : Group) (code : Nat) (addr : Quad) (ls : List Nat) (l : Nat) (hl : l < 16) (h : l ∉ ls) :
    (g.trapLanes code addr ls).trapView l = g.trapView l := by
  unfold Group.trapLanes
  induction ls generalizing g with
  | nil => rfl
  | cons k ls ih =>
    obtain ⟨hk, hls⟩ := not_or.mp (mt List.mem_cons.mpr h)
    exact (ih _ hls).trans (g.trapView_trapLane_ne code addr k l hl (Ne.symm hk))

theorem Group.trapView_trapLanes_of_mem (g : Group) (code : Nat) (addr : Quad) (ls : List Nat) (l : Nat) (hl : l < 16) (hd : ls.Nodup)
    (h : l ∈ ls) : (g.trapLanes code addr ls).trapView l =
      (g.pc l, BitVec.ofNat 64 code, addr, true, g.trapBase + BitVec.ofNat 64 (0x40 * code), false, false) := by
  induction ls generalizing g with
  | nil => exact absurd h List.not_mem_nil
  | cons k ls ih =>
    obtain ⟨hk, hd⟩ := List.nodup_cons.mp hd
    by_cases hkl : k = l
    · subst hkl
      exact (Group.trapView_trapLanes_of_not_mem _ code addr ls k hl hk).trans (g.trapView_trapLane_self code addr k hl)
    · have hpc : (g.trapLane code addr k).pc l = g.pc l := by
        simp [Group.trapLane, Group.pc, Tbl.getD_set_ne _ _ _ hkl]
      have := ih (g.trapLane code addr k) hd ((List.mem_cons.mp h).resolve_left (Ne.symm hkl))
      rw [hpc] at this
      exact this

/-- Faults of lanes that are in no handler, in a group with a vector table, send each lane to its vector. -/
theorem State.takeFaults_setGrp (s : State) (g : Group) (code : Nat) (addr : Quad) (ls : List Nat) (hb : g.trapBase ≠ 0) (hd : ls.Nodup)
    (hls : ∀ l ∈ ls, l < 16 ∧ g.inTrap.getLsbD l = false) :
    (s.setGrp g).takeFaults (ls.map fun l => ⟨l, code, addr, false⟩) = s.setGrp (g.trapLanes code addr ls) := by
  unfold State.takeFaults
  induction ls generalizing g with
  | nil => rfl
  | cons k ls ih =>
    obtain ⟨hk, hd⟩ := List.nodup_cons.mp hd
    have h1 : (s.setGrp g).deliver k code addr = s.setGrp (g.trapLane code addr k) := by
      rw [State.deliver_of_trapBase, State.grp_setGrp, State.setGrp_setGrp]
      · rwa [State.grp_setGrp]
      · rw [State.grp_setGrp]
        exact (hls k List.mem_cons_self).2
    simp only [List.map_cons, List.foldl_cons, Bool.false_eq_true, if_false, h1]
    refine ih (g.trapLane code addr k) hb hd fun l hl => ?_
    obtain ⟨hl16, hin⟩ := hls l (List.mem_cons_of_mem _ hl)
    have hne : k ≠ l := fun h => hk (h ▸ hl)
    exact ⟨hl16, by rw [Group.trapLane, BitVec.getLsbD_or, hin, getLsbD_laneBit k l hl16, decide_eq_false hne, Bool.or_self]⟩

theorem lanesOf_nodup (m : Mask) : (lanesOf m).Nodup := List.nodup_range.filter _

/-- No lane that faults moves past the word. -/
theorem Group.advance_lanesOf_pcs (g : Group) : (g.advance (lanesOf g.e)).pcs = g.pcs := by
  have key : ∀ (ls : List Nat) (t : Tbl Quad), (∀ l ∈ ls, (lanesOf g.e).contains l = true) →
      ls.foldl (fun t l => if (lanesOf g.e).contains l then t else t.set l (g.a + 4)) t = t := by
    intro ls
    induction ls with
    | nil => intro t _; rfl
    | cons k ls ih =>
      intro t h
      rw [List.foldl_cons, if_pos (h k List.mem_cons_self)]
      exact ih t fun l hl => h l (List.mem_cons_of_mem _ hl)
  exact key _ _ fun l hl => List.contains_iff_mem.mpr hl

/-- The group at a word at which every lane of E has taken a fault (R129, R170). -/
def Group.allTrapped (g : Group) (code : Nat) (addr : Quad) : Group :=
  (g.advance (lanesOf g.e)).countWord.dropHints.trapLanes code addr (lanesOf g.e)

theorem Group.trapView_allTrapped (g : Group) (code : Nat) (addr : Quad) (l : Nat) (hl : l < 16) (he : g.e.getLsbD l = true) :
    (g.allTrapped code addr).trapView l =
      (g.pc l, BitVec.ofNat 64 code, addr, true, g.trapBase + BitVec.ofNat 64 (0x40 * code), false, false) := by
  have hpc : (g.advance (lanesOf g.e)).countWord.dropHints.pc l = g.pc l := congrArg (Tbl.getD · l 0) g.advance_lanesOf_pcs
  have h := Group.trapView_trapLanes_of_mem (g.advance (lanesOf g.e)).countWord.dropHints code addr (lanesOf g.e) l hl (lanesOf_nodup _)
    ((mem_lanesOf _ _).mpr ⟨hl, he⟩)
  rw [hpc] at h
  exact h

theorem Group.allTrapped_e (g : Group) (code : Nat) (addr : Quad) : (g.allTrapped code addr).e = 0 := by
  refine BitVec.eq_of_getLsbD_eq fun l hl => ?_
  refine Eq.trans ?_ BitVec.getLsbD_zero.symm
  cases he : g.e.getLsbD l with
  | true => exact congrArg (·.2.2.2.2.2.2) (g.trapView_allTrapped code addr l hl he)
  | false =>
    have hm : l ∉ lanesOf g.e := fun h => by simp [((mem_lanesOf _ _).mp h).2] at he
    have h := Group.trapView_trapLanes_of_not_mem (g.advance (lanesOf g.e)).countWord.dropHints code addr (lanesOf g.e) l hl hm
    exact (congrArg (·.2.2.2.2.2.2) h).trans he

/-- A run whose lanes of E are all gone ends. -/
theorem Group.onward_of_e_eq_zero (g : Group) (b : Bool) (h : g.e = 0) : g.onward b = ({ g with a := g.a + 4 } : Group).endRun :=
  if_pos (by rw [h]; exact Bool.or_true b)

/-- The end of a word that gives every lane of E one fault: no lane of E is left, so that the run ends. -/
theorem State.finish_faultAll (s : State) (w : WordInfo) (code : Nat) (addr : Quad) (hb : s.grp.trapBase ≠ 0)
    (hin : s.grp.inTrap &&& s.grp.e = 0) : s.finish w (s.grp.faultAll code addr) false =
      s.setGrp ({ s.grp.allTrapped code addr with a := (s.grp.allTrapped code addr).a + 4 } : Group).endRun := by
  have hlanes : ∀ l ∈ lanesOf s.grp.e, l < 16 ∧ s.grp.inTrap.getLsbD l = false := by
    intro l hl
    obtain ⟨hl16, hle⟩ := (mem_lanesOf _ _).mp hl
    have h := congrArg (BitVec.getLsbD · l) hin
    simp only [BitVec.getLsbD_and, hle, Bool.and_true] at h
    exact ⟨hl16, h.trans BitVec.getLsbD_zero⟩
  have hfaults : (s.grp.faultAll code addr).map (·.lane) = lanesOf s.grp.e := by
    simp [Group.faultAll, Function.comp_def]
  have htaken : (s.updGrp fun g => (g.advance (lanesOf s.grp.e)).countWord.dropHints).takeFaults (s.grp.faultAll code addr) =
      s.setGrp (s.grp.allTrapped code addr) :=
    State.takeFaults_setGrp s _ code addr (lanesOf s.grp.e) hb (lanesOf_nodup _) hlanes
  simp only [State.finish, State.meetFaults, Bool.false_eq_true, if_false, hfaults, htaken]
  have hout := s.grp.allTrapped_e code addr
  split
  · rw [State.updGrp, State.setGrp_setGrp, State.grp_setGrp]
    exact congrArg s.setGrp (Group.onward_of_e_eq_zero _ _ hout)
  · rw [State.updGrp_updGrp, State.updGrp, State.setGrp_setGrp, State.grp_setGrp]
    exact congrArg s.setGrp (Group.onward_of_e_eq_zero { s.grp.allTrapped code addr with split := true } _ hout)

/-- A clear word that gives every lane of E one fault, in a group that faults are delivered to: each lane takes it, and nothing changes but the group's
own state, in which the registers stay. -/
theorem issue_faultAll (w : WordInfo) (body : State → Did) (s : State) (code : Nat) (addr : Quad) (hc : clear w s) (hw : w.frees = [])
    (hb : body s = .did s (s.grp.faultAll code addr) false) (ht : canTrap s.grp) :
    ∃ g, issue w body s = .next (s.setGrp g) ∧ g.v = s.grp.v ∧ g.s = s.grp.s ∧ g.p = s.grp.p ∧
      ∀ l, l < 16 → s.grp.e.getLsbD l = true → delivered s (s.setGrp g) l code addr := by
  obtain ⟨hbase, hin, hfence⟩ := ht
  have hlen : (s.grp.faultAll code addr).length = (lanesOf s.grp.e).length := List.length_map _
  by_cases he : s.grp.e = 0
  · -- no lane: the word ends without a fault
    have hnone : s.grp.faultAll code addr = [] := by simp [Group.faultAll, (lanesOf_eq_nil _).mpr he]
    obtain ⟨f, hf⟩ := State.allocAll_grp s w.vw
    refine ⟨({ s.grp with freed := f } : Group).wordEnd w.fin false, ?_, by simp, by simp, by simp, fun l _ hl => ?_⟩
    · rw [issue_did w body s s false hc.1 hc.2 (hb.trans (by rw [hnone])), State.freeRegs_nil _ _ _ hw, hf, State.finish_nil, State.updGrp,
        State.setGrp_setGrp, State.grp_setGrp]
    · rw [he] at hl
      exact absurd (BitVec.getLsbD_zero.symm.trans hl) Bool.false_ne_true
  · have hnext : issue w body s = .next (s.finish w (s.grp.faultAll code addr) false) := by
      have he' : (s.grp.e != 0) = true := bne_iff_ne.mpr he
      simp only [issue, hc.1, hc.2, hb, hfence, he', hlen, Option.isSome_none, Bool.and_false, Bool.false_eq_true, if_false, beq_self_eq_true,
        Bool.and_self, if_true]
    obtain ⟨hv, hs, hp⟩ := Group.trapLanes_registers (s.grp.advance (lanesOf s.grp.e)).countWord.dropHints code addr (lanesOf s.grp.e)
    refine ⟨_, hnext.trans (congrArg _ (State.finish_faultAll s w code addr hbase hin)), hv, hs, hp, fun l hl hle => ?_⟩
    have hview := s.grp.trapView_allTrapped code addr l hl hle
    simp only [Group.trapView, Prod.mk.injEq] at hview
    obtain ⟨hepc, hcause, haddr, htrap, hpc, hpark, hout⟩ := hview
    unfold delivered trapped
    rw [State.grp_setGrp]
    exact ⟨⟨hepc, hcause, haddr, htrap, hpc, hpark⟩, hout⟩

/-! ### The end of a wait at a word -/

/-- The group that waited at a word, past it with the effect `f` on the group. -/
def Group.resumed (g : Group) (f : Group → Group) : Group := (f { g with block := .none }).wordEnd g.blockFin false

/-- A word that a group waited at completes with an effect on the group alone. -/
theorem State.resumeWord_updGrp (s : State) (gid : Nat) (f : Group → Group) :
    s.resumeWord gid (fun s => s.updGrp f) (fun _ => []) = { s with groups := s.groups.set gid ((s.group gid).resumed f) } := by
  unfold State.resumeWord State.asGroup
  simp only [State.finish_nil, State.updGrp_updGrp]
  rfl

@[simp] theorem Group.wordEnd_saving (g : Group) (f c : Bool) : (g.wordEnd f c).saving = g.saving := by
  have h := congrArg Group.saving (g.wordEnd_rest f c)
  exact h

@[simp] theorem Group.wordEnd_leaves (g : Group) (f c : Bool) : (g.wordEnd f c).leaves = g.leaves := by
  have h := congrArg Group.leaves (g.wordEnd_rest f c)
  exact h

/-- Nothing but the scalar registers can change at a write of one. -/
theorem Group.writeS_only (g : Group) (d : Nat) (x : Quad) : g.writeS d x = { g with s := (g.writeS d x).s } := by
  unfold Group.writeS
  split <;> rfl

/-- A group that is neither saved nor left behind goes on past its word. -/
theorem State.stopNext_of_stays (s : State) (gid : Nat) (hs : (s.group gid).saving = false) (hl : (s.group gid).leaves = false) :
    s.stopNext gid = s := by
  simp [State.stopNext, hs, hl]

/-- A slice's value, to a group that goes on: it is written, and the group moves past its word; the rest of the machine is as the slice left it. -/
theorem State.answerSlice_val (s u : State) (gid d : Nat) (v : Quad) (hs : (u.group gid).saving = false) (hl : (u.group gid).leaves = false) :
    s.answerSlice gid d (.val u v) = { u with groups := u.groups.set gid ((u.group gid).resumed (·.writeS d v)) } := by
  unfold State.answerSlice
  simp only [State.resumeWord_updGrp]
  have hg : ({ u with groups := u.groups.set gid ((u.group gid).resumed (·.writeS d v)) } : State).group gid =
      (u.group gid).resumed (·.writeS d v) := Tbl.getD_set_self ..
  refine State.stopNext_of_stays _ gid ?_ ?_ <;> rw [hg, Group.resumed]
  · rw [Group.wordEnd_saving, Group.writeS_only]; exact hs
  · rw [Group.wordEnd_leaves, Group.writeS_only]; exact hl

/-- Neither the mark of a wait nor the scalar registers bear on where a group stands after its word. -/
theorem Group.wordEnd_past_scalars (g : Group) (f : Bool) (b : Block) (x : Tbl Quad) :
    past f g (({ g with block := b, s := x } : Group).wordEnd f false) :=
  past_congr f g { g with block := b, s := x } _ rfl rfl rfl rfl rfl rfl rfl rfl (Group.wordEnd_past _ f)

/-- The group that a slice's value has gone to stands past its word. -/
theorem Group.resumed_writeS_past (g : Group) (d : Nat) (v : Quad) : past g.blockFin g (g.resumed (·.writeS d v)) := by
  have h := g.wordEnd_past_scalars g.blockFin .none (({ g with block := .none } : Group).writeS d v).s
  simp only [Group.resumed]
  rw [Group.writeS_only]
  exact h

theorem Group.resumed_writeS_readS (g : Group) (d : Nat) (v : Quad) (r : Nat) :
    (g.resumed (·.writeS d v)).readS r = if r = d ∧ d ≠ 0 then v else g.readS r := by
  simp only [Group.resumed]
  rw [Group.wordEnd_readS, Group.readS_writeS]
  by_cases h : r = d
  · subst h; simp only [true_and]; rfl
  · rw [if_neg fun hc => h hc.1.symm, if_neg fun hc => h hc.1]; rfl

end Sys2Proof.Machine
end

section
namespace Sys2Proof.Machine

open Claims

/-! ### The decision of an insertion -/

/-- An insertion writes one entry of the table of prefixes, and counts itself. -/
theorem State.pfxInsert_frame (s u : State) (tn key : Nat) (h : Quad) (hu : s.pfxInsert tn key h = some u) :
    ∃ m n, u = { s with mem := m, pfxStat := n } := by
  obtain ⟨k, -, rfl⟩ := Option.map_eq_some_iff.mp hu
  exact ⟨_, _, rfl⟩

theorem State.pfxInsert_isSome_iff (s : State) (tn key : Nat) (h : Quad) :
    (s.pfxInsert tn key h).isSome = true ↔ ∃ k, k < 8 ∧ s.pfxVacant (s.pfxAddr (s.pfxSet key tn) k) = true := by
  simp only [State.pfxInsert, Option.isSome_map, List.find?_isSome, List.mem_range]

/-- An absent key takes the handle where a slot of its set is vacant. -/
theorem State.pfxDecide_of_vacant (s : State) (i : Insertion) (tn : Nat) (ht : s.tenantOf (s.group i.gid) = tn)
    (ha : s.pfxLookup tn i.key = none) (hv : ∃ k, k < 8 ∧ s.pfxVacant (s.pfxAddr (s.pfxSet i.key tn) k) = true) :
    ∃ m n, s.pfxDecide i = .val { s with mem := m, pfxStat := n } i.h := by
  obtain ⟨u, hu⟩ := Option.isSome_iff_exists.mp ((s.pfxInsert_isSome_iff tn i.key i.h).mpr hv)
  obtain ⟨m, n, rfl⟩ := s.pfxInsert_frame u _ _ _ hu
  exact ⟨m, n, by simp only [State.pfxDecide, ht, ha, hu]⟩

/-- An absent key of a full set answers 0. -/
theorem State.pfxDecide_of_full (s : State) (i : Insertion) (tn : Nat) (ht : s.tenantOf (s.group i.gid) = tn)
    (ha : s.pfxLookup tn i.key = none) (hf : ∀ k, k < 8 → s.pfxVacant (s.pfxAddr (s.pfxSet i.key tn) k) = false) :
    s.pfxDecide i = .val s 0 := by
  have hnone : s.pfxInsert tn i.key i.h = none := by
    rw [← Option.not_isSome_iff_eq_none, State.pfxInsert_isSome_iff]
    rintro ⟨k, hk, hvac⟩
    exact Bool.false_ne_true ((hf k hk).symm.trans hvac)
  simp only [State.pfxDecide, ht, ha, hnone]

/-- The insertion that waits alone at a slice is its next one. -/
theorem State.nextInsertion_single (s : State) (i : Insertion) (h : s.insertions = [i]) : s.nextInsertion i.die = some i := by
  simp [State.nextInsertion, h]

/-- The end of a walker's operation touches its host walks alone. -/
theorem State.clearFails_frame (s : State) (asid : Nat) (vas : List Quad) :
    ∃ ws, vas.foldl (fun t va => t.clearFail asid va) s = { s with hostWalks := ws } := by
  induction vas generalizing s with
  | nil => exact ⟨s.hostWalks, rfl⟩
  | cons va vas ih => exact ih (s.clearFail asid va)

/-- The slice is ready for the insertion of the issuing group, alone at it, of an absent key: it asks no host, its time has come, and what it touches is at
hand, in lines that their homes hold whole. -/
structure State.decides (s : State) (i : Insertion) : Prop where
  alone : s.insertions = [i]
  notAsked : i.asked = false
  due : i.stamp.1 + 1024 ≤ s.pkg.now
  ofHost : s.pkg.duty.getLsbD 7 = false
  mine : i.gid = s.cur
  absent : s.pfxLookup (s.tenantOf s.grp) i.key = none
  atHand : s.agentWaits (s.ctx (s.ctxOf s.grp)).asid 1 (s.insertNeeds s.cur i.h 0) = none
  whole : (s.insertNeeds s.cur i.h 0).foldl (fun t va => t.agentTouch (s.ctx (s.ctxOf s.grp)).asid va) s = s

theorem exec_pfxInsertDecide (die : Nat) (s : State) : exec (.pfxInsertDecide die) s = execPfxInsertDecide die s := rfl

/-- An insertion is not decided before its time plus 1,024 (R233). -/
theorem exec_pfxInsertDecide_early (s : State) (i : Insertion) (h : s.insertions = [i]) (he : s.pkg.now < i.stamp.1 + 1024) :
    exec (.pfxInsertDecide i.die) s = .next s := by
  simp [exec_pfxInsertDecide, execPfxInsertDecide, s.nextInsertion_single i h, he]

/-- A slice that is ready decides the insertion. -/
theorem exec_pfxInsertDecide_ready (s : State) (i : Insertion) (h : s.decides i) :
    exec (.pfxInsertDecide i.die) s = .next ((s.insertNeeds s.cur i.h 0).foldl (fun t va => t.clearFail (s.ctx (s.ctxOf s.grp)).asid va)
      (s.settleInsertion i fun t => t.pfxDecide i)) := by
  obtain ⟨halone, hasked, hdue, hhost, hmine, habsent, hhand, hwhole⟩ := h
  have hgrp : s.group s.cur = s.grp := rfl
  have hlate : ¬ s.pkg.now < i.stamp.1 + 1024 := Nat.not_lt.mpr hdue
  simp only [exec_pfxInsertDecide, execPfxInsertDecide, s.nextInsertion_single i halone, hasked, hlate, hhost, hmine, hgrp, habsent,
    State.asAgent, State.asWalker, Option.getD_none, hhand, hwhole, decide_false, Bool.or_self, Bool.false_and, Bool.false_eq_true, if_false]

/-- The machine with no insertion under way. -/
def State.noInsertion (s : State) : State := { s with insertions := [] }

theorem State.settleInsertion_alone (s : State) (i : Insertion) (a : State → Answer) (h : s.insertions = [i]) :
    s.settleInsertion i a = s.noInsertion.answerSlice i.gid i.d (a s.noInsertion) := by
  simp [State.settleInsertion, State.noInsertion, h]

/-- A ready slice whose decision is a value, in a memory `m`: the group, if it goes on, takes the value and stands past its word, and the memory is `m`. -/
theorem exec_pfxInsertDecide_val (s : State) (i : Insertion) (m : Memory) (n : Word × Word) (v : Quad) (h : s.decides i)
    (hs : s.grp.saving = false) (hl : s.grp.leaves = false)
    (hv : s.noInsertion.pfxDecide i = .val { s.noInsertion with mem := m, pfxStat := n } v) :
    ∃ t, exec (.pfxInsertDecide i.die) s = .next t ∧ t.insertions = [] ∧ t.mem = m ∧ past s.grp.blockFin s.grp t.grp ∧
      ∀ r, t.grp.readS r = if r = i.d ∧ i.d ≠ 0 then v else s.grp.readS r := by
  have hsettled : s.settleInsertion i (fun t => t.pfxDecide i) =
      ({ s.noInsertion with mem := m, pfxStat := n } : State).setGrp (s.grp.resumed (·.writeS i.d v)) := by
    rw [State.settleInsertion_alone s i _ h.alone, hv, h.mine]
    exact State.answerSlice_val _ _ _ _ _ hs hl
  obtain ⟨ws, hws⟩ := State.clearFails_frame (s.settleInsertion i fun t => t.pfxDecide i) (s.ctx (s.ctxOf s.grp)).asid
    (s.insertNeeds s.cur i.h 0)
  have hgrp : ∀ u : State, ({ u.setGrp (s.grp.resumed (·.writeS i.d v)) with hostWalks := ws } : State).grp =
      s.grp.resumed (·.writeS i.d v) := fun u => u.grp_setGrp _
  refine ⟨_, (exec_pfxInsertDecide_ready s i h).trans (congrArg _ hws), ?_⟩
  rw [hsettled, hgrp]
  exact ⟨rfl, rfl, s.grp.resumed_writeS_past i.d v, s.grp.resumed_writeS_readS i.d v⟩

/-! ### The issue of an insertion -/

theorem exec_pfxIns (fin : Bool) (d p : BitVec 6) (s : State) : exec (.pfxIns fin d p) s = execPfxIns fin d p s := rfl

/-- Where a word is issued, its own part counts at the issuing state alone. -/
theorem issue_congr (w : WordInfo) (body body' : State → Did) (s : State) (h : body s = body' s) : issue w body s = issue w body' s := by
  simp only [issue, h]

/-- A clear word whose own part stalls leaves the state that its own part brought about. -/
theorem issue_of_stall (w : WordInfo) (body : State → Did) (s t : State) (hc : clear w s) (hb : body s = .stall t) : issue w body s = .next t := by
  simp only [issue, hc.1, hc.2, hb, Bool.false_eq_true, if_false]

/-- What `pfx.ins` needs of the scheduler (R371). -/
def pfxInsInfo (fin : Bool) (d p : BitVec 6) : WordInfo := { fin, sn := d.toNat :: blockRegs p 3, oz := false, waits := true }

/-- A handle that fails its check faults at issue (R371). -/
theorem exec_pfxIns_badHandle (fin : Bool) (d p : BitVec 6) (s : State)
    (hh : s.handleOk (s.tenantOf s.grp) (s.grp.readS (p.toNat + 2)) = false) :
    exec (.pfxIns fin d p) s = issue (pfxInsInfo fin d p) (fun s => .did s (s.grp.faultAll fHandle 0) false) s := by
  rw [exec_pfxIns, execPfxIns]
  refine issue_congr _ _ _ s ?_
  exact if_pos (congrArg (!·) hh)

/-- With no table of prefixes, `pfx.ins` of a good handle is a scalar word of value 0 (R371). -/
theorem exec_pfxIns_noTable (fin : Bool) (d p : BitVec 6) (s : State)
    (hh : s.handleOk (s.tenantOf s.grp) (s.grp.readS (p.toNat + 2)) = true) (ht : s.pkg.pfxTbl.getLsbD 0 = false) :
    exec (.pfxIns fin d p) s = scalarWord (pfxInsInfo fin d p) d (fun _ => 0) s := by
  have hgood : ¬ (!s.handleOk (s.tenantOf s.grp) (s.grp.readS (p.toNat + 2))) = true := by simp [hh]
  rw [exec_pfxIns, execPfxIns, scalarWord, issueOk]
  refine issue_congr _ _ _ s ?_
  exact (if_neg hgood).trans (if_pos (congrArg (!·) ht))

/-- With a table of prefixes, the insertion of a good handle goes to the slice of its key with the partition's stamp, and the group waits at the word (R233,
R371). -/
theorem exec_pfxIns_queues (fin : Bool) (d p : BitVec 6) (s : State) (hc : clear (pfxInsInfo fin d p) s)
    (hh : s.handleOk (s.tenantOf s.grp) (s.grp.readS (p.toNat + 2)) = true) (ht : s.pkg.pfxTbl.getLsbD 0 = true) :
    let b := blockOf s.grp p 3
    let src := s.groupSource s.grp
    let i : Insertion := ⟨s.cur, d.toNat, pfxKey b, s.grp.readS (p.toNat + 2), (s.stampTime src, src), s.pfxSet (pfxKey b) (s.tenantOf s.grp) % 24, false⟩
    exec (.pfxIns fin d p) s = .next ({ s.stamp src with insertions := s.insertions ++ [i] }.setGrp
      { s.grp with block := .slice 6 d.toNat b, blockFin := fin }) := by
  intro b src i
  have hgood : ¬ (!s.handleOk (s.tenantOf s.grp) (s.grp.readS (p.toNat + 2))) = true := by simp [hh]
  have htable : ¬ (!s.pkg.pfxTbl.getLsbD 0) = true := by rw [ht]; exact Bool.false_ne_true
  rw [exec_pfxIns, execPfxIns]
  exact issue_of_stall _ _ s _ hc ((if_neg hgood).trans (if_neg htable))

/-- Settles O33: the three fates of `pfx.ins` at issue, and the slice's decision, by whether a slot of the key's set is vacant. -/
theorem prefixInsertion : Obligations.PrefixInsertion := by
  intro fin d p s _ g block w h key tn src die hc
  refine ⟨fun hh ht => ?_, fun hh ht => ?_, fun hh ht => exec_pfxIns_queues fin d p s hc hh ht, fun i hi hdie hasked => ⟨fun he => ?_, ?_⟩⟩
  · obtain ⟨k, hk, -, -, -, hd⟩ := issue_faultAll _ (fun s => .did s (s.grp.faultAll fHandle 0) false) s fHandle 0 hc rfl rfl ht
    exact ⟨s.setGrp k, (exec_pfxIns_badHandle fin d p s hh).trans hk, rfl, hd⟩
  · exact scalarWord_result _ w d _ s (exec_pfxIns_noTable fin d p s hh ht)
  · rw [← hdie]
    exact exec_pfxInsertDecide_early s i hi he
  · intro hdue hhost hmine habsent hhand hwhole hl hs
    have hready : s.decides i := ⟨hi, hasked, hdue, hhost, hmine, habsent, hhand, hwhole⟩
    have htn : s.noInsertion.tenantOf (s.noInsertion.group i.gid) = tn := congrArg (fun n => s.tenantOf (s.group n)) hmine
    by_cases hvac : ∃ k, k < 8 ∧ s.pfxVacant (s.pfxAddr (s.pfxSet i.key tn) k) = true
    · obtain ⟨m, n, hv⟩ := s.noInsertion.pfxDecide_of_vacant i tn htn habsent hvac
      obtain ⟨t, hnext, hnone, -, hpast, hregs⟩ := exec_pfxInsertDecide_val s i m n i.h hready hs hl hv
      refine ⟨t, hdie ▸ hnext, hnone, hpast, fun _ => hregs, fun hfull => ?_⟩
      obtain ⟨k, hk, hk'⟩ := hvac
      exact absurd ((hfull k hk).symm.trans hk') Bool.false_ne_true
    · have hfull : ∀ k, k < 8 → s.pfxVacant (s.pfxAddr (s.pfxSet i.key tn) k) = false := fun k hk =>
        Bool.eq_false_iff.mpr fun h => hvac ⟨k, hk, h⟩
      have hv := s.noInsertion.pfxDecide_of_full i tn htn habsent hfull
      obtain ⟨t, hnext, hnone, hmem, hpast, hregs⟩ := exec_pfxInsertDecide_val s i s.mem s.pfxStat 0 hready hs hl hv
      exact ⟨t, hdie ▸ hnext, hnone, hpast, fun h => absurd h hvac, fun _ => ⟨hmem, hregs⟩⟩

end Sys2Proof.Machine
end

section
namespace Sys2Proof

/-! ### Words of the encoding tables -/

/-- A word whose row of the opcode map gives an instruction within the limits on its fields is that instruction. -/
theorem decodeWord_of_layout {w : Word} {i : Instr} (h : layout w = some i) (hi : i.wf = true) : decodeWord w = some i := by
  rw [decodeWord, h, Option.filter_some, if_pos hi]

/-- A word that no row of the opcode map fits is no instruction. -/
theorem decodeWord_of_no_row {w : Word} (h : layout w = none) : decodeWord w = none := by
  rw [decodeWord, h, Option.filter_none]

/-- Settles O56: a row of the opcode map fits each of the seven words and gives its instruction, and no row fits the last two. -/
theorem decodedWords : Obligations.DecodedWords := by
  unfold Obligations.DecodedWords
  refine ⟨decodeWord_of_layout ?_ ?_, decodeWord_of_layout ?_ ?_, decodeWord_of_layout ?_ ?_, decodeWord_of_layout ?_ ?_,
    decodeWord_of_layout ?_ ?_, decodeWord_of_layout ?_ ?_, decodeWord_of_layout ?_ ?_, decodeWord_of_no_row ?_, decodeWord_of_no_row ?_⟩ <;>
    decide

end Sys2Proof
end
